-- ==== Sys2Proof/Word.lean ====
section
/-! DEFINITION. The sixteen-bit word of the register window, and the index types of the sixteen lines and the four sensors. -/

namespace Sys2Proof

/-- One word of the register window (R163, R174). -/
abbrev Word := BitVec 16

/-- An output line Q0..Q15 (00_scope, Conventions). -/
abbrev LineNo := Fin 16

/-- A sensor S0..S3 (00_scope, Conventions). -/
abbrev SensorNo := Fin 4

end Sys2Proof
end

