-- ==== Sys2Proof/Config.lean ====
section
/-! DEFINITION. The figures the part fixes (00_scope, Numbers at a glance). The spec leaves no result value undefined, so there is no free value here. -/

namespace Sys2Proof.Config

/-- Cam table capacity (R4). -/
@[simp] def tableCapacity : Nat := 192
/-- Slots of the lookahead window (R41). -/
@[simp] def windowSlots : Nat := 8
/-- Places of the revision queue (R103). -/
@[simp] def revisionPlaces : Nat := 16
/-- Records of the capture queue (R84). -/
@[simp] def capturePlaces : Nat := 16
/-- Top of the sixteen-bit counts, which saturate (R60, R77). -/
@[simp] def count16Max : Nat := 65535
/-- Top of the capture overflow count (R87). -/
@[simp] def overflowMax : Nat := 255
/-- Top of a fault's repeat count (R149). -/
@[simp] def repeatMax : Nat := 255
/-- Top of the extra count (R89). -/
@[simp] def extraMax : Nat := 15
/-- Top of the bad run (R138). -/
@[simp] def badRunMax : Nat := 15
/-- Top of the good run (R138). -/
@[simp] def goodRunMax : Nat := 31
/-- Top of the published speed, counts per millisecond (R28). -/
@[simp] def speedMax : Nat := 4095
/-- Largest stored lead time in microseconds (R69, R173). -/
@[simp] def leadTimeMax : Nat := 20000
/-- Length of the speed window in microseconds (R28). -/
@[simp] def speedWindowMicros : Nat := 1000
/-- Ends of the mechanical counter (R32). -/
@[simp] def mechMin : Int := -131072
@[simp] def mechMax : Int := 131071
/-- Ends of the published last slip and last deviation (R34, R91). -/
@[simp] def int16Min : Int := -32768
@[simp] def int16Max : Int := 32767
/-- Smallest L that START takes (R125, check 1). -/
@[simp] def revLengthMin : Nat := 64
/-- Range of Z that START takes (R125, check 2). -/
@[simp] def guardMin : Nat := 8
@[simp] def guardMax : Nat := 4095
/-- Range of the time-base divider (R30). -/
@[simp] def dividerMin : Nat := 10
@[simp] def dividerMax : Nat := 50
/-- IDENT and SILICON_REV (R181). -/
@[simp] def ident : Word := 0x5C16
@[simp] def siliconRev : Word := 0x0002
/-- The longest an application of `n` revisions takes, in microseconds from its begin event (R108). -/
@[simp] def applicationBound (n : Nat) : Nat := 50 + 6 * n

end Sys2Proof.Config
end

