-- ==== Sys2Proof/Syntax.lean ====
section
/-! DEFINITION. The commands of the block: one constructor for each row of the opcode table, with the data a row takes from outside. -/

namespace Sys2Proof

/-- The two strobe registers COMMAND_A and COMMAND_B (R167). -/
inductive StrobeReg where
  | a
  | b
  deriving DecidableEq, Repr

/-- The direction of a change of a sensor pin (R80). -/
inductive Edge where
  | rising
  | falling
  deriving DecidableEq, Repr

/-- The input levels that a reset takes afresh: ENC_A and ENC_B (R17) and ENABLE (R75); `true` is high. -/
structure Pins where
  encA : Bool
  encB : Bool
  enable : Bool
  deriving DecidableEq, Repr

/-- The frozen words that have no row of their own (R172, register map of 9.5). -/
inductive FrozenWord where
  | revLength
  | guardZone
  | maxCorr
  | backlash
  | overspeed
  | indexPos
  | slipCfg
  | regCfg
  | winOpen
  | markNominal
  | winClose
  | ladderCfg
  | sensorCfg
  | leadTime (line : LineNo)
  | protectedLines
  | criticalLines
  deriving DecidableEq, Repr

/-- The seventeen commands given by a strobe write (R168). -/
inductive Command where
  | start
  | stop
  | haltNow
  | clearHalt
  | softReset
  | ackFault
  | popCapture
  | applyManual
  | clearCounters
  | submitInsert
  | submitRemove
  | submitModify
  | commit
  | discardOpen
  | readEntry
  | clearTable
  | raiseLock
  deriving DecidableEq, Repr

/-- What a strobe write is decoded to (R167). -/
inductive Strobe where
  | nothing
  | command (c : Command)
  | noSingleCommand
  deriving DecidableEq, Repr

/-- What a write to one word address reaches (R164, register map of 9.5). -/
inductive WriteTarget where
  | discarded
  | strobe (r : StrobeReg)
  | frozen (w : FrozenWord)
  | encoderCfg
  | timebaseDiv
  | acqCfg
  | safeLevels
  | intFlags
  | intEnable
  | stickyStatus
  | commandArg
  | manualLevels
  | relockCfg
  | stagingPosition
  | stagingControl
  | stagingWidth
  | stagingTag
  deriving DecidableEq, Repr

/-- The commands of the block, one for each row of the opcode table, in the table's order. -/
inductive Instr where
  /-- FORWARD_COUNT (R23). -/
  | forwardCount
  /-- BACKWARD_COUNT (R24). -/
  | backwardCount
  /-- INVALID_TRANSITION (R19). -/
  | invalidTransition
  /-- REVOLUTION_BOUNDARY (R26). -/
  | revolutionBoundary
  /-- ACQUIRE_TIMEOUT (R35). -/
  | acquireTimeout
  /-- INDEX_ARRIVAL (R31). -/
  | indexArrival
  /-- SPEED_WINDOW_EXPIRY (R28). -/
  | speedWindowExpiry
  /-- SENSOR_EDGE (R81). -/
  | sensorEdge (sensor : SensorNo) (edge : Edge)
  /-- INTERLOCK_OPENING (R75). -/
  | interlockOpening
  /-- INTERLOCK_CLOSING (R76). -/
  | interlockClosing
  /-- PULSE_EXPIRY (R65). -/
  | pulseExpiry (line : LineNo)
  /-- FETCH_COMPLETION (R46). -/
  | fetchCompletion
  /-- READBACK_COMPLETION (R12). -/
  | readbackCompletion
  /-- APPLICATION_COMPLETION (R111). -/
  | applicationCompletion
  /-- POWER_ON (R144), with the input levels when it completes. -/
  | powerOn (pins : Pins)
  /-- RESET_PIN (R39), the release of the pin, with the input levels then. -/
  | resetPin (pins : Pins)
  /-- START (R125). -/
  | start
  /-- STOP (R131). -/
  | stop
  /-- HALT_NOW (R133). -/
  | haltNow
  /-- CLEAR_HALT (R136). -/
  | clearHalt
  /-- SOFT_RESET (R137). -/
  | softReset
  /-- ACK_FAULT (R155). -/
  | ackFault
  /-- POP_CAPTURE (R85). -/
  | popCapture
  /-- APPLY_MANUAL (R73). -/
  | applyManual
  /-- CLEAR_COUNTERS (R171). -/
  | clearCounters
  /-- SUBMIT_INSERT (R101). -/
  | submitInsert
  /-- SUBMIT_REMOVE (R101). -/
  | submitRemove
  /-- SUBMIT_MODIFY (R101). -/
  | submitModify
  /-- COMMIT (R104). -/
  | commit
  /-- DISCARD_OPEN (R105). -/
  | discardOpen
  /-- READ_ENTRY (R11). -/
  | readEntry
  /-- CLEAR_TABLE (R14). -/
  | clearTable
  /-- RAISE_LOCK (R119). -/
  | raiseLock
  /-- INVALID_COMMAND_WRITE (R167): a strobe write that names no single command. -/
  | invalidCommandWrite (reg : StrobeReg) (data : Word)
  /-- INT_FLAGS_WRITE (R158). -/
  | intFlagsWrite (data : Word)
  /-- INT_ENABLE_WRITE (R159). -/
  | intEnableWrite (data : Word)
  /-- STICKY_STATUS_WRITE (R162). -/
  | stickyStatusWrite (data : Word)
  /-- FROZEN_WORD_WRITE (R172). -/
  | frozenWordWrite (word : FrozenWord) (data : Word)
  /-- ENCODER_CFG_WRITE (R17). -/
  | encoderCfgWrite (data : Word)
  /-- TIMEBASE_DIV_WRITE (R30). -/
  | timebaseDivWrite (data : Word)
  /-- ACQ_CFG_WRITE (R120). -/
  | acqCfgWrite (data : Word)
  /-- SAFE_LEVELS_WRITE (R76). -/
  | safeLevelsWrite (data : Word)
  /-- REGISTER_WRITE (R164): a write to a register with no row of its own. -/
  | registerWrite (addr : BitVec 7) (data : Word)
  /-- POSITION_READ (R165). -/
  | positionRead
  /-- COMMIT_RESULT_READ (R113). -/
  | commitResultRead
  /-- FAULT_CAUSE_READ (R154). -/
  | faultCauseRead
  /-- RESET_PIN_HELD (R78): the RESET pin is asserted. -/
  | resetPinHeld
  deriving DecidableEq, Repr

end Sys2Proof
end

