-- ==== Sys2Proof/Decode.lean ====
section
/-! DEFINITION. What the bits of a bus write spell: the strobe decoding of R167 and the address decoding of R164. The opcode table gives no row bits, so no word spells a command. -/

namespace Sys2Proof

/-- The places of COMMAND_A and COMMAND_B that name commands (R167, second table). -/
def commandAt (r : StrobeReg) (bit : Nat) : Option Command :=
  match r, bit with
  | .a, 0 => some .start
  | .a, 1 => some .stop
  | .a, 2 => some .haltNow
  | .a, 3 => some .clearHalt
  | .a, 4 => some .softReset
  | .a, 5 => some .ackFault
  | .a, 6 => some .popCapture
  | .a, 7 => some .applyManual
  | .a, 8 => some .clearCounters
  | .b, 0 => some .submitInsert
  | .b, 1 => some .submitRemove
  | .b, 2 => some .submitModify
  | .b, 3 => some .commit
  | .b, 4 => some .discardOpen
  | .b, 5 => some .readEntry
  | .b, 6 => some .clearTable
  | .b, 7 => some .raiseLock
  | _, _ => none

/-- The places of the bits set in a word, lowest first. -/
def bitsSet (v : Word) : List Nat := (List.range 16).filter (fun i => v.getLsbD i)

/-- R167, first table: a strobe write is decoded by the number of bits set in its data. -/
def strobeDecode (r : StrobeReg) (v : Word) : Strobe :=
  match bitsSet v with
  | [] => .nothing
  | [bit] =>
    match commandAt r bit with
    | some c => .command c
    | none => .noSingleCommand
  | _ => .noSingleCommand

/-- R164 and the register map of 9.5: what a write to a word address reaches. An address not listed, and a
read-only word, discards the write. -/
def writeTarget (addr : BitVec 7) : WriteTarget :=
  let a := addr.toNat
  if 0x20 ≤ a ∧ a ≤ 0x2F then .frozen (.leadTime (Fin.ofNat 16 (a - 0x20)))
  else match a with
    | 0x03 => .strobe .a
    | 0x04 => .strobe .b
    | 0x05 => .commandArg
    | 0x07 => .intFlags
    | 0x08 => .intEnable
    | 0x09 => .stickyStatus
    | 0x10 => .frozen .revLength
    | 0x11 => .frozen .guardZone
    | 0x12 => .frozen .maxCorr
    | 0x13 => .frozen .backlash
    | 0x14 => .frozen .overspeed
    | 0x15 => .frozen .indexPos
    | 0x16 => .frozen .slipCfg
    | 0x17 => .encoderCfg
    | 0x18 => .timebaseDiv
    | 0x19 => .acqCfg
    | 0x1A => .frozen .regCfg
    | 0x1B => .frozen .winOpen
    | 0x1C => .frozen .markNominal
    | 0x1D => .frozen .winClose
    | 0x1E => .frozen .ladderCfg
    | 0x1F => .frozen .sensorCfg
    | 0x30 => .safeLevels
    | 0x31 => .frozen .protectedLines
    | 0x32 => .frozen .criticalLines
    | 0x33 => .manualLevels
    | 0x36 => .relockCfg
    | 0x40 => .stagingPosition
    | 0x41 => .stagingControl
    | 0x42 => .stagingWidth
    | 0x43 => .stagingTag
    | _ => .discarded

/-- Whether a write target is the matter of REGISTER_WRITE: no other row of the table is that write. -/
def WriteTarget.hasNoRow : WriteTarget → Bool
  | .discarded | .commandArg | .manualLevels | .relockCfg
  | .stagingPosition | .stagingControl | .stagingWidth | .stagingTag => true
  | _ => false

/-- The command a word spells by the bits of the opcode table: no row gives bits, so no word spells one. -/
def decodeTableWord (_nbits _w : Nat) : Option Instr := none

end Sys2Proof
end

