-- ==== Sys2Proof/WellFormed.lean ====
section
/-! DEFINITION. Which commands are the row they are written as. The operand types hold every range; two rows say more than a range. -/

namespace Sys2Proof

/-- INVALID_COMMAND_WRITE is a strobe write that names no single command (R167); REGISTER_WRITE is a write to a
register with no row of its own (R164). Every other command is well-formed. -/
def Instr.wellFormed : Instr → Bool
  | .invalidCommandWrite r v => strobeDecode r v ∈ [Strobe.nothing, Strobe.noSingleCommand]
  | .registerWrite a _ => (writeTarget a).hasNoRow
  | .forwardCount | .backwardCount | .invalidTransition | .revolutionBoundary | .acquireTimeout
  | .indexArrival | .speedWindowExpiry | .sensorEdge _ _ | .interlockOpening | .interlockClosing
  | .pulseExpiry _ | .fetchCompletion | .readbackCompletion | .applicationCompletion
  | .powerOn _ | .resetPin _ | .start | .stop | .haltNow | .clearHalt | .softReset | .ackFault
  | .popCapture | .applyManual | .clearCounters | .submitInsert | .submitRemove | .submitModify
  | .commit | .discardOpen | .readEntry | .clearTable | .raiseLock
  | .intFlagsWrite _ | .intEnableWrite _ | .stickyStatusWrite _ | .frozenWordWrite _ _
  | .encoderCfgWrite _ | .timebaseDivWrite _ | .acqCfgWrite _ | .safeLevelsWrite _
  | .positionRead | .commitResultRead | .faultCauseRead | .resetPinHeld => true

/-- A well-formed command. -/
abbrev Instr.WellFormed (i : Instr) : Prop := i.wellFormed = true

end Sys2Proof
end

