-- ==== Sys2Proof/Machine/State.lean ====
section
/-! DEFINITION. The state of the part as plain data: the configuration words, one record for each of the nine blocks, the pins, the time base and the queue of waiting commands. Each field names the rule that gives it; State.reset is the state after power-on. -/

namespace Sys2Proof.Machine

/-- The mode (R123). -/
inductive Mode where
  | config
  | acquire
  | locked
  | freewheel
  | halted
  deriving DecidableEq, Repr

/-! ### The cam program -/

/-- The action of an entry; a width is present exactly when the action is PULSE (R1). -/
inductive EntryAction where
  | set
  | clear
  | pulse (width : Word)
  deriving DecidableEq, Repr

/-- A selector period: 1, 2, 4, 8 or 16 (R1). -/
inductive Period where
  | p1
  | p2
  | p4
  | p8
  | p16
  deriving DecidableEq, Repr

/-- One entry of the cam table (R1). -/
structure Entry where
  position : Word
  line : LineNo
  action : EntryAction
  lead : Bool
  period : Period
  phase : BitVec 4
  tag : BitVec 8
  deriving DecidableEq, Repr

/-- Which of a fetch and a read-back goes next when both wait (R9). -/
inductive Turn where
  | fetch
  | readback
  deriving DecidableEq, Repr

/-- The holder of the table port (R7); a fetch or a read-back holds the entry it read at its grant (R10). -/
inductive Port where
  | free
  | fetch (entry : Option Entry)
  | readback (index : Nat) (entry : Option Entry)
  | application
  deriving DecidableEq, Repr

/-- The read-back record (R12); `valid` is set exactly when an entry is present. -/
structure ReadbackRecord where
  index : Nat
  entry : Option Entry
  deriving DecidableEq, Repr

/-- The Cam Table block (R4, R7, R9, R12). A waiting fetch is LFU's fetch in state WAITING, and a waiting
application is the group state APPLYING without the port. -/
structure Cam where
  table : List Entry
  port : Port
  readbackWaits : Option Nat
  turn : Turn
  record : ReadbackRecord
  deriving DecidableEq, Repr

/-! ### Axis tracking -/

/-- How the encoder pins are read (R18, R20). -/
inductive EncoderMode where
  | quadrature
  | stepDir
  deriving DecidableEq, Repr

/-- Levels of ENC_A and ENC_B (R17). -/
structure EncLevels where
  a : Bool
  b : Bool
  deriving DecidableEq, Repr

/-- The Axis Tracker (R17, R22, R28, R32 to R35). `windowMicros` is how long the speed window has run. -/
structure Axt where
  ref : EncLevels
  position : Nat
  hwm : Nat
  deficit : Nat
  stretch : Nat
  revolution : BitVec 16
  acqCount : Nat
  mech : Int
  armed : Bool
  lastSlip : Int
  speed : Nat
  reverse : Bool
  net : Int
  windowMicros : Nat
  deriving DecidableEq, Repr

/-! ### Lookahead and firing -/

/-- A revolution tag (R41). -/
inductive RevTag where
  | current
  | next
  deriving DecidableEq, Repr

/-- A slot of the lookahead window (R41). -/
structure Slot where
  entry : Entry
  index : Nat
  tag : RevTag
  eff : Nat
  deriving DecidableEq, Repr

/-- The fetch cursor (R43). -/
inductive Cursor where
  | reading (index : Nat) (tag : RevTag)
  | parked
  deriving DecidableEq, Repr

/-- The state of the fetch in flight (R44, R45). -/
inductive FetchState where
  | waiting
  | granted
  | cancelled
  deriving DecidableEq, Repr

/-- The fetch in flight (R44). -/
structure Fetch where
  index : Nat
  tag : RevTag
  state : FetchState
  deriving DecidableEq, Repr

/-- The Lookahead and Firing Unit (R41 to R45, R58, R60). -/
structure Lfu where
  window : List Slot
  cursor : Cursor
  fetch : Option Fetch
  deferred : Option Nat
  late : Nat
  unexamined : Nat
  deriving DecidableEq, Repr

/-! ### Output lines -/

/-- The state of an output line: its level and its pulse timer (R64). -/
inductive LineState where
  | low
  | high
  | pulsing (remaining : Nat)
  deriving DecidableEq, Repr

/-- The interlock state: CLOSED while ENABLE is high, OPEN while it is low (R75). -/
inductive Interlock where
  | closed
  | opened
  deriving DecidableEq, Repr

/-- The Output Stage (R64, R75, R77). -/
structure Out where
  lines : Vector LineState 16
  interlock : Interlock
  suppressed : Nat
  deriving DecidableEq, Repr

/-! ### Mark capture and registration -/

/-- The class of a capture record (R83). -/
inductive CaptureClass where
  | accepted
  | extra
  | outside
  | plain
  | unphased
  deriving DecidableEq, Repr

/-- A capture record (R82). -/
structure CaptureRecord where
  sensor : SensorNo
  edge : Edge
  position : Word
  revolution : Word
  cls : CaptureClass
  deriving DecidableEq, Repr

/-- A verdict on one revolution (R90, R92). -/
inductive Verdict where
  | none
  | good
  | clipped
  | missing
  deriving DecidableEq, Repr

/-- The mark state of the revolution now running: the deviation when a mark is accepted, and the extra count (R89). -/
structure MarkState where
  accepted : Option Int
  extra : Nat
  deriving DecidableEq, Repr

/-- The Mark Capture and Registration Unit (R84, R87, R89, R91). -/
structure Mcr where
  queue : List CaptureRecord
  overflow : Nat
  mark : MarkState
  lastDeviation : Int
  lastCorrection : Int
  lastVerdict : Verdict
  lastExtra : Nat
  deriving DecidableEq, Repr

/-! ### Program revisions -/

/-- The staging record, each field as wide as its place in the STAGING words (R100, R177). -/
structure Staging where
  position : Word
  line : BitVec 5
  action : BitVec 2
  lead : Bool
  periodCode : BitVec 3
  phase : BitVec 4
  width : Word
  tag : BitVec 8
  deriving DecidableEq, Repr

/-- A revision with the fields its kind has (R102). Its state, OPEN or COMMITTED, is the list it stands in. -/
inductive Revision where
  | insert (e : Entry)
  | modify (e : Entry)
  | remove (position : Word) (line : LineNo)
  deriving DecidableEq, Repr

/-- Whether a group's application has begun, and then whether it began at a boundary (R114) and how many
microseconds have passed since its begin event (R108). -/
inductive GroupPhase where
  | waiting
  | applying (atBoundary : Bool) (micros : Nat)
  deriving DecidableEq, Repr

/-- The commit group (R104): the committed part of the revision queue, oldest first. -/
structure Group where
  sequence : BitVec 8
  phase : GroupPhase
  revisions : List Revision
  deriving DecidableEq, Repr

/-- Why a revision fails (R109). -/
inductive Reason where
  | lockedAll
  | lineProtected
  | outOfRange
  | keyExists
  | keyAbsent
  | tableFull
  deriving DecidableEq, Repr

/-- What became of a group; the failing index and the reason are present for REJECTED (R112). -/
inductive GroupOutcome where
  | none
  | applied
  | rejected (index : Nat) (reason : Reason)
  | abandoned
  deriving DecidableEq, Repr

/-- The result record (R112). -/
structure ResultRecord where
  sequence : BitVec 8
  outcome : GroupOutcome
  tableCount : Nat
  deriving DecidableEq, Repr

/-- The Revision Queue (R100 to R104, R112, R113, R118). The revision queue is the group's revisions followed by the open ones. -/
structure Revq where
  staging : Staging
  group : Option Group
  opens : List Revision
  nextSeq : BitVec 8
  result : ResultRecord
  resultRead : Bool
  lock : Fin 3
  deriving DecidableEq, Repr

/-! ### Faults, modes, the bus -/

/-- The twelve causes, in priority order (R145). -/
inductive Cause where
  | interlockOpen
  | encoderError
  | overspeed
  | reversal
  | acquireTimeout
  | marksLost
  | commitOverrun
  | indexSlip
  | lateFire
  | missedEntry
  | captureOverflow
  | leadClamped
  deriving DecidableEq, Repr

/-- The detail of a raise (R146); LATE_FIRE gives a line and a tag. -/
inductive Detail where
  | num (value : Int)
  | lineTag (line : LineNo) (tag : BitVec 8)
  deriving DecidableEq, Repr

/-- A fault record (R148). -/
structure FaultRecord where
  cause : Cause
  repeats : Nat
  mode : Mode
  position : Word
  revolution : Word
  detail : Detail
  deriving DecidableEq, Repr

/-- The Fault Arbiter: the pending set in priority order (R150, R153). -/
structure Flt where
  causes : List FaultRecord
  deriving DecidableEq, Repr

/-- Why the part last entered HALTED (R135). -/
inductive HaltReason where
  | none
  | command
  | cause (c : Cause)
  deriving DecidableEq, Repr

/-- The Mode Controller (R123, R131, R135, R138). -/
structure Modc where
  mode : Mode
  stopPending : Bool
  haltReason : HaltReason
  badRun : Nat
  goodRun : Nat
  deriving DecidableEq, Repr

/-- Result codes (R170). -/
inductive ResultCode where
  | ok
  | wrongMode
  | busy
  | queueFull
  | badArgument
  | nothingOpen
  | notHighest
  | haltCausePending
  | configInvalid
  | interlockOpen
  deriving DecidableEq, Repr

/-- COMMAND_RESULT (R170). -/
structure CommandResult where
  command : BitVec 5
  code : ResultCode
  check : BitVec 3
  deriving DecidableEq, Repr

/-- Hold registers of the position group (R165). -/
structure PositionHold where
  revolution : Word
  hwm : Word
  deficit : Word
  stretch : Word
  speed : Word
  deriving DecidableEq, Repr

/-- Hold registers of the commit result group (R165). -/
structure ResultHold where
  failure : Word
  count : Word
  deriving DecidableEq, Repr

/-- Hold registers of the fault view: the fault view latch (R154, R165), with the cause word that was read. -/
structure FaultHold where
  cause : Word
  repeats : Word
  position : Word
  revolution : Word
  detail : Word
  deriving DecidableEq, Repr

/-- The Bus Interface (R157, R159, R162, R165, R169, R170). `flags`, `enables`: bits 0..5 are REV, MODE, FAULT,
CAPT, COMMIT, READ; `sticky`: bit 0 ACCESS_VIOLATION, bit 1 RESULT_OVERWRITTEN (R180). `dataOut` is what the last
read drove onto D0..D15 (R163). -/
structure Biu where
  arg : Word
  result : CommandResult
  flags : BitVec 6
  enables : BitVec 6
  sticky : BitVec 2
  positionHold : PositionHold
  resultHold : ResultHold
  faultHold : FaultHold
  dataOut : Option Word
  deriving DecidableEq, Repr

/-! ### Configuration -/

/-- The acquisition source (R124). -/
inductive AcqSource where
  | index
  | mark
  | immediate
  deriving DecidableEq, Repr

/-- The edge selection of a sensor (R80). -/
inductive EdgeSel where
  | off
  | rising
  | falling
  | both
  deriving DecidableEq, Repr

/-- The configuration words, each field as wide as its place in the word (R174, R175). The lock field of ACQ_CFG
is the lock level of the Revision Queue (R120). -/
structure Cfg where
  revLength : Word
  guardZone : Word
  maxCorr : BitVec 12
  backlash : BitVec 8
  overspeed : BitVec 12
  indexPos : Word
  slipTolerance : BitVec 8
  indexMonitor : Bool
  encMode : EncoderMode
  encInvert : Bool
  encFilter : BitVec 4
  timebaseDiv : BitVec 6
  acqSource : AcqSource
  regEnable : Bool
  gainShift : BitVec 2
  markSensor : SensorNo
  winOpen : Word
  markNominal : Word
  winClose : Word
  fwa : BitVec 4
  ha : BitVec 4
  rla : BitVec 5
  sensorSel : Vector EdgeSel 4
  leadTime : Vector Word 16
  safeLevels : Word
  protectedLines : Word
  criticalLines : Word
  manualLevels : Word
  deriving DecidableEq, Repr

/-- The time base (R30): the length of the microsecond under way in REFCLK periods, and how many have passed in it. -/
structure TimeBase where
  length : Nat
  elapsed : Nat
  deriving DecidableEq, Repr

/-- The whole part, with its two inputs: `encInput`, the levels that ENC_A and ENC_B take next, one in each REFCLK
period (R17, log 3), and `pending`, the queue of commands that wait; both first in, first out. -/
structure State where
  cfg : Cfg
  axt : Axt
  cam : Cam
  lfu : Lfu
  out : Out
  mcr : Mcr
  revq : Revq
  modc : Modc
  flt : Flt
  biu : Biu
  pins : Pins
  tb : TimeBase
  resetHeld : Bool
  encInput : List EncLevels
  pending : List Instr
  deriving DecidableEq, Repr

/-- No command of the block stops the machine, so there is no fault: no constructor, raised by nobody, safe. -/
inductive Fault where
  deriving DecidableEq, Repr

/-- Why a command has no meaning. -/
inductive Refusal where
  /-- A command whose arm of `exec` is not written yet; raised by `exec` alone, and by no arm of it now. Safe: the model stops. -/
  | notModelled (mnemonic : String)
  deriving DecidableEq, Repr

/-! ### Reset values -/

/-- The reset values of the configuration words (register map of 9.5). -/
def Cfg.reset : Cfg where
  revLength := 0x1000
  guardZone := 0x0040
  maxCorr := 0x010
  backlash := 0x08
  overspeed := 0xFFF
  indexPos := 0
  slipTolerance := 2
  indexMonitor := false
  encMode := .quadrature
  encInvert := false
  encFilter := 0
  timebaseDiv := 25
  acqSource := .index
  regEnable := false
  gainShift := 0
  markSensor := 0
  winOpen := 0x0600
  markNominal := 0x0800
  winClose := 0x0A00
  fwa := 3
  ha := 8
  rla := 4
  sensorSel := Vector.ofFn fun _ => .off
  leadTime := Vector.ofFn fun _ => 0
  safeLevels := 0
  protectedLines := 0
  criticalLines := 0
  manualLevels := 0

/-- AXT after reset (R39), with the decoder reference state at the given levels. -/
def Axt.reset (ref : EncLevels) : Axt where
  ref := ref
  position := 0
  hwm := 0
  deficit := 0
  stretch := 0
  revolution := 0
  acqCount := 0
  mech := 0
  armed := false
  lastSlip := 0
  speed := 0
  reverse := false
  net := 0
  windowMicros := 0

/-- CAM after reset (R13, R15). -/
def Cam.reset : Cam where
  table := []
  port := .free
  readbackWaits := none
  turn := .fetch
  record := ⟨0, none⟩

/-- LFU after reset (R62). -/
def Lfu.reset : Lfu where
  window := []
  cursor := .parked
  fetch := none
  deferred := none
  late := 0
  unexamined := 0

/-- OUT after reset (R78), with the interlock state at the given level of ENABLE. -/
def Out.reset (interlock : Interlock) : Out where
  lines := Vector.ofFn fun _ => .low
  interlock := interlock
  suppressed := 0

/-- MCR after reset (R98). -/
def Mcr.reset : Mcr where
  queue := []
  overflow := 0
  mark := ⟨none, 0⟩
  lastDeviation := 0
  lastCorrection := 0
  lastVerdict := .none
  lastExtra := 0

/-- The staging record after reset (R121). -/
def Staging.reset : Staging where
  position := 0
  line := 0
  action := 0
  lead := false
  periodCode := 0
  phase := 0
  width := 0
  tag := 0

/-- REVQ after reset (R121), with the given staging record. -/
def Revq.reset (staging : Staging) : Revq where
  staging := staging
  group := none
  opens := []
  nextSeq := 0
  result := ⟨0, .none, 0⟩
  resultRead := true
  lock := 0

/-- MODC after reset (R144). -/
def Modc.reset : Modc where
  mode := .config
  stopPending := false
  haltReason := .none
  badRun := 0
  goodRun := 0

/-- The BIU after reset (R181), with the given argument, command result and data lines. -/
def Biu.reset (arg : Word) (result : CommandResult) (dataOut : Option Word) : Biu where
  arg := arg
  result := result
  flags := 0
  enables := 0
  sticky := 0
  positionHold := ⟨0, 0, 0, 0, 0⟩
  resultHold := ⟨0, 0⟩
  faultHold := ⟨0, 0, 0, 0, 0⟩
  dataOut := dataOut

/-- The state right after power-on, with ENC_A and ENC_B low and ENABLE high: DESIGN CHOICE, log 1. Every other
field is at the value the spec states (R15, R30, R39, R62, R78, R98, R121, R144, R156, R181). -/
def State.reset : State where
  cfg := Cfg.reset
  axt := Axt.reset ⟨false, false⟩
  cam := Cam.reset
  lfu := Lfu.reset
  out := Out.reset .closed
  mcr := Mcr.reset
  revq := Revq.reset Staging.reset
  modc := Modc.reset
  flt := ⟨[]⟩
  biu := Biu.reset 0 ⟨0, .ok, 0⟩ none
  pins := ⟨false, false, true⟩
  tb := ⟨25, 0⟩
  resetHeld := false
  encInput := []
  pending := []

end Sys2Proof.Machine
end

