-- ==== Sys2Proof/Machine/Flags.lean ====
section
/-! DEFINITION. The interrupt flags and the interrupt line, the sticky status, and the pending set of causes as a list in priority order. -/

namespace Sys2Proof.Machine

/-- The six interrupt flags (R157). -/
inductive Flag where
  | rev
  | mode
  | fault
  | capt
  | commit
  | read
  deriving DecidableEq, Repr

/-- The place of a flag in INT_FLAGS and INT_ENABLE (R180). -/
def Flag.mask : Flag → BitVec 6
  | .rev => 0x01
  | .mode => 0x02
  | .fault => 0x04
  | .capt => 0x08
  | .commit => 0x10
  | .read => 0x20

/-- Whether a flag is set. -/
def State.flag (s : State) (f : Flag) : Bool := s.biu.flags &&& f.mask == f.mask

/-- An event sets its flag; a flag already set stays set (R157). -/
def State.setFlag (s : State) (f : Flag) : State :=
  { s with biu.flags := s.biu.flags ||| f.mask }

/-- INT is asserted while a flag is set together with its enable, and not driven while the RESET pin is held (R160, R161). -/
def State.intAsserted (s : State) : Bool :=
  !s.resetHeld && s.biu.flags &&& s.biu.enables != 0

/-- ACCESS_VIOLATION and RESULT_OVERWRITTEN in STICKY_STATUS (R180). -/
def accessViolationMask : BitVec 2 := 0x1
def resultOverwrittenMask : BitVec 2 := 0x2

/-- A write to a frozen word outside CONFIG sets ACCESS_VIOLATION (R162, R172). -/
def State.setAccessViolation (s : State) : State :=
  { s with biu.sticky := s.biu.sticky ||| accessViolationMask }

/-! ### Causes -/

/-- A cause's code, which is its priority, 1 the highest (R145). -/
def Cause.code : Cause → Nat
  | .interlockOpen => 1
  | .encoderError => 2
  | .overspeed => 3
  | .reversal => 4
  | .acquireTimeout => 5
  | .marksLost => 6
  | .commitOverrun => 7
  | .indexSlip => 8
  | .lateFire => 9
  | .missedEntry => 10
  | .captureOverflow => 11
  | .leadClamped => 12

/-- The halting causes are codes 1 to 6 (R145). -/
def Cause.halting (c : Cause) : Bool := c.code ≤ 6

/-- Whether a cause is in the pending set. -/
def isPending (c : Cause) (l : List FaultRecord) : Bool := l.any fun r => r.cause == c

/-- A new record takes its place in priority order (R148, R153). -/
def addCause (r : FaultRecord) : List FaultRecord → List FaultRecord
  | [] => [r]
  | x :: xs => if r.cause.code < x.cause.code then r :: x :: xs else x :: addCause r xs

/-- A raise of a pending cause counts a repeat, saturating at 255, and keeps the rest of the record (R149). -/
def repeatCause (c : Cause) (l : List FaultRecord) : List FaultRecord :=
  l.map fun r => if r.cause = c then { r with repeats := min Config.repeatMax (r.repeats + 1) } else r

/-- Whether a halting cause is in the pending set, as FLT publishes it for MODC (R151). -/
def Flt.haltingPending (f : Flt) : Bool := f.causes.any fun r => r.cause.halting

end Sys2Proof.Machine
end

