-- ==== Sys2Proof/Machine/Operands.lean ====
section
/-! DEFINITION. The bit layouts of the register window: the codes of the fields, how a written word is stored, and how fields make a word (R173 to R180). -/

namespace Sys2Proof.Machine

/-! ### Codes -/

/-- Mode codes of MODE_STATUS and FAULT_REPEAT (R176, R180). -/
def Mode.code : Mode → Nat
  | .config => 1
  | .acquire => 2
  | .locked => 3
  | .freewheel => 4
  | .halted => 5

/-- Halt reason codes (R135, R176). -/
def HaltReason.code : HaltReason → Nat
  | .none => 0
  | .command => 15
  | .cause c => c.code

/-- Result codes of COMMAND_RESULT (R170). -/
def ResultCode.code : ResultCode → Nat
  | .ok => 0
  | .wrongMode => 1
  | .busy => 2
  | .queueFull => 3
  | .badArgument => 4
  | .nothingOpen => 5
  | .notHighest => 6
  | .haltCausePending => 7
  | .configInvalid => 8
  | .interlockOpen => 9

/-- Command codes of COMMAND_RESULT (R170): COMMAND_A bit + 1, COMMAND_B bit + 17. -/
def commandCode : Command → BitVec 5
  | .start => 1
  | .stop => 2
  | .haltNow => 3
  | .clearHalt => 4
  | .softReset => 5
  | .ackFault => 6
  | .popCapture => 7
  | .applyManual => 8
  | .clearCounters => 9
  | .submitInsert => 17
  | .submitRemove => 18
  | .submitModify => 19
  | .commit => 20
  | .discardOpen => 21
  | .readEntry => 22
  | .clearTable => 23
  | .raiseLock => 24

/-- The command code of a strobe write that names no single command (R170). -/
def noCommandCode : StrobeReg → BitVec 5
  | .a => 15
  | .b => 31

/-- Verdict codes (R176). -/
def Verdict.code : Verdict → Nat
  | .none => 0
  | .good => 1
  | .clipped => 2
  | .missing => 3

/-- Class codes (R179). -/
def CaptureClass.code : CaptureClass → Nat
  | .accepted => 1
  | .extra => 2
  | .outside => 3
  | .plain => 4
  | .unphased => 5

/-- Edge codes (R179). -/
def edgeCode : Edge → Nat
  | .rising => 0
  | .falling => 1

/-- Reason codes (R178). -/
def Reason.code : Reason → Nat
  | .lockedAll => 1
  | .lineProtected => 2
  | .outOfRange => 3
  | .keyExists => 4
  | .keyAbsent => 5
  | .tableFull => 6

/-- Outcome codes (R178). -/
def GroupOutcome.code : GroupOutcome → Nat
  | .none => 0
  | .applied => 1
  | .rejected _ _ => 2
  | .abandoned => 3

/-- Action codes (R177). -/
def EntryAction.code : EntryAction → Nat
  | .set => 0
  | .clear => 1
  | .pulse _ => 2

/-- The period a code stands for; 5, 6 and 7 stand for none (R100, R177). -/
def periodOfCode (c : BitVec 3) : Option Period :=
  match c.toNat with
  | 0 => some .p1
  | 1 => some .p2
  | 2 => some .p4
  | 3 => some .p8
  | 4 => some .p16
  | _ => none

/-- Period codes (R177). -/
def Period.code : Period → Nat
  | .p1 => 0
  | .p2 => 1
  | .p4 => 2
  | .p8 => 3
  | .p16 => 4

/-- The number a period is (R1). -/
def Period.value : Period → Nat
  | .p1 => 1
  | .p2 => 2
  | .p4 => 4
  | .p8 => 8
  | .p16 => 16

/-- Edge selection of a two-bit field of SENSOR_CFG (R175). -/
def edgeSelOfCode (c : BitVec 2) : EdgeSel :=
  match c.toNat with
  | 0 => .off
  | 1 => .rising
  | 2 => .falling
  | _ => .both

/-- Codes of the edge selection (R175). -/
def EdgeSel.code : EdgeSel → Nat
  | .off => 0
  | .rising => 1
  | .falling => 2
  | .both => 3

/-- Acquisition source of its field of ACQ_CFG; code 3 is stored as INDEX (R173, R175). -/
def acqSourceOfCode (c : BitVec 2) : AcqSource :=
  match c.toNat with
  | 1 => .mark
  | 2 => .immediate
  | _ => .index

/-- Codes of the acquisition source (R175). -/
def AcqSource.code : AcqSource → Nat
  | .index => 0
  | .mark => 1
  | .immediate => 2

/-- Lock level of the lock field of ACQ_CFG; 3 is stored as 2 (R120, R173). -/
def lockOfCode (c : BitVec 2) : Fin 3 :=
  match c.toNat with
  | 0 => 0
  | 1 => 1
  | _ => 2

/-- Encoder mode of bit 0 of ENCODER_CFG (R175). -/
def encoderModeOfBit : Bool → EncoderMode
  | false => .quadrature
  | true => .stepDir

/-- Code of the encoder mode (R175). -/
def EncoderMode.code : EncoderMode → Nat
  | .quadrature => 0
  | .stepDir => 1

/-! ### Storing a written word -/

/-- R172, R173: a write to a frozen word with no row of its own, taken in CONFIG, stores the value as the layout gives. -/
def Cfg.store (c : Cfg) (w : FrozenWord) (v : Word) : Cfg :=
  match w with
  | .revLength => { c with revLength := v }
  | .guardZone => { c with guardZone := v }
  | .maxCorr => { c with maxCorr := v.extractLsb' 0 12 }
  | .backlash => { c with backlash := v.extractLsb' 0 8 }
  | .overspeed => { c with overspeed := if v.extractLsb' 0 12 = 0 then 1 else v.extractLsb' 0 12 }
  | .indexPos => { c with indexPos := v }
  | .slipCfg => { c with slipTolerance := v.extractLsb' 0 8, indexMonitor := v.getLsbD 15 }
  | .regCfg =>
    { c with
      regEnable := v.getLsbD 0
      gainShift := v.extractLsb' 4 2
      markSensor := Fin.ofNat 4 (v.extractLsb' 8 2).toNat }
  | .winOpen => { c with winOpen := v }
  | .markNominal => { c with markNominal := v }
  | .winClose => { c with winClose := v }
  | .ladderCfg => { c with fwa := v.extractLsb' 0 4, ha := v.extractLsb' 4 4 }
  | .sensorCfg => { c with sensorSel := Vector.ofFn fun i => edgeSelOfCode (v.extractLsb' (2 * i) 2) }
  | .leadTime line =>
    { c with leadTime := c.leadTime.set line (if Config.leadTimeMax < v.toNat then BitVec.ofNat 16 Config.leadTimeMax else v) }
  | .protectedLines => { c with protectedLines := v }
  | .criticalLines => { c with criticalLines := v }

/-- ENCODER_CFG as its layout gives (R175). -/
def Cfg.storeEncoder (c : Cfg) (v : Word) : Cfg :=
  { c with encMode := encoderModeOfBit (v.getLsbD 0), encInvert := v.getLsbD 1, encFilter := v.extractLsb' 4 4 }

/-- STAGING_CONTROL as its layout gives (R177). -/
def Staging.storeControl (st : Staging) (v : Word) : Staging :=
  { st with
    line := v.extractLsb' 0 5
    action := v.extractLsb' 5 2
    lead := v.getLsbD 7
    periodCode := v.extractLsb' 8 3
    phase := v.extractLsb' 11 4 }

/-! ### Making a word of fields -/

/-- A field's value at its place in a word. -/
def place (v lo : Nat) : Nat := v * 2 ^ lo

/-- One bit at its place. -/
def placeBit (b : Bool) (lo : Nat) : Nat := if b then 2 ^ lo else 0

/-- A word holding one unsigned quantity (R174). -/
def wordOf (n : Nat) : Word := BitVec.ofNat 16 n

/-- A word holding one signed quantity in two's complement (R174). -/
def wordOfInt (i : Int) : Word := BitVec.ofInt 16 i

/-- A word of one bit per line, bit n for Qn (R174). -/
def wordOfLines (p : LineNo → Bool) : Word :=
  BitVec.ofNat 16 (((List.finRange 16).map fun i => placeBit (p i) i.val).sum)

/-- COMMAND_RESULT (R170). -/
def CommandResult.word (r : CommandResult) : Word :=
  wordOf (r.command.toNat + place r.code.code 8 + place r.check.toNat 12)

/-- The control word of an entry in the read-back words (R177). -/
def Entry.controlWord (e : Entry) : Word :=
  wordOf (e.line.val + place e.action.code 5 + placeBit e.lead 7 + place e.period.code 8 + place e.phase.toNat 11)

/-- The width word of an entry, 0 when it is not a PULSE (R177). -/
def Entry.widthWord (e : Entry) : Word :=
  match e.action with
  | .pulse w => w
  | _ => 0

/-- STAGING_CONTROL as it reads back (R177). -/
def Staging.controlWord (st : Staging) : Word :=
  wordOf (st.line.toNat + place st.action.toNat 5 + placeBit st.lead 7 + place st.periodCode.toNat 8 + place st.phase.toNat 11)

/-- FAULT_DETAIL (R146, R180). -/
def Detail.word : Detail → Word
  | .num v => wordOfInt v
  | .lineTag line tag => wordOf (tag.toNat + place line.val 8)

/-- SPEED (R176). -/
def Axt.speedWord (a : Axt) : Word := wordOf (a.speed + placeBit a.reverse 15)

/-- COMMIT_FAILURE: 0 unless the outcome is REJECTED (R178). -/
def GroupOutcome.failureWord : GroupOutcome → Word
  | .rejected i r => wordOf (i + place r.code 4)
  | _ => 0

end Sys2Proof.Machine
end

