-- ==== Sys2Proof/Machine/Ops.lean ====
section
/-! DEFINITION. The operations that several commands share: the answer of a command, the port's arbiter, the window's and the lines' reactions to a mode entry, the raise of a cause, and the entries into the modes. -/

namespace Sys2Proof.Machine

/-- Every command but a reset is taken only while the RESET pin is released; while it is held no access, count,
index arrival or edge is taken (R39, R98, R181; log 13). -/
def State.taken (s : State) (f : State → State) : Host.Outcome State Fault Refusal :=
  .next (if s.resetHeld then s else f s)

/-- A command's answer in COMMAND_RESULT (R168, R170). -/
def State.answer (s : State) (c : Command) (code : ResultCode) (check : BitVec 3 := 0) : State :=
  { s with biu.result := ⟨commandCode c, code, check⟩ }

/-! ### Small readings of the state -/

/-- The running modes (00_scope, Conventions). -/
def Mode.running : Mode → Bool
  | .acquire | .locked | .freewheel => true
  | .config | .halted => false

/-- The tracking modes (00_scope, Conventions). -/
def Mode.tracking : Mode → Bool
  | .locked | .freewheel => true
  | .config | .acquire | .halted => false

/-- L, the revolution length in counts. -/
def State.revLen (s : State) : Nat := s.cfg.revLength.toNat

/-- Z, the guard zone length in counts. -/
def State.guardLen (s : State) : Nat := s.cfg.guardZone.toNat

/-- Application in progress: the group state is APPLYING (06, R108). -/
def Revq.applying (q : Revq) : Bool :=
  match q.group with
  | some ⟨_, .applying _ _, _⟩ => true
  | _ => false

/-- Application in progress, as the other blocks consult it. -/
def State.applying (s : State) : Bool := s.revq.applying

/-- Hold a value in a range, saturating at its ends. -/
def clampInt (lo hi x : Int) : Int := max lo (min hi x)

/-- A count that stops at the top of its range (00_scope, Conventions). -/
def addSat (top n k : Nat) : Nat := min top (n + k)

/-! ### Output lines -/

/-- The level of a line's pin (R64). -/
def LineState.level : LineState → Bool
  | .low => false
  | .high => true
  | .pulsing _ => true

/-- Whether a line's pulse timer runs (R64). -/
def LineState.timerRuns : LineState → Bool
  | .pulsing _ => true
  | .low | .high => false

/-- A line standing at a level with no timer (R64). -/
def steady (level : Bool) : LineState := if level then .high else .low

/-- A line at its safe level with no timer (R71). -/
def Cfg.safeLine (c : Cfg) (i : LineNo) : LineState := steady (c.safeLevels.getLsbD i)

/-- A safe-level claim on the lines that `which` names, all together (R64, R71, R72). -/
def Out.claim (o : Out) (c : Cfg) (which : LineNo → Bool) : Out :=
  { o with lines := Vector.ofFn fun i => if which i then c.safeLine i else o.lines[i] }

/-- A safe-level claim on every line (R71). -/
def Out.claimAll (o : Out) (c : Cfg) : Out := o.claim c fun _ => true

/-! ### The table port -/

/-- The index of the fetch that waits at the port, if one does (R44). -/
def Lfu.waitingFetch (l : Lfu) : Option Nat :=
  match l.fetch with
  | some ⟨i, _, .waiting⟩ => some i
  | _ => none

/-- The port is granted to the waiting fetch of index `i`, which reads its entry now; the turn becomes READBACK (R9, R10). -/
def State.grantFetch (s : State) (i : Nat) : State :=
  { s with
    cam.port := .fetch s.cam.table[i]?
    cam.turn := .readback
    lfu.fetch := s.lfu.fetch.map fun f => { f with state := .granted } }

/-- The port is granted to the waiting read-back of index `i`, which reads its entry now; the turn becomes FETCH (R9, R10, R12). -/
def State.grantReadback (s : State) (i : Nat) : State :=
  { s with
    cam.port := .readback i s.cam.table[i]?
    cam.turn := .fetch
    cam.readbackWaits := none }

/-- The arbiter of the table port (R8): while the port is free, an application is granted first; of a fetch and a
read-back that both wait, the one the turn names; else the one that waits. -/
def State.arbitrate (s : State) : State :=
  match s.cam.port with
  | .free =>
    if s.applying then { s with cam.port := .application }
    else
      match s.lfu.waitingFetch, s.cam.readbackWaits with
      | some i, some j =>
        match s.cam.turn with
        | .fetch => s.grantFetch i
        | .readback => s.grantReadback j
      | some i, none => s.grantFetch i
      | none, some j => s.grantReadback j
      | none, none => s
  | _ => s

/-- The conditions of R44 for a fetch request. -/
def State.wantsFetch (s : State) : Option (Nat × RevTag) :=
  match s.lfu.cursor, s.lfu.fetch with
  | .reading i tag, none =>
    if s.modc.mode.tracking && decide (s.lfu.window.length < Config.windowSlots) && !s.applying then some (i, tag) else none
  | _, _ => none

/-- LFU requests a fetch if R44 allows it, and the arbiter grants what it can (R8, R44). -/
def State.requestFetch (s : State) : State :=
  match s.wantsFetch with
  | some (i, tag) => { s with lfu.fetch := some ⟨i, tag, .waiting⟩ }.arbitrate
  | none => s.arbitrate

/-! ### Lookahead: cancellation and the cursor -/

/-- R45: a WAITING fetch is withdrawn, a GRANTED one becomes CANCELLED, a CANCELLED one stays so. -/
def Lfu.cancelFetch (l : Lfu) : Lfu :=
  { l with
    fetch :=
      match l.fetch with
      | some ⟨_, _, .waiting⟩ => none
      | some f => some { f with state := .cancelled }
      | none => none }

/-- R59: on an entry into CONFIG, ACQUIRE or HALTED, LFU empties the window, parks the cursor, cancels the fetch in
flight and clears the deferred start. -/
def Lfu.quiesce (l : Lfu) : Lfu :=
  { l.cancelFetch with window := [], cursor := .parked, deferred := none }

/-- The end-of-table step against a table of `count` entries (R43). -/
def Cursor.endOfTable (count : Nat) : Cursor → Cursor
  | .reading i .current =>
    if i = count then (if count = 0 then .parked else .reading 0 .next) else .reading i .current
  | .reading i .next => if i = count then .parked else .reading i .next
  | .parked => .parked

/-- R57: the cursor for an acquisition point, against a table: the first index whose entry stands beyond the point,
else the beginning of the table for the next revolution. -/
def cursorBeyond (point : Nat) (table : List Entry) : Cursor :=
  let i := table.findIdx fun e => decide (point < e.position.toNat)
  if i < table.length then .reading i .current else Cursor.endOfTable table.length (.reading 0 .next)

/-! ### The commit result -/

/-- REVQ writes the result record: the BIU sets the COMMIT flag, and RESULT_OVERWRITTEN when the record replaced was
unread (R111, R112, R113). -/
def State.writeResult (s : State) (r : ResultRecord) : State :=
  let sticky := if s.revq.resultRead then s.biu.sticky else s.biu.sticky ||| resultOverwrittenMask
  { s with revq.result := r, revq.resultRead := false, biu.sticky := sticky }.setFlag .commit

/-- R106, R108: the application of a waiting group begins, and REVQ requests the table port. -/
def State.beginApplication (s : State) (atBoundary : Bool) : State :=
  match s.revq.group with
  | some ⟨q, .waiting, rs⟩ => { s with revq.group := some ⟨q, .applying atBoundary 0, rs⟩ }.arbitrate
  | _ => s

/-- R115: a group still WAITING at an entry into HALTED is abandoned. -/
def State.abandonWaiting (s : State) : State :=
  match s.revq.group with
  | some ⟨q, .waiting, _⟩ =>
    { s with revq.group := none }.writeResult ⟨q, .abandoned, s.cam.table.length⟩
  | _ => s

/-! ### Mode entries -/

/-- What every block but REVQ does on an entry into CONFIG, ACQUIRE or HALTED: the slip monitor is disarmed (R33),
the window is emptied (R59), every line goes to its safe level (R71) and the mark state is cleared (R97). -/
def State.quiesce (s : State) : State :=
  { s with
    axt.armed := false
    lfu := s.lfu.quiesce
    out := s.out.claimAll s.cfg
    mcr.mark := ⟨none, 0⟩ }

/-- The entry into HALTED (R133, R134), announced to every block (R123); a waiting group is abandoned (R115). -/
def State.enterHalted (s : State) (reason : HaltReason) : State :=
  (({ s with modc.mode := .halted, modc.haltReason := reason, modc.stopPending := false }.quiesce).abandonWaiting).setFlag .mode

/-- The entry into CONFIG other than by SOFT_RESET (R123); a waiting group begins its application (R107). -/
def State.enterConfig (s : State) : State :=
  (({ s with modc.mode := .config, modc.stopPending := false }.quiesce).beginApplication false).setFlag .mode

/-- The entry into ACQUIRE by an accepted START (R36, R127). -/
def State.enterAcquire (s : State) : State :=
  ({ s with
      modc := { mode := .acquire, stopPending := false, haltReason := .none, badRun := 0, goodRun := 0 }
      axt.position := 0
      axt.hwm := 0
      axt.deficit := 0
      axt.stretch := 0
      axt.revolution := 0
      axt.acqCount := 0 }.quiesce).setFlag .mode

/-- The entry into FREEWHEEL: the critical lines go to their safe levels (R72). -/
def State.enterFreewheel (s : State) : State :=
  { s with
    modc.mode := .freewheel
    out := s.out.claim s.cfg fun i => s.cfg.criticalLines.getLsbD i }.setFlag .mode

/-- The return from FREEWHEEL to LOCKED, which makes no claim (R72, R139). -/
def State.relock (s : State) : State :=
  { s with modc.mode := .locked }.setFlag .mode

/-- R57, R58: LFU sets the cursor past the acquisition point, or keeps the point as its deferred start while an
application is in progress, and requests a fetch. -/
def State.startCursor (s : State) (point : Nat) : State :=
  if s.applying then { s with lfu.deferred := some point, lfu.cursor := .parked }
  else { s with lfu.cursor := cursorBeyond point s.cam.table }.requestFetch

/-- Acquisition (R37, R128): the position is phased at the point and the mode becomes LOCKED; an acquisition by index
arms an enabled slip monitor (R33). -/
def State.acquire (s : State) (point : Nat) (byIndex : Bool) : State :=
  let arms := byIndex && s.cfg.indexMonitor
  (({ s with
      modc.mode := .locked
      modc.badRun := 0
      modc.goodRun := 0
      axt.position := point
      axt.hwm := point
      axt.deficit := 0
      axt.stretch := 0
      axt.revolution := 0
      axt.armed := arms || s.axt.armed
      axt.mech := if arms then 0 else s.axt.mech }.setFlag .mode).startCursor point)

/-! ### Raising a cause -/

/-- Where the machine stood when a cause is raised (R147). -/
structure Stamp where
  mode : Mode
  position : Word
  revolution : Word
  deriving DecidableEq, Repr

/-- The stamp of a raise, or of a capture record, taken now (R82, R147): in ACQUIRE the acquisition count modulo
65,536 and revolution 0, else the position and the revolution number. -/
def State.stamp (s : State) : Stamp :=
  match s.modc.mode with
  | .acquire => ⟨.acquire, wordOf s.axt.acqCount, 0⟩
  | m => ⟨m, wordOf s.axt.position, s.axt.revolution⟩

/-- FLT takes a raise with a given stamp (R148, R149): a pending cause counts a repeat; a cause not pending is added,
the FAULT flag is set, and a halting cause makes the mode HALTED with the raise (R134). -/
def State.raiseAt (s : State) (at_ : Stamp) (c : Cause) (d : Detail) : State :=
  if isPending c s.flt.causes then { s with flt.causes := repeatCause c s.flt.causes }
  else
    let added :=
      { s with flt.causes := addCause ⟨c, 0, at_.mode, at_.position, at_.revolution, d⟩ s.flt.causes }.setFlag .fault
    if c.halting then added.enterHalted (.cause c) else added

/-- A raise stamped with the state as it stands (R147). -/
def State.raise (s : State) (c : Cause) (d : Detail) : State := s.raiseAt s.stamp c d

end Sys2Proof.Machine
end

