-- ==== Sys2Proof/Machine/Capture.lean ====
section
/-! DEFINITION. The Mark Capture and Registration Unit: the class of an edge, the capture queue, the judgement of a mark, and the correction and verdict of a revolution. -/

namespace Sys2Proof.Machine

/-! ### Edges and records -/

/-- R80: whether an edge is selected. -/
def EdgeSel.selects : EdgeSel → Edge → Bool
  | .off, _ => false
  | .rising, .rising => true
  | .rising, .falling => false
  | .falling, .falling => true
  | .falling, .rising => false
  | .both, _ => true

/-- R89: a position within open..close, both included. -/
def Cfg.inWindow (c : Cfg) (p : Nat) : Bool := decide (c.winOpen.toNat ≤ p) && decide (p ≤ c.winClose.toNat)

/-- R83, in the tracking modes: the class of an edge on a sensor. -/
def State.classify (s : State) (sensor : SensorNo) : CaptureClass :=
  if s.cfg.regEnable = false ∨ sensor ≠ s.cfg.markSensor then .plain
  else if s.cfg.inWindow s.axt.position = false then .outside
  else if s.mcr.mark.accepted.isSome then .extra
  else .accepted

/-- R89: what the judgement of that class does to the mark state. -/
def State.judgeMark (s : State) (cls : CaptureClass) : State :=
  match cls with
  | .accepted => { s with mcr.mark.accepted := some ((s.axt.position : Int) - s.cfg.markNominal.toNat) }
  | .extra => { s with mcr.mark.extra := addSat Config.extraMax s.mcr.mark.extra 1 }
  | _ => s

/-- R84, R86: a record joins the tail, setting CAPT when the queue was empty; with the queue full it is discarded,
counted, and CAPTURE_OVERFLOW is raised. -/
def State.record (s : State) (r : CaptureRecord) : State :=
  if s.mcr.queue.length < Config.capturePlaces then
    let joined := { s with mcr.queue := s.mcr.queue ++ [r] }
    if s.mcr.queue.isEmpty then joined.setFlag .capt else joined
  else
    let n := addSat Config.overflowMax s.mcr.overflow 1
    { s with mcr.overflow := n }.raise .captureOverflow (.num n)

/-- R93: the edge that acquires by mark: acquisition at the nominal, revolution 0's accepted mark with d = 0, and an
ACCEPTED record at the nominal; a discard is raised after the acquisition (R147). -/
def State.acquireByMark (s : State) (sensor : SensorNo) (edge : Edge) : State :=
  { s.acquire s.cfg.markNominal.toNat false with mcr.mark := ⟨some 0, 0⟩ }.record
    ⟨sensor, edge, s.cfg.markNominal, 0, .accepted⟩

/-- SENSOR_EDGE (R81): an edge that is not selected makes no event. -/
def State.edgeArrives (s : State) (sensor : SensorNo) (edge : Edge) : State :=
  if s.cfg.sensorSel[sensor].selects edge = false then s
  else match s.modc.mode with
    | .config | .halted => s
    | .acquire =>
      if s.cfg.acqSource = .mark ∧ sensor = s.cfg.markSensor then s.acquireByMark sensor edge
      else s.record ⟨sensor, edge, s.stamp.position, s.stamp.revolution, .unphased⟩
    | .locked | .freewheel =>
      (s.judgeMark (s.classify sensor)).record
        ⟨sensor, edge, s.stamp.position, s.stamp.revolution, s.classify sensor⟩

/-- POP_CAPTURE (R85). -/
def State.cmdPopCapture (s : State) : State :=
  match s.mcr.queue with
  | [] => s.answer .popCapture .badArgument
  | _ :: rest => { s with mcr.queue := rest }.answer .popCapture .ok

/-! ### The boundary -/

/-- The sign opposite to a deviation's, with a magnitude (R90). -/
def against (d : Int) (magnitude : Nat) : Int :=
  if 0 < d then -(magnitude : Int) else if d < 0 then magnitude else 0

/-- R90, R92: the verdict and the correction of the revolution that ends, from its mark state. -/
def Cfg.judgeRevolution (c : Cfg) (m : MarkState) : Verdict × Int :=
  if c.regEnable = false then (.none, 0)
  else match m.accepted with
    | none => (.missing, 0)
    | some d =>
      let magnitude := d.natAbs >>> c.gainShift.toNat
      if magnitude ≤ c.maxCorr.toNat then (.good, against d magnitude) else (.clipped, against d c.maxCorr.toNat)

/-- R91, R92: the last values MCR publishes; the mark state starts afresh. -/
def Mcr.publish (m : Mcr) (c : Cfg) : Mcr :=
  let v := c.judgeRevolution m.mark
  { m with
    lastDeviation := if c.regEnable then clampInt Config.int16Min Config.int16Max (m.mark.accepted.getD 0) else 0
    lastCorrection := v.2
    lastVerdict := v.1
    lastExtra := if c.regEnable then m.mark.extra else 0
    mark := ⟨none, 0⟩ }

def execSensorEdge (sensor : SensorNo) (edge : Edge) (s : State) : Host.Outcome State Fault Refusal :=
  s.taken fun s => s.edgeArrives sensor edge
def execPopCapture (s : State) : Host.Outcome State Fault Refusal := s.taken State.cmdPopCapture

end Sys2Proof.Machine
end

