-- ==== Sys2Proof/Machine/Lines.lean ====
section
/-! DEFINITION. The Output Stage: what an action does to its line, the pulse timers, the interlock, APPLY_MANUAL and the write to SAFE_LEVELS. -/

namespace Sys2Proof.Machine

/-- The state a line takes when an action is carried out, whatever its state before (R64, R66, R67). -/
def EntryAction.result : EntryAction → LineState
  | .set => .high
  | .clear => .low
  | .pulse w => .pulsing w.toNat

/-- One line takes a state; the others keep theirs (R64). -/
def Out.setLine (o : Out) (i : LineNo) (l : LineState) : Out := { o with lines := o.lines.set i l }

/-- Whether an action handed for line `i` is not carried out: the interlock is OPEN (R76), or the line is critical
and the mode is FREEWHEEL (R70). -/
def State.suppresses (s : State) (i : LineNo) : Bool :=
  s.out.interlock == .opened || (s.modc.mode == .freewheel && s.cfg.criticalLines.getLsbD i)

/-- OUT takes an action handed by LFU (R66, R67, R70, R76). -/
def State.act (s : State) (i : LineNo) (a : EntryAction) : State :=
  if s.suppresses i then { s with out.suppressed := addSat Config.count16Max s.out.suppressed 1 }
  else { s with out := s.out.setLine i a.result }

/-- PULSE_EXPIRY on a line (R65): PULSING becomes LOW when its remaining time has reached 0. On a line whose timer does
not run, or has time left, no expiry can arrive (log 5): an expiry that waits behind a PULSE on its line does not take
place. -/
def State.pulseExpires (s : State) (i : LineNo) : State :=
  match s.out.lines[i] with
  | .pulsing 0 => { s with out := s.out.setLine i .low }
  | _ => s

/-- INTERLOCK_OPENING (R75): the change from CLOSED to OPEN drives every line to its safe level, and in a running
mode raises INTERLOCK_OPEN. -/
def State.interlockOpens (s : State) : State :=
  match s.out.interlock with
  | .opened => s
  | .closed =>
    let opened := { s with pins.enable := false, out := { s.out.claimAll s.cfg with interlock := .opened } }
    if s.modc.mode.running then opened.raise .interlockOpen (.num 0) else opened

/-- INTERLOCK_CLOSING (R76): no line moves. -/
def State.interlockCloses (s : State) : State :=
  { s with pins.enable := true, out.interlock := .closed }

/-- APPLY_MANUAL (R73). -/
def State.cmdApplyManual (s : State) : State :=
  if s.modc.mode ≠ .config then s.answer .applyManual .wrongMode
  else if s.out.interlock = .opened then s.answer .applyManual .interlockOpen
  else
    { s with out.lines := Vector.ofFn fun i => steady (s.cfg.manualLevels.getLsbD i) }.answer .applyManual .ok

/-- A write to SAFE_LEVELS (R69, R76, R172): stored in CONFIG; while the interlock is OPEN every line whose safe
level changes moves to its new safe level at once. -/
def State.writeSafeLevels (s : State) (v : Word) : State :=
  if s.modc.mode ≠ .config then s.setAccessViolation
  else
    let cfg := { s.cfg with safeLevels := v }
    match s.out.interlock with
    | .closed => { s with cfg := cfg }
    | .opened =>
      { s with cfg := cfg, out := s.out.claim cfg fun i => v.getLsbD i != s.cfg.safeLevels.getLsbD i }

def execPulseExpiry (line : LineNo) (s : State) : Host.Outcome State Fault Refusal :=
  s.taken fun s => s.pulseExpires line
def execInterlockOpening (s : State) : Host.Outcome State Fault Refusal := s.taken State.interlockOpens
def execInterlockClosing (s : State) : Host.Outcome State Fault Refusal := s.taken State.interlockCloses
def execApplyManual (s : State) : Host.Outcome State Fault Refusal := s.taken State.cmdApplyManual
def execSafeLevelsWrite (data : Word) (s : State) : Host.Outcome State Fault Refusal :=
  s.taken fun s => s.writeSafeLevels data

end Sys2Proof.Machine
end

