-- ==== Sys2Proof/Machine/Table.lean ====
section
/-! DEFINITION. The cam table: its key order and the three edits a revision makes, the validation of a commit group, and the commands of the block CAM. -/

namespace Sys2Proof.Machine

/-! ### Key order and edits -/

/-- The key (position, line) as one number, which orders by position first and by line where positions are equal (R4). -/
def keyOf (position : Word) (line : LineNo) : Nat := position.toNat * 16 + line.val

/-- The key of an entry (R1). -/
def Entry.key (e : Entry) : Nat := keyOf e.position e.line

/-- Whether a key is present in a table. -/
def hasKey (k : Nat) (t : List Entry) : Bool := t.any fun e => e.key == k

/-- R3: an INSERT adds its entry in key order. -/
def insertEntry (e : Entry) : List Entry → List Entry
  | [] => [e]
  | x :: xs => if e.key < x.key then e :: x :: xs else x :: insertEntry e xs

/-- R3: a MODIFY keeps the entry's key and replaces its other fields. -/
def modifyEntry (e : Entry) (t : List Entry) : List Entry :=
  t.map fun x => if x.key = e.key then { e with position := x.position, line := x.line } else x

/-- R3: a REMOVE deletes the entry with its key. -/
def removeEntry (k : Nat) (t : List Entry) : List Entry := t.filter fun x => x.key != k

/-- R5: whether a position lies in [Z, L-1]. -/
def Cfg.inRange (c : Cfg) (p : Nat) : Bool := decide (c.guardZone.toNat ≤ p) && decide (p < c.revLength.toNat)

/-- R2: an entry takes part in revolution `n` when the remainder of `n` by its period is its phase. -/
def Entry.takesPart (e : Entry) (n : BitVec 16) : Bool := n.toNat % e.period.value == e.phase.toNat

/-! ### Validation of a commit group -/

/-- The line a revision acts on. -/
def Revision.line : Revision → LineNo
  | .insert e => e.line
  | .modify e => e.line
  | .remove _ l => l

/-- R109: the failure reason of a revision, judged against the table as the revisions before it leave it; the first
condition that holds decides. -/
def Revision.failure (s : State) (t : List Entry) (r : Revision) : Option Reason :=
  if s.revq.lock = 2 ∧ s.modc.mode ≠ .config then some .lockedAll
  else if s.revq.lock = 1 ∧ s.cfg.protectedLines.getLsbD r.line ∧ s.modc.mode ≠ .config then some .lineProtected
  else match r with
    | .insert e =>
      if s.cfg.inRange e.position.toNat = false then some .outOfRange
      else if hasKey e.key t then some .keyExists
      else if Config.tableCapacity ≤ t.length then some .tableFull
      else none
    | .modify e => if hasKey e.key t then none else some .keyAbsent
    | .remove p l => if hasKey (keyOf p l) t then none else some .keyAbsent

/-- What a revision that passes does to the table carried forward (R3, R109). -/
def Revision.edit (t : List Entry) : Revision → List Entry
  | .insert e => insertEntry e t
  | .modify e => modifyEntry e t
  | .remove p l => removeEntry (keyOf p l) t

/-- R109, R111: the revisions are judged one after another from place `i` of the group; judging stops at the first that fails. -/
def judgeGroup (s : State) (t : List Entry) (i : Nat) : List Revision → Except (Nat × Reason) (List Entry)
  | [] => .ok t
  | r :: rs =>
    match r.failure s t with
    | some reason => .error (i, reason)
    | none => judgeGroup s (r.edit t) (i + 1) rs

/-! ### Commands -/

/-- READ_ENTRY (R11). A read-back is pending while it waits or holds the port. -/
def State.readbackPending (s : State) : Bool :=
  match s.cam.port with
  | .readback _ _ => true
  | _ => s.cam.readbackWaits.isSome

def State.cmdReadEntry (s : State) : State :=
  if s.applying then s.answer .readEntry .busy
  else if s.readbackPending then s.answer .readEntry .busy
  else if s.cam.table.length ≤ s.biu.arg.toNat then s.answer .readEntry .badArgument
  else { s with cam.readbackWaits := some s.biu.arg.toNat }.arbitrate.answer .readEntry .ok

/-- CLEAR_TABLE (R14). -/
def State.cmdClearTable (s : State) : State :=
  if s.modc.mode ≠ .config then s.answer .clearTable .wrongMode
  else if s.revq.group.isSome then s.answer .clearTable .busy
  else { s with cam.table := [] }.answer .clearTable .ok

/-- READBACK_COMPLETION (R12): the record is written, the READ flag is set and the port falls free (R8). -/
def State.readbackCompletes (s : State) : State :=
  match s.cam.port with
  | .readback i e => ({ s with cam.record := ⟨i, e⟩, cam.port := .free }.setFlag .read).arbitrate
  | _ => s

def execReadEntry (s : State) : Host.Outcome State Fault Refusal := s.taken State.cmdReadEntry
def execClearTable (s : State) : Host.Outcome State Fault Refusal := s.taken State.cmdClearTable
def execReadbackCompletion (s : State) : Host.Outcome State Fault Refusal := s.taken State.readbackCompletes

end Sys2Proof.Machine
end

