-- ==== Sys2Proof/Machine/Lookahead.lean ====
section
/-! DEFINITION. The Lookahead and Firing Unit: the effective position, firing, the completion of a fetch, and the window at the revolution boundary. -/

namespace Sys2Proof.Machine

/-! ### The effective position -/

/-- The lead counts of an entry at a speed (R47): the whole part of speed times lead time by 1,000; 0 with lead OFF. -/
def Cfg.leadCounts (c : Cfg) (speed : Nat) (e : Entry) : Nat :=
  if e.lead then speed * c.leadTime[e.line].toNat / 1000 else 0

/-- The effective position, never below Z (R47, R48). -/
def Cfg.effective (c : Cfg) (speed : Nat) (e : Entry) : Nat :=
  max c.guardZone.toNat (e.position.toNat - c.leadCounts speed e)

/-- Whether the computation of R47 falls below Z, so that R48 clamps it. -/
def Cfg.clamps (c : Cfg) (speed : Nat) (e : Entry) : Bool :=
  decide (e.position.toNat < c.guardZone.toNat + c.leadCounts speed e)

/-- R48: a computation that clamps raises LEAD_CLAMPED with the line as detail. -/
def State.raiseClamp (s : State) (e : Entry) : State :=
  if s.cfg.clamps s.axt.speed e then s.raise .leadClamped (.num e.line.val) else s

/-! ### Firing -/

/-- Whether a slot fires at an evaluation: CURRENT, with its effective position at or below hwm (R50). -/
def Slot.due (hwm : Nat) (x : Slot) : Bool := x.tag == .current && decide (x.eff ≤ hwm)

/-- R51, R52: a firing whose effective position hwm has passed is late; the action is handed to OUT either way. -/
def State.fireSlot (s : State) (x : Slot) : State :=
  let judged :=
    if x.eff < s.axt.hwm then
      { s with lfu.late := addSat Config.count16Max s.lfu.late 1 }.raise .lateFire (.lineTag x.entry.line x.entry.tag)
    else s
  judged.act x.entry.line x.entry.action

/-- A firing evaluation: every due slot leaves the window and fires, in window order (R50, R51). -/
def State.evaluate (s : State) : State :=
  (s.lfu.window.filter (Slot.due s.axt.hwm)).foldl State.fireSlot
    { s with lfu.window := s.lfu.window.filter fun x => !x.due s.axt.hwm }

/-- R114: an hwm advance that brings hwm to Z during an application begun at a boundary raises COMMIT_OVERRUN. -/
def State.watchOverrun (s : State) : State :=
  match s.revq.group with
  | some ⟨q, .applying true _, _⟩ =>
    if s.axt.hwm = s.guardLen then s.raise .commitOverrun (.num q.toNat) else s
  | _ => s

/-- LFU and REVQ take an hwm advance (R23, R50, R114); a slot that fired may make room for a fetch (R51). -/
def State.hwmAdvanced (s : State) : State := s.evaluate.watchOverrun.requestFetch

/-- R49: at an expiry in a tracking mode the effective position of every slot is recomputed, in window order, and one
firing evaluation is made. -/
def State.recompute (s : State) : State :=
  if s.modc.mode.tracking then
    let moved : State :=
      { s with lfu.window := s.lfu.window.map fun (x : Slot) => { x with eff := s.cfg.effective s.axt.speed x.entry } }
    (s.lfu.window.foldl (fun (t : State) (x : Slot) => t.raiseClamp x.entry) moved).evaluate.requestFetch
  else s

/-! ### Fetch completion -/

/-- The revolution a tag stands for (R42, R46). -/
def State.revolutionOf (s : State) : RevTag → BitVec 16
  | .current => s.axt.revolution
  | .next => s.axt.revolution + 1

/-- R46: the entry a fetch returned is loaded at the tail of the window; a CURRENT slot is judged for firing. -/
def State.load (s : State) (e : Entry) (f : Fetch) : State :=
  let slot : Slot := ⟨e, f.index, f.tag, s.cfg.effective s.axt.speed e⟩
  let loaded := { s with lfu.window := s.lfu.window ++ [slot] }.raiseClamp e
  match f.tag with
  | .current => loaded.evaluate
  | .next => loaded

/-- R46: LFU examines a returned entry, loading it or passing it over, and advances the cursor. No entry stands at
an index beyond the table, which no fetch names (log 5). -/
def State.examine (s : State) (entry : Option Entry) (f : Fetch) : State :=
  let t :=
    match entry with
    | some e => if e.takesPart (s.revolutionOf f.tag) then s.load e f else s
    | none => s
  { t with lfu.cursor := Cursor.endOfTable s.cam.table.length (.reading (f.index + 1) f.tag), lfu.fetch := none }

/-- FETCH_COMPLETION (R45, R46): the port falls free; a CANCELLED fetch loads nothing and leaves the cursor; then LFU
requests the next fetch and the arbiter grants (R8, R44). -/
def State.fetchCompletes (s : State) : State :=
  match s.cam.port with
  | .fetch entry =>
    let freed := { s with cam.port := .free }
    (match s.lfu.fetch with
      | some ⟨i, tag, .granted⟩ => freed.examine entry ⟨i, tag, .granted⟩
      | some ⟨_, _, .cancelled⟩ => { freed with lfu.fetch := none }
      | _ => freed).requestFetch
  | _ => s

/-! ### The boundary -/

/-- R53, R58: the cursor against which the account is made; a deferred start counts as if the cursor stood where R57
would set it. -/
def State.accountCursor (s : State) : Cursor :=
  match s.lfu.deferred with
  | some point => cursorBeyond point s.cam.table
  | none => s.lfu.cursor

/-- R53: how many entries whose selectors match the revolution that ends were left unread. -/
def State.unread (s : State) : Nat :=
  match s.accountCursor with
  | .reading i .current => ((s.cam.table.drop i).filter fun e => e.takesPart s.axt.revolution).length
  | _ => 0

/-- R53: the account of the revolution that ends, stamped with it (R147). -/
def State.settleAccount (s : State) (ending : Stamp) : State :=
  if s.unread = 0 then s
  else
    { s with lfu.unexamined := addSat Config.count16Max s.lfu.unexamined s.unread }.raiseAt ending .missedEntry (.num s.unread)

/-- A slot as it stands for the revolution that begins (R54). -/
def Slot.carried (x : Slot) : Slot := { x with tag := .current }

/-- R54: NEXT slots become CURRENT, keeping their places and effective positions. No CURRENT slot remains (R53, log 6). -/
def carriedWindow (w : List Slot) : List Slot := (w.filter fun x => x.tag == .next).map Slot.carried

/-- R54: the cursor carried into the new revolution. -/
def Cursor.carried : Cursor → Cursor
  | .reading _ .current => .reading 0 .current
  | .reading i .next => .reading i .current
  | .parked => .reading 0 .next

/-- R54, R55, R58: LFU's window and cursor after the boundary. Where an application begins, or a deferred start is
held, the window is emptied and the cursor goes to (0, CURRENT); else the window is carried over. While an application
is in progress the end-of-table step waits for its completion (R43). -/
def State.rollWindow (s : State) (begins : Bool) : State :=
  if begins then { s with lfu.window := [], lfu.cursor := .reading 0 .current, lfu.deferred := none }
  else if s.lfu.deferred.isSome then { s with lfu.window := [], lfu.cursor := .reading 0 .current, lfu.deferred := none }
  else
    let c := s.lfu.cursor.carried
    { s with
      lfu.window := carriedWindow s.lfu.window
      lfu.cursor := if s.applying then c else c.endOfTable s.cam.table.length }

/-- R55, R58: at an application's completion LFU sets its cursor from a deferred start, or takes the end-of-table step
against the table the application left, and requests a fetch. -/
def State.resumeFetching (s : State) : State :=
  (match s.lfu.deferred with
    | some point => { s with lfu.cursor := cursorBeyond point s.cam.table, lfu.deferred := none }
    | none => { s with lfu.cursor := s.lfu.cursor.endOfTable s.cam.table.length }).requestFetch

def execFetchCompletion (s : State) : Host.Outcome State Fault Refusal := s.taken State.fetchCompletes

end Sys2Proof.Machine
end

