-- ==== Sys2Proof/Machine/Revisions.lean ====
section
/-! DEFINITION. The Revision Queue: SUBMIT, COMMIT, DISCARD_OPEN, RAISE_LOCK, the completion of an application, and the write to ACQ_CFG. -/

namespace Sys2Proof.Machine

/-- The three kinds of SUBMIT (R101). -/
inductive SubmitKind where
  | insert
  | remove
  | modify
  deriving DecidableEq, Repr

/-- How many revisions the queue holds, committed and open (R103). -/
def Revq.held (q : Revq) : Nat :=
  (match q.group with
    | some g => g.revisions.length
    | none => 0) + q.opens.length

/-- The action a staged action code and width stand for; none for code 3 and for a PULSE of width 0 (R100, R101). -/
def Staging.actionOf (st : Staging) : Option EntryAction :=
  match st.action.toNat with
  | 0 => some .set
  | 1 => some .clear
  | 2 => if st.width = 0 then none else some (.pulse st.width)
  | _ => none

/-- The entry of a staged INSERT or MODIFY on a line 0..15, if the record passes the form checks (R101, R102). -/
def Staging.entryOn (st : Staging) (line : LineNo) : Option Entry :=
  match st.actionOf, periodOfCode st.periodCode with
  | some action, some period =>
    if st.phase.toNat < period.value then some ⟨st.position, line, action, st.lead, period, st.phase, st.tag⟩ else none
  | _, _ => none

/-- The revision a SUBMIT makes of the staging record, if the record passes that kind's form checks (R101, R102);
REMOVE is judged on its key alone. -/
def Staging.revision (st : Staging) (k : SubmitKind) : Option Revision :=
  if h : st.line.toNat < 16 then
    match k with
    | .insert => (st.entryOn ⟨st.line.toNat, h⟩).map .insert
    | .modify => (st.entryOn ⟨st.line.toNat, h⟩).map .modify
    | .remove => some (.remove st.position ⟨st.line.toNat, h⟩)
  else none

/-- SUBMIT_INSERT, SUBMIT_REMOVE, SUBMIT_MODIFY (R101). -/
def State.submit (s : State) (k : SubmitKind) (c : Command) : State :=
  if Config.revisionPlaces ≤ s.revq.held then s.answer c .queueFull
  else match s.revq.staging.revision k with
    | none => s.answer c .badArgument
    | some r => { s with revq.opens := s.revq.opens ++ [r] }.answer c .ok

def State.cmdSubmitInsert (s : State) : State := s.submit .insert .submitInsert
def State.cmdSubmitRemove (s : State) : State := s.submit .remove .submitRemove
def State.cmdSubmitModify (s : State) : State := s.submit .modify .submitModify

/-- COMMIT (R104): every open revision joins one group; outside the tracking modes its application begins at once (R106). -/
def State.cmdCommit (s : State) : State :=
  if s.revq.opens = [] then s.answer .commit .nothingOpen
  else if s.revq.group.isSome then s.answer .commit .busy
  else
    let grouped :=
      { s with
        revq.group := some ⟨s.revq.nextSeq, .waiting, s.revq.opens⟩
        revq.opens := []
        revq.nextSeq := s.revq.nextSeq + 1 }
    (if s.modc.mode.tracking then grouped else grouped.beginApplication false).answer .commit .ok

/-- DISCARD_OPEN (R105). -/
def State.cmdDiscardOpen (s : State) : State := { s with revq.opens := [] }.answer .discardOpen .ok

/-- RAISE_LOCK (R119). -/
def State.cmdRaiseLock (s : State) : State :=
  if h : s.biu.arg.toNat < 3 then
    if s.biu.arg.toNat < s.revq.lock.val then s.answer .raiseLock .badArgument
    else { s with revq.lock := ⟨s.biu.arg.toNat, h⟩ }.answer .raiseLock .ok
  else s.answer .raiseLock .badArgument

/-- The table and the outcome that judging a group gives (R111). -/
def State.outcomeOf (s : State) (rs : List Revision) : List Entry × GroupOutcome :=
  match judgeGroup s s.cam.table 0 rs with
  | .ok t => (t, .applied)
  | .error (i, reason) => (s.cam.table, .rejected i reason)

/-- APPLICATION_COMPLETION (R110, R111): judged against the values in force now; the table changes whole or not at
all, the group leaves, the result record is written, the port falls free and LFU takes up fetching (R55, R58). -/
def State.applicationCompletes (s : State) : State :=
  match s.revq.group, s.cam.port with
  | some ⟨q, .applying _ _, rs⟩, .application =>
    let (table, outcome) := s.outcomeOf rs
    ({ s with cam.table := table, cam.port := .free, revq.group := none }.writeResult
      ⟨q, outcome, table.length⟩).resumeFetching
  | _, _ => s

/-- A write to ACQ_CFG (R120, R124, R172): in CONFIG it sets the acquisition source and the lock level. -/
def State.writeAcqCfg (s : State) (v : Word) : State :=
  if s.modc.mode ≠ .config then s.setAccessViolation
  else { s with cfg.acqSource := acqSourceOfCode (v.extractLsb' 0 2), revq.lock := lockOfCode (v.extractLsb' 4 2) }

def execSubmitInsert (s : State) : Host.Outcome State Fault Refusal := s.taken State.cmdSubmitInsert
def execSubmitRemove (s : State) : Host.Outcome State Fault Refusal := s.taken State.cmdSubmitRemove
def execSubmitModify (s : State) : Host.Outcome State Fault Refusal := s.taken State.cmdSubmitModify
def execCommit (s : State) : Host.Outcome State Fault Refusal := s.taken State.cmdCommit
def execDiscardOpen (s : State) : Host.Outcome State Fault Refusal := s.taken State.cmdDiscardOpen
def execRaiseLock (s : State) : Host.Outcome State Fault Refusal := s.taken State.cmdRaiseLock
def execApplicationCompletion (s : State) : Host.Outcome State Fault Refusal := s.taken State.applicationCompletes
def execAcqCfgWrite (data : Word) (s : State) : Host.Outcome State Fault Refusal := s.taken fun s => s.writeAcqCfg data

end Sys2Proof.Machine
end

