-- ==== Sys2Proof/Machine/Modes.lean ====
section
/-! DEFINITION. The Mode Controller and the Fault Arbiter's command: START and its checks, STOP, HALT_NOW, CLEAR_HALT, ACK_FAULT, CLEAR_COUNTERS, and the degrade ladder with the service of a pending STOP. -/

namespace Sys2Proof.Machine

/-! ### START -/

/-- Check 2 of R125: Z in 8..4,095 and at most a quarter of L. -/
def Cfg.guardValid (c : Cfg) : Bool :=
  decide (Config.guardMin ≤ c.guardZone.toNat) && decide (c.guardZone.toNat ≤ Config.guardMax)
    && decide (4 * c.guardZone.toNat ≤ c.revLength.toNat)

/-- Check 4 of R125: the registration window, or the nominal alone for acquisition by mark without registration. -/
def Cfg.windowValid (c : Cfg) : Bool :=
  if c.regEnable then
    decide (c.guardZone.toNat ≤ c.winOpen.toNat) && decide (c.winOpen.toNat ≤ c.markNominal.toNat)
      && decide (c.markNominal.toNat ≤ c.winClose.toNat) && decide (c.winClose.toNat < c.revLength.toNat)
  else c.acqSource != .mark || c.inRange c.markNominal.toNat

/-- Check 5 of R125: the ladder limits. -/
def Cfg.ladderValid (c : Cfg) : Bool :=
  decide (0 < c.fwa.toNat) && decide (c.fwa.toNat ≤ c.ha.toNat) && decide (0 < c.rla.toNat)

/-- Check 6 of R125: the time-base divider. -/
def Cfg.dividerValid (c : Cfg) : Bool :=
  decide (Config.dividerMin ≤ c.timebaseDiv.toNat) && decide (c.timebaseDiv.toNat ≤ Config.dividerMax)

/-- The code of the first check of R125 that fails, 0 when all seven pass. -/
def State.startCheck (s : State) : BitVec 3 :=
  if s.revLen < Config.revLengthMin then 1
  else if s.cfg.guardValid = false then 2
  else if s.guardLen ≤ s.cfg.maxCorr.toNat then 3
  else if s.cfg.windowValid = false then 4
  else if s.cfg.ladderValid = false then 5
  else if s.cfg.dividerValid = false then 6
  else if s.cam.table.all (fun e => s.cfg.inRange e.position.toNat) = false then 7
  else 0

/-- The acquisition point of the sources INDEX and IMMEDIATE: INDEX_POS reduced modulo L (R37). -/
def State.indexPoint (s : State) : Nat := s.cfg.indexPos.toNat % s.revLen

/-- START (R125 to R127, R129). -/
def State.cmdStart (s : State) : State :=
  if s.modc.mode ≠ .config then s.answer .start .wrongMode
  else if s.out.interlock = .opened then s.answer .start .interlockOpen
  else if s.startCheck ≠ 0 then s.answer .start .configInvalid s.startCheck
  else
    (match s.cfg.acqSource with
      | .immediate => s.enterAcquire.acquire s.indexPoint false
      | .index | .mark => s.enterAcquire).answer .start .ok

/-! ### STOP, HALT_NOW, CLEAR_HALT -/

/-- STOP (R131). -/
def State.cmdStop (s : State) : State :=
  match s.modc.mode with
  | .locked | .freewheel => { s with modc.stopPending := true }.answer .stop .ok
  | .acquire => s.enterConfig.answer .stop .ok
  | .config | .halted => s.answer .stop .wrongMode

/-- HALT_NOW (R133). -/
def State.cmdHaltNow (s : State) : State :=
  if s.modc.mode.running then (s.enterHalted .command).answer .haltNow .ok else s.answer .haltNow .wrongMode

/-- CLEAR_HALT (R136). -/
def State.cmdClearHalt (s : State) : State :=
  if s.modc.mode ≠ .halted then s.answer .clearHalt .wrongMode
  else if s.flt.haltingPending then s.answer .clearHalt .haltCausePending
  else s.enterConfig.answer .clearHalt .ok

/-! ### ACK_FAULT and CLEAR_COUNTERS -/

/-- ACK_FAULT (R155): causes are acknowledged strictly highest first. -/
def State.cmdAckFault (s : State) : State :=
  if s.biu.arg.toNat = 0 ∨ 12 < s.biu.arg.toNat then s.answer .ackFault .badArgument
  else match s.flt.causes with
    | [] => s.answer .ackFault .notHighest
    | r :: rest =>
      if r.cause.code = s.biu.arg.toNat then { s with flt.causes := rest }.answer .ackFault .ok
      else s.answer .ackFault .notHighest

/-- CLEAR_COUNTERS (R171). -/
def State.cmdClearCounters (s : State) : State :=
  { s with lfu.late := 0, lfu.unexamined := 0, out.suppressed := 0, mcr.overflow := 0 }.answer .clearCounters .ok

/-! ### The degrade ladder -/

/-- What the ladder calls for at a boundary (R139, R140). -/
inductive LadderMove where
  | stay
  | toFreewheel
  | toLocked
  | marksLost
  deriving DecidableEq, Repr

/-- R139 to R141: the counters after a verdict, and the move the ladder calls for. -/
def Modc.judge (m : Modc) (c : Cfg) (v : Verdict) : Modc × LadderMove :=
  match v with
  | .none => (m, .stay)
  | .good =>
    let good := addSat Config.goodRunMax m.goodRun 1
    if m.mode = .freewheel ∧ c.rla.toNat ≤ good then ({ m with badRun := 0, goodRun := 0 }, .toLocked)
    else ({ m with badRun := 0, goodRun := good }, .stay)
  | .missing | .clipped =>
    let bad := addSat Config.badRunMax m.badRun 1
    let judged := { m with badRun := bad, goodRun := 0 }
    if c.ha.toNat ≤ bad then (judged, .marksLost)
    else if m.mode = .locked ∧ c.fwa.toNat ≤ bad then (judged, .toFreewheel)
    else (judged, .stay)

/-- MODC at a boundary (R132, R139 to R142): the ladder is evaluated, MARKS_LOST halts, else a pending STOP is served
in place of the ladder's own move. -/
def State.ladderStep (s : State) (ending : Stamp) (v : Verdict) : State :=
  let (m, move) := s.modc.judge s.cfg v
  let t := { s with modc := m }
  match move with
  | .marksLost => t.raiseAt ending .marksLost (.num m.badRun)
  | .toFreewheel => if m.stopPending then t.enterConfig else t.enterFreewheel
  | .toLocked => if m.stopPending then t.enterConfig else t.relock
  | .stay => if m.stopPending then t.enterConfig else t

def execStart (s : State) : Host.Outcome State Fault Refusal := s.taken State.cmdStart
def execStop (s : State) : Host.Outcome State Fault Refusal := s.taken State.cmdStop
def execHaltNow (s : State) : Host.Outcome State Fault Refusal := s.taken State.cmdHaltNow
def execClearHalt (s : State) : Host.Outcome State Fault Refusal := s.taken State.cmdClearHalt
def execAckFault (s : State) : Host.Outcome State Fault Refusal := s.taken State.cmdAckFault
def execClearCounters (s : State) : Host.Outcome State Fault Refusal := s.taken State.cmdClearCounters

end Sys2Proof.Machine
end

