-- ==== Sys2Proof/Machine/Axis.lean ====
section
/-! DEFINITION. The Axis Tracker: the encoder decoder, forward and backward counts, the revolution boundary, the speed window, the index mark and the slip monitor. -/

namespace Sys2Proof.Machine

/-! ### The decoder -/

/-- What a change of pin levels is (R18 to R20). -/
inductive Change where
  | forward
  | backward
  | invalid
  | noCount
  deriving DecidableEq, Repr

/-- The next state in the order (0,0), (1,0), (1,1), (0,1) (R18). -/
def EncLevels.succ (l : EncLevels) : EncLevels := ⟨!l.b, l.a⟩

/-- The previous state in that order (R18). -/
def EncLevels.pred (l : EncLevels) : EncLevels := ⟨l.b, !l.a⟩

/-- The diagonally opposite state (R19). -/
def EncLevels.opposite (l : EncLevels) : EncLevels := ⟨!l.a, !l.b⟩

/-- R18 to R20: a change of levels judged against the reference state. -/
def Cfg.decodeChange (c : Cfg) (ref new : EncLevels) : Change :=
  match c.encMode with
  | .quadrature =>
    if new = ref.succ then (if c.encInvert then .backward else .forward)
    else if new = ref.pred then (if c.encInvert then .forward else .backward)
    else if new = ref.opposite then .invalid
    else .noCount
  | .stepDir =>
    if ref.a = false ∧ new.a = true then (if new.b = c.encInvert then .forward else .backward) else .noCount

/-- The levels whose change from the reference state is a forward count (R18, R20), where the pins then stand (log 3). -/
def Cfg.levelsForward (c : Cfg) (ref : EncLevels) : EncLevels :=
  match c.encMode with
  | .quadrature => if c.encInvert then ref.pred else ref.succ
  | .stepDir => ⟨true, c.encInvert⟩

/-- The levels whose change from the reference state is a backward count (R18, R20), where the pins then stand (log 3). -/
def Cfg.levelsBackward (c : Cfg) (ref : EncLevels) : EncLevels :=
  match c.encMode with
  | .quadrature => if c.encInvert then ref.succ else ref.pred
  | .stepDir => ⟨true, !c.encInvert⟩

/-- A change of levels becomes the new reference state (R17). -/
def State.acceptLevels (s : State) (l : EncLevels) : State :=
  { s with axt.ref := l, pins.encA := l.a, pins.encB := l.b }

/-! ### The boundary -/

/-- R27: AXT applies the correction. -/
def Axt.correct (a : Axt) (c : Int) : Axt :=
  if 0 ≤ c then { a with position := c.toNat, hwm := c.toNat, stretch := 0, deficit := 0 }
  else { a with position := 0, hwm := 0, stretch := (-c).toNat, deficit := 0 }

/-- Whether a group waits for its boundary (R106). -/
def State.groupWaits (s : State) : Bool :=
  match s.revq.group with
  | some ⟨_, .waiting, _⟩ => true
  | _ => false

/-- R147: the stamp of a raise made at a boundary for the revolution that ended. -/
def State.endingStamp (s : State) : Stamp := ⟨s.modc.mode, wordOf (s.revLen - 1), s.axt.revolution⟩

/-- R26, R27, R53 to R55, R58, R91, R92, R106: MCR forms and publishes, LFU settles its account and rolls its window,
AXT advances the revolution and applies the correction, and a waiting group begins. -/
def State.turnOver (s : State) : State :=
  let c := (s.cfg.judgeRevolution s.mcr.mark).2
  let settled := { s with mcr := s.mcr.publish s.cfg, lfu := s.lfu.cancelFetch }.settleAccount s.endingStamp
  let turned :=
    { settled with
      axt := { settled.axt.correct c with revolution := settled.axt.revolution + 1 } }.setFlag .rev
  ((turned.rollWindow s.groupWaits).beginApplication true).requestFetch

/-- The revolution boundary, taken whole: every block turns over, then MODC's ladder and a pending STOP (R26, R132, R142). -/
def State.boundary (s : State) : State :=
  s.turnOver.ladderStep s.endingStamp (s.cfg.judgeRevolution s.mcr.mark).1

/-! ### Counts -/

/-- R21, R28, R32: a count reaches the speed window in every mode and the mechanical counter in the tracking modes. -/
def State.counted (s : State) (d : Int) : State :=
  { s with
    axt.net := s.axt.net + d
    axt.mech := if s.modc.mode.tracking then clampInt Config.mechMin Config.mechMax (s.axt.mech + d) else s.axt.mech }

/-- R23: a forward count in a tracking mode, by the first case that applies. -/
def State.advance (s : State) : State :=
  if 0 < s.axt.deficit then { s with axt.deficit := s.axt.deficit - 1 }
  else if 0 < s.axt.stretch then { s with axt.stretch := s.axt.stretch - 1 }
  else if s.axt.position + 1 < s.revLen then
    let p := s.axt.position + 1
    if s.axt.hwm < p then { s with axt.position := p, axt.hwm := p }.hwmAdvanced
    else { s with axt.position := p }
  else s.boundary

/-- R35: a forward count in ACQUIRE. -/
def State.acquireCount (s : State) : State :=
  let t := { s with axt.acqCount := s.axt.acqCount + 1 }
  if t.axt.acqCount = 2 * s.revLen then t.raise .acquireTimeout (.num 0) else t

/-- A forward count (R21, R23, R35). -/
def State.forward (s : State) : State :=
  let t := (s.acceptLevels (s.cfg.levelsForward s.axt.ref)).counted 1
  match s.modc.mode with
  | .config | .halted => t
  | .acquire => t.acquireCount
  | .locked | .freewheel => t.advance

/-- R25: the reverse distance. -/
def Axt.reverseDistance (a : Axt) : Nat := (a.hwm - a.position) + a.deficit

/-- R24, R25: a backward count in a tracking mode. -/
def State.retreat (s : State) : State :=
  let t :=
    if 0 < s.axt.position then { s with axt.position := s.axt.position - 1 }
    else { s with axt.deficit := s.axt.deficit + 1 }
  if s.cfg.backlash.toNat < t.axt.reverseDistance then t.raise .reversal (.num t.axt.reverseDistance) else t

/-- A backward count (R21, R24). -/
def State.backward (s : State) : State :=
  let t := (s.acceptLevels (s.cfg.levelsBackward s.axt.ref)).counted (-1)
  match s.modc.mode with
  | .config | .halted | .acquire => t
  | .locked | .freewheel => t.retreat

/-- INVALID_TRANSITION (R19); in STEP_DIR there is none (R20, log 5). -/
def State.invalidChange (s : State) : State :=
  match s.cfg.encMode with
  | .stepDir => s
  | .quadrature =>
    let t := s.acceptLevels s.axt.ref.opposite
    if s.modc.mode.running then t.raise .encoderError (.num 0) else t

/-- Whether the next forward count is the revolution boundary (R23, fourth case). -/
def State.atBoundary (s : State) : Bool :=
  s.modc.mode.tracking && s.axt.deficit == 0 && s.axt.stretch == 0 && decide (s.revLen ≤ s.axt.position + 1)

/-- Whether the next forward count brings the acquisition count to 2×L (R35). -/
def State.atTimeout (s : State) : Bool := s.modc.mode == .acquire && s.axt.acqCount + 1 == 2 * s.revLen

/-- REVOLUTION_BOUNDARY: the forward count that is the boundary; it can arrive only where R23's fourth case holds (log 4). -/
def State.boundaryCount (s : State) : State := if s.atBoundary then s.forward else s

/-- ACQUIRE_TIMEOUT: the forward count that brings the acquisition count to 2×L; it can arrive only there (log 4). -/
def State.timeoutCount (s : State) : State := if s.atTimeout then s.forward else s

/-! ### Speed -/

/-- R28: what an expiry publishes, and the new window. -/
def Axt.publishSpeed (a : Axt) : Axt :=
  { a with
    speed := min Config.speedMax a.net.toNat
    reverse := decide (a.net < 0)
    net := 0
    windowMicros := 0 }

/-- SPEED_WINDOW_EXPIRY (R28, R29, R49): published; judged for overspeed on the unsaturated net count in a running
mode; then handed to LFU (log 7). -/
def State.speedExpires (s : State) : State :=
  let published := { s with axt := s.axt.publishSpeed }
  (if s.modc.mode.running && decide ((s.cfg.overspeed.toNat : Int) < s.axt.net) then
      published.raise .overspeed (.num published.axt.speed)
    else published).recompute

/-! ### Index -/

/-- R34: an index arrival taken by the ARMED monitor ends an interval. -/
def State.endInterval (s : State) : State :=
  let deviation := s.axt.mech - s.revLen
  let slip := clampInt Config.int16Min Config.int16Max deviation
  let published := { s with axt.lastSlip := slip, axt.mech := 0 }
  if s.cfg.slipTolerance.toNat < deviation.natAbs then published.raise .indexSlip (.num slip) else published

/-- INDEX_ARRIVAL (R31, R33, R34). -/
def State.indexArrives (s : State) : State :=
  match s.modc.mode with
  | .config | .halted => s
  | .acquire =>
    match s.cfg.acqSource with
    | .index => s.acquire s.indexPoint true
    | .mark | .immediate => s
  | .locked | .freewheel =>
    if s.cfg.indexMonitor = false then s
    else if s.axt.armed then s.endInterval
    else { s with axt.armed := true, axt.mech := 0 }

def execForwardCount (s : State) : Host.Outcome State Fault Refusal := s.taken State.forward
def execBackwardCount (s : State) : Host.Outcome State Fault Refusal := s.taken State.backward
def execInvalidTransition (s : State) : Host.Outcome State Fault Refusal := s.taken State.invalidChange
def execRevolutionBoundary (s : State) : Host.Outcome State Fault Refusal := s.taken State.boundaryCount
def execAcquireTimeout (s : State) : Host.Outcome State Fault Refusal := s.taken State.timeoutCount
def execSpeedWindowExpiry (s : State) : Host.Outcome State Fault Refusal := s.taken State.speedExpires
def execIndexArrival (s : State) : Host.Outcome State Fault Refusal := s.taken State.indexArrives

end Sys2Proof.Machine
end

