-- ==== Sys2Proof/Machine/Resets.lean ====
section
/-! DEFINITION. Power-on, the RESET pin held and released, and SOFT_RESET with each block's part in it. -/

namespace Sys2Proof.Machine

/-- The interlock state a level of ENABLE gives (R75). -/
def interlockOf (enable : Bool) : Interlock := if enable then .closed else .opened

/-- The state after power-on and after the release of the RESET pin, with the input levels then (R15, R39, R62, R78,
R98, R121, R144, R156, R161, R181). The two inputs are not the part's. POWER_ON ends a hold of the RESET pin: the spec is
silent on a pin that is still held when power comes up, and this is the model's choice (log 13). -/
def State.resetTo (s : State) (p : Pins) : State :=
  { State.reset with
    axt := Axt.reset ⟨p.encA, p.encB⟩
    out := Out.reset (interlockOf p.enable)
    pins := p
    encInput := s.encInput
    pending := s.pending }

/-- RESET_PIN_HELD (R15, R78, R161, R181): the part stands in its reset state, lines at 0 and INT released, for as
long as the pin is held (log 13). -/
def State.holdReset (s : State) : State := { s.resetTo s.pins with resetHeld := true }

/-- R40: AXT at SOFT_RESET, with the decoder reference state from the pins. -/
def State.softAxt (s : State) : Axt := Axt.reset ⟨s.pins.encA, s.pins.encB⟩

/-- R63: LFU at SOFT_RESET; its fetch in flight is cancelled. -/
def Lfu.softReset (l : Lfu) : Lfu := { l.quiesce with late := 0, unexamined := 0 }

/-- R79: OUT at SOFT_RESET; every line goes to its safe level and the interlock state is taken from ENABLE. -/
def State.softOut (s : State) : Out :=
  { s.out.claimAll s.cfg with interlock := interlockOf s.pins.enable, suppressed := 0 }

/-- SOFT_RESET (R16, R40, R63, R79, R99, R122, R137, R156, R181): refused with BUSY while an application is in
progress; else every block takes its soft-reset effects, and the configuration words, the table, a pending read-back,
the read-back record, the turn, the staging record and COMMAND_ARG are kept. The speed window begins anew with the
microsecond under way, whose length stays the one it had, a TIMEBASE_DIV written but not yet in force acting from the
microsecond after it: the model's choice (log 10). The fault view latch holds 0 afterwards, as R156, R165 and R181 say,
so a read of FAULT_CAUSE before the SOFT_RESET and of the held words after it do not show one record, which an earlier
sentence of R154 says they do: the model's choice between the two (log 19). -/
def State.cmdSoftReset (s : State) : State :=
  if s.applying then s.answer .softReset .busy
  else
    { s with
      axt := s.softAxt
      lfu := s.lfu.softReset
      out := s.softOut
      mcr := Mcr.reset
      revq := Revq.reset s.revq.staging
      modc := Modc.reset
      flt := ⟨[]⟩
      biu := Biu.reset s.biu.arg ⟨commandCode .softReset, .ok, 0⟩ s.biu.dataOut
      tb.elapsed := 0 }

def execPowerOn (p : Pins) (s : State) : Host.Outcome State Fault Refusal := .next (s.resetTo p)
def execResetPin (p : Pins) (s : State) : Host.Outcome State Fault Refusal := .next (s.resetTo p)
def execResetPinHeld (s : State) : Host.Outcome State Fault Refusal := .next s.holdReset
def execSoftReset (s : State) : Host.Outcome State Fault Refusal := s.taken State.cmdSoftReset

end Sys2Proof.Machine
end

