-- ==== Sys2Proof/Machine/Window.lean ====
section
/-! DEFINITION. The register window: what each word reads, the leading-word latches, and what a bus write to each address does. -/

namespace Sys2Proof.Machine

/-! ### The words -/

/-- POSITION (R22): the acquisition count modulo 65,536 in ACQUIRE, else the position. -/
def State.positionWord (s : State) : Word :=
  match s.modc.mode with
  | .acquire => wordOf s.axt.acqCount
  | _ => wordOf s.axt.position

/-- The present values of the words held by the position group (R22, R165). -/
def State.positionGroup (s : State) : PositionHold :=
  match s.modc.mode with
  | .acquire => ⟨0, 0, 0, 0, s.axt.speedWord⟩
  | _ => ⟨s.axt.revolution, wordOf s.axt.hwm, wordOf s.axt.deficit, wordOf s.axt.stretch, s.axt.speedWord⟩

/-- COMMIT_RESULT (R178). -/
def ResultRecord.leadingWord (r : ResultRecord) : Word := wordOf (r.sequence.toNat + place r.outcome.code 8)

/-- The present values of the words held by the commit result group (R165, R178). -/
def ResultRecord.group (r : ResultRecord) : ResultHold := ⟨r.outcome.failureWord, wordOf r.tableCount⟩

/-- FAULT_CAUSE (R153, R180): the highest pending cause, whether it halts, and the pending count. -/
def Flt.causeWord (f : Flt) : Word :=
  match f.causes with
  | [] => 0
  | r :: _ => wordOf (r.cause.code + placeBit r.cause.halting 4 + place f.causes.length 8)

/-- The present values of the fault view (R153, R154, R180), with the cause word. -/
def Flt.viewWords (f : Flt) : FaultHold :=
  match f.causes with
  | [] => ⟨f.causeWord, 0, 0, 0, 0⟩
  | r :: _ => ⟨f.causeWord, wordOf (r.repeats + place r.mode.code 8), r.position, r.revolution, r.detail.word⟩

/-- MODE_STATUS (R176). -/
def State.modeStatus (s : State) : Word :=
  wordOf (s.modc.mode.code + placeBit s.modc.stopPending 3 + place s.modc.haltReason.code 4 + place s.revq.lock.val 8
    + placeBit (s.out.interlock == .closed) 10 + placeBit s.applying 11)

/-- REVQ_STATUS (R178). -/
def State.revqStatus (s : State) : Word :=
  wordOf (s.revq.opens.length + place (s.revq.held - s.revq.opens.length) 5 + placeBit s.applying 10)

/-- WINDOW_STATUS (R61, R176). -/
def Lfu.status (l : Lfu) : Word :=
  wordOf (l.window.length +
    match l.cursor with
    | .parked => 0
    | .reading i .current => place 1 4 + place i 8
    | .reading i .next => place 2 4 + place i 8)

/-- LADDER_STATUS (R176). -/
def State.ladderStatus (s : State) : Word :=
  wordOf (s.modc.badRun + place s.modc.goodRun 4 + place s.mcr.lastVerdict.code 9 + place s.mcr.lastExtra 12)

/-- CAP_STATUS (R179). -/
def Mcr.status (m : Mcr) : Word := wordOf (m.queue.length + placeBit (!m.queue.isEmpty) 15)

/-- CAP_INFO of the head record (R179). -/
def CaptureRecord.info (r : CaptureRecord) : Word := wordOf (r.sensor.val + place (edgeCode r.edge) 2 + place r.cls.code 4)

/-- PENDING_SET (R180). -/
def Flt.pendingWord (f : Flt) : Word := wordOf ((f.causes.map fun r => 2 ^ (r.cause.code - 1)).sum)

/-- The configuration word a frozen word with no row of its own reads (R174, R175). -/
def Cfg.readFrozen (c : Cfg) : FrozenWord → Word
  | .revLength => c.revLength
  | .guardZone => c.guardZone
  | .maxCorr => wordOf c.maxCorr.toNat
  | .backlash => wordOf c.backlash.toNat
  | .overspeed => wordOf c.overspeed.toNat
  | .indexPos => c.indexPos
  | .slipCfg => wordOf (c.slipTolerance.toNat + placeBit c.indexMonitor 15)
  | .regCfg => wordOf (placeBit c.regEnable 0 + place c.gainShift.toNat 4 + place c.markSensor.val 8)
  | .winOpen => c.winOpen
  | .markNominal => c.markNominal
  | .winClose => c.winClose
  | .ladderCfg => wordOf (c.fwa.toNat + place c.ha.toNat 4)
  | .sensorCfg =>
    wordOf (c.sensorSel[0].code + place c.sensorSel[1].code 2 + place c.sensorSel[2].code 4 + place c.sensorSel[3].code 6)
  | .leadTime i => c.leadTime[i]
  | .protectedLines => c.protectedLines
  | .criticalLines => c.criticalLines

/-- What a word that can be written reads (R164): the stored value; a strobe reads 0. -/
def State.readTarget (s : State) : WriteTarget → Word
  | .discarded => 0
  | .strobe _ => 0
  | .frozen w => s.cfg.readFrozen w
  | .encoderCfg => wordOf (s.cfg.encMode.code + placeBit s.cfg.encInvert 1 + place s.cfg.encFilter.toNat 4)
  | .timebaseDiv => wordOf s.cfg.timebaseDiv.toNat
  | .acqCfg => wordOf (s.cfg.acqSource.code + place s.revq.lock.val 4)
  | .safeLevels => s.cfg.safeLevels
  | .intFlags => wordOf s.biu.flags.toNat
  | .intEnable => wordOf s.biu.enables.toNat
  | .stickyStatus => wordOf s.biu.sticky.toNat
  | .commandArg => s.biu.arg
  | .manualLevels => s.cfg.manualLevels
  | .relockCfg => wordOf s.cfg.rla.toNat
  | .stagingPosition => s.revq.staging.position
  | .stagingControl => s.revq.staging.controlWord
  | .stagingWidth => s.revq.staging.width
  | .stagingTag => wordOf s.revq.staging.tag.toNat

/-- The value each word of the window holds (R163, R164, register map of 9.5). An address not listed reads 0. -/
def State.readWord (s : State) (addr : BitVec 7) : Word :=
  match addr.toNat with
  | 0x00 => Config.ident
  | 0x01 => Config.siliconRev
  | 0x02 => s.modeStatus
  | 0x06 => s.biu.result.word
  | 0x0A => s.positionWord
  | 0x0B => s.biu.positionHold.revolution
  | 0x0C => s.biu.positionHold.hwm
  | 0x0D => s.biu.positionHold.deficit
  | 0x0E => s.biu.positionHold.stretch
  | 0x0F => s.biu.positionHold.speed
  | 0x34 => wordOfLines fun i => s.out.lines[i].level
  | 0x35 => wordOfLines fun i => s.out.lines[i].timerRuns
  | 0x44 => s.revqStatus
  | 0x45 => wordOf s.revq.nextSeq.toNat
  | 0x46 => (s.cam.record.entry.map Entry.position).getD 0
  | 0x47 => (s.cam.record.entry.map Entry.controlWord).getD 0
  | 0x48 => (s.cam.record.entry.map Entry.widthWord).getD 0
  | 0x49 => (s.cam.record.entry.map fun e => wordOf e.tag.toNat).getD 0
  | 0x4A => wordOf (s.cam.record.index + placeBit s.cam.record.entry.isSome 15)
  | 0x4C => s.revq.result.leadingWord
  | 0x4D => s.biu.resultHold.failure
  | 0x4E => s.biu.resultHold.count
  | 0x50 => s.mcr.status
  | 0x51 => (s.mcr.queue.head?.map CaptureRecord.info).getD 0
  | 0x52 => (s.mcr.queue.head?.map CaptureRecord.position).getD 0
  | 0x53 => (s.mcr.queue.head?.map CaptureRecord.revolution).getD 0
  | 0x54 => wordOf s.mcr.overflow
  | 0x58 => s.flt.causeWord
  | 0x59 => s.biu.faultHold.repeats
  | 0x5A => s.biu.faultHold.position
  | 0x5B => s.biu.faultHold.revolution
  | 0x5C => s.biu.faultHold.detail
  | 0x5D => s.flt.pendingWord
  | 0x60 => wordOf s.lfu.late
  | 0x61 => wordOf s.lfu.unexamined
  | 0x62 => wordOf s.out.suppressed
  | 0x63 => s.ladderStatus
  | 0x64 => wordOfInt s.mcr.lastDeviation
  | 0x65 => wordOfInt s.mcr.lastCorrection
  | 0x66 => wordOfInt s.axt.lastSlip
  | 0x67 => s.lfu.status
  | 0x68 => wordOf s.cam.table.length
  | _ => s.readTarget (writeTarget addr)

/-! ### The reads that change state -/

/-- POSITION_READ (R165): the value goes onto the data lines and the rest of the group is latched. -/
def State.readPosition (s : State) : State :=
  { s with biu.positionHold := s.positionGroup, biu.dataOut := some s.positionWord }

/-- COMMIT_RESULT_READ (R113, R165): latched, and the result-read indication is set. -/
def State.readCommitResult (s : State) : State :=
  { s with
    biu.resultHold := s.revq.result.group
    biu.dataOut := some s.revq.result.leadingWord
    revq.resultRead := true }

/-- FAULT_CAUSE_READ (R154, R165): the view is latched. -/
def State.readFaultCause (s : State) : State :=
  { s with biu.faultHold := s.flt.viewWords, biu.dataOut := some s.flt.causeWord }

/-! ### Writes -/

/-- INT_FLAGS_WRITE (R158): each flag written 1 is cleared. -/
def State.writeIntFlags (s : State) (v : Word) : State :=
  { s with biu.flags := s.biu.flags &&& ~~~(v.extractLsb' 0 6) }

/-- INT_ENABLE_WRITE (R159). -/
def State.writeIntEnable (s : State) (v : Word) : State := { s with biu.enables := v.extractLsb' 0 6 }

/-- STICKY_STATUS_WRITE (R162): each indication written 1 is cleared. -/
def State.writeSticky (s : State) (v : Word) : State :=
  { s with biu.sticky := s.biu.sticky &&& ~~~(v.extractLsb' 0 2) }

/-- FROZEN_WORD_WRITE (R172): stored in CONFIG, else discarded whole with ACCESS_VIOLATION set. -/
def State.writeFrozen (s : State) (w : FrozenWord) (v : Word) : State :=
  if s.modc.mode ≠ .config then s.setAccessViolation else { s with cfg := s.cfg.store w v }

/-- ENCODER_CFG_WRITE (R17, R172): in CONFIG the value is stored and the reference state is retaken from the pins. -/
def State.writeEncoderCfg (s : State) (v : Word) : State :=
  if s.modc.mode ≠ .config then s.setAccessViolation
  else { s with cfg := s.cfg.storeEncoder v, axt.ref := ⟨s.pins.encA, s.pins.encB⟩ }

/-- TIMEBASE_DIV_WRITE (R30, R172): the microsecond under way keeps its length. -/
def State.writeTimebaseDiv (s : State) (v : Word) : State :=
  if s.modc.mode ≠ .config then s.setAccessViolation else { s with cfg.timebaseDiv := v.extractLsb' 0 6 }

/-- A command given by a strobe write (R168). -/
def State.runCommand (s : State) : Command → State
  | .start => s.cmdStart
  | .stop => s.cmdStop
  | .haltNow => s.cmdHaltNow
  | .clearHalt => s.cmdClearHalt
  | .softReset => s.cmdSoftReset
  | .ackFault => s.cmdAckFault
  | .popCapture => s.cmdPopCapture
  | .applyManual => s.cmdApplyManual
  | .clearCounters => s.cmdClearCounters
  | .submitInsert => s.cmdSubmitInsert
  | .submitRemove => s.cmdSubmitRemove
  | .submitModify => s.cmdSubmitModify
  | .commit => s.cmdCommit
  | .discardOpen => s.cmdDiscardOpen
  | .readEntry => s.cmdReadEntry
  | .clearTable => s.cmdClearTable
  | .raiseLock => s.cmdRaiseLock

/-- A write to COMMAND_A or COMMAND_B (R167). -/
def State.writeStrobe (s : State) (r : StrobeReg) (v : Word) : State :=
  match strobeDecode r v with
  | .nothing => s
  | .command c => s.runCommand c
  | .noSingleCommand => { s with biu.result := ⟨noCommandCode r, .badArgument, 0⟩ }

/-- A bus write, by what it reaches (R164, R169, R172). -/
def State.busWrite (s : State) (t : WriteTarget) (v : Word) : State :=
  match t with
  | .discarded => s
  | .strobe r => s.writeStrobe r v
  | .frozen w => s.writeFrozen w v
  | .encoderCfg => s.writeEncoderCfg v
  | .timebaseDiv => s.writeTimebaseDiv v
  | .acqCfg => s.writeAcqCfg v
  | .safeLevels => s.writeSafeLevels v
  | .intFlags => s.writeIntFlags v
  | .intEnable => s.writeIntEnable v
  | .stickyStatus => s.writeSticky v
  | .commandArg => { s with biu.arg := v }
  | .manualLevels => { s with cfg.manualLevels := v }
  | .relockCfg => { s with cfg.rla := v.extractLsb' 0 5 }
  | .stagingPosition => { s with revq.staging.position := v }
  | .stagingControl => { s with revq.staging := s.revq.staging.storeControl v }
  | .stagingWidth => { s with revq.staging.width := v }
  | .stagingTag => { s with revq.staging.tag := v.extractLsb' 0 8 }

def execInvalidCommandWrite (reg : StrobeReg) (data : Word) (s : State) : Host.Outcome State Fault Refusal :=
  s.taken fun s => s.writeStrobe reg data
def execIntFlagsWrite (data : Word) (s : State) : Host.Outcome State Fault Refusal := s.taken fun s => s.writeIntFlags data
def execIntEnableWrite (data : Word) (s : State) : Host.Outcome State Fault Refusal := s.taken fun s => s.writeIntEnable data
def execStickyStatusWrite (data : Word) (s : State) : Host.Outcome State Fault Refusal := s.taken fun s => s.writeSticky data
def execFrozenWordWrite (word : FrozenWord) (data : Word) (s : State) : Host.Outcome State Fault Refusal :=
  s.taken fun s => s.writeFrozen word data
def execEncoderCfgWrite (data : Word) (s : State) : Host.Outcome State Fault Refusal := s.taken fun s => s.writeEncoderCfg data
def execTimebaseDivWrite (data : Word) (s : State) : Host.Outcome State Fault Refusal := s.taken fun s => s.writeTimebaseDiv data

/-- REGISTER_WRITE (R164): a write to any address does what the register map gives; an address whose word has a row
of its own does what that row does. -/
def execRegisterWrite (addr : BitVec 7) (data : Word) (s : State) : Host.Outcome State Fault Refusal :=
  s.taken fun s => s.busWrite (writeTarget addr) data

def execPositionRead (s : State) : Host.Outcome State Fault Refusal := s.taken State.readPosition
def execCommitResultRead (s : State) : Host.Outcome State Fault Refusal := s.taken State.readCommitResult
def execFaultCauseRead (s : State) : Host.Outcome State Fault Refusal := s.taken State.readFaultCause

end Sys2Proof.Machine
end

