-- ==== Sys2Proof/Machine/Timebase.lean ====
section
/-! DEFINITION. The time base: one period of REFCLK, the encoder levels taken in it, the microsecond it may end, and the commands that fall due then. -/

namespace Sys2Proof.Machine

/-- R30: the divider as the time base uses it, held in 10..50. -/
def Cfg.divider (c : Cfg) : Nat := max Config.dividerMin (min Config.dividerMax c.timebaseDiv.toNat)

/-- R65: a running pulse timer counts one microsecond down. -/
def LineState.countDown : LineState → LineState
  | .pulsing r => .pulsing (r - 1)
  | l => l

/-- R65: whether a pulse's remaining time reaches 0 with this microsecond. -/
def LineState.endsNow : LineState → Bool
  | .pulsing r => r ≤ 1
  | _ => false

/-- The application in progress has run one microsecond more (R108). -/
def Group.countUp (g : Group) : Group :=
  match g.phase with
  | .waiting => g
  | .applying b n => { g with phase := .applying b (n + 1) }

/-- R108: whether an application has run to its bound. -/
def Group.atBound (g : Group) : Bool :=
  match g.phase with
  | .waiting => false
  | .applying _ n => decide (Config.applicationBound g.revisions.length ≤ n)

/-- The pulses that end with this microsecond, lowest line first. -/
def Out.duePulses (o : Out) : List Instr :=
  ((List.finRange 16).filter fun i => o.lines[i].endsNow).map .pulseExpiry

/-- The access of the port that ends with this microsecond: a fetch or a read-back after 1 µs (R7), an application at
its bound (R108, log 11). -/
def State.dueAccess (s : State) : List Instr :=
  match s.cam.port with
  | .free => []
  | .fetch _ => [.fetchCompletion]
  | .readback _ _ => [.readbackCompletion]
  | .application => if (s.revq.group.map Group.atBound).getD false then [.applicationCompletion] else []

/-- The expiry of the speed window after 1,000 µs (R28). -/
def Axt.dueExpiry (a : Axt) : List Instr :=
  if Config.speedWindowMicros ≤ a.windowMicros then [.speedWindowExpiry] else []

/-- A microsecond has passed: timers, the speed window and an application are counted, and what falls due is queued,
the pulses first (log 9). -/
def State.microsecond (s : State) : State :=
  let counted :=
    { s with
      out.lines := Vector.ofFn fun i => s.out.lines[i].countDown
      axt.windowMicros := s.axt.windowMicros + 1
      revq.group := s.revq.group.map Group.countUp }
  { counted with pending := s.pending ++ (s.out.duePulses ++ counted.dueAccess ++ counted.axt.dueExpiry) }

/-- The count command that is a change of pin levels, if the change is a count or an invalid transition (R18 to R20). -/
def Change.command : Change → Option Instr
  | .forward => some .forwardCount
  | .backward => some .backwardCount
  | .invalid => some .invalidTransition
  | .noCount => none

/-- R17: the next levels of ENC_A and ENC_B are judged against the reference state. A change that makes no count becomes
the new reference state at once; a count or an invalid transition is queued as the command that moves it (log 3). -/
def State.takeLevels (s : State) : State :=
  match s.encInput with
  | [] => s
  | l :: rest =>
    let t := { s with encInput := rest }
    match (s.cfg.decodeChange s.axt.ref l).command with
    | some c => { t with pending := s.pending ++ [c] }
    | none => t.acceptLevels l

/-- R30: the clock's part of one REFCLK period: the last of a microsecond begins the next one with the divider then in
force. -/
def State.tick (s : State) : State :=
  if s.tb.elapsed + 1 < s.tb.length then { s with tb.elapsed := s.tb.elapsed + 1 }
  else { s with tb := ⟨s.cfg.divider, 0⟩ }.microsecond

/-- One period of REFCLK. No time is kept and no change of the encoder pins is taken while the RESET pin is held (R39). -/
def State.refclk (s : State) : State := if s.resetHeld then s else s.takeLevels.tick

end Sys2Proof.Machine
end

