-- ==== Sys2Proof/Machine/Dispatch.lean ====
section
/-! DEFINITION. One arm for each command of the opcode table, each one call of the command's meaning. -/

namespace Sys2Proof.Machine

def exec (i : Instr) (s : State) : Host.Outcome State Fault Refusal :=
  match i with
  | .forwardCount => Sys2Proof.Machine.execForwardCount s
  | .backwardCount => Sys2Proof.Machine.execBackwardCount s
  | .invalidTransition => Sys2Proof.Machine.execInvalidTransition s
  | .revolutionBoundary => Sys2Proof.Machine.execRevolutionBoundary s
  | .acquireTimeout => Sys2Proof.Machine.execAcquireTimeout s
  | .indexArrival => Sys2Proof.Machine.execIndexArrival s
  | .speedWindowExpiry => Sys2Proof.Machine.execSpeedWindowExpiry s
  | .sensorEdge sensor edge => Sys2Proof.Machine.execSensorEdge sensor edge s
  | .interlockOpening => Sys2Proof.Machine.execInterlockOpening s
  | .interlockClosing => Sys2Proof.Machine.execInterlockClosing s
  | .pulseExpiry line => Sys2Proof.Machine.execPulseExpiry line s
  | .fetchCompletion => Sys2Proof.Machine.execFetchCompletion s
  | .readbackCompletion => Sys2Proof.Machine.execReadbackCompletion s
  | .applicationCompletion => Sys2Proof.Machine.execApplicationCompletion s
  | .powerOn pins => Sys2Proof.Machine.execPowerOn pins s
  | .resetPin pins => Sys2Proof.Machine.execResetPin pins s
  | .start => Sys2Proof.Machine.execStart s
  | .stop => Sys2Proof.Machine.execStop s
  | .haltNow => Sys2Proof.Machine.execHaltNow s
  | .clearHalt => Sys2Proof.Machine.execClearHalt s
  | .softReset => Sys2Proof.Machine.execSoftReset s
  | .ackFault => Sys2Proof.Machine.execAckFault s
  | .popCapture => Sys2Proof.Machine.execPopCapture s
  | .applyManual => Sys2Proof.Machine.execApplyManual s
  | .clearCounters => Sys2Proof.Machine.execClearCounters s
  | .submitInsert => Sys2Proof.Machine.execSubmitInsert s
  | .submitRemove => Sys2Proof.Machine.execSubmitRemove s
  | .submitModify => Sys2Proof.Machine.execSubmitModify s
  | .commit => Sys2Proof.Machine.execCommit s
  | .discardOpen => Sys2Proof.Machine.execDiscardOpen s
  | .readEntry => Sys2Proof.Machine.execReadEntry s
  | .clearTable => Sys2Proof.Machine.execClearTable s
  | .raiseLock => Sys2Proof.Machine.execRaiseLock s
  | .invalidCommandWrite reg data => Sys2Proof.Machine.execInvalidCommandWrite reg data s
  | .intFlagsWrite data => Sys2Proof.Machine.execIntFlagsWrite data s
  | .intEnableWrite data => Sys2Proof.Machine.execIntEnableWrite data s
  | .stickyStatusWrite data => Sys2Proof.Machine.execStickyStatusWrite data s
  | .frozenWordWrite word data => Sys2Proof.Machine.execFrozenWordWrite word data s
  | .encoderCfgWrite data => Sys2Proof.Machine.execEncoderCfgWrite data s
  | .timebaseDivWrite data => Sys2Proof.Machine.execTimebaseDivWrite data s
  | .acqCfgWrite data => Sys2Proof.Machine.execAcqCfgWrite data s
  | .safeLevelsWrite data => Sys2Proof.Machine.execSafeLevelsWrite data s
  | .registerWrite addr data => Sys2Proof.Machine.execRegisterWrite addr data s
  | .positionRead => Sys2Proof.Machine.execPositionRead s
  | .commitResultRead => Sys2Proof.Machine.execCommitResultRead s
  | .faultCauseRead => Sys2Proof.Machine.execFaultCauseRead s
  | .resetPinHeld => Sys2Proof.Machine.execResetPinHeld s

end Sys2Proof.Machine
end

