-- ==== Sys2Proof/Machine/Step.lean ====
section
/-! DEFINITION. One step: the command at the front of the queue, or one period of REFCLK when the queue is empty. -/

namespace Sys2Proof.Machine

/-- The command at the front of the queue runs on the queue's rest; on an empty queue the clock runs (log 9). -/
def step (s : State) : Host.Outcome State Fault Refusal :=
  match s.pending with
  | [] => .next s.refclk
  | c :: rest => exec c { s with pending := rest }

/-- The state with the command that a word spells put at the front of the queue; no word spells one. -/
def State.withFetchWord (s : State) (nbits w : Nat) : State :=
  match decodeTableWord nbits w with
  | some c => { s with pending := c :: s.pending }
  | none => s

end Sys2Proof.Machine
end

