-- ==== Sys2Proof/Safety.lean ====
section
/-! DEFINITION. The laws of the spec as predicates on a state, and the words in which a claim says what a command leaves unchanged. -/

namespace Sys2Proof.Machine

/-! ### Frames -/

/-- The parts of the state that a claim may name as changed. -/
inductive Part where
  | cfg
  | axt
  | cam
  | lfu
  | out
  | mcr
  | revq
  | modc
  | flt
  | biu
  | pins
  | tb
  deriving DecidableEq, Repr

/-- Two states agree on a part. -/
def State.agreesOn (s t : State) : Part → Prop
  | .cfg => t.cfg = s.cfg
  | .axt => t.axt = s.axt
  | .cam => t.cam = s.cam
  | .lfu => t.lfu = s.lfu
  | .out => t.out = s.out
  | .mcr => t.mcr = s.mcr
  | .revq => t.revq = s.revq
  | .modc => t.modc = s.modc
  | .flt => t.flt = s.flt
  | .biu => t.biu = s.biu
  | .pins => t.pins = s.pins
  | .tb => t.tb = s.tb

/-- `t` is `s` in every part but those listed; the RESET pin and the two inputs are as before. -/
def State.sameBut (changed : List Part) (s t : State) : Prop :=
  (∀ p, p ∉ changed → s.agreesOn t p) ∧ t.resetHeld = s.resetHeld ∧ t.encInput = s.encInput ∧ t.pending = s.pending

/-- The three commands that are no events of a running part: power-on and the two changes of the RESET pin. -/
def isHardReset : Instr → Bool
  | .powerOn _ | .resetPin _ | .resetPinHeld => true
  | _ => false

/-! ### The laws -/

/-- R4: one entry's key, its position and then its line, is below another's. -/
def Entry.before (a b : Entry) : Prop :=
  a.position.toNat < b.position.toNat ∨ (a.position = b.position ∧ a.line.val < b.line.val)

/-- R4: at most 192 entries, in strictly ascending order of key. -/
def tableOk (t : List Entry) : Prop := t.Pairwise Entry.before ∧ t.length ≤ 192

def State.TableLaw (s : State) : Prop := tableOk s.cam.table

/-- R150: each cause at most once (in priority order), at most one halting, and a halting one only in HALTED. -/
def State.PendingLaw (s : State) : Prop :=
  s.flt.causes.Pairwise (fun a b => a.cause.code < b.cause.code)
    ∧ (s.flt.causes.filter fun r => decide (r.cause.code ≤ 6)).length ≤ 1
    ∧ ((∃ r ∈ s.flt.causes, r.cause.code ≤ 6) → s.modc.mode = .halted)

/-- R151: no halting cause is pending. -/
def State.NoneHalting (s : State) : Prop := ∀ r ∈ s.flt.causes, 6 < r.cause.code

/-- R22 and R25: the relations of the position record that one state shows, and the law of the position in the tracking
modes. That hwm never decreases within a revolution is `HwmHolds`. -/
def State.PositionLaw (s : State) : Prop :=
  s.axt.position ≤ s.axt.hwm
    ∧ (0 < s.axt.deficit → s.axt.position = 0)
    ∧ (0 < s.axt.stretch → s.axt.position = 0 ∧ s.axt.hwm = 0)
    ∧ (s.modc.mode.tracking = true → (s.axt.hwm - s.axt.position) + s.axt.deficit ≤ s.cfg.backlash.toNat)

/-- R22, the fourth relation: from a tracking mode to a state of the same revolution that tracks on or is halted, hwm
does not decrease. -/
def State.HwmHolds (s t : State) : Prop :=
  s.modc.mode.tracking = true → t.modc.mode.tracking = true ∨ t.modc.mode = .halted →
    t.axt.revolution = s.axt.revolution → s.axt.hwm ≤ t.axt.hwm

/-- R125: which of the seven checks of START fail. -/
def State.FailsCheck (s : State) (k : Nat) : Prop :=
  let L := s.cfg.revLength.toNat
  let Z := s.cfg.guardZone.toNat
  let nominal := s.cfg.markNominal.toNat
  match k with
  | 1 => L < 64
  | 2 => Z < 8 ∨ 4095 < Z ∨ L < 4 * Z
  | 3 => Z ≤ s.cfg.maxCorr.toNat
  | 4 => (s.cfg.regEnable = true
        ∧ ¬(Z ≤ s.cfg.winOpen.toNat ∧ s.cfg.winOpen.toNat ≤ nominal ∧ nominal ≤ s.cfg.winClose.toNat
            ∧ s.cfg.winClose.toNat < L))
      ∨ (s.cfg.regEnable = false ∧ s.cfg.acqSource = .mark ∧ ¬(Z ≤ nominal ∧ nominal < L))
  | 5 => s.cfg.fwa.toNat = 0 ∨ s.cfg.ha.toNat < s.cfg.fwa.toNat ∨ s.cfg.rla.toNat = 0
  | 6 => s.cfg.timebaseDiv.toNat < 10 ∨ 50 < s.cfg.timebaseDiv.toNat
  | 7 => ∃ e ∈ s.cam.table, e.position.toNat < Z ∨ L ≤ e.position.toNat
  | _ => False

/-- R5, R27, R126: in a running mode the geometry is one that START accepts (its checks 1 to 4, 6 and 7), so that every
entry stands in [Z, L-1]; in a tracking mode hwm is below L. Check 5 judges RELOCK_CFG too, which may be written in a
run (R124). -/
def State.GeometryLaw (s : State) : Prop :=
  (s.modc.mode.running = true → ∀ k, k ≠ 5 → ¬s.FailsCheck k)
    ∧ (s.modc.mode.tracking = true → s.axt.hwm < s.cfg.revLength.toNat)

/-- R42: one slot stands before another: CURRENT before NEXT, and by index within a tag. -/
def Slot.before (x y : Slot) : Prop :=
  (x.tag = .current ∧ y.tag = .next) ∨ (x.tag = y.tag ∧ x.index < y.index)

/-- R43: the cursor has passed a slot's place. -/
def Slot.passedBy (x : Slot) : Cursor → Prop
  | .parked => True
  | .reading i tag => (x.tag = .current ∧ tag = .next) ∨ (x.tag = tag ∧ x.index < i)

/-- R41, R42, R44, R45, R48, R50, R58, R59: at most 8 slots, in window order and behind the cursor, so that no two copy
one entry for one revolution; each copies the table's entry at its index, has an effective position in [Z, L-1], and is
not due, outside an evaluation, when it is CURRENT; outside the tracking modes, and during an application, there is no
slot and no fetch is in flight but a cancelled one; a fetch that is not cancelled names the cursor's place and leaves
room, and a granted one holds the port with the entry at its index. -/
def State.WindowLaw (s : State) : Prop :=
  s.lfu.window.length ≤ 8
    ∧ s.lfu.window.Pairwise Slot.before
    ∧ (∀ x ∈ s.lfu.window, x.passedBy s.lfu.cursor)
    ∧ (s.modc.mode.tracking = false →
        s.lfu.window = [] ∧ s.lfu.cursor = .parked ∧ s.lfu.deferred = none
          ∧ ∀ f, s.lfu.fetch = some f → f.state = .cancelled)
    ∧ (s.lfu.deferred.isSome = true → s.lfu.window = [] ∧ s.lfu.cursor = .parked)
    ∧ (∀ f, s.lfu.fetch = some f → f.state ≠ .cancelled →
        s.lfu.cursor = .reading f.index f.tag ∧ s.lfu.window.length < 8)
    ∧ (s.applying = true → s.lfu.window = [] ∧ ∀ f, s.lfu.fetch = some f → f.state = .cancelled)
    ∧ (∀ f, s.lfu.fetch = some f → f.state = .granted → s.cam.port = .fetch s.cam.table[f.index]?)
    ∧ (∀ x ∈ s.lfu.window, s.cam.table[x.index]? = some x.entry
        ∧ s.cfg.guardZone.toNat ≤ x.eff ∧ x.eff < s.cfg.revLength.toNat
        ∧ (x.tag = .current → s.axt.hwm < x.eff))

/-- R69, R71: a line at its safe level, with no timer. -/
def Cfg.atSafeLevel (c : Cfg) (i : LineNo) : LineState := if c.safeLevels.getLsbD i then .high else .low

/-- R72, R76: in ACQUIRE and HALTED every line is at its safe level, and in FREEWHEEL every critical line; while the
interlock is OPEN every line is, in every mode. -/
def State.LinesLaw (s : State) : Prop :=
  (s.modc.mode = .acquire ∨ s.modc.mode = .halted → ∀ i : LineNo, s.out.lines[i] = s.cfg.atSafeLevel i)
    ∧ (s.modc.mode = .freewheel →
        ∀ i : LineNo, s.cfg.criticalLines.getLsbD i = true → s.out.lines[i] = s.cfg.atSafeLevel i)
    ∧ (s.out.interlock = .opened → ∀ i : LineNo, s.out.lines[i] = s.cfg.atSafeLevel i)

/-- R138: the runs stay in their ranges, and in LOCKED with registration enabled bad run is below FWA. -/
def State.LadderLaw (s : State) : Prop :=
  s.modc.badRun ≤ Config.badRunMax ∧ s.modc.goodRun ≤ Config.goodRunMax
    ∧ (s.modc.mode.running = true → 0 < s.cfg.fwa.toNat)
    ∧ (s.modc.mode = .locked → s.cfg.regEnable = true → s.modc.badRun < s.cfg.fwa.toNat)

/-- R60, R77, R84, R87, R103, R149: the queues hold at most 16, and the counts stay in their ranges. -/
def State.CountsLaw (s : State) : Prop :=
  s.mcr.queue.length ≤ Config.capturePlaces
    ∧ (match s.revq.group with
      | some g => g.revisions.length
      | none => 0) + s.revq.opens.length ≤ Config.revisionPlaces
    ∧ s.mcr.overflow ≤ Config.overflowMax ∧ s.lfu.late ≤ Config.count16Max
    ∧ s.lfu.unexamined ≤ Config.count16Max ∧ s.out.suppressed ≤ Config.count16Max
    ∧ ∀ r ∈ s.flt.causes, r.repeats ≤ Config.repeatMax

/-! ### What a claim says of a halt and of a raise -/

/-- R115: whether a group waits for its boundary. -/
def State.HasWaitingGroup (s : State) : Prop := ∃ q rs, s.revq.group = some ⟨q, .waiting, rs⟩

/-- R45: the fetch in flight after a cancellation. -/
def cancelled : Option Fetch → Option Fetch
  | some f => if f.state = .waiting then none else some { f with state := .cancelled }
  | none => none

/-- The entry into HALTED as the blocks make it (R133, R134): the mode and the halt reason (R135), every line at its
safe level (R71), the window emptied and the fetch in flight cancelled (R59), the mark state cleared (R97), the monitor
disarmed (R38), a waiting group abandoned with its result, which sets RESULT_OVERWRITTEN over an unread record (R113,
R115), the MODE flag (R123). Of the bus, the FAULT flag and COMMAND_RESULT are left to the claim; the rest is as before.
`s` is the state the entry finds, `t` the state it leaves. -/
def State.HaltEntry (reason : HaltReason) (s t : State) : Prop :=
  t.modc = { s.modc with mode := .halted, haltReason := reason, stopPending := false }
    ∧ (∀ i : LineNo, t.out.lines[i] = s.cfg.atSafeLevel i)
    ∧ t.out.interlock = s.out.interlock ∧ t.out.suppressed = s.out.suppressed
    ∧ t.lfu = { s.lfu with window := [], cursor := .parked, deferred := none, fetch := cancelled s.lfu.fetch }
    ∧ t.mcr = { s.mcr with mark := ⟨none, 0⟩ } ∧ t.axt = { s.axt with armed := false }
    ∧ t.biu = { s.biu with flags := t.biu.flags, sticky := t.biu.sticky, result := t.biu.result }
    ∧ t.flag .mode = true
    ∧ t.flag .rev = s.flag .rev ∧ t.flag .capt = s.flag .capt ∧ t.flag .read = s.flag .read
    ∧ (∀ q rs, s.revq.group = some ⟨q, .waiting, rs⟩ →
        t.revq = { s.revq with group := none, result := ⟨q, .abandoned, s.cam.table.length⟩, resultRead := false }
          ∧ t.flag .commit = true ∧ t.biu.sticky = if s.revq.resultRead then s.biu.sticky else s.biu.sticky ||| 2)
    ∧ (¬s.HasWaitingGroup → t.revq = s.revq ∧ t.flag .commit = s.flag .commit ∧ t.biu.sticky = s.biu.sticky)
    ∧ t.cfg = s.cfg ∧ t.cam = s.cam ∧ t.pins = s.pins ∧ t.tb = s.tb
    ∧ t.resetHeld = s.resetHeld ∧ t.encInput = s.encInput ∧ t.pending = s.pending

/-- R147: the stamp of a raise taken in a state: in ACQUIRE the acquisition count and revolution 0, else the position and
the revolution number. -/
def State.placeNow (s : State) : Stamp :=
  if s.modc.mode = .acquire then ⟨.acquire, wordOf s.axt.acqCount, 0⟩
  else ⟨s.modc.mode, wordOf s.axt.position, s.axt.revolution⟩

/-- R150: whether a cause is in a pending set. -/
def inPendingSet (c : Cause) (l : List FaultRecord) : Bool := l.any fun r => r.cause == c

/-- R148, R153: a pending set with a new record behind the causes that outrank it. -/
def withRecord (r : FaultRecord) (l : List FaultRecord) : List FaultRecord :=
  let outranks := fun x : FaultRecord => decide (x.cause.code ≤ r.cause.code)
  l.takeWhile outranks ++ r :: l.dropWhile outranks

/-- R149: a pending set after a repeat of a cause: its repeat count is one more, 255 at most, and the rest of its record
and every other record are kept. -/
def withRepeat (c : Cause) (l : List FaultRecord) : List FaultRecord :=
  l.map fun r => if r.cause = c then { r with repeats := min 255 (r.repeats + 1) } else r

/-- A halting cause raised (R134, R148): its record joins the pending set with no repeats, the FAULT flag is set, and
the part enters HALTED with it. `s` is the state the raise finds. -/
def State.HaltedBy (c : Cause) (at_ : Stamp) (d : Detail) (s t : State) : Prop :=
  s.HaltEntry (.cause c) t
    ∧ t.flt.causes = withRecord ⟨c, 0, at_.mode, at_.position, at_.revolution, d⟩ s.flt.causes
    ∧ t.flag .fault = true

/-- R148, R149: the pending set after a raise of a warning with a stamp: a pending cause counts a repeat, another joins. -/
def raisedOnto (a : Stamp) (l : List FaultRecord) (w : Cause × Detail) : List FaultRecord :=
  if inPendingSet w.1 l then withRepeat w.1 l else withRecord ⟨w.1, 0, a.mode, a.position, a.revolution, w.2⟩ l

/-- R148, R149, R157: from `s` to `t` exactly the warnings `w` were raised, in their order and with one stamp; the FAULT
flag is set when one of them was not pending, and nothing else of the bus is touched. -/
def State.WarnedInTurn (w : List (Cause × Detail)) (a : Stamp) (s t : State) : Prop :=
  t.flt.causes = w.foldl (raisedOnto a) s.flt.causes
    ∧ t.biu = { s.biu with
        flags := if w.any fun x => !inPendingSet x.1 s.flt.causes then s.biu.flags ||| 0x04 else s.biu.flags }

/-- R52: the LATE_FIRE raises of the slots `fired` in their order, with hwm at `hwm`: line and tag are the detail. -/
def lateRaises (hwm : Nat) (fired : List Slot) : List (Cause × Detail) :=
  (fired.filter fun x => decide (x.eff < hwm)).map fun x => (.lateFire, .lineTag x.entry.line x.entry.tag)

/-- R47: the lead counts of an entry at a speed: 0 with lead OFF, else the whole part of speed times its line's lead time
by 1,000. -/
def Cfg.leads (c : Cfg) (speed : Nat) (e : Entry) : Nat :=
  if e.lead then speed * c.leadTime[e.line].toNat / 1000 else 0

/-- R48: the effective position at a speed: the entry's position less its lead counts, and never below Z. -/
def Cfg.firesAt (c : Cfg) (speed : Nat) (e : Entry) : Nat := max c.guardZone.toNat (e.position.toNat - c.leads speed e)

/-- R48: the LEAD_CLAMPED raises of a computation at a speed for the entries `es` in their order, one for each whose
position less its lead counts is below Z: the line is the detail. -/
def Cfg.clampRaises (c : Cfg) (speed : Nat) (es : List Entry) : List (Cause × Detail) :=
  (es.filter fun e => decide (e.position.toNat < c.guardZone.toNat + c.leads speed e)).map
    fun e => (.leadClamped, .num e.line.val)

/-- R114: the COMMIT_OVERRUN raise of an hwm advance to `hwm`: the group's sequence is the detail. -/
def State.overrunRaises (s : State) (hwm : Nat) : List (Cause × Detail) :=
  match s.revq.group with
  | some ⟨q, .applying true _, _⟩ => if hwm = s.cfg.guardZone.toNat then [(.commitOverrun, .num q.toNat)] else []
  | _ => []

/-- R53, R58: how many entries that match the revolution that ends were not read for it: from the cursor on when its tag
is CURRENT, and with a deferred start held the entries beyond the acquisition point. -/
def State.leftUnread (s : State) : Nat :=
  let matching := fun (e : Entry) => s.axt.revolution.toNat % e.period.value == e.phase.toNat
  match s.lfu.deferred, s.lfu.cursor with
  | some point, _ => (s.cam.table.filter fun e => decide (point < e.position.toNat) && matching e).length
  | none, .reading i .current => ((s.cam.table.drop i).filter matching).length
  | none, _ => 0

/-- R53, R147: the account of the revolution that ended, made from `s` and standing in `t`: the unexamined count, and
MISSED_ENTRY with the number as detail, stamped with position L-1 of that revolution. A MARKS_LOST may be raised after it. -/
def State.AccountSettled (s t : State) : Prop :=
  let n := s.leftUnread
  let ending : Stamp := ⟨s.modc.mode, wordOf (s.cfg.revLength.toNat - 1), s.axt.revolution⟩
  t.lfu.unexamined = (if n = 0 then s.lfu.unexamined else min Config.count16Max (s.lfu.unexamined + n))
    ∧ (∀ r : FaultRecord, r.cause ≠ .marksLost →
        (r ∈ t.flt.causes ↔
          r ∈ if n = 0 then s.flt.causes else raisedOnto ending s.flt.causes (.missedEntry, .num n)))
    ∧ (0 < n → inPendingSet .missedEntry s.flt.causes = false → t.flag .fault = true)

/-! ### What a claim says of the table port -/

/-- R44: the fetch in flight once LFU has tested its conditions in `t`, where `f` was in flight before. -/
def State.fetchWanted (t : State) (f : Option Fetch) : Option Fetch :=
  match t.lfu.cursor, f with
  | .reading i tag, none =>
    if t.modc.mode.tracking = true ∧ t.lfu.window.length < Config.windowSlots ∧ t.applying = false then
      some ⟨i, tag, .waiting⟩
    else none
  | _, f => f

/-- R8, R9, R10, R44: in `t` LFU has tested its conditions and the arbiter has granted what it can, where the port and
its requests stood as `cam` and the fetch in flight as `f`. A held port grants nothing; a free one goes to an application;
else of a waiting fetch and a waiting read-back the turn decides, a fetch leaving it READBACK and a read-back FETCH, and
the entry read is the one at the index now. -/
def State.PortServed (cam : Cam) (f : Option Fetch) (t : State) : Prop :=
  let wanted := t.fetchWanted f
  let noneWaits := ∀ i tag, wanted ≠ some ⟨i, tag, .waiting⟩
  (cam.port ≠ .free → t.cam = cam ∧ t.lfu.fetch = wanted)
    ∧ (cam.port = .free → t.applying = true → t.cam = { cam with port := .application } ∧ t.lfu.fetch = wanted)
    ∧ (cam.port = .free → t.applying = false →
        (∀ i tag, wanted = some ⟨i, tag, .waiting⟩ → cam.readbackWaits = none ∨ cam.turn = .fetch →
          t.cam = { cam with port := .fetch cam.table[i]?, turn := .readback }
            ∧ t.lfu.fetch = some ⟨i, tag, .granted⟩)
        ∧ (∀ j, cam.readbackWaits = some j → cam.turn = .readback ∨ noneWaits →
          t.cam = { cam with port := .readback j cam.table[j]?, turn := .fetch, readbackWaits := none }
            ∧ t.lfu.fetch = wanted)
        ∧ (cam.readbackWaits = none → noneWaits → t.cam = cam ∧ t.lfu.fetch = wanted))

/-- R57: the cursor for an acquisition point against a table: at the first entry beyond the point, tag CURRENT, or at the
beginning of the table, tag NEXT; PARKED where the table is empty. -/
def CursorBeyond (point : Nat) (table : List Entry) (c : Cursor) : Prop :=
  (∀ i e, table[i]? = some e → point < e.position.toNat →
      (∀ j < i, ∀ e', table[j]? = some e' → e'.position.toNat ≤ point) → c = .reading i .current)
    ∧ ((∀ e ∈ table, e.position.toNat ≤ point) → c = if table = [] then .parked else .reading 0 .next)

/-- R57, R58: LFU has taken an acquisition at `point`: during an application the point is kept as the deferred start and
the cursor is PARKED; else the cursor stands where the point puts it, and a fetch is requested. `s` is the state the
acquisition finds. -/
def State.CursorStarted (point : Nat) (s t : State) : Prop :=
  (s.applying = true →
      t.lfu.cursor = .parked ∧ t.lfu.deferred = some point ∧ t.lfu.fetch = s.lfu.fetch ∧ t.cam = s.cam)
    ∧ (s.applying = false →
        CursorBeyond point s.cam.table t.lfu.cursor
        ∧ t.lfu.deferred = s.lfu.deferred ∧ t.PortServed s.cam s.lfu.fetch)
    ∧ t.lfu.window = s.lfu.window ∧ t.lfu.late = s.lfu.late ∧ t.lfu.unexamined = s.lfu.unexamined

/-! ### What a claim says of a firing -/

/-- R66, R67: the state in which an action that is carried out leaves its line. -/
def EntryAction.leaves : EntryAction → LineState
  | .set => .high
  | .clear => .low
  | .pulse w => .pulsing w.toNat

/-- R70, R76: an action on line `i` is suppressed: the interlock is OPEN, or the line is critical and the mode FREEWHEEL. -/
def State.turnsAway (s : State) (i : LineNo) : Bool :=
  decide (s.out.interlock = .opened ∨ (s.modc.mode = .freewheel ∧ s.cfg.criticalLines.getLsbD i = true))

/-- R51, R52, R66 to R68, R70, R76: the lines and the counts after the slots `fired` were handed over in order, with
the high-water mark at `hwm`: on a line whose actions are suppressed nothing moves and each is counted; else the last
action on the line decides its state. -/
def State.HandedOver (fired : List Slot) (hwm : Nat) (s t : State) : Prop :=
  (∀ i : LineNo, t.out.lines[i] =
      if s.turnsAway i then s.out.lines[i]
      else match (fired.filter fun x => x.entry.line = i).getLast? with
        | some x => x.entry.action.leaves
        | none => s.out.lines[i])
    ∧ t.out.interlock = s.out.interlock
    ∧ t.out.suppressed
        = min Config.count16Max (s.out.suppressed + (fired.filter fun x => s.turnsAway x.entry.line).length)
    ∧ t.lfu.late = min Config.count16Max (s.lfu.late + (fired.filter fun x => decide (x.eff < hwm)).length)

/-- R90, R92: the correction of a revolution from its mark state. -/
def Cfg.correctionFor (c : Cfg) (m : MarkState) : Int :=
  match c.regEnable, m.accepted with
  | true, some d => -d.sign * (min (d.natAbs / 2 ^ c.gainShift.toNat) c.maxCorr.toNat : Nat)
  | _, _ => 0

/-- R90, R92: the verdict on a revolution from its mark state. -/
def Cfg.verdictFor (c : Cfg) (m : MarkState) : Verdict :=
  match c.regEnable, m.accepted with
  | false, _ => .none
  | true, none => .missing
  | true, some d => if d.natAbs / 2 ^ c.gainShift.toNat ≤ c.maxCorr.toNat then .good else .clipped

/-! ### What a claim says of the register window -/

/-- R80: an edge selection takes an edge. -/
def EdgeSel.Takes (sel : EdgeSel) (d : Edge) : Prop :=
  sel = .both ∨ (sel = .rising ∧ d = .rising) ∨ (sel = .falling ∧ d = .falling)

/-- R145, R157, R170, R174, R176 to R180: the codes that the fields of the words show, the two readings of a number in a
word, and the packing of FAULT_DETAIL. -/
def CodesOfTheWindow : Prop :=
  [Mode.config, .acquire, .locked, .freewheel, .halted].map Mode.code = [1, 2, 3, 4, 5]
    ∧ HaltReason.none.code = 0 ∧ HaltReason.command.code = 15 ∧ (∀ c : Cause, (HaltReason.cause c).code = c.code)
    ∧ [Cause.interlockOpen, .encoderError, .overspeed, .reversal, .acquireTimeout, .marksLost, .commitOverrun, .indexSlip,
        .lateFire, .missedEntry, .captureOverflow, .leadClamped].map Cause.code = [1, 2, 3, 4, 5, 6, 7, 8, 9, 10, 11, 12]
    ∧ [ResultCode.ok, .wrongMode, .busy, .queueFull, .badArgument, .nothingOpen, .notHighest, .haltCausePending,
        .configInvalid, .interlockOpen].map ResultCode.code = [0, 1, 2, 3, 4, 5, 6, 7, 8, 9]
    ∧ [Verdict.none, .good, .clipped, .missing].map Verdict.code = [0, 1, 2, 3]
    ∧ [CaptureClass.accepted, .extra, .outside, .plain, .unphased].map CaptureClass.code = [1, 2, 3, 4, 5]
    ∧ [Reason.lockedAll, .lineProtected, .outOfRange, .keyExists, .keyAbsent, .tableFull].map Reason.code
        = [1, 2, 3, 4, 5, 6]
    ∧ GroupOutcome.none.code = 0 ∧ GroupOutcome.applied.code = 1 ∧ GroupOutcome.abandoned.code = 3
    ∧ (∀ i r, (GroupOutcome.rejected i r).code = 2)
    ∧ EntryAction.set.code = 0 ∧ EntryAction.clear.code = 1 ∧ (∀ w, (EntryAction.pulse w).code = 2)
    ∧ [Period.p1, .p2, .p4, .p8, .p16].map Period.code = [0, 1, 2, 3, 4]
    ∧ [Period.p1, .p2, .p4, .p8, .p16].map Period.value = [1, 2, 4, 8, 16]
    ∧ (∀ n, wordOf n = BitVec.ofNat 16 n) ∧ (∀ v, wordOfInt v = BitVec.ofInt 16 v)
    ∧ (∀ v, (Detail.num v).word = BitVec.ofInt 16 v)
    ∧ (∀ (line : LineNo) (tag : BitVec 8), (Detail.lineTag line tag).word = BitVec.ofNat 16 (tag.toNat + line.val * 256))

/-- R164, R174, R175, R177 and the register map of 9.5: what each word that can be written reads. A strobe and an address
that is not listed read 0. -/
def State.ShowsStoredWords (s : State) : Prop :=
  let selection : EdgeSel → Nat := fun sel => match sel with
    | .off => 0
    | .rising => 1
    | .falling => 2
    | .both => 3
  s.readWord 0x03 = 0 ∧ s.readWord 0x04 = 0 ∧ s.readWord 0x05 = s.biu.arg
    ∧ s.readWord 0x07 = wordOf s.biu.flags.toNat ∧ s.readWord 0x08 = wordOf s.biu.enables.toNat
    ∧ s.readWord 0x09 = wordOf s.biu.sticky.toNat
    ∧ s.readWord 0x10 = s.cfg.revLength ∧ s.readWord 0x11 = s.cfg.guardZone
    ∧ s.readWord 0x12 = wordOf s.cfg.maxCorr.toNat ∧ s.readWord 0x13 = wordOf s.cfg.backlash.toNat
    ∧ s.readWord 0x14 = wordOf s.cfg.overspeed.toNat ∧ s.readWord 0x15 = s.cfg.indexPos
    ∧ s.readWord 0x16 = wordOf (s.cfg.slipTolerance.toNat + if s.cfg.indexMonitor then 32768 else 0)
    ∧ s.readWord 0x17 = wordOf ((match s.cfg.encMode with
        | .quadrature => 0
        | .stepDir => 1) + (if s.cfg.encInvert then 2 else 0) + s.cfg.encFilter.toNat * 16)
    ∧ s.readWord 0x18 = wordOf s.cfg.timebaseDiv.toNat
    ∧ s.readWord 0x19 = wordOf ((match s.cfg.acqSource with
        | .index => 0
        | .mark => 1
        | .immediate => 2) + s.revq.lock.val * 16)
    ∧ s.readWord 0x1A = wordOf ((if s.cfg.regEnable then 1 else 0) + s.cfg.gainShift.toNat * 16
        + s.cfg.markSensor.val * 256)
    ∧ s.readWord 0x1B = s.cfg.winOpen ∧ s.readWord 0x1C = s.cfg.markNominal ∧ s.readWord 0x1D = s.cfg.winClose
    ∧ s.readWord 0x1E = wordOf (s.cfg.fwa.toNat + s.cfg.ha.toNat * 16)
    ∧ s.readWord 0x1F = wordOf (selection s.cfg.sensorSel[0] + selection s.cfg.sensorSel[1] * 4
        + selection s.cfg.sensorSel[2] * 16 + selection s.cfg.sensorSel[3] * 64)
    ∧ (∀ i : LineNo, s.readWord (BitVec.ofNat 7 (0x20 + i.val)) = s.cfg.leadTime[i])
    ∧ s.readWord 0x30 = s.cfg.safeLevels ∧ s.readWord 0x31 = s.cfg.protectedLines
    ∧ s.readWord 0x32 = s.cfg.criticalLines ∧ s.readWord 0x33 = s.cfg.manualLevels
    ∧ s.readWord 0x36 = wordOf s.cfg.rla.toNat
    ∧ s.readWord 0x40 = s.revq.staging.position
    ∧ s.readWord 0x41 = wordOf (s.revq.staging.line.toNat + s.revq.staging.action.toNat * 32
        + (if s.revq.staging.lead then 128 else 0) + s.revq.staging.periodCode.toNat * 256
        + s.revq.staging.phase.toNat * 2048)
    ∧ s.readWord 0x42 = s.revq.staging.width ∧ s.readWord 0x43 = wordOf s.revq.staging.tag.toNat
    ∧ ∀ a : BitVec 7, (0x37 ≤ a.toNat ∧ a.toNat ≤ 0x3F) ∨ a.toNat ∈ [0x4B, 0x4F, 0x55, 0x56, 0x57, 0x5E, 0x5F]
        ∨ 0x69 ≤ a.toNat → s.readWord a = 0

/-- R154, R165, R166: what the held words read, in every state: the hold registers of their group, and not the present
values. -/
def State.ShowsHeldWords (s : State) : Prop :=
  s.readWord 0x0B = s.biu.positionHold.revolution ∧ s.readWord 0x0C = s.biu.positionHold.hwm
    ∧ s.readWord 0x0D = s.biu.positionHold.deficit ∧ s.readWord 0x0E = s.biu.positionHold.stretch
    ∧ s.readWord 0x0F = s.biu.positionHold.speed
    ∧ s.readWord 0x4D = s.biu.resultHold.failure ∧ s.readWord 0x4E = s.biu.resultHold.count
    ∧ s.readWord 0x59 = s.biu.faultHold.repeats ∧ s.readWord 0x5A = s.biu.faultHold.position
    ∧ s.readWord 0x5B = s.biu.faultHold.revolution ∧ s.readWord 0x5C = s.biu.faultHold.detail

/-- R165, R166: from `s` to `t`, by the command `c`, each group's hold registers are as before, unless `c` is the read of
its leading word. -/
def State.KeepsHolds (c : Instr) (s t : State) : Prop :=
  (c ≠ .positionRead → t.biu.positionHold = s.biu.positionHold)
    ∧ (c ≠ .commitResultRead → t.biu.resultHold = s.biu.resultHold)
    ∧ (c ≠ .faultCauseRead → t.biu.faultHold = s.biu.faultHold)

/-! ### What a claim says of a mode -/

/-- R123: the mode changes one command may make, HALTED being left for CONFIG alone and CONFIG for ACQUIRE or LOCKED. -/
def Mode.mayBecome : Mode → Mode → Bool
  | .config, .acquire | .config, .locked => true
  | .acquire, .locked | .acquire, .config | .acquire, .halted => true
  | .locked, .freewheel | .locked, .config | .locked, .halted => true
  | .freewheel, .locked | .freewheel, .config | .freewheel, .halted => true
  | .halted, .config => true
  | a, b => a == b

end Sys2Proof.Machine
end

