-- ==== Sys2Proof/Certificates/Slice0/Obligations.lean ====
section
/-! DEFINITION. The statements about the part, for the provers. -/

open Sys2Proof Sys2Proof.Machine

/-! ### The step and the clock -/

/-- A command at the front of the queue runs on the queue's rest. -/
def Obligations.StepRunsTheCommandAtTheFront : Prop :=
  ∀ (c : Instr) (rest : List Instr) (s : State),
    step { s with pending := c :: rest } = exec c { s with pending := rest }

/-- R30, with R7, R17, R28, R65, R108: on an empty queue the step is one REFCLK period. The encoder pins take their next
levels: a change that makes no count becomes the reference state, another is queued as the command that it is. The last
period of a microsecond counts the timers, the speed window and an application, and queues exactly what falls due. That
the clock runs on an empty queue, and the order of what falls due, is log 9; that a fetch, a read-back and a pulse end at
a microsecond mark, whatever part of a microsecond has passed since the grant or the start, is log 10; that the
application ends at its bound is log 11; that no time is kept while RESET is held is log 13; that the pins take one change
in a period is log 3. -/
def Obligations.EmptyQueueRunsOnePeriodOfRefclk : Prop :=
  ∀ s : State, s.pending = [] →
    (s.resetHeld = true → step s = .next s)
    ∧ (s.resetHeld = false → ∃ u : State,
        (s.encInput = [] → u = s)
        ∧ (∀ l rest, s.encInput = l :: rest → u = match s.cfg.decodeChange s.axt.ref l with
            | .forward => { s with encInput := rest, pending := [.forwardCount] }
            | .backward => { s with encInput := rest, pending := [.backwardCount] }
            | .invalid => { s with encInput := rest, pending := [.invalidTransition] }
            | .noCount => { s with encInput := rest, axt.ref := l, pins.encA := l.a, pins.encB := l.b })
        ∧ (s.tb.elapsed + 1 < s.tb.length → step s = .next { u with tb.elapsed := s.tb.elapsed + 1 })
        ∧ (s.tb.length ≤ s.tb.elapsed + 1 →
          ∃ t, step s = .next t
            ∧ t.tb = ⟨max 10 (min 50 s.cfg.timebaseDiv.toNat), 0⟩
            ∧ t.axt = { u.axt with windowMicros := s.axt.windowMicros + 1 }
            ∧ (∀ i : LineNo, t.out.lines[i] = match s.out.lines[i] with
                | .pulsing r => .pulsing (r - 1)
                | l => l)
            ∧ t.out.interlock = s.out.interlock ∧ t.out.suppressed = s.out.suppressed
            ∧ (∀ q b n rs, s.revq.group = some ⟨q, .applying b n, rs⟩ →
                t.revq = { s.revq with group := some ⟨q, .applying b (n + 1), rs⟩ })
            ∧ (s.applying = false → t.revq = s.revq)
            ∧ (∀ c, c ∈ t.pending ↔
                c ∈ u.pending
                  ∨ (∃ i : LineNo, c = .pulseExpiry i ∧ ∃ r ≤ 1, s.out.lines[i] = .pulsing r)
                  ∨ (c = .fetchCompletion ∧ ∃ e, s.cam.port = .fetch e)
                  ∨ (c = .readbackCompletion ∧ ∃ i e, s.cam.port = .readback i e)
                  ∨ (c = .applicationCompletion ∧ s.cam.port = .application
                      ∧ ∃ q b n rs, s.revq.group = some ⟨q, .applying b n, rs⟩ ∧ 50 + 6 * rs.length ≤ n + 1)
                  ∨ (c = .speedWindowExpiry ∧ 1000 ≤ s.axt.windowMicros + 1))
            ∧ t.pending.Nodup ∧ u.pending <+: t.pending
            ∧ (∀ p ∉ [Part.tb, .axt, .out, .revq], u.agreesOn t p) ∧ t.resetHeld = false
            ∧ t.encInput = u.encInput))

/-! ### What no command does -/

/-- R172, R119, R120, R122, R163: every command answers a next state and leaves the two inputs alone; outside CONFIG
no command but a reset changes a configuration word, RELOCK_CFG and MANUAL_LEVELS apart, and none lowers the lock
level but SOFT_RESET. -/
def Obligations.OutsideConfigTheConfigurationStands : Prop :=
  ∀ (c : Instr) (s : State), ∃ t, exec c s = .next t ∧ t.pending = s.pending ∧ t.encInput = s.encInput
    ∧ (isHardReset c = false → s.modc.mode ≠ .config →
        t.cfg = { s.cfg with rla := t.cfg.rla, manualLevels := t.cfg.manualLevels }
          ∧ (t.revq.lock < s.revq.lock → t.modc.mode = .config
            ∧ t.revq = ⟨s.revq.staging, none, [], 0, ⟨0, .none, 0⟩, true, 0⟩))

/-- R123: LOCKED and FREEWHEEL are the tracking modes, and with ACQUIRE the running ones; a command that is no reset makes
only the mode changes of the transition table, and a change made by any command but SOFT_RESET sets the MODE flag. -/
def Obligations.ModeChangesOnlyAlongTheTransitionTable : Prop :=
  (∀ m : Mode, (m.tracking = true ↔ m = .locked ∨ m = .freewheel)
      ∧ (m.running = true ↔ m = .acquire ∨ m = .locked ∨ m = .freewheel))
    ∧ ∀ (c : Instr) (s t : State), isHardReset c = false → exec c s = .next t →
        s.modc.mode.mayBecome t.modc.mode = true
          ∧ (t.modc.mode ≠ s.modc.mode → t.flag .mode = true
              ∨ (t.modc.mode = .config ∧ t.biu.flags = 0 ∧ t.biu.result = ⟨5, .ok, 0⟩))

/-! ### The laws, kept by every step -/

/-- R4: a step keeps the table at 192 entries at most, in strictly ascending order of key. -/
def Obligations.EveryStepKeepsTheTableOrdered : Prop :=
  ∀ s t : State, s.TableLaw → step s = .next t → t.TableLaw

/-- R150: a step keeps the pending set free of duplicates, with at most one halting cause and that only in HALTED. -/
def Obligations.EveryStepKeepsHaltingCausesInHalted : Prop :=
  ∀ s t : State, s.PendingLaw → step s = .next t → t.PendingLaw

/-- R22, R25: a step keeps the relations of the position record and the law of the position, and within one revolution
it never decreases hwm. -/
def Obligations.EveryStepKeepsTheReverseDistanceWithinBacklash : Prop :=
  ∀ s t : State, s.PendingLaw → s.PositionLaw → step s = .next t → t.PositionLaw ∧ s.HwmHolds t

/-- R5, R27, R126: a step keeps the geometry of a running mode, every entry in [Z, L-1] and hwm below L. -/
def Obligations.EveryStepKeepsEntriesOutOfTheGuardZone : Prop :=
  ∀ s t : State, s.PendingLaw → s.PositionLaw → s.GeometryLaw → step s = .next t → t.GeometryLaw

/-- R41, R42, R44, R48, R50, R53, R58, R59, R72, R76: a step keeps the window at eight slots at most, in order, without a
second copy of an entry for one revolution, empty outside the tracking modes, each slot a copy of the table's entry with
its effective position in [Z, L-1], and no CURRENT slot due after the step, so that none is left at a boundary; and it
keeps the lines that R72 and R76 name at their safe levels. -/
def Obligations.EveryStepKeepsTheWindowAndTheSafeLines : Prop :=
  ∀ s t : State, s.PendingLaw → s.PositionLaw → s.GeometryLaw → s.WindowLaw → s.LinesLaw → step s = .next t →
    t.WindowLaw ∧ t.LinesLaw
      ∧ (s.modc.mode.tracking = true → s.cfg.revLength.toNat ≤ s.axt.position + 1 →
          ∀ x ∈ s.lfu.window, x.tag = .next)

/-- R138, R60, R77, R84, R87, R103, R149: a step keeps the ladder's runs, the queues and the counts in their ranges. -/
def Obligations.EveryStepKeepsTheLadderAndTheCounts : Prop :=
  ∀ s t : State, s.PendingLaw → s.LadderLaw → s.CountsLaw → step s = .next t → t.LadderLaw ∧ t.CountsLaw

/-! ### Resets -/

/-- The state after reset obeys every law. Its pin levels are the model's choice (log 1). -/
def Obligations.ResetStateObeysEveryLaw : Prop :=
  State.reset.TableLaw ∧ State.reset.PendingLaw ∧ State.reset.PositionLaw ∧ State.reset.GeometryLaw
    ∧ State.reset.WindowLaw ∧ State.reset.LinesLaw ∧ State.reset.LadderLaw ∧ State.reset.CountsLaw

/-- R15, R17, R39, R62, R75, R78, R98, R121, R144, R156, R161, R181: power-on and the release of the RESET pin give the
reset state from any state, with the reference state and the interlock from the pins (operands of the command, log 2);
a hold of the RESET pin is over after both, after POWER_ON by the model's choice (log 13); every word of the window then
reads its reset value of the register map (9.5). -/
def Obligations.PowerOnAndResetPinGiveTheResetState : Prop :=
  ∀ (p : Pins) (s : State),
    let fresh : State := { State.reset with
      axt := {
        ref := ⟨p.encA, p.encB⟩, position := 0, hwm := 0, deficit := 0, stretch := 0, revolution := 0, acqCount := 0
        mech := 0, armed := false, lastSlip := 0, speed := 0, reverse := false, net := 0, windowMicros := 0 }
      cam := { table := [], port := .free, readbackWaits := none, turn := .fetch, record := ⟨0, none⟩ }
      lfu := { window := [], cursor := .parked, fetch := none, deferred := none, late := 0, unexamined := 0 }
      out := {
        lines := Vector.ofFn fun _ => .low, interlock := if p.enable then .closed else .opened, suppressed := 0 }
      mcr := {
        queue := [], overflow := 0, mark := ⟨none, 0⟩, lastDeviation := 0, lastCorrection := 0, lastVerdict := .none
        lastExtra := 0 }
      revq := {
        staging := ⟨0, 0, 0, false, 0, 0, 0, 0⟩, group := none, opens := [], nextSeq := 0, result := ⟨0, .none, 0⟩
        resultRead := true, lock := 0 }
      modc := { mode := .config, stopPending := false, haltReason := .none, badRun := 0, goodRun := 0 }
      flt := ⟨[]⟩
      biu := {
        arg := 0, result := ⟨0, .ok, 0⟩, flags := 0, enables := 0, sticky := 0, positionHold := ⟨0, 0, 0, 0, 0⟩
        resultHold := ⟨0, 0⟩, faultHold := ⟨0, 0, 0, 0, 0⟩, dataOut := none }
      pins := p
      tb := ⟨25, 0⟩
      resetHeld := false
      encInput := s.encInput
      pending := s.pending }
    exec (.powerOn p) s = .next fresh ∧ exec (.resetPin p) s = .next fresh
      ∧ ∀ a : BitVec 7, fresh.readWord a = match a.toNat with
          | 0x00 => 0x5C16
          | 0x01 => 0x0002
          | 0x02 => if p.enable then 0x0401 else 0x0001
          | 0x10 => 0x1000
          | 0x11 => 0x0040
          | 0x12 => 0x0010
          | 0x13 => 0x0008
          | 0x14 => 0x0FFF
          | 0x16 => 0x0002
          | 0x18 => 0x0019
          | 0x1B => 0x0600
          | 0x1C => 0x0800
          | 0x1D => 0x0A00
          | 0x1E => 0x0083
          | 0x36 => 0x0004
          | _ => 0

/-- R78, R15, R161, R181: with the RESET pin asserted every line is at level 0, INT is released and no access is under
way; while it is held no command but a reset is taken. That the part stands in its reset state then is log 13. -/
def Obligations.ResetPinHeldDropsTheLinesAndTakesNoCommand : Prop :=
  ∀ s : State,
    (∃ t, exec .resetPinHeld s = .next t ∧ t.resetHeld = true ∧ (∀ i : LineNo, t.out.lines[i] = .low)
      ∧ t.intAsserted = false ∧ t.cam = ⟨[], .free, none, .fetch, ⟨0, none⟩⟩ ∧ t.modc.mode = .config ∧ t.revq.group = none
      ∧ t.biu.dataOut = none ∧ t.pending = s.pending ∧ t.encInput = s.encInput)
    ∧ (s.resetHeld = true → ∀ c, isHardReset c = false → exec c s = .next s)

/-- R16, R40, R63, R79, R99, R122, R137, R144, R156, R161, R162, R181: SOFT_RESET is refused with BUSY during an
application and then changes COMMAND_RESULT alone; else every block takes its soft-reset effects. That the microsecond
under way begins anew, at the length it had, is log 10; that the fault view latch holds 0 afterwards is the choice of log
19 between two sentences of R154. -/
def Obligations.SoftResetKeepsTheProgramAndTheConfiguration : Prop :=
  ∀ s : State, s.resetHeld = false →
    (s.applying = true → exec .softReset s = .next { s with biu.result := ⟨5, .busy, 0⟩ })
    ∧ (s.applying = false → ∃ t, exec .softReset s = .next t
        ∧ t.modc = ⟨.config, false, .none, 0, 0⟩
        ∧ t.axt = {
            ref := ⟨s.pins.encA, s.pins.encB⟩, position := 0, hwm := 0, deficit := 0, stretch := 0, revolution := 0
            acqCount := 0, mech := 0, armed := false, lastSlip := 0, speed := 0, reverse := false, net := 0
            windowMicros := 0 }
        ∧ t.lfu.window = [] ∧ t.lfu.cursor = .parked ∧ t.lfu.deferred = none ∧ t.lfu.late = 0 ∧ t.lfu.unexamined = 0
        ∧ (∀ f, s.lfu.fetch = some f →
            t.lfu.fetch = if f.state = .waiting then none else some { f with state := .cancelled })
        ∧ (s.lfu.fetch = none → t.lfu.fetch = none)
        ∧ (∀ i : LineNo, t.out.lines[i] = s.cfg.atSafeLevel i)
        ∧ t.out.interlock = (if s.pins.enable then .closed else .opened) ∧ t.out.suppressed = 0
        ∧ t.mcr = {
            queue := [], overflow := 0, mark := ⟨none, 0⟩, lastDeviation := 0, lastCorrection := 0, lastVerdict := .none
            lastExtra := 0 }
        ∧ t.revq = {
            staging := s.revq.staging, group := none, opens := [], nextSeq := 0, result := ⟨0, .none, 0⟩
            resultRead := true, lock := 0 }
        ∧ t.flt.causes = []
        ∧ t.biu = {
            arg := s.biu.arg, result := ⟨5, .ok, 0⟩, flags := 0, enables := 0, sticky := 0
            positionHold := ⟨0, 0, 0, 0, 0⟩, resultHold := ⟨0, 0⟩, faultHold := ⟨0, 0, 0, 0, 0⟩, dataOut := s.biu.dataOut }
        ∧ t.tb = ⟨s.tb.length, 0⟩
        ∧ s.sameBut [.modc, .axt, .lfu, .out, .mcr, .revq, .flt, .biu, .tb] t)

/-! ### Counts -/

/-- R18, R20: the decoder's tables. In QUADRATURE the count commands move the pins by one step of the order, the way
the direction and the invert setting give, and the decoder reads that step as that count; and a change that the decoder
reads as a count or an invalid transition is the step of that command. Where the pins stand after a count is log 3. -/
def Obligations.DecoderFollowsTheQuadratureAndStepTables : Prop :=
  ∀ (c : Cfg) (ref new : EncLevels),
    (c.encMode = .quadrature →
      (c.decodeChange ref new =
        let fwd := if c.encInvert then Change.backward else Change.forward
        let bwd := if c.encInvert then Change.forward else Change.backward
        match ref.a, ref.b, new.a, new.b with
        | false, false, true, false => fwd
        | true, false, true, true => fwd
        | true, true, false, true => fwd
        | false, true, false, false => fwd
        | false, false, false, true => bwd
        | true, false, false, false => bwd
        | true, true, true, false => bwd
        | false, true, true, true => bwd
        | false, false, true, true => .invalid
        | true, true, false, false => .invalid
        | true, false, false, true => .invalid
        | false, true, true, false => .invalid
        | _, _, _, _ => .noCount)
      ∧ c.decodeChange ref (c.levelsForward ref) = .forward
      ∧ c.decodeChange ref (c.levelsBackward ref) = .backward)
    ∧ (c.encMode = .stepDir →
      (c.decodeChange ref new =
        if ref.a = false ∧ new.a = true then (if new.b = c.encInvert then .forward else .backward) else .noCount)
      ∧ (ref.a = false → c.decodeChange ref (c.levelsForward ref) = .forward
          ∧ c.decodeChange ref (c.levelsBackward ref) = .backward)
      ∧ c.levelsForward ref = ⟨true, c.encInvert⟩ ∧ c.levelsBackward ref = ⟨true, !c.encInvert⟩)
    ∧ (c.decodeChange ref new = .forward → new = c.levelsForward ref)
    ∧ (c.decodeChange ref new = .backward → new = c.levelsBackward ref)
    ∧ (c.decodeChange ref new = .invalid → c.encMode = .quadrature ∧ new = ⟨!ref.a, !ref.b⟩)

/-- R21, R35: outside the tracking modes a count reaches the speed window alone, but that a forward count in ACQUIRE
adds 1 to the acquisition count (short of 2 times L). The pins follow the count (log 3). -/
def Obligations.CountsOutsideTheTrackingModesReachTheSpeedWindow : Prop :=
  ∀ s : State, s.resetHeld = false →
    let f := s.cfg.levelsForward s.axt.ref
    let b := s.cfg.levelsBackward s.axt.ref
    (s.modc.mode = .config ∨ s.modc.mode = .halted →
      exec .forwardCount s = .next { s with
        pins.encA := f.a, pins.encB := f.b, axt.ref := f, axt.net := s.axt.net + 1 })
    ∧ (s.modc.mode = .config ∨ s.modc.mode = .halted ∨ s.modc.mode = .acquire →
      exec .backwardCount s = .next { s with
        pins.encA := b.a, pins.encB := b.b, axt.ref := b, axt.net := s.axt.net - 1 })
    ∧ (s.modc.mode = .acquire → s.axt.acqCount + 1 ≠ 2 * s.cfg.revLength.toNat →
      exec .forwardCount s = .next { s with
        pins.encA := f.a, pins.encB := f.b, axt.ref := f, axt.net := s.axt.net + 1
        axt.acqCount := s.axt.acqCount + 1 }
      ∧ exec .acquireTimeout s = .next s)

/-- R35, R130, R134, R147: the forward count that brings the acquisition count to 2 times L raises ACQUIRE_TIMEOUT,
which halts the part. It is FORWARD_COUNT there, and ACQUIRE_TIMEOUT is that same count (log 4); the pins follow it
(log 3). -/
def Obligations.AcquisitionCountAtTwiceTheLengthHalts : Prop :=
  ∀ s : State, s.resetHeld = false → s.modc.mode = .acquire → s.NoneHalting →
    s.axt.acqCount + 1 = 2 * s.cfg.revLength.toNat →
      ∃ t, exec .acquireTimeout s = .next t ∧ exec .forwardCount s = .next t
        ∧ t.biu.result = s.biu.result
        ∧ ({ s with
            pins.encA := (s.cfg.levelsForward s.axt.ref).a, pins.encB := (s.cfg.levelsForward s.axt.ref).b
            axt.ref := s.cfg.levelsForward s.axt.ref, axt.net := s.axt.net + 1
            axt.acqCount := 2 * s.cfg.revLength.toNat } : State).HaltedBy
          .acquireTimeout ⟨.acquire, wordOf (2 * s.cfg.revLength.toNat), 0⟩ (.num 0) t

/-- R23, R32: a forward count in a tracking mode repays the deficit, else consumes the stretch, else regains ground
below the high-water mark; the mechanical counter counts it within its ends. Nothing fires. The pins follow the count
(log 3). -/
def Obligations.ForwardCountRepaysBeforeThePositionMoves : Prop :=
  ∀ s : State, s.resetHeld = false → s.modc.mode.tracking = true →
    let l := s.cfg.levelsForward s.axt.ref
    let u : State := { s with
      pins.encA := l.a, pins.encB := l.b, axt.ref := l, axt.net := s.axt.net + 1
      axt.mech := max (-131072) (min 131071 (s.axt.mech + 1)) }
    (0 < s.axt.deficit → exec .forwardCount s = .next { u with axt.deficit := s.axt.deficit - 1 })
    ∧ (s.axt.deficit = 0 → 0 < s.axt.stretch →
        exec .forwardCount s = .next { u with axt.stretch := s.axt.stretch - 1 })
    ∧ (s.axt.deficit = 0 → s.axt.stretch = 0 → s.axt.position + 1 < s.cfg.revLength.toNat →
        s.axt.position < s.axt.hwm →
        exec .forwardCount s = .next { u with axt.position := s.axt.position + 1 })

/-- R23, R50 to R52, R66 to R68, R70, R76: at an advance of the high-water mark every CURRENT slot it reaches leaves
the window and hands its action to the lines in window order; a late one raises LATE_FIRE with line and tag, an advance to
Z during an application begun at a boundary raises COMMIT_OVERRUN, and nothing else is raised; then LFU requests a fetch
where R44 allows it and the arbiter grants. No mode, no group and no table changes. The pins follow the count (log 3). -/
def Obligations.HighWaterAdvanceFiresTheSlotsItReaches : Prop :=
  ∀ s : State, s.resetHeld = false → s.modc.mode.tracking = true → s.CountsLaw →
    s.axt.deficit = 0 → s.axt.stretch = 0 → s.axt.position + 1 < s.cfg.revLength.toNat → s.axt.hwm ≤ s.axt.position →
      let l := s.cfg.levelsForward s.axt.ref
      let p := s.axt.position + 1
      let reached : Slot → Bool := fun x => x.tag == .current && decide (x.eff ≤ p)
      ∃ t, exec .forwardCount s = .next t
        ∧ t.axt = { s.axt with
            ref := l, position := p, hwm := p, net := s.axt.net + 1
            mech := max (-131072) (min 131071 (s.axt.mech + 1)) }
        ∧ t.pins = { s.pins with encA := l.a, encB := l.b }
        ∧ t.lfu.window = s.lfu.window.filter (fun x => !reached x)
        ∧ t.lfu.cursor = s.lfu.cursor ∧ t.lfu.deferred = s.lfu.deferred ∧ t.lfu.unexamined = s.lfu.unexamined
        ∧ s.HandedOver (s.lfu.window.filter reached) p t
        ∧ s.WarnedInTurn (lateRaises p (s.lfu.window.filter reached) ++ s.overrunRaises p)
            ⟨s.modc.mode, wordOf p, s.axt.revolution⟩ t
        ∧ t.PortServed s.cam s.lfu.fetch
        ∧ s.sameBut [.axt, .pins, .lfu, .out, .cam, .flt, .biu] t

/-- R114, R147: an advance that brings the high-water mark to Z raises COMMIT_OVERRUN with the group's sequence while an
application begun at a boundary is in progress, and raises nothing else where no slot is reached. -/
def Obligations.HighWaterAtTheGuardEndDuringAnApplicationWarns : Prop :=
  ∀ s : State, s.resetHeld = false → s.modc.mode.tracking = true →
    s.axt.deficit = 0 → s.axt.stretch = 0 → s.axt.position + 1 < s.cfg.revLength.toNat → s.axt.hwm ≤ s.axt.position →
    (∀ x ∈ s.lfu.window, x.tag = .current → s.axt.position + 1 < x.eff) →
      (∀ q n rs, s.revq.group = some ⟨q, .applying true n, rs⟩ → s.axt.position + 1 = s.cfg.guardZone.toNat →
        ∃ t, exec .forwardCount s = .next t
          ∧ s.WarnedInTurn [(.commitOverrun, .num q.toNat)] ⟨s.modc.mode, wordOf (s.axt.position + 1), s.axt.revolution⟩ t
          ∧ t.revq = s.revq ∧ t.lfu.window = s.lfu.window ∧ t.out = s.out)
      ∧ ((∀ q n rs, s.revq.group = some ⟨q, .applying true n, rs⟩ → s.axt.position + 1 ≠ s.cfg.guardZone.toNat) →
        ∃ t, exec .forwardCount s = .next t ∧ t.flt = s.flt ∧ t.biu = s.biu
          ∧ t.revq = s.revq ∧ t.lfu.window = s.lfu.window ∧ t.out = s.out)

/-- R24, R25, R32: a backward count in a tracking mode lowers the position, or grows the deficit at position 0. Beyond
the backlash tolerance it raises REVERSAL with the distance as detail, and the count stays taken. The pins follow the
count (log 3). -/
def Obligations.BackwardCountGivesUpGroundOrHalts : Prop :=
  ∀ s : State, s.resetHeld = false → s.modc.mode.tracking = true →
    let l := s.cfg.levelsBackward s.axt.ref
    let position := s.axt.position - 1
    let deficit := if s.axt.position = 0 then s.axt.deficit + 1 else s.axt.deficit
    let distance := (s.axt.hwm - position) + deficit
    let u : State := { s with
      pins.encA := l.a, pins.encB := l.b, axt.ref := l, axt.net := s.axt.net - 1
      axt.mech := max (-131072) (min 131071 (s.axt.mech - 1))
      axt.position := position, axt.deficit := deficit }
    (distance ≤ s.cfg.backlash.toNat → exec .backwardCount s = .next u)
    ∧ (s.cfg.backlash.toNat < distance → s.NoneHalting →
        ∃ t, exec .backwardCount s = .next t ∧ t.biu.result = s.biu.result
          ∧ u.HaltedBy .reversal ⟨s.modc.mode, wordOf position, s.axt.revolution⟩ (.num distance) t)

/-- R19, R20, R134: an invalid transition moves the reference state to the opposite corner and makes no count; in a
running mode it raises ENCODER_ERROR. In STEP_DIR there is none, and nothing changes (log 5). -/
def Obligations.InvalidTransitionMakesNoCountAndHaltsARun : Prop :=
  ∀ s : State, s.resetHeld = false →
    let u : State := { s with
      pins.encA := !s.axt.ref.a, pins.encB := !s.axt.ref.b, axt.ref := ⟨!s.axt.ref.a, !s.axt.ref.b⟩ }
    (s.cfg.encMode = .stepDir → exec .invalidTransition s = .next s)
    ∧ (s.cfg.encMode = .quadrature → s.modc.mode.running = false → exec .invalidTransition s = .next u)
    ∧ (s.cfg.encMode = .quadrature → s.modc.mode.running = true → s.NoneHalting →
        ∃ t, exec .invalidTransition s = .next t ∧ t.biu.result = s.biu.result
          ∧ u.HaltedBy .encoderError s.placeNow (.num 0) t)

/-! ### The boundary -/

/-- R23, R26, R27, R90 to R92: the forward count at position L-1 is the boundary: the revolution number rises, the
correction of the revolution that ended sets the position, MCR publishes its last values and clears the mark state, and
the REV flag is set. It is FORWARD_COUNT there, and REVOLUTION_BOUNDARY is that same count, which elsewhere cannot
arrive and does nothing (log 4); the pins follow it (log 3). -/
def Obligations.BoundaryAppliesTheCorrectionOfTheEndedRevolution : Prop :=
  ∀ s : State, s.resetHeld = false →
    (s.modc.mode.tracking = true → s.axt.deficit = 0 → s.axt.stretch = 0 →
      s.cfg.revLength.toNat ≤ s.axt.position + 1 →
        let c := s.cfg.correctionFor s.mcr.mark
        let l := s.cfg.levelsForward s.axt.ref
        ∃ t, exec .forwardCount s = .next t ∧ exec .revolutionBoundary s = .next t
          ∧ t.axt = { s.axt with
              ref := l, net := s.axt.net + 1, mech := max (-131072) (min 131071 (s.axt.mech + 1))
              revolution := s.axt.revolution + 1
              position := c.toNat, hwm := c.toNat, stretch := (-c).toNat, deficit := 0
              armed := t.axt.armed }
          ∧ (t.modc.mode.tracking = true → t.axt.armed = s.axt.armed)
          ∧ (t.modc.mode.tracking = false → t.axt.armed = false)
          ∧ t.mcr = { s.mcr with
              lastDeviation := if s.cfg.regEnable then max (-32768) (min 32767 (s.mcr.mark.accepted.getD 0)) else 0
              lastCorrection := c
              lastVerdict := s.cfg.verdictFor s.mcr.mark
              lastExtra := if s.cfg.regEnable then s.mcr.mark.extra else 0
              mark := ⟨none, 0⟩ }
          ∧ t.flag .rev = true
          ∧ t.pins = { s.pins with encA := l.a, encB := l.b }
          ∧ t.cam.table = s.cam.table ∧ t.cam.record = s.cam.record
          ∧ t.biu = { s.biu with flags := t.biu.flags }
          ∧ t.flag .capt = s.flag .capt ∧ t.flag .commit = s.flag .commit ∧ t.flag .read = s.flag .read
          ∧ (t.flag .fault = true ↔
              s.flag .fault = true ∨ ∃ r ∈ t.flt.causes, inPendingSet r.cause s.flt.causes = false)
          ∧ s.sameBut [.axt, .mcr, .pins, .cam, .lfu, .out, .revq, .modc, .flt, .biu] t)
    ∧ ((s.modc.mode.tracking = false ∨ 0 < s.axt.deficit ∨ 0 < s.axt.stretch
        ∨ s.axt.position + 1 < s.cfg.revLength.toNat) → exec .revolutionBoundary s = .next s)

/-- R132, R138 to R142, R71, R72: at the boundary the ladder counts the verdict and moves the mode, MARKS_LOST halts,
and a pending STOP is served in place of the ladder's own move; the lines go with the mode entered. -/
def Obligations.BoundaryStepsTheLadderAndServesAStop : Prop :=
  ∀ s : State, s.resetHeld = false → s.modc.mode.tracking = true → s.axt.deficit = 0 → s.axt.stretch = 0 →
    s.cfg.revLength.toNat ≤ s.axt.position + 1 → s.NoneHalting →
      let v := s.cfg.verdictFor s.mcr.mark
      let bad := min 15 (s.modc.badRun + 1)
      let good := min 31 (s.modc.goodRun + 1)
      let isBad := v = .missing ∨ v = .clipped
      let lost := isBad ∧ s.cfg.ha.toNat ≤ bad
      let relocks := v = .good ∧ s.modc.mode = .freewheel ∧ s.cfg.rla.toNat ≤ good
      let falls := isBad ∧ s.modc.mode = .locked ∧ s.cfg.fwa.toNat ≤ bad
      ∃ t, exec .revolutionBoundary s = .next t
        ∧ t.modc.mode =
            (if lost then .halted else if s.modc.stopPending then .config
              else if falls then .freewheel else if relocks then .locked else s.modc.mode)
        ∧ t.modc.badRun = (if v = .none then s.modc.badRun else if isBad then bad else 0)
        ∧ t.modc.goodRun =
            (if v = .none then s.modc.goodRun else if isBad then 0 else if relocks then 0 else good)
        ∧ t.modc.haltReason = (if lost then .cause .marksLost else s.modc.haltReason)
        ∧ t.modc.stopPending = false
        ∧ (t.modc.mode ≠ s.modc.mode → t.flag .mode = true)
        ∧ (t.modc.mode = s.modc.mode → t.flag .mode = s.flag .mode)
        ∧ (inPendingSet .marksLost t.flt.causes = true ↔ lost)
        ∧ (lost → ∃ r ∈ t.flt.causes, r = ⟨.marksLost, 0, s.modc.mode, wordOf (s.cfg.revLength.toNat - 1),
            s.axt.revolution, .num bad⟩)
        ∧ (∀ i : LineNo, t.out.lines[i] =
            if t.modc.mode.tracking = false
                ∨ (t.modc.mode = .freewheel ∧ s.modc.mode = .locked ∧ s.cfg.criticalLines.getLsbD i = true) then
              s.cfg.atSafeLevel i
            else s.out.lines[i])
        ∧ t.out.interlock = s.out.interlock ∧ t.out.suppressed = s.out.suppressed

/-- R44, R45, R53, R54, R58, R59, R147: at a boundary where no application begins, the fetch in flight is cancelled, the
entries left unread for the revolution that ended are counted and MISSED_ENTRY is raised for them, and the window and
cursor are carried over, or emptied where the mode leaves tracking. With a deferred start held the account is that of the
entries beyond the acquisition point, and the cursor goes to (0, CURRENT); while an application is in progress the
end-of-table step waits. Then LFU requests a fetch where R44 allows it and the arbiter grants. That no CURRENT slot is
left to carry is log 6. -/
def Obligations.BoundaryCountsUnreadEntriesAndCarriesTheWindow : Prop :=
  ∀ s : State, s.resetHeld = false → s.modc.mode.tracking = true → s.axt.deficit = 0 → s.axt.stretch = 0 →
    s.cfg.revLength.toNat ≤ s.axt.position + 1 → ¬s.HasWaitingGroup → (s.lfu.deferred ≠ none → s.TableLaw) →
      let parks := s.cam.table = [] ∧ s.applying = false
      ∃ t, exec .revolutionBoundary s = .next t
        ∧ s.AccountSettled t
        ∧ t.lfu.late = s.lfu.late ∧ t.lfu.deferred = none
        ∧ (t.modc.mode.tracking = true →
            (s.lfu.deferred ≠ none → t.lfu.window = [] ∧ t.lfu.cursor = .reading 0 .current)
            ∧ (s.lfu.deferred = none →
              t.lfu.window = (s.lfu.window.filter fun x => x.tag == .next).map (fun x => { x with tag := .current })
              ∧ (∀ i, s.lfu.cursor = .reading i .current → t.lfu.cursor = if parks then .parked else .reading 0 .current)
              ∧ (∀ i, s.lfu.cursor = .reading i .next → i < s.cam.table.length → t.lfu.cursor = .reading i .current)
              ∧ (s.lfu.cursor = .parked → t.lfu.cursor = if parks then .parked else .reading 0 .next))
            ∧ t.PortServed s.cam (cancelled s.lfu.fetch))
        ∧ (t.modc.mode.tracking = false →
            t.lfu.window = [] ∧ t.lfu.cursor = .parked
              ∧ ∀ f, t.lfu.fetch = some f → f.state = .cancelled)

/-- R53, R55, R58, R106 to R108, R116, R147: a group waiting at the boundary begins its application there: the account of
the revolution that ended is settled, then the window is discarded, the cursor set to (0, CURRENT), the port requested,
and no fetch requested. -/
def Obligations.BoundaryBeginsTheWaitingGroup : Prop :=
  ∀ (s : State) (q : BitVec 8) (rs : List Revision), s.resetHeld = false → s.modc.mode.tracking = true →
    s.axt.deficit = 0 → s.axt.stretch = 0 → s.cfg.revLength.toNat ≤ s.axt.position + 1 →
    s.revq.group = some ⟨q, .waiting, rs⟩ → (s.lfu.deferred ≠ none → s.TableLaw) →
      ∃ t, exec .revolutionBoundary s = .next t
        ∧ s.AccountSettled t
        ∧ t.revq = { s.revq with group := some ⟨q, .applying true 0, rs⟩ }
        ∧ (s.cam.port = .free → t.cam = { s.cam with port := .application })
        ∧ (s.cam.port ≠ .free → t.cam = s.cam)
        ∧ t.lfu.window = [] ∧ t.lfu.deferred = none ∧ t.lfu.late = s.lfu.late
        ∧ (t.modc.mode.tracking = true → t.lfu.cursor = .reading 0 .current)
        ∧ (t.modc.mode.tracking = false → t.lfu.cursor = .parked)
        ∧ t.lfu.fetch = cancelled s.lfu.fetch

/-! ### The index and the speed window -/

/-- R31, R33, R37, R44, R57, R58, R72, R128: in ACQUIRE with source INDEX an index arrival acquires: LOCKED at INDEX_POS
reduced modulo L, the monitor armed if enabled, no line moved, and the cursor at the first entry beyond the point with a
fetch requested, or held back as the deferred start during an application. -/
def Obligations.IndexArrivalAcquiresPhase : Prop :=
  ∀ s : State, s.resetHeld = false → s.modc.mode = .acquire → s.cfg.acqSource = .index →
    let point := s.cfg.indexPos.toNat % s.cfg.revLength.toNat
    ∃ t, exec .indexArrival s = .next t
      ∧ t.modc = { s.modc with mode := .locked, badRun := 0, goodRun := 0 }
      ∧ t.axt = { s.axt with
          position := point, hwm := point, deficit := 0, stretch := 0, revolution := 0
          armed := s.cfg.indexMonitor || s.axt.armed
          mech := if s.cfg.indexMonitor then 0 else s.axt.mech }
      ∧ s.CursorStarted point t
      ∧ t.cam.table = s.cam.table ∧ t.cam.record = s.cam.record
      ∧ t.biu = { s.biu with flags := s.biu.flags ||| 0x02 }
      ∧ s.sameBut [.modc, .axt, .lfu, .cam, .biu] t

/-- R31, R33, R34: an index arrival is ignored in CONFIG and HALTED, in ACQUIRE with another source and with the monitor
disabled; the DISARMED monitor arms; the ARMED one publishes the deviation and raises INDEX_SLIP beyond the tolerance. -/
def Obligations.IndexArrivalAtTheSlipMonitor : Prop :=
  ∀ s : State, s.resetHeld = false →
    (s.modc.mode = .config ∨ s.modc.mode = .halted ∨ (s.modc.mode = .acquire ∧ s.cfg.acqSource ≠ .index)
        ∨ (s.modc.mode.tracking = true ∧ s.cfg.indexMonitor = false) →
      exec .indexArrival s = .next s)
    ∧ (s.modc.mode.tracking = true → s.cfg.indexMonitor = true → s.axt.armed = false →
        exec .indexArrival s = .next { s with axt.armed := true, axt.mech := 0 })
    ∧ (s.modc.mode.tracking = true → s.cfg.indexMonitor = true → s.axt.armed = true →
        let deviation : Int := s.axt.mech - s.cfg.revLength.toNat
        let slip := max (-32768) (min 32767 deviation)
        let u : State := { s with axt.lastSlip := slip, axt.mech := 0 }
        (deviation.natAbs ≤ s.cfg.slipTolerance.toNat → exec .indexArrival s = .next u)
        ∧ (s.cfg.slipTolerance.toNat < deviation.natAbs →
            ∃ t, exec .indexArrival s = .next t ∧ u.WarnedInTurn [(.indexSlip, .num slip)] s.placeNow t
              ∧ t.biu.result = s.biu.result ∧ u.sameBut [.flt, .biu] t))

/-- R28, R29: an expiry publishes the speed and the reverse indication and starts the next window; where the mode is not
tracking and no OVERSPEED arises it does nothing else. A net count above the limit in a running mode raises OVERSPEED
with the published speed as detail, and halts before anything is computed anew (log 7). -/
def Obligations.SpeedWindowExpiryPublishesAndJudgesOverspeed : Prop :=
  ∀ s : State, s.resetHeld = false →
    let speed := min 4095 s.axt.net.toNat
    let u : State := { s with
      axt.speed := speed, axt.reverse := decide (s.axt.net < 0), axt.net := 0, axt.windowMicros := 0 }
    (s.modc.mode = .config ∨ s.modc.mode = .halted
        ∨ (s.modc.mode = .acquire ∧ s.axt.net ≤ s.cfg.overspeed.toNat) →
      exec .speedWindowExpiry s = .next u)
    ∧ (s.modc.mode.running = true → (s.cfg.overspeed.toNat : Int) < s.axt.net → s.NoneHalting →
        ∃ t, exec .speedWindowExpiry s = .next t ∧ t.biu.result = s.biu.result
          ∧ u.HaltedBy .overspeed s.placeNow (.num speed) t)

/-- R47 to R52: at an expiry in a tracking mode, short of OVERSPEED, every slot's effective position is computed anew
from the published speed, never below Z, and the CURRENT slots then due fire in window order. LEAD_CLAMPED is raised for
each slot that clamps, LATE_FIRE for each late firing, each in window order, and nothing else. Then LFU requests a fetch
where R44 allows it. -/
def Obligations.SpeedWindowExpiryMovesTheWindowAndFires : Prop :=
  ∀ s : State, s.resetHeld = false → s.modc.mode.tracking = true → s.axt.net ≤ s.cfg.overspeed.toNat → s.CountsLaw →
    let speed := min 4095 s.axt.net.toNat
    let moved := s.lfu.window.map fun x => { x with eff := s.cfg.firesAt speed x.entry }
    let reached : Slot → Bool := fun x => x.tag == .current && decide (x.eff ≤ s.axt.hwm)
    ∃ t, exec .speedWindowExpiry s = .next t
      ∧ t.axt = { s.axt with speed := speed, reverse := decide (s.axt.net < 0), net := 0, windowMicros := 0 }
      ∧ t.lfu.window = moved.filter (fun x => !reached x)
      ∧ t.lfu.cursor = s.lfu.cursor ∧ t.lfu.deferred = s.lfu.deferred ∧ t.lfu.unexamined = s.lfu.unexamined
      ∧ s.HandedOver (moved.filter reached) s.axt.hwm t
      ∧ s.WarnedInTurn
          (s.cfg.clampRaises speed (s.lfu.window.map Slot.entry) ++ lateRaises s.axt.hwm (moved.filter reached)) s.placeNow t
      ∧ t.PortServed s.cam s.lfu.fetch
      ∧ s.sameBut [.axt, .lfu, .out, .cam, .flt, .biu] t

/-! ### Sensor edges -/

/-- R80 to R86, R89, R94: an edge that is not selected, or in CONFIG or HALTED, changes nothing. A taken edge that does
not acquire is judged, classed, stamped and queued; CAPT is set when the queue was empty. -/
def Obligations.SensorEdgeIsStampedClassedAndQueued : Prop :=
  ∀ (s : State) (n : SensorNo) (d : Edge), s.resetHeld = false →
    let selected := match s.cfg.sensorSel[n], d with
      | .both, _ => true
      | .rising, .rising => true
      | .falling, .falling => true
      | _, _ => false
    let p := s.axt.position
    let judged := s.cfg.regEnable = true ∧ n = s.cfg.markSensor
    let within := s.cfg.winOpen.toNat ≤ p ∧ p ≤ s.cfg.winClose.toNat
    let cls : CaptureClass :=
      if ¬judged then .plain else if ¬within then .outside else if s.mcr.mark.accepted.isSome then .extra else .accepted
    let mark : MarkState := match cls with
      | .accepted => { s.mcr.mark with accepted := some ((p : Int) - s.cfg.markNominal.toNat) }
      | .extra => { s.mcr.mark with extra := min 15 (s.mcr.mark.extra + 1) }
      | _ => s.mcr.mark
    let flags := if s.mcr.queue = [] then s.biu.flags ||| 0x08 else s.biu.flags
    (selected = false ∨ s.modc.mode = .config ∨ s.modc.mode = .halted → exec (.sensorEdge n d) s = .next s)
    ∧ (selected = true → s.modc.mode = .acquire → ¬(s.cfg.acqSource = .mark ∧ n = s.cfg.markSensor) →
        s.mcr.queue.length < 16 →
        exec (.sensorEdge n d) s = .next { s with
          mcr.queue := s.mcr.queue ++ [⟨n, d, wordOf s.axt.acqCount, 0, .unphased⟩], biu.flags := flags })
    ∧ (selected = true → s.modc.mode.tracking = true → s.mcr.queue.length < 16 →
        exec (.sensorEdge n d) s = .next { s with
          mcr.queue := s.mcr.queue ++ [⟨n, d, wordOf p, s.axt.revolution, cls⟩]
          mcr.mark := mark, biu.flags := flags })

/-- R84, R87, R146, R147: with 16 records held a taken edge's record is discarded and counted, CAPTURE_OVERFLOW is raised
with the count as detail, and the edge has still been judged. -/
def Obligations.SensorEdgeOnAFullQueueIsCountedAndJudged : Prop :=
  ∀ (s : State) (n : SensorNo) (d : Edge), s.resetHeld = false → s.cfg.sensorSel[n].Takes d →
    s.mcr.queue.length = 16 → s.modc.mode.running = true →
    ¬(s.modc.mode = .acquire ∧ s.cfg.acqSource = .mark ∧ n = s.cfg.markSensor) →
      let count := min 255 (s.mcr.overflow + 1)
      ∃ t, exec (.sensorEdge n d) s = .next t
        ∧ t.mcr = { s.mcr with overflow := count, mark := t.mcr.mark }
        ∧ (s.modc.mode.tracking = true → n = s.cfg.markSensor → s.cfg.regEnable = true →
            s.cfg.winOpen.toNat ≤ s.axt.position → s.axt.position ≤ s.cfg.winClose.toNat →
            t.mcr.mark = match s.mcr.mark.accepted with
              | none => { s.mcr.mark with accepted := some ((s.axt.position : Int) - s.cfg.markNominal.toNat) }
              | some _ => { s.mcr.mark with extra := min 15 (s.mcr.mark.extra + 1) })
        ∧ (s.modc.mode = .acquire ∨ n ≠ s.cfg.markSensor ∨ s.cfg.regEnable = false
            ∨ s.axt.position < s.cfg.winOpen.toNat ∨ s.cfg.winClose.toNat < s.axt.position →
            t.mcr.mark = s.mcr.mark)
        ∧ s.WarnedInTurn [(.captureOverflow, .num count)] s.placeNow t
        ∧ t.biu.result = s.biu.result
        ∧ s.sameBut [.mcr, .flt, .biu] t

/-- R93, R37, R44, R57, R58, R82, R147: in ACQUIRE with source MARK a selected edge on the mark sensor acquires at the
nominal; it is revolution 0's accepted mark with deviation 0, and its record, unless the queue is full, is ACCEPTED at the
nominal. LFU takes the acquisition as by index, and what MCR last published stands. -/
def Obligations.MarkEdgeAcquiresAtTheNominal : Prop :=
  ∀ (s : State) (d : Edge), s.resetHeld = false → s.modc.mode = .acquire → s.cfg.acqSource = .mark →
    s.cfg.sensorSel[s.cfg.markSensor].Takes d →
      let nominal := s.cfg.markNominal.toNat
      ∃ t, exec (.sensorEdge s.cfg.markSensor d) s = .next t
        ∧ t.modc = { s.modc with mode := .locked, badRun := 0, goodRun := 0 }
        ∧ t.axt = { s.axt with
            position := nominal, hwm := nominal, deficit := 0, stretch := 0, revolution := 0 }
        ∧ t.mcr = { s.mcr with queue := t.mcr.queue, overflow := t.mcr.overflow, mark := ⟨some 0, 0⟩ }
        ∧ s.CursorStarted nominal t
        ∧ t.cam.table = s.cam.table ∧ t.cam.record = s.cam.record
        ∧ (s.mcr.queue.length < 16 →
            t.mcr.queue = s.mcr.queue ++ [⟨s.cfg.markSensor, d, s.cfg.markNominal, 0, .accepted⟩]
              ∧ t.mcr.overflow = s.mcr.overflow ∧ t.flt = s.flt
              ∧ t.biu = { s.biu with flags := s.biu.flags ||| 0x02 ||| if s.mcr.queue = [] then 0x08 else 0 })
        ∧ (16 ≤ s.mcr.queue.length →
            t.mcr.queue = s.mcr.queue ∧ t.mcr.overflow = min 255 (s.mcr.overflow + 1)
              ∧ t.flt.causes = raisedOnto ⟨.locked, s.cfg.markNominal, 0⟩ s.flt.causes
                  (.captureOverflow, .num (min 255 (s.mcr.overflow + 1)))
              ∧ t.biu = { s.biu with
                  flags := s.biu.flags ||| 0x02 ||| if inPendingSet .captureOverflow s.flt.causes then 0 else 0x04 })
        ∧ s.sameBut [.modc, .axt, .lfu, .cam, .mcr, .flt, .biu] t

/-- R85: POP_CAPTURE removes the head record, or is refused with BAD_ARGUMENT on an empty queue; in every mode, and
nothing else changes. -/
def Obligations.PopCaptureRemovesTheHead : Prop :=
  ∀ s : State, s.resetHeld = false →
    (s.mcr.queue = [] → exec .popCapture s = .next { s with biu.result := ⟨7, .badArgument, 0⟩ })
    ∧ (∀ r rest, s.mcr.queue = r :: rest →
        exec .popCapture s = .next { s with mcr.queue := rest, biu.result := ⟨7, .ok, 0⟩ })

/-! ### Output lines and the interlock -/

/-- R75, R76, R134: an opening drives every line to its safe level, and in a running mode raises INTERLOCK_OPEN; a
closing moves no line. An opening that finds the interlock OPEN cannot arrive and changes nothing (log 5). -/
def Obligations.InterlockOpeningDropsTheLinesAndClosingMovesNone : Prop :=
  ∀ s : State, s.resetHeld = false →
    exec .interlockClosing s = .next { s with pins.enable := true, out.interlock := .closed }
    ∧ (s.out.interlock = .opened → exec .interlockOpening s = .next s)
    ∧ (s.out.interlock = .closed → s.modc.mode.running = false →
        ∃ t, exec .interlockOpening s = .next t ∧ t.pins = { s.pins with enable := false }
          ∧ t.out.interlock = .opened ∧ t.out.suppressed = s.out.suppressed
          ∧ (∀ i : LineNo, t.out.lines[i] = s.cfg.atSafeLevel i) ∧ s.sameBut [.pins, .out] t)
    ∧ (s.out.interlock = .closed → s.modc.mode.running = true → s.NoneHalting →
        ∃ t, exec .interlockOpening s = .next t ∧ t.biu.result = s.biu.result
          ∧ ({ s with pins.enable := false, out.interlock := .opened } : State).HaltedBy .interlockOpen s.placeNow (.num 0) t)

/-- R65: at its expiry, when its remaining time has reached 0, a PULSING line falls LOW, in whatever mode, and no other
line moves; on a line whose timer does not run or has time left no expiry can arrive, and nothing changes (log 5), so the
expiry of a pulse that another PULSE has replaced does not take place. -/
def Obligations.PulseExpiryTakesThePulsingLineLow : Prop :=
  ∀ (s : State) (i : LineNo), s.resetHeld = false →
    (s.out.lines[i] = .pulsing 0 → exec (.pulseExpiry i) s = .next { s with out.lines := s.out.lines.set i .low })
    ∧ (s.out.lines[i] ≠ .pulsing 0 → exec (.pulseExpiry i) s = .next s)

/-- R73: APPLY_MANUAL is refused outside CONFIG, then with the interlock OPEN; else every line takes its manual level,
with no timer. -/
def Obligations.ApplyManualDrivesEveryLineInConfig : Prop :=
  ∀ s : State, s.resetHeld = false →
    (s.modc.mode ≠ .config → exec .applyManual s = .next { s with biu.result := ⟨8, .wrongMode, 0⟩ })
    ∧ (s.modc.mode = .config → s.out.interlock = .opened →
        exec .applyManual s = .next { s with biu.result := ⟨8, .interlockOpen, 0⟩ })
    ∧ (s.modc.mode = .config → s.out.interlock = .closed →
        ∃ lines : Vector LineState 16,
          exec .applyManual s = .next { s with out.lines := lines, biu.result := ⟨8, .ok, 0⟩ }
            ∧ ∀ i : LineNo, lines[i] = if s.cfg.manualLevels.getLsbD i then .high else .low)

/-! ### The table port -/

/-- R8, R9, R44 to R46, R2, R43: the completion of a CANCELLED fetch loads nothing and leaves the cursor; that of an entry whose
selector does not match passes it over; in both nothing fires and no count moves, the port falls free, and LFU's next
request and a waiting read-back are served. Without a fetch on the port no completion can arrive, and nothing changes
(log 5). -/
def Obligations.FetchOfNoUseLoadsNothing : Prop :=
  ∀ s : State, s.resetHeld = false →
    ((∀ e, s.cam.port ≠ .fetch e) → exec .fetchCompletion s = .next s)
    ∧ (∀ e i tag, s.cam.port = .fetch e → s.lfu.fetch = some ⟨i, tag, .cancelled⟩ →
        ∃ t, exec .fetchCompletion s = .next t
          ∧ t.lfu.window = s.lfu.window ∧ t.lfu.cursor = s.lfu.cursor ∧ t.lfu.deferred = s.lfu.deferred
          ∧ t.lfu.late = s.lfu.late ∧ t.lfu.unexamined = s.lfu.unexamined
          ∧ t.PortServed { s.cam with port := .free } none ∧ s.sameBut [.lfu, .cam] t)
    ∧ (∀ e i tag, s.cam.port = .fetch (some e) → s.lfu.fetch = some ⟨i, tag, .granted⟩ →
        (match tag with
          | .current => s.axt.revolution
          | .next => s.axt.revolution + 1).toNat % e.period.value ≠ e.phase.toNat →
        ∃ t, exec .fetchCompletion s = .next t
          ∧ t.lfu.window = s.lfu.window
          ∧ (i + 1 ≠ s.cam.table.length → t.lfu.cursor = .reading (i + 1) tag)
          ∧ (i + 1 = s.cam.table.length → t.lfu.cursor = match tag with
              | .current => .reading 0 .next
              | .next => .parked)
          ∧ t.lfu.deferred = s.lfu.deferred ∧ t.lfu.late = s.lfu.late ∧ t.lfu.unexamined = s.lfu.unexamined
          ∧ t.PortServed { s.cam with port := .free } none ∧ s.sameBut [.lfu, .cam] t)

/-- R46 to R48, R50 to R52: the completion of a fetch whose entry takes part loads a slot at the tail; a NEXT slot
waits, and after a CURRENT one every CURRENT slot that is due fires in window order. LEAD_CLAMPED is raised if the load
clamps, LATE_FIRE for each late firing with line and tag, and nothing else. The cursor advances by one, the port falls
free, and LFU's next request and a waiting read-back are served (R8, R9, R44). -/
def Obligations.FetchCompletionLoadsASlotAndFiresWhatIsDue : Prop :=
  ∀ (s : State) (e : Entry) (i : Nat) (tag : RevTag), s.resetHeld = false → s.CountsLaw →
    s.cam.port = .fetch (some e) → s.lfu.fetch = some ⟨i, tag, .granted⟩ →
    (match tag with
      | .current => s.axt.revolution
      | .next => s.axt.revolution + 1).toNat % e.period.value = e.phase.toNat →
      let window := s.lfu.window ++ [⟨e, i, tag, s.cfg.firesAt s.axt.speed e⟩]
      let reached : Slot → Bool := fun x => tag == .current && x.tag == .current && decide (x.eff ≤ s.axt.hwm)
      ∃ t, exec .fetchCompletion s = .next t
        ∧ t.lfu.window = window.filter (fun x => !reached x)
        ∧ s.HandedOver (window.filter reached) s.axt.hwm t
        ∧ (i + 1 ≠ s.cam.table.length → t.lfu.cursor = .reading (i + 1) tag)
        ∧ (i + 1 = s.cam.table.length → t.lfu.cursor = match tag with
            | .current => .reading 0 .next
            | .next => .parked)
        ∧ s.WarnedInTurn (s.cfg.clampRaises s.axt.speed [e] ++ lateRaises s.axt.hwm (window.filter reached)) s.placeNow t
        ∧ t.lfu.deferred = s.lfu.deferred ∧ t.lfu.unexamined = s.lfu.unexamined
        ∧ t.PortServed { s.cam with port := .free } none
        ∧ s.sameBut [.lfu, .cam, .out, .flt, .biu] t

/-- R8, R9, R10, R12: a read-back that completes fills the record and sets READ, and the port goes to an application,
else to a waiting fetch, which reads its entry now. Without a read-back on the port no completion can arrive, and
nothing changes (log 5). -/
def Obligations.ReadbackCompletionFillsTheRecordAndFreesThePort : Prop :=
  ∀ s : State, s.resetHeld = false →
    ((∀ i e, s.cam.port ≠ .readback i e) → exec .readbackCompletion s = .next s)
    ∧ (∀ i e, s.cam.port = .readback i e → s.cam.readbackWaits = none →
        ∃ t, exec .readbackCompletion s = .next t
          ∧ t.cam.record = ⟨i, e⟩ ∧ t.cam.table = s.cam.table ∧ t.cam.readbackWaits = none
          ∧ t.biu = { s.biu with flags := s.biu.flags ||| 0x20 }
          ∧ (s.applying = true → t.cam.port = .application ∧ t.cam.turn = s.cam.turn ∧ t.lfu = s.lfu)
          ∧ (s.applying = false → ∀ j tag, s.lfu.fetch = some ⟨j, tag, .waiting⟩ →
              t.cam.port = .fetch s.cam.table[j]? ∧ t.cam.turn = .readback
                ∧ t.lfu = { s.lfu with fetch := some ⟨j, tag, .granted⟩ })
          ∧ (s.applying = false → (∀ f, s.lfu.fetch = some f → f.state ≠ .waiting) →
              t.cam.port = .free ∧ t.cam.turn = s.cam.turn ∧ t.lfu = s.lfu)
          ∧ s.sameBut [.cam, .biu, .lfu] t)

/-- R8 to R11: READ_ENTRY is refused with BUSY during an application or while a read-back is pending, then with
BAD_ARGUMENT beyond the table; else the read-back is granted a free port at once, or waits for a held one. -/
def Obligations.ReadEntryRequestsAReadback : Prop :=
  ∀ s : State, s.resetHeld = false →
    let pending := (∃ i e, s.cam.port = .readback i e) ∨ s.cam.readbackWaits ≠ none
    let index := s.biu.arg.toNat
    (s.applying = true ∨ pending → exec .readEntry s = .next { s with biu.result := ⟨22, .busy, 0⟩ })
    ∧ (s.applying = false → ¬pending → s.cam.table.length ≤ index →
        exec .readEntry s = .next { s with biu.result := ⟨22, .badArgument, 0⟩ })
    ∧ (s.applying = false → ¬pending → index < s.cam.table.length → s.cam.port ≠ .free →
        exec .readEntry s = .next { s with
          cam.readbackWaits := some index, biu.result := ⟨22, .ok, 0⟩ })
    ∧ (s.applying = false → ¬pending → index < s.cam.table.length → s.cam.port = .free →
        (∀ f, s.lfu.fetch = some f → f.state ≠ .waiting) →
        exec .readEntry s = .next { s with
          cam.port := .readback index s.cam.table[index]?, cam.turn := .fetch, cam.readbackWaits := none
          biu.result := ⟨22, .ok, 0⟩ })

/-- R14: CLEAR_TABLE is refused outside CONFIG with WRONG_MODE, then with BUSY while a group is committed; else the
table is emptied at once. -/
def Obligations.ClearTableEmptiesTheTableInConfig : Prop :=
  ∀ s : State, s.resetHeld = false →
    (s.modc.mode ≠ .config → exec .clearTable s = .next { s with biu.result := ⟨23, .wrongMode, 0⟩ })
    ∧ (s.modc.mode = .config → s.revq.group ≠ none →
        exec .clearTable s = .next { s with biu.result := ⟨23, .busy, 0⟩ })
    ∧ (s.modc.mode = .config → s.revq.group = none →
        exec .clearTable s = .next { s with cam.table := [], biu.result := ⟨23, .ok, 0⟩ })

/-! ### Revisions and commit groups -/

/-- R101, R102: a SUBMIT on a queue of 16 revisions is refused with QUEUE_FULL, then a record out of form with
BAD_ARGUMENT; else a revision with the staged fields joins the queue as open, carrying a width only as a PULSE.
SUBMIT_REMOVE is judged on its key alone. -/
def Obligations.SubmitsQueueTheStagedRevision : Prop :=
  ∀ s : State, s.resetHeld = false →
    let st := s.revq.staging
    let held := (match s.revq.group with
      | some g => g.revisions.length
      | none => 0) + s.revq.opens.length
    let inForm := st.line.toNat < 16 ∧ st.action.toNat ≠ 3 ∧ ¬(st.action.toNat = 2 ∧ st.width = 0)
      ∧ st.periodCode.toNat ≤ 4 ∧ st.phase.toNat < 2 ^ st.periodCode.toNat
    (16 ≤ held →
      exec .submitInsert s = .next { s with biu.result := ⟨17, .queueFull, 0⟩ }
        ∧ exec .submitRemove s = .next { s with biu.result := ⟨18, .queueFull, 0⟩ }
        ∧ exec .submitModify s = .next { s with biu.result := ⟨19, .queueFull, 0⟩ })
    ∧ (held < 16 → ¬inForm →
      exec .submitInsert s = .next { s with biu.result := ⟨17, .badArgument, 0⟩ }
        ∧ exec .submitModify s = .next { s with biu.result := ⟨19, .badArgument, 0⟩ })
    ∧ (held < 16 → 16 ≤ st.line.toNat → exec .submitRemove s = .next { s with biu.result := ⟨18, .badArgument, 0⟩ })
    ∧ (held < 16 → inForm → ∃ e : Entry,
      exec .submitInsert s = .next { s with
          revq.opens := s.revq.opens ++ [.insert e], biu.result := ⟨17, .ok, 0⟩ }
        ∧ exec .submitModify s = .next { s with
          revq.opens := s.revq.opens ++ [.modify e], biu.result := ⟨19, .ok, 0⟩ }
        ∧ e.position = st.position ∧ e.line.val = st.line.toNat ∧ e.lead = st.lead
        ∧ e.period.value = 2 ^ st.periodCode.toNat ∧ e.phase = st.phase ∧ e.tag = st.tag
        ∧ (st.action.toNat = 0 → e.action = .set) ∧ (st.action.toNat = 1 → e.action = .clear)
        ∧ (st.action.toNat = 2 → e.action = .pulse st.width))
    ∧ (held < 16 → ∀ line : LineNo, line.val = st.line.toNat →
        exec .submitRemove s = .next { s with
          revq.opens := s.revq.opens ++ [.remove st.position line], biu.result := ⟨18, .ok, 0⟩ })

/-- R104, R106, R108: COMMIT with nothing open is refused with NOTHING_OPEN, then with BUSY while a group exists; else
the open revisions become the group with the next sequence, which waits in a tracking mode and elsewhere begins its
application at once. -/
def Obligations.CommitMakesTheOpenRevisionsOneGroup : Prop :=
  ∀ s : State, s.resetHeld = false →
    let u : State := { s with
      revq.group := some ⟨s.revq.nextSeq, .waiting, s.revq.opens⟩, revq.opens := []
      revq.nextSeq := s.revq.nextSeq + 1, biu.result := ⟨20, .ok, 0⟩ }
    (s.revq.opens = [] → exec .commit s = .next { s with biu.result := ⟨20, .nothingOpen, 0⟩ })
    ∧ (s.revq.opens ≠ [] → s.revq.group ≠ none → exec .commit s = .next { s with biu.result := ⟨20, .busy, 0⟩ })
    ∧ (s.revq.opens ≠ [] → s.revq.group = none → s.modc.mode.tracking = true → exec .commit s = .next u)
    ∧ (s.revq.opens ≠ [] → s.revq.group = none → s.modc.mode.tracking = false →
        exec .commit s = .next { u with
          revq.group := some ⟨s.revq.nextSeq, .applying false 0, s.revq.opens⟩
          cam.port := if s.cam.port = .free then .application else s.cam.port })

/-- R105: DISCARD_OPEN removes every open revision, always with OK, and leaves the group and all else as it was. -/
def Obligations.DiscardOpenRemovesEveryOpenRevision : Prop :=
  ∀ s : State, s.resetHeld = false →
    exec .discardOpen s = .next { s with revq.opens := [], biu.result := ⟨21, .ok, 0⟩ }

/-- R119: RAISE_LOCK refuses an argument above 2 or below the lock level with BAD_ARGUMENT; else the level becomes the
argument. -/
def Obligations.RaiseLockNeverLowersTheLevel : Prop :=
  ∀ s : State, s.resetHeld = false →
    (2 < s.biu.arg.toNat ∨ s.biu.arg.toNat < s.revq.lock.val →
      exec .raiseLock s = .next { s with biu.result := ⟨24, .badArgument, 0⟩ })
    ∧ (∀ level : Fin 3, level.val = s.biu.arg.toNat → s.revq.lock ≤ level →
      exec .raiseLock s = .next { s with revq.lock := level, biu.result := ⟨24, .ok, 0⟩ })

/-- R3, R4, R109: the first condition of R109 that holds is a revision's failure reason, and one for which none holds
passes; a revision that passes does to the table carried forward exactly what its kind says, and keeps it in order within
its capacity. -/
def Obligations.PassingRevisionsEditTheTableAsTheirKindSays : Prop :=
  ∀ (s : State) (t : List Entry) (r : Revision), tableOk t →
    let line := match r with
      | .insert e => e.line
      | .modify e => e.line
      | .remove _ l => l
    let lockedAll := s.revq.lock = 2 ∧ s.modc.mode ≠ .config
    let lineProtected := s.revq.lock = 1 ∧ s.cfg.protectedLines.getLsbD line = true ∧ s.modc.mode ≠ .config
    let present := fun (p : Word) (l : LineNo) => ∃ x ∈ t, x.position = p ∧ x.line = l
    (lockedAll → r.failure s t = some .lockedAll)
    ∧ (lineProtected → r.failure s t = some .lineProtected)
    ∧ (¬lockedAll → ¬lineProtected →
        (∀ e, r = .insert e →
          let inRange := s.cfg.guardZone.toNat ≤ e.position.toNat ∧ e.position.toNat < s.cfg.revLength.toNat
          (¬inRange → r.failure s t = some .outOfRange)
          ∧ (inRange → present e.position e.line → r.failure s t = some .keyExists)
          ∧ (inRange → ¬present e.position e.line → t.length = 192 → r.failure s t = some .tableFull)
          ∧ (inRange → ¬present e.position e.line → t.length < 192 → r.failure s t = none))
        ∧ (∀ e, r = .modify e →
          (¬present e.position e.line → r.failure s t = some .keyAbsent)
          ∧ (present e.position e.line → r.failure s t = none))
        ∧ (∀ p l, r = .remove p l →
          (¬present p l → r.failure s t = some .keyAbsent) ∧ (present p l → r.failure s t = none)))
    ∧ (r.failure s t = none → tableOk (r.edit t)
        ∧ (∀ e, r = .insert e → (∀ x, x ∈ r.edit t ↔ x = e ∨ x ∈ t) ∧ (r.edit t).length = t.length + 1)
        ∧ (∀ e, r = .modify e →
          (∀ x, x ∈ r.edit t ↔ x = e ∨ (x ∈ t ∧ ¬(x.position = e.position ∧ x.line = e.line)))
            ∧ (r.edit t).length = t.length)
        ∧ (∀ p l, r = .remove p l →
          (∀ x, x ∈ r.edit t ↔ x ∈ t ∧ ¬(x.position = p ∧ x.line = l)) ∧ (r.edit t).length + 1 = t.length))

/-- R8, R9, R44, R55, R58, R110 to R113: at its completion a group is applied whole, when every revision passes in turn, or not at
all; it leaves, the result record tells which, the port falls free, and LFU's request and a waiting read-back are served.
Without an application on the port no completion can arrive, and nothing changes (log 5). -/
def Obligations.ApplicationIsWholeOrNotAtAll : Prop :=
  ∀ s : State, s.resetHeld = false →
    (s.cam.port ≠ .application → exec .applicationCompletion s = .next s)
    ∧ (∀ q b n rs, s.revq.group = some ⟨q, .applying b n, rs⟩ → s.cam.port = .application →
        ∃ t, exec .applicationCompletion s = .next t
          ∧ (∀ pre r post reason, rs = pre ++ r :: post →
              (∀ k < pre.length, (pre[k]?.bind fun x => x.failure s ((pre.take k).foldl Revision.edit s.cam.table)) = none) →
              r.failure s (pre.foldl Revision.edit s.cam.table) = some reason →
              t.cam.table = s.cam.table
                ∧ t.revq.result = ⟨q, .rejected pre.length reason, s.cam.table.length⟩)
          ∧ ((∀ k < rs.length, (rs[k]?.bind fun x => x.failure s ((rs.take k).foldl Revision.edit s.cam.table)) = none) →
              t.cam.table = rs.foldl Revision.edit s.cam.table
                ∧ t.revq.result = ⟨q, .applied, (rs.foldl Revision.edit s.cam.table).length⟩)
          ∧ t.revq = { s.revq with group := none, result := t.revq.result, resultRead := false }
          ∧ t.biu = { s.biu with
              flags := s.biu.flags ||| 0x10
              sticky := if s.revq.resultRead then s.biu.sticky else s.biu.sticky ||| 2 }
          ∧ t.PortServed { s.cam with table := t.cam.table, port := .free } s.lfu.fetch
          ∧ t.cam.port ≠ .application ∧ t.cam.record = s.cam.record
          ∧ t.lfu.window = s.lfu.window ∧ t.lfu.late = s.lfu.late ∧ t.lfu.unexamined = s.lfu.unexamined
          ∧ t.lfu.deferred = none
          ∧ (∀ point, s.lfu.deferred = some point → CursorBeyond point t.cam.table t.lfu.cursor)
          ∧ (s.lfu.deferred = none → s.lfu.cursor = .reading 0 .current →
              t.lfu.cursor = if t.cam.table = [] then .parked else .reading 0 .current)
          ∧ (s.lfu.deferred = none → s.lfu.cursor = .parked → t.lfu.cursor = .parked)
          ∧ s.sameBut [.cam, .revq, .lfu, .biu] t)

/-! ### Mode commands -/

/-- R125, R126: START is refused outside CONFIG, then with the interlock OPEN, then at the first of the seven checks
that fails, with that check's code; a refusal changes COMMAND_RESULT alone. -/
def Obligations.StartIsRefusedAtTheFirstFailingCheck : Prop :=
  ∀ s : State, s.resetHeld = false →
    (s.modc.mode ≠ .config → exec .start s = .next { s with biu.result := ⟨1, .wrongMode, 0⟩ })
    ∧ (s.modc.mode = .config → s.out.interlock = .opened →
        exec .start s = .next { s with biu.result := ⟨1, .interlockOpen, 0⟩ })
    ∧ (s.modc.mode = .config → s.out.interlock = .closed → ∀ k, s.FailsCheck k → (∀ j < k, ¬s.FailsCheck j) →
        exec .start s = .next { s with biu.result := ⟨1, .configInvalid, BitVec.ofNat 3 k⟩ })
    ∧ (s.modc.mode = .config → s.out.interlock = .closed → (∀ k, ¬s.FailsCheck k) →
        ∃ t, exec .start s = .next t ∧ t.biu.result = ⟨1, .ok, 0⟩ ∧ t.modc.mode.running = true)

/-- R36, R59, R71, R97, R127, R129, R37: an accepted START zeroes the position record and the ladder, empties the
window, clears the mark state and drives every line safe; it waits in ACQUIRE, or with source IMMEDIATE leaves the
command LOCKED at INDEX_POS reduced modulo L. -/
def Obligations.AcceptedStartWaitsOrAcquiresAtOnce : Prop :=
  ∀ s : State, s.resetHeld = false → s.modc.mode = .config → s.out.interlock = .closed → (∀ k, ¬s.FailsCheck k) →
    let point := s.cfg.indexPos.toNat % s.cfg.revLength.toNat
    let now := s.cfg.acqSource = .immediate
    let u : State := { s with
      lfu := { s.lfu with window := [], cursor := .parked, deferred := none, fetch := cancelled s.lfu.fetch } }
    ∃ t, exec .start s = .next t
      ∧ t.modc = ⟨if now then .locked else .acquire, false, .none, 0, 0⟩
      ∧ t.axt = { s.axt with
          position := if now then point else 0, hwm := if now then point else 0
          deficit := 0, stretch := 0, revolution := 0, acqCount := 0, armed := false }
      ∧ (∀ i : LineNo, t.out.lines[i] = s.cfg.atSafeLevel i)
      ∧ t.out.interlock = .closed ∧ t.out.suppressed = s.out.suppressed
      ∧ t.mcr = { s.mcr with mark := ⟨none, 0⟩ }
      ∧ (¬now → t.lfu = u.lfu ∧ t.cam = s.cam)
      ∧ (now → u.CursorStarted point t)
      ∧ t.cam.table = s.cam.table ∧ t.cam.record = s.cam.record
      ∧ t.biu = { s.biu with flags := s.biu.flags ||| 0x02, result := ⟨1, .ok, 0⟩ }
      ∧ s.sameBut [.modc, .axt, .out, .mcr, .lfu, .cam, .biu] t

/-- R131, R71, R59, R97, R38: STOP sets stop pending in a tracking mode, returns ACQUIRE to CONFIG at once with the
entry's claims, and is refused with WRONG_MODE in CONFIG and HALTED. -/
def Obligations.StopWaitsForTheBoundaryOrLeavesAcquire : Prop :=
  ∀ s : State, s.resetHeld = false →
    (s.modc.mode = .config ∨ s.modc.mode = .halted →
      exec .stop s = .next { s with biu.result := ⟨2, .wrongMode, 0⟩ })
    ∧ (s.modc.mode.tracking = true →
        exec .stop s = .next { s with modc.stopPending := true, biu.result := ⟨2, .ok, 0⟩ })
    ∧ (s.modc.mode = .acquire → ¬s.HasWaitingGroup →
        ∃ t, exec .stop s = .next t
          ∧ t.modc = { s.modc with mode := .config, stopPending := false }
          ∧ t.axt = { s.axt with armed := false }
          ∧ (∀ i : LineNo, t.out.lines[i] = s.cfg.atSafeLevel i)
          ∧ t.out.interlock = s.out.interlock ∧ t.out.suppressed = s.out.suppressed
          ∧ t.mcr = { s.mcr with mark := ⟨none, 0⟩ }
          ∧ t.lfu = { s.lfu with window := [], cursor := .parked, deferred := none, fetch := cancelled s.lfu.fetch }
          ∧ t.biu = { s.biu with flags := s.biu.flags ||| 0x02, result := ⟨2, .ok, 0⟩ }
          ∧ s.sameBut [.modc, .axt, .out, .mcr, .lfu, .biu] t)

/-- R133, R115: HALT_NOW in a running mode enters HALTED with reason COMMAND and raises no cause; in CONFIG and HALTED it
is refused with WRONG_MODE. -/
def Obligations.HaltNowHaltsARunWithoutACause : Prop :=
  ∀ s : State, s.resetHeld = false →
    (s.modc.mode.running = false → exec .haltNow s = .next { s with biu.result := ⟨3, .wrongMode, 0⟩ })
    ∧ (s.modc.mode.running = true →
        ∃ t, exec .haltNow s = .next t ∧ s.HaltEntry .command t ∧ t.flt = s.flt ∧ t.flag .fault = s.flag .fault
          ∧ t.biu.result = ⟨3, .ok, 0⟩)

/-- R136, R151: CLEAR_HALT returns HALTED to CONFIG when no halting cause is pending, keeping the halt reason, the ladder
counters and the pending warnings; with one pending it is refused with HALT_CAUSE_PENDING, elsewhere with WRONG_MODE. -/
def Obligations.ClearHaltNeedsTheHaltingCauseAcknowledged : Prop :=
  ∀ s : State, s.resetHeld = false →
    (s.modc.mode ≠ .halted → exec .clearHalt s = .next { s with biu.result := ⟨4, .wrongMode, 0⟩ })
    ∧ (s.modc.mode = .halted → (∃ r ∈ s.flt.causes, r.cause.code ≤ 6) →
        exec .clearHalt s = .next { s with biu.result := ⟨4, .haltCausePending, 0⟩ })
    ∧ (s.modc.mode = .halted → (∀ r ∈ s.flt.causes, 6 < r.cause.code) → ¬s.HasWaitingGroup →
        ∃ t, exec .clearHalt s = .next t
          ∧ t.modc = { s.modc with mode := .config, stopPending := false }
          ∧ t.axt = { s.axt with armed := false }
          ∧ (∀ i : LineNo, t.out.lines[i] = s.cfg.atSafeLevel i)
          ∧ t.out.interlock = s.out.interlock ∧ t.out.suppressed = s.out.suppressed
          ∧ t.mcr = { s.mcr with mark := ⟨none, 0⟩ }
          ∧ t.lfu = { s.lfu with window := [], cursor := .parked, deferred := none, fetch := cancelled s.lfu.fetch }
          ∧ t.biu = { s.biu with flags := s.biu.flags ||| 0x02, result := ⟨4, .ok, 0⟩ }
          ∧ s.sameBut [.modc, .axt, .out, .mcr, .lfu, .biu] t)

/-- R155: ACK_FAULT refuses an argument of 0 or above 12 with BAD_ARGUMENT, and one that is not the highest pending cause
with NOT_HIGHEST; else that cause and its record leave the pending set, and nothing else changes. -/
def Obligations.AckFaultRemovesTheHighestCauseAlone : Prop :=
  ∀ s : State, s.resetHeld = false → s.PendingLaw →
    (s.biu.arg.toNat = 0 ∨ 12 < s.biu.arg.toNat →
      exec .ackFault s = .next { s with biu.result := ⟨6, .badArgument, 0⟩ })
    ∧ (1 ≤ s.biu.arg.toNat → s.biu.arg.toNat ≤ 12 →
        ¬(∃ r ∈ s.flt.causes, r.cause.code = s.biu.arg.toNat ∧ ∀ x ∈ s.flt.causes, r.cause.code ≤ x.cause.code) →
        exec .ackFault s = .next { s with biu.result := ⟨6, .notHighest, 0⟩ })
    ∧ (1 ≤ s.biu.arg.toNat → s.biu.arg.toNat ≤ 12 →
        ∀ r ∈ s.flt.causes, r.cause.code = s.biu.arg.toNat → (∀ x ∈ s.flt.causes, r.cause.code ≤ x.cause.code) →
        exec .ackFault s = .next { s with
          flt.causes := s.flt.causes.filter (fun x => decide (x ≠ r)), biu.result := ⟨6, .ok, 0⟩ })

/-- R171: CLEAR_COUNTERS, always OK, sets the late, unexamined, suppressed and capture overflow counts to 0, together,
and changes nothing else. -/
def Obligations.ClearCountersZeroesTheFourCounts : Prop :=
  ∀ s : State, s.resetHeld = false →
    exec .clearCounters s = .next { s with
      lfu.late := 0, lfu.unexamined := 0, out.suppressed := 0, mcr.overflow := 0, biu.result := ⟨9, .ok, 0⟩ }

/-! ### The register window -/

/-- R167, R170: a strobe write with no bit set does nothing; one that names no single command is refused with
BAD_ARGUMENT under the register's own code; one bit at a command's place gives that command. -/
def Obligations.StrobeWritesAreDecodedByTheBitsSet : Prop :=
  ∀ (s : State) (r : StrobeReg) (v : Word), s.resetHeld = false →
    (v = 0 → exec (.invalidCommandWrite r v) s = .next s)
    ∧ (strobeDecode r v = .noSingleCommand ↔
        v ≠ 0 ∧ ∀ bit < (match r with
          | .a => 9
          | .b => 8), v ≠ BitVec.ofNat 16 (2 ^ bit))
    ∧ (strobeDecode r v = .noSingleCommand →
        exec (.invalidCommandWrite r v) s = .next { s with
          biu.result := ⟨match r with
            | .a => 15
            | .b => 31, .badArgument, 0⟩ })
    ∧ ([1, 2, 4, 8, 16, 32, 64, 128, 256].map (strobeDecode .a)
        = [Command.start, .stop, .haltNow, .clearHalt, .softReset, .ackFault, .popCapture, .applyManual,
            .clearCounters].map .command)
    ∧ ([1, 2, 4, 8, 16, 32, 64, 128].map (strobeDecode .b)
        = [Command.submitInsert, .submitRemove, .submitModify, .commit, .discardOpen, .readEntry, .clearTable,
            .raiseLock].map .command)

/-- R158 to R160, R162: INT_FLAGS and STICKY_STATUS clear each bit written 1 and keep the rest, INT_ENABLE stores the six
enables, and INT is asserted exactly while a flag is set with its enable. -/
def Obligations.FlagWritesClearAndEnablesDriveTheInterrupt : Prop :=
  ∀ (s : State) (v : Word), s.resetHeld = false →
    (∃ t, exec (.intFlagsWrite v) s = .next t ∧ t = { s with biu.flags := t.biu.flags }
      ∧ ∀ i < 6, t.biu.flags.getLsbD i = (s.biu.flags.getLsbD i && !v.getLsbD i))
    ∧ (∃ t, exec (.intEnableWrite v) s = .next t ∧ t = { s with biu.enables := t.biu.enables }
      ∧ ∀ i < 6, t.biu.enables.getLsbD i = v.getLsbD i)
    ∧ (∃ t, exec (.stickyStatusWrite v) s = .next t ∧ t = { s with biu.sticky := t.biu.sticky }
      ∧ ∀ i < 2, t.biu.sticky.getLsbD i = (s.biu.sticky.getLsbD i && !v.getLsbD i))
    ∧ (∀ f : Flag, s.flag f = s.biu.flags.getLsbD (match f with
        | .rev => 0
        | .mode => 1
        | .fault => 2
        | .capt => 3
        | .commit => 4
        | .read => 5))
    ∧ (s.intAsserted = true ↔ ∃ i < 6, s.biu.flags.getLsbD i = true ∧ s.biu.enables.getLsbD i = true)

/-- R172, R17, R30, R69, R76, R120, R124, R173: outside CONFIG a write to a frozen word is discarded whole and sets
ACCESS_VIOLATION; in CONFIG the word then reads what was written in its fields, OVERSPEED 0 as 1, LEAD_TIME above 20,000
as 20,000, source 3 as INDEX and lock 3 as 2; ENCODER_CFG retakes the reference state, SAFE_LEVELS with the interlock
OPEN moves the lines whose safe level changes. That OVERSPEED's limit is its field of twelve bits is log 14. -/
def Obligations.FrozenWordsAreStoredInConfigAlone : Prop :=
  ∀ (s : State) (w : FrozenWord) (v : Word), s.resetHeld = false →
    let u : State := { s with biu.sticky := s.biu.sticky ||| 1 }
    (s.modc.mode ≠ .config →
      exec (.frozenWordWrite w v) s = .next u ∧ exec (.encoderCfgWrite v) s = .next u
        ∧ exec (.timebaseDivWrite v) s = .next u ∧ exec (.acqCfgWrite v) s = .next u
        ∧ exec (.safeLevelsWrite v) s = .next u)
    ∧ (s.modc.mode = .config →
        (∃ t, exec (.frozenWordWrite w v) s = .next t
          ∧ t.readTarget (.frozen w) = (match w with
              | .maxCorr => v &&& 0x0FFF
              | .backlash => v &&& 0x00FF
              | .overspeed => if v &&& 0x0FFF = 0 then 1 else v &&& 0x0FFF
              | .slipCfg => v &&& 0x80FF
              | .regCfg => v &&& 0x0331
              | .ladderCfg => v &&& 0x00FF
              | .sensorCfg => v &&& 0x00FF
              | .leadTime _ => if 20000 < v.toNat then 20000 else v
              | _ => v)
          ∧ t.cfg = (match w with
              | .revLength => { s.cfg with revLength := v }
              | .guardZone => { s.cfg with guardZone := v }
              | .maxCorr => { s.cfg with maxCorr := v.extractLsb' 0 12 }
              | .backlash => { s.cfg with backlash := v.extractLsb' 0 8 }
              | .overspeed => { s.cfg with overspeed := if v &&& 0x0FFF = 0 then 1 else v.extractLsb' 0 12 }
              | .indexPos => { s.cfg with indexPos := v }
              | .slipCfg => { s.cfg with slipTolerance := v.extractLsb' 0 8, indexMonitor := v.getLsbD 15 }
              | .regCfg => { s.cfg with
                  regEnable := v.getLsbD 0, gainShift := v.extractLsb' 4 2, markSensor := t.cfg.markSensor }
              | .winOpen => { s.cfg with winOpen := v }
              | .markNominal => { s.cfg with markNominal := v }
              | .winClose => { s.cfg with winClose := v }
              | .ladderCfg => { s.cfg with fwa := v.extractLsb' 0 4, ha := v.extractLsb' 4 4 }
              | .sensorCfg => { s.cfg with sensorSel := t.cfg.sensorSel }
              | .leadTime i => { s.cfg with leadTime := s.cfg.leadTime.set i (if 20000 < v.toNat then 20000 else v) }
              | .protectedLines => { s.cfg with protectedLines := v }
              | .criticalLines => { s.cfg with criticalLines := v })
          ∧ (w = .regCfg → t.cfg.markSensor.val = (v.toNat / 256) % 4)
          ∧ (w = .sensorCfg → ∀ i : SensorNo, t.cfg.sensorSel[i] = match (v.toNat / 4 ^ i.val) % 4 with
              | 0 => .off
              | 1 => .rising
              | 2 => .falling
              | _ => .both)
          ∧ (∀ x, x ≠ .frozen w → t.readTarget x = s.readTarget x) ∧ s.sameBut [.cfg] t)
        ∧ (∃ t, exec (.encoderCfgWrite v) s = .next t ∧ t.readTarget .encoderCfg = v &&& 0x00F3
          ∧ t.cfg = { s.cfg with
              encMode := if v.getLsbD 0 then .stepDir else .quadrature
              encInvert := v.getLsbD 1, encFilter := v.extractLsb' 4 4 }
          ∧ t.axt = { s.axt with ref := ⟨s.pins.encA, s.pins.encB⟩ }
          ∧ (∀ x, x ≠ .encoderCfg → t.readTarget x = s.readTarget x) ∧ s.sameBut [.cfg, .axt] t)
        ∧ exec (.timebaseDivWrite v) s = .next { s with cfg.timebaseDiv := v.extractLsb' 0 6 }
        ∧ (∃ t, exec (.acqCfgWrite v) s = .next t
          ∧ t.cfg = { s.cfg with acqSource := t.cfg.acqSource } ∧ t.revq = { s.revq with lock := t.revq.lock }
          ∧ t.cfg.acqSource = (if v &&& 3 = 1 then .mark else if v &&& 3 = 2 then .immediate else .index)
          ∧ t.revq.lock.val = min 2 ((v.toNat / 16) % 4) ∧ s.sameBut [.cfg, .revq] t)
        ∧ (s.out.interlock = .closed → exec (.safeLevelsWrite v) s = .next { s with cfg.safeLevels := v })
        ∧ (s.out.interlock = .opened → ∃ t, exec (.safeLevelsWrite v) s = .next t
          ∧ t.cfg = { s.cfg with safeLevels := v }
          ∧ (∀ i : LineNo, t.out.lines[i] =
              if v.getLsbD i = s.cfg.safeLevels.getLsbD i then s.out.lines[i]
              else if v.getLsbD i then .high else .low)
          ∧ t.out.interlock = .opened ∧ t.out.suppressed = s.out.suppressed ∧ s.sameBut [.cfg, .out] t))

/-- R164, R169, R74, R100, R124, R174, R177: COMMAND_ARG, MANUAL_LEVELS, RELOCK_CFG and the STAGING words are stored in
every mode as their layouts give and move no line; a write to a read-only word or to an address not listed is
discarded. -/
def Obligations.UnfrozenRegistersAreWrittenInEveryMode : Prop :=
  ∀ (s : State) (v : Word), s.resetHeld = false →
    exec (.registerWrite 0x05 v) s = .next { s with biu.arg := v }
    ∧ exec (.registerWrite 0x33 v) s = .next { s with cfg.manualLevels := v }
    ∧ exec (.registerWrite 0x36 v) s = .next { s with cfg.rla := v.extractLsb' 0 5 }
    ∧ exec (.registerWrite 0x40 v) s = .next { s with revq.staging.position := v }
    ∧ (∃ t, exec (.registerWrite 0x41 v) s = .next t ∧ t.readWord 0x41 = v &&& 0x7FFF
        ∧ t = { s with revq.staging := { s.revq.staging with
            line := v.extractLsb' 0 5, action := v.extractLsb' 5 2, lead := v.getLsbD 7
            periodCode := v.extractLsb' 8 3, phase := v.extractLsb' 11 4 } })
    ∧ exec (.registerWrite 0x42 v) s = .next { s with revq.staging.width := v }
    ∧ exec (.registerWrite 0x43 v) s = .next { s with revq.staging.tag := v.extractLsb' 0 8 }
    ∧ (∀ a : BitVec 7,
        a.toNat ≤ 0x02 ∨ a.toNat = 0x06 ∨ (0x0A ≤ a.toNat ∧ a.toNat ≤ 0x0F) ∨ a.toNat = 0x34 ∨ a.toNat = 0x35
          ∨ (0x37 ≤ a.toNat ∧ a.toNat ≤ 0x3F) ∨ 0x44 ≤ a.toNat →
        exec (.registerWrite a v) s = .next s)

/-- R22, R113, R154, R165, R166: in every state the held words read the hold registers of their group. Each read of a
leading word completes: it drives the leading word's present value and copies the present values of the rest of its group
into the group's hold registers, a read of COMMIT_RESULT marks the result read, and nothing else changes. The hold
registers hold until that read comes again: no command but it and the resets changes them, SOFT_RESET in the spellings of
log 8 among these. What is on the data lines after the read is log 12; that the fault view latch keeps the cause word too,
which no word reads, is log 18. R12, R61, R77, R86, R87, R91, R153, R176 to R180: every other read-only word shows its
fields of the state, at their places and in the codes of the tables, whenever it is read. R174, R175: so does every word
that can be written; a strobe and an address that is not listed read 0. -/
def Obligations.ReadsShowTheStateAndLeadingWordsLatchTheirGroup : Prop :=
  ∀ s : State,
    s.ShowsHeldWords
    ∧ (∀ (c : Instr) (t : State), isHardReset c = false →
        c ∉ [.softReset, .invalidCommandWrite .a 0x0010, .registerWrite 0x03 0x0010] →
        exec c s = .next t → s.KeepsHolds c t)
    ∧ (s.resetHeld = false →
        let speed := wordOf (s.axt.speed + if s.axt.reverse then 0x8000 else 0)
        (s.modc.mode = .acquire → s.readWord 0x0A = wordOf s.axt.acqCount
          ∧ exec .positionRead s = .next { s with
              biu.positionHold := ⟨0, 0, 0, 0, speed⟩, biu.dataOut := some (wordOf s.axt.acqCount) })
        ∧ (s.modc.mode ≠ .acquire → s.readWord 0x0A = wordOf s.axt.position
          ∧ exec .positionRead s = .next { s with
              biu.positionHold := ⟨s.axt.revolution, wordOf s.axt.hwm, wordOf s.axt.deficit, wordOf s.axt.stretch, speed⟩
              biu.dataOut := some (wordOf s.axt.position) })
        ∧ exec .commitResultRead s = .next { s with
            biu.resultHold := ⟨match s.revq.result.outcome with
              | .rejected i reason => wordOf (i + reason.code * 16)
              | _ => 0, wordOf s.revq.result.tableCount⟩
            biu.dataOut := some (s.readWord 0x4C)
            revq.resultRead := true }
        ∧ (s.flt.causes = [] → s.readWord 0x58 = 0
          ∧ exec .faultCauseRead s = .next { s with biu.faultHold := ⟨0, 0, 0, 0, 0⟩, biu.dataOut := some 0 })
        ∧ (∀ r rest, s.flt.causes = r :: rest →
          let cause := wordOf (r.cause.code + (if r.cause.code ≤ 6 then 16 else 0) + s.flt.causes.length * 256)
          s.readWord 0x58 = cause
            ∧ exec .faultCauseRead s = .next { s with
                biu.faultHold := ⟨cause, wordOf (r.repeats + r.mode.code * 256), r.position, r.revolution, r.detail.word⟩
                biu.dataOut := some cause }))
    ∧ CodesOfTheWindow ∧ s.ShowsStoredWords ∧ (s.applying = true ↔ ∃ q b n rs, s.revq.group = some ⟨q, .applying b n, rs⟩)
    ∧ s.readWord 0x00 = 0x5C16 ∧ s.readWord 0x01 = 0x0002
    ∧ s.readWord 0x02 = wordOf (s.modc.mode.code + (if s.modc.stopPending then 8 else 0) + s.modc.haltReason.code * 16
        + s.revq.lock.val * 256 + (if s.out.interlock = .closed then 1024 else 0) + (if s.applying then 2048 else 0))
    ∧ s.readWord 0x06 = wordOf (s.biu.result.command.toNat + s.biu.result.code.code * 256 + s.biu.result.check.toNat * 4096)
    ∧ (∀ i : LineNo, ((s.readWord 0x34).getLsbD i = true ↔ s.out.lines[i] ≠ .low)
        ∧ ((s.readWord 0x35).getLsbD i = true ↔ ∃ r, s.out.lines[i] = .pulsing r))
    ∧ s.readWord 0x44 = wordOf (s.revq.opens.length + (match s.revq.group with
          | some g => g.revisions.length
          | none => 0) * 32 + (if s.applying then 1024 else 0))
    ∧ s.readWord 0x45 = wordOf s.revq.nextSeq.toNat
    ∧ (s.cam.record.entry = none → s.readWord 0x46 = 0 ∧ s.readWord 0x47 = 0 ∧ s.readWord 0x48 = 0 ∧ s.readWord 0x49 = 0
        ∧ s.readWord 0x4A = wordOf s.cam.record.index)
    ∧ (∀ e, s.cam.record.entry = some e →
        s.readWord 0x46 = e.position
        ∧ s.readWord 0x47 = wordOf (e.line.val + e.action.code * 32 + (if e.lead then 128 else 0) + e.period.code * 256
            + e.phase.toNat * 2048)
        ∧ s.readWord 0x48 = (match e.action with
          | .pulse w => w
          | _ => 0)
        ∧ s.readWord 0x49 = wordOf e.tag.toNat ∧ s.readWord 0x4A = wordOf (s.cam.record.index + 32768))
    ∧ s.readWord 0x4C = wordOf (s.revq.result.sequence.toNat + s.revq.result.outcome.code * 256)
    ∧ (s.mcr.queue = [] → s.readWord 0x50 = 0 ∧ s.readWord 0x51 = 0 ∧ s.readWord 0x52 = 0 ∧ s.readWord 0x53 = 0)
    ∧ (∀ r rest, s.mcr.queue = r :: rest →
        s.readWord 0x50 = wordOf (s.mcr.queue.length + 32768)
        ∧ s.readWord 0x51 = wordOf (r.sensor.val + (if r.edge = .falling then 4 else 0) + r.cls.code * 16)
        ∧ s.readWord 0x52 = r.position ∧ s.readWord 0x53 = r.revolution)
    ∧ s.readWord 0x54 = wordOf s.mcr.overflow
    ∧ (s.PendingLaw → ∀ c : Cause, (s.readWord 0x5D).getLsbD (c.code - 1) = inPendingSet c s.flt.causes)
    ∧ s.readWord 0x60 = wordOf s.lfu.late ∧ s.readWord 0x61 = wordOf s.lfu.unexamined
    ∧ s.readWord 0x62 = wordOf s.out.suppressed
    ∧ s.readWord 0x63 = wordOf (s.modc.badRun + s.modc.goodRun * 16 + s.mcr.lastVerdict.code * 512
        + s.mcr.lastExtra * 4096)
    ∧ s.readWord 0x64 = wordOfInt s.mcr.lastDeviation ∧ s.readWord 0x65 = wordOfInt s.mcr.lastCorrection
    ∧ s.readWord 0x66 = wordOfInt s.axt.lastSlip
    ∧ s.readWord 0x67 = wordOf (s.lfu.window.length + match s.lfu.cursor with
        | .parked => 0
        | .reading i .current => 16 + i * 256
        | .reading i .next => 32 + i * 256)
    ∧ s.readWord 0x68 = wordOf s.cam.table.length
end

