-- ==== Sys2Proof/Laws/State.lean ====
section
/-! SUPPORT. What each shared update of the state writes and what it keeps, field by field, as rewriting rules. -/

namespace Sys2Proof.Machine

variable (s : State)

/-! ### Updates of one part -/

@[simp] theorem State.setFlag_fields (f : Flag) :
    (s.setFlag f).cfg = s.cfg ∧ (s.setFlag f).axt = s.axt ∧ (s.setFlag f).cam = s.cam ∧ (s.setFlag f).lfu = s.lfu
      ∧ (s.setFlag f).out = s.out ∧ (s.setFlag f).mcr = s.mcr ∧ (s.setFlag f).revq = s.revq ∧ (s.setFlag f).modc = s.modc
      ∧ (s.setFlag f).flt = s.flt ∧ (s.setFlag f).pins = s.pins ∧ (s.setFlag f).tb = s.tb
      ∧ (s.setFlag f).resetHeld = s.resetHeld ∧ (s.setFlag f).encInput = s.encInput ∧ (s.setFlag f).pending = s.pending
      ∧ (s.setFlag f).biu = { s.biu with flags := s.biu.flags ||| f.mask } := by
  simp only [State.setFlag, and_self]

@[simp] theorem State.answer_fields (c : Command) (r : ResultCode) (k : BitVec 3) :
    (s.answer c r k).cfg = s.cfg ∧ (s.answer c r k).axt = s.axt ∧ (s.answer c r k).cam = s.cam
      ∧ (s.answer c r k).lfu = s.lfu ∧ (s.answer c r k).out = s.out ∧ (s.answer c r k).mcr = s.mcr
      ∧ (s.answer c r k).revq = s.revq ∧ (s.answer c r k).modc = s.modc ∧ (s.answer c r k).flt = s.flt
      ∧ (s.answer c r k).pins = s.pins ∧ (s.answer c r k).tb = s.tb ∧ (s.answer c r k).resetHeld = s.resetHeld
      ∧ (s.answer c r k).encInput = s.encInput ∧ (s.answer c r k).pending = s.pending
      ∧ (s.answer c r k).biu = { s.biu with result := ⟨commandCode c, r, k⟩ } := by
  simp only [State.answer, and_self]

@[simp] theorem State.setAccessViolation_fields :
    s.setAccessViolation.cfg = s.cfg ∧ s.setAccessViolation.axt = s.axt ∧ s.setAccessViolation.cam = s.cam
      ∧ s.setAccessViolation.lfu = s.lfu ∧ s.setAccessViolation.out = s.out ∧ s.setAccessViolation.mcr = s.mcr
      ∧ s.setAccessViolation.revq = s.revq ∧ s.setAccessViolation.modc = s.modc ∧ s.setAccessViolation.flt = s.flt
      ∧ s.setAccessViolation.pins = s.pins ∧ s.setAccessViolation.tb = s.tb
      ∧ s.setAccessViolation.resetHeld = s.resetHeld
      ∧ s.setAccessViolation.encInput = s.encInput ∧ s.setAccessViolation.pending = s.pending := by
  simp only [State.setAccessViolation, and_self]

@[simp] theorem State.acceptLevels_fields (l : EncLevels) :
    (s.acceptLevels l).cfg = s.cfg ∧ (s.acceptLevels l).axt = { s.axt with ref := l } ∧ (s.acceptLevels l).cam = s.cam
      ∧ (s.acceptLevels l).lfu = s.lfu ∧ (s.acceptLevels l).out = s.out ∧ (s.acceptLevels l).mcr = s.mcr
      ∧ (s.acceptLevels l).revq = s.revq ∧ (s.acceptLevels l).modc = s.modc ∧ (s.acceptLevels l).flt = s.flt
      ∧ (s.acceptLevels l).biu = s.biu ∧ (s.acceptLevels l).pins = { s.pins with encA := l.a, encB := l.b }
      ∧ (s.acceptLevels l).tb = s.tb ∧ (s.acceptLevels l).resetHeld = s.resetHeld
      ∧ (s.acceptLevels l).encInput = s.encInput ∧ (s.acceptLevels l).pending = s.pending := by
  simp only [State.acceptLevels, and_self]

@[simp] theorem State.counted_fields (d : Int) :
    (s.counted d).cfg = s.cfg ∧ (s.counted d).cam = s.cam ∧ (s.counted d).lfu = s.lfu ∧ (s.counted d).out = s.out
      ∧ (s.counted d).mcr = s.mcr ∧ (s.counted d).revq = s.revq ∧ (s.counted d).modc = s.modc
      ∧ (s.counted d).flt = s.flt ∧ (s.counted d).biu = s.biu ∧ (s.counted d).pins = s.pins
      ∧ (s.counted d).tb = s.tb ∧ (s.counted d).resetHeld = s.resetHeld
      ∧ (s.counted d).encInput = s.encInput ∧ (s.counted d).pending = s.pending
      ∧ (s.counted d).axt.ref = s.axt.ref ∧ (s.counted d).axt.position = s.axt.position
      ∧ (s.counted d).axt.hwm = s.axt.hwm ∧ (s.counted d).axt.deficit = s.axt.deficit
      ∧ (s.counted d).axt.stretch = s.axt.stretch ∧ (s.counted d).axt.revolution = s.axt.revolution
      ∧ (s.counted d).axt.acqCount = s.axt.acqCount ∧ (s.counted d).axt.armed = s.axt.armed
      ∧ (s.counted d).axt.lastSlip = s.axt.lastSlip ∧ (s.counted d).axt.speed = s.axt.speed
      ∧ (s.counted d).axt.reverse = s.axt.reverse ∧ (s.counted d).axt.net = s.axt.net + d
      ∧ (s.counted d).axt.windowMicros = s.axt.windowMicros := by
  simp only [State.counted, and_self]

/-! ### The window, the lines and the port -/

@[simp] theorem Lfu.cancelFetch_fields (l : Lfu) :
    l.cancelFetch.window = l.window ∧ l.cancelFetch.cursor = l.cursor ∧ l.cancelFetch.deferred = l.deferred
      ∧ l.cancelFetch.late = l.late ∧ l.cancelFetch.unexamined = l.unexamined :=
  ⟨rfl, rfl, rfl, rfl, rfl⟩

@[simp] theorem Lfu.quiesce_fields (l : Lfu) :
    l.quiesce.window = [] ∧ l.quiesce.cursor = .parked ∧ l.quiesce.deferred = none ∧ l.quiesce.late = l.late
      ∧ l.quiesce.unexamined = l.unexamined ∧ l.quiesce.fetch = l.cancelFetch.fetch := by
  simp only [Lfu.quiesce, Lfu.cancelFetch, and_self]

@[simp] theorem Out.claim_fields (o : Out) (c : Cfg) (w : LineNo → Bool) :
    (o.claim c w).interlock = o.interlock ∧ (o.claim c w).suppressed = o.suppressed := by
  simp only [Out.claim, and_self]

@[simp] theorem Out.claimAll_fields (o : Out) (c : Cfg) :
    (o.claimAll c).interlock = o.interlock ∧ (o.claimAll c).suppressed = o.suppressed := by
  simp only [Out.claimAll, Out.claim, and_self]

@[simp] theorem Out.setLine_fields (o : Out) (i : LineNo) (l : LineState) :
    (o.setLine i l).interlock = o.interlock ∧ (o.setLine i l).suppressed = o.suppressed := by
  simp only [Out.setLine, and_self]

@[simp] theorem State.quiesce_fields :
    s.quiesce.cfg = s.cfg ∧ s.quiesce.axt = { s.axt with armed := false } ∧ s.quiesce.cam = s.cam
      ∧ s.quiesce.lfu = s.lfu.quiesce ∧ s.quiesce.out = s.out.claimAll s.cfg
      ∧ s.quiesce.mcr = { s.mcr with mark := ⟨none, 0⟩ } ∧ s.quiesce.revq = s.revq ∧ s.quiesce.modc = s.modc
      ∧ s.quiesce.flt = s.flt ∧ s.quiesce.biu = s.biu ∧ s.quiesce.pins = s.pins ∧ s.quiesce.tb = s.tb
      ∧ s.quiesce.resetHeld = s.resetHeld ∧ s.quiesce.encInput = s.encInput ∧ s.quiesce.pending = s.pending := by
  simp only [State.quiesce, and_self]

@[simp] theorem State.grantFetch_fields (i : Nat) :
    (s.grantFetch i).cfg = s.cfg ∧ (s.grantFetch i).axt = s.axt ∧ (s.grantFetch i).out = s.out
      ∧ (s.grantFetch i).mcr = s.mcr ∧ (s.grantFetch i).revq = s.revq ∧ (s.grantFetch i).modc = s.modc
      ∧ (s.grantFetch i).flt = s.flt ∧ (s.grantFetch i).biu = s.biu ∧ (s.grantFetch i).pins = s.pins
      ∧ (s.grantFetch i).tb = s.tb ∧ (s.grantFetch i).resetHeld = s.resetHeld
      ∧ (s.grantFetch i).encInput = s.encInput ∧ (s.grantFetch i).pending = s.pending ∧ (s.grantFetch i).cam.table = s.cam.table
      ∧ (s.grantFetch i).cam.record = s.cam.record ∧ (s.grantFetch i).cam.readbackWaits = s.cam.readbackWaits
      ∧ (s.grantFetch i).cam.port = .fetch s.cam.table[i]? ∧ (s.grantFetch i).cam.turn = .readback
      ∧ (s.grantFetch i).lfu = { s.lfu with fetch := s.lfu.fetch.map fun f => { f with state := .granted } } := by
  simp only [State.grantFetch, and_self]

@[simp] theorem State.grantReadback_fields (i : Nat) :
    (s.grantReadback i).cfg = s.cfg ∧ (s.grantReadback i).axt = s.axt ∧ (s.grantReadback i).lfu = s.lfu
      ∧ (s.grantReadback i).out = s.out ∧ (s.grantReadback i).mcr = s.mcr ∧ (s.grantReadback i).revq = s.revq
      ∧ (s.grantReadback i).modc = s.modc ∧ (s.grantReadback i).flt = s.flt ∧ (s.grantReadback i).biu = s.biu
      ∧ (s.grantReadback i).pins = s.pins ∧ (s.grantReadback i).tb = s.tb
      ∧ (s.grantReadback i).resetHeld = s.resetHeld
      ∧ (s.grantReadback i).encInput = s.encInput ∧ (s.grantReadback i).pending = s.pending
      ∧ (s.grantReadback i).cam = { s.cam with port := .readback i s.cam.table[i]?, turn := .fetch, readbackWaits := none } := by
  simp only [State.grantReadback, and_self]

/-! ### The mode entries that end in a flag -/

@[simp] theorem State.enterFreewheel_fields :
    s.enterFreewheel.cfg = s.cfg ∧ s.enterFreewheel.axt = s.axt ∧ s.enterFreewheel.cam = s.cam
      ∧ s.enterFreewheel.lfu = s.lfu ∧ s.enterFreewheel.out = s.out.claim s.cfg (fun i => s.cfg.criticalLines.getLsbD i)
      ∧ s.enterFreewheel.mcr = s.mcr ∧ s.enterFreewheel.revq = s.revq
      ∧ s.enterFreewheel.modc = { s.modc with mode := .freewheel } ∧ s.enterFreewheel.flt = s.flt
      ∧ s.enterFreewheel.pins = s.pins ∧ s.enterFreewheel.tb = s.tb ∧ s.enterFreewheel.resetHeld = s.resetHeld
      ∧ s.enterFreewheel.encInput = s.encInput ∧ s.enterFreewheel.pending = s.pending := by
  simp only [State.enterFreewheel, State.setFlag, and_self]

@[simp] theorem State.relock_fields :
    s.relock.cfg = s.cfg ∧ s.relock.axt = s.axt ∧ s.relock.cam = s.cam ∧ s.relock.lfu = s.lfu ∧ s.relock.out = s.out
      ∧ s.relock.mcr = s.mcr ∧ s.relock.revq = s.revq ∧ s.relock.modc = { s.modc with mode := .locked }
      ∧ s.relock.flt = s.flt ∧ s.relock.pins = s.pins ∧ s.relock.tb = s.tb ∧ s.relock.resetHeld = s.resetHeld
      ∧ s.relock.encInput = s.encInput ∧ s.relock.pending = s.pending := by
  simp only [State.relock, State.setFlag, and_self]

@[simp] theorem State.enterAcquire_fields :
    s.enterAcquire.cfg = s.cfg ∧ s.enterAcquire.cam = s.cam ∧ s.enterAcquire.lfu = s.lfu.quiesce
      ∧ s.enterAcquire.out = s.out.claimAll s.cfg ∧ s.enterAcquire.mcr = { s.mcr with mark := ⟨none, 0⟩ }
      ∧ s.enterAcquire.revq = s.revq
      ∧ s.enterAcquire.modc = { mode := .acquire, stopPending := false, haltReason := .none, badRun := 0, goodRun := 0 }
      ∧ s.enterAcquire.flt = s.flt ∧ s.enterAcquire.pins = s.pins ∧ s.enterAcquire.tb = s.tb
      ∧ s.enterAcquire.resetHeld = s.resetHeld
      ∧ s.enterAcquire.encInput = s.encInput ∧ s.enterAcquire.pending = s.pending := by
  simp only [State.enterAcquire, State.quiesce, State.setFlag, and_self]

end Sys2Proof.Machine
end

