-- ==== Sys2Proof/Laws/Ops.lean ====
section
/-! SUPPORT. For each shared operation, what it keeps and what it does, so that a proof cites a lemma and unfolds nothing. -/

namespace Sys2Proof.Machine

variable (s : State)

/-- Application in progress is the revision queue's own reading. -/
@[simp] theorem State.applying_eq : s.applying = s.revq.applying := rfl

/-- With the RESET pin released a command is taken. -/
@[simp] theorem State.taken_live {s : State} (f : State → State) (h : s.resetHeld = false) : s.taken f = .next (f s) := by
  simp [State.taken, h]

/-- With the RESET pin held it is not. -/
@[simp] theorem State.taken_held {s : State} (f : State → State) (h : s.resetHeld = true) : s.taken f = .next s := by
  simp [State.taken, h]

/-! ### The table port -/

/-- The arbiter moves the port, the turn, a waiting read-back and the state of the fetch in flight; nothing else. -/
@[simp] theorem State.arbitrate_keeps :
    s.arbitrate.cfg = s.cfg ∧ s.arbitrate.axt = s.axt ∧ s.arbitrate.out = s.out ∧ s.arbitrate.mcr = s.mcr
      ∧ s.arbitrate.revq = s.revq ∧ s.arbitrate.modc = s.modc ∧ s.arbitrate.flt = s.flt ∧ s.arbitrate.biu = s.biu
      ∧ s.arbitrate.pins = s.pins ∧ s.arbitrate.tb = s.tb ∧ s.arbitrate.resetHeld = s.resetHeld
      ∧ s.arbitrate.encInput = s.encInput ∧ s.arbitrate.pending = s.pending ∧ s.arbitrate.cam.table = s.cam.table
      ∧ s.arbitrate.cam.record = s.cam.record ∧ s.arbitrate.lfu.window = s.lfu.window
      ∧ s.arbitrate.lfu.cursor = s.lfu.cursor ∧ s.arbitrate.lfu.deferred = s.lfu.deferred
      ∧ s.arbitrate.lfu.late = s.lfu.late ∧ s.arbitrate.lfu.unexamined = s.lfu.unexamined := by
  unfold State.arbitrate
  (repeat' split) <;> simp

/-- The port is not free: the arbiter does nothing (R8). -/
theorem State.arbitrate_held (h : s.cam.port ≠ .free) : s.arbitrate = s := by
  unfold State.arbitrate
  split
  · contradiction
  · rfl

/-- A free port goes to an application in progress (R8). -/
theorem State.arbitrate_application (h : s.cam.port = .free) (ha : s.revq.applying = true) :
    s.arbitrate = { s with cam.port := .application } := by
  simp [State.arbitrate, h, ha]

/-- A free port, no application in progress and nothing waiting: it stays free. -/
theorem State.arbitrate_idle (hf : s.lfu.waitingFetch = none) (hr : s.cam.readbackWaits = none)
    (ha : s.revq.applying = false) : s.arbitrate = s := by
  unfold State.arbitrate
  split
  · simp [hf, hr, ha]
  · rfl

/-- The arbiter leaves the fetch in flight as it was, or grants it. -/
theorem State.arbitrate_fetch :
    s.arbitrate.lfu.fetch = s.lfu.fetch
      ∨ ∃ i tag, s.lfu.fetch = some ⟨i, tag, .waiting⟩ ∧ s.arbitrate.lfu.fetch = some ⟨i, tag, .granted⟩ := by
  have waits : ∀ i, s.lfu.waitingFetch = some i → ∃ tag, s.lfu.fetch = some ⟨i, tag, .waiting⟩ := by
    intro i h
    unfold Lfu.waitingFetch at h
    split at h
    · rename_i j tag hf; cases h; exact ⟨tag, hf⟩
    · cases h
  unfold State.arbitrate
  split
  · split
    · exact .inl rfl
    · split
      · split
        · obtain ⟨tag, h⟩ := waits _ ‹_›; exact .inr ⟨_, tag, h, by simp [h]⟩
        · exact .inl (by simp)
      · obtain ⟨tag, h⟩ := waits _ ‹_›; exact .inr ⟨_, tag, h, by simp [h]⟩
      · exact .inl (by simp)
      · exact .inl rfl
  · exact .inl rfl

/-- A fetch request touches the port and the fetch in flight; nothing else. -/
@[simp] theorem State.requestFetch_keeps :
    s.requestFetch.cfg = s.cfg ∧ s.requestFetch.axt = s.axt ∧ s.requestFetch.out = s.out ∧ s.requestFetch.mcr = s.mcr
      ∧ s.requestFetch.revq = s.revq ∧ s.requestFetch.modc = s.modc ∧ s.requestFetch.flt = s.flt
      ∧ s.requestFetch.biu = s.biu ∧ s.requestFetch.pins = s.pins ∧ s.requestFetch.tb = s.tb
      ∧ s.requestFetch.resetHeld = s.resetHeld ∧ s.requestFetch.encInput = s.encInput ∧ s.requestFetch.pending = s.pending
      ∧ s.requestFetch.cam.table = s.cam.table ∧ s.requestFetch.cam.record = s.cam.record
      ∧ s.requestFetch.lfu.window = s.lfu.window ∧ s.requestFetch.lfu.cursor = s.lfu.cursor
      ∧ s.requestFetch.lfu.deferred = s.lfu.deferred ∧ s.requestFetch.lfu.late = s.lfu.late
      ∧ s.requestFetch.lfu.unexamined = s.lfu.unexamined := by
  unfold State.requestFetch
  split <;> simp

/-! ### The commit result, mode entries and causes -/

/-- A write of the result record touches the record, its read mark, the COMMIT flag and the sticky status (R111 to R113). -/
@[simp] theorem State.writeResult_keeps (r : ResultRecord) :
    (s.writeResult r).cfg = s.cfg ∧ (s.writeResult r).axt = s.axt ∧ (s.writeResult r).cam = s.cam
      ∧ (s.writeResult r).lfu = s.lfu ∧ (s.writeResult r).out = s.out ∧ (s.writeResult r).mcr = s.mcr
      ∧ (s.writeResult r).revq = { s.revq with result := r, resultRead := false }
      ∧ (s.writeResult r).modc = s.modc ∧ (s.writeResult r).flt = s.flt ∧ (s.writeResult r).pins = s.pins
      ∧ (s.writeResult r).tb = s.tb ∧ (s.writeResult r).resetHeld = s.resetHeld
      ∧ (s.writeResult r).encInput = s.encInput ∧ (s.writeResult r).pending = s.pending := by
  simp [State.writeResult]

/-- The beginning of an application touches the group's phase, the port and what the arbiter moves (R106, R108). -/
@[simp] theorem State.beginApplication_keeps (b : Bool) :
    (s.beginApplication b).cfg = s.cfg ∧ (s.beginApplication b).axt = s.axt ∧ (s.beginApplication b).out = s.out
      ∧ (s.beginApplication b).mcr = s.mcr ∧ (s.beginApplication b).modc = s.modc ∧ (s.beginApplication b).flt = s.flt
      ∧ (s.beginApplication b).biu = s.biu ∧ (s.beginApplication b).pins = s.pins ∧ (s.beginApplication b).tb = s.tb
      ∧ (s.beginApplication b).resetHeld = s.resetHeld
      ∧ (s.beginApplication b).encInput = s.encInput ∧ (s.beginApplication b).pending = s.pending
      ∧ (s.beginApplication b).cam.table = s.cam.table ∧ (s.beginApplication b).cam.record = s.cam.record
      ∧ (s.beginApplication b).lfu.window = s.lfu.window ∧ (s.beginApplication b).lfu.cursor = s.lfu.cursor
      ∧ (s.beginApplication b).lfu.deferred = s.lfu.deferred ∧ (s.beginApplication b).lfu.late = s.lfu.late
      ∧ (s.beginApplication b).lfu.unexamined = s.lfu.unexamined := by
  unfold State.beginApplication
  split <;> simp

/-- What an application's begin does to the revision queue: a waiting group is applying, all else stands. -/
theorem State.beginApplication_revq (b : Bool) :
    (s.beginApplication b).revq = { s.revq with
      group := s.revq.group.map fun g => match g.phase with
        | .waiting => { g with phase := .applying b 0 }
        | .applying _ _ => g } := by
  unfold State.beginApplication
  split
  · rename_i h; simp [h]
  · rename_i h
    have same : (s.revq.group.map fun g => match g.phase with
        | .waiting => { g with phase := .applying b 0 }
        | .applying _ _ => g) = s.revq.group := by
      cases hg : s.revq.group with
      | none => rfl
      | some g =>
        obtain ⟨q, p, rs⟩ := g
        cases p with
        | waiting => exact (h q rs hg).elim
        | applying c n => rfl
    rw [same]

/-- An abandonment touches the group, the result record and the bus's indications (R115). -/
@[simp] theorem State.abandonWaiting_keeps :
    s.abandonWaiting.cfg = s.cfg ∧ s.abandonWaiting.axt = s.axt ∧ s.abandonWaiting.cam = s.cam
      ∧ s.abandonWaiting.lfu = s.lfu ∧ s.abandonWaiting.out = s.out ∧ s.abandonWaiting.mcr = s.mcr
      ∧ s.abandonWaiting.modc = s.modc ∧ s.abandonWaiting.flt = s.flt ∧ s.abandonWaiting.pins = s.pins
      ∧ s.abandonWaiting.tb = s.tb ∧ s.abandonWaiting.resetHeld = s.resetHeld
      ∧ s.abandonWaiting.encInput = s.encInput ∧ s.abandonWaiting.pending = s.pending ∧ s.abandonWaiting.revq.opens = s.revq.opens
      ∧ s.abandonWaiting.revq.lock = s.revq.lock ∧ s.abandonWaiting.revq.staging = s.revq.staging
      ∧ s.abandonWaiting.revq.nextSeq = s.revq.nextSeq := by
  unfold State.abandonWaiting
  split <;> simp

/-- The entry into HALTED (R133): what it sets and what it keeps. -/
@[simp] theorem State.enterHalted_keeps (r : HaltReason) :
    (s.enterHalted r).cfg = s.cfg ∧ (s.enterHalted r).axt = { s.axt with armed := false }
      ∧ (s.enterHalted r).cam = s.cam ∧ (s.enterHalted r).lfu = s.lfu.quiesce
      ∧ (s.enterHalted r).out = s.out.claimAll s.cfg ∧ (s.enterHalted r).mcr = { s.mcr with mark := ⟨none, 0⟩ }
      ∧ (s.enterHalted r).modc = { s.modc with mode := .halted, haltReason := r, stopPending := false }
      ∧ (s.enterHalted r).flt = s.flt ∧ (s.enterHalted r).pins = s.pins ∧ (s.enterHalted r).tb = s.tb
      ∧ (s.enterHalted r).resetHeld = s.resetHeld
      ∧ (s.enterHalted r).encInput = s.encInput ∧ (s.enterHalted r).pending = s.pending
      ∧ (s.enterHalted r).revq.opens = s.revq.opens ∧ (s.enterHalted r).revq.lock = s.revq.lock
      ∧ (s.enterHalted r).revq.staging = s.revq.staging ∧ (s.enterHalted r).revq.nextSeq = s.revq.nextSeq := by
  simp [State.enterHalted]

/-- The entry into CONFIG (R123): what it sets and what it keeps. -/
@[simp] theorem State.enterConfig_keeps :
    s.enterConfig.cfg = s.cfg ∧ s.enterConfig.axt = { s.axt with armed := false }
      ∧ s.enterConfig.out = s.out.claimAll s.cfg ∧ s.enterConfig.mcr = { s.mcr with mark := ⟨none, 0⟩ }
      ∧ s.enterConfig.modc = { s.modc with mode := .config, stopPending := false } ∧ s.enterConfig.flt = s.flt
      ∧ s.enterConfig.pins = s.pins ∧ s.enterConfig.tb = s.tb ∧ s.enterConfig.resetHeld = s.resetHeld
      ∧ s.enterConfig.encInput = s.encInput ∧ s.enterConfig.pending = s.pending ∧ s.enterConfig.cam.table = s.cam.table
      ∧ s.enterConfig.cam.record = s.cam.record ∧ s.enterConfig.lfu.window = [] ∧ s.enterConfig.lfu.cursor = .parked
      ∧ s.enterConfig.lfu.deferred = none ∧ s.enterConfig.lfu.late = s.lfu.late
      ∧ s.enterConfig.lfu.unexamined = s.lfu.unexamined := by
  simp [State.enterConfig]

/-- Setting the cursor at acquisition touches the cursor, the deferred start and what a fetch request moves (R57, R58). -/
@[simp] theorem State.startCursor_keeps (p : Nat) :
    (s.startCursor p).cfg = s.cfg ∧ (s.startCursor p).axt = s.axt ∧ (s.startCursor p).out = s.out
      ∧ (s.startCursor p).mcr = s.mcr ∧ (s.startCursor p).revq = s.revq ∧ (s.startCursor p).modc = s.modc
      ∧ (s.startCursor p).flt = s.flt ∧ (s.startCursor p).biu = s.biu ∧ (s.startCursor p).pins = s.pins
      ∧ (s.startCursor p).tb = s.tb ∧ (s.startCursor p).resetHeld = s.resetHeld
      ∧ (s.startCursor p).encInput = s.encInput
      ∧ (s.startCursor p).pending = s.pending ∧ (s.startCursor p).cam.table = s.cam.table
      ∧ (s.startCursor p).cam.record = s.cam.record ∧ (s.startCursor p).lfu.window = s.lfu.window
      ∧ (s.startCursor p).lfu.late = s.lfu.late ∧ (s.startCursor p).lfu.unexamined = s.lfu.unexamined := by
  unfold State.startCursor
  split <;> simp

/-- Acquisition (R37, R128): what it sets and what it keeps. -/
@[simp] theorem State.acquire_keeps (p : Nat) (b : Bool) :
    (s.acquire p b).cfg = s.cfg ∧ (s.acquire p b).out = s.out ∧ (s.acquire p b).mcr = s.mcr
      ∧ (s.acquire p b).revq = s.revq ∧ (s.acquire p b).modc = { s.modc with mode := .locked, badRun := 0, goodRun := 0 }
      ∧ (s.acquire p b).flt = s.flt ∧ (s.acquire p b).pins = s.pins ∧ (s.acquire p b).tb = s.tb
      ∧ (s.acquire p b).resetHeld = s.resetHeld
      ∧ (s.acquire p b).encInput = s.encInput ∧ (s.acquire p b).pending = s.pending
      ∧ (s.acquire p b).cam.table = s.cam.table ∧ (s.acquire p b).cam.record = s.cam.record
      ∧ (s.acquire p b).lfu.window = s.lfu.window ∧ (s.acquire p b).lfu.late = s.lfu.late
      ∧ (s.acquire p b).lfu.unexamined = s.lfu.unexamined
      ∧ (s.acquire p b).biu = { s.biu with flags := s.biu.flags ||| Flag.mode.mask }
      ∧ (s.acquire p b).axt = { s.axt with
          position := p, hwm := p, deficit := 0, stretch := 0, revolution := 0
          armed := (b && s.cfg.indexMonitor) || s.axt.armed
          mech := if b && s.cfg.indexMonitor then 0 else s.axt.mech } := by
  simp [State.acquire]

/-- A raise of a pending cause (R149). -/
theorem State.raiseAt_repeat (a : Stamp) (c : Cause) (d : Detail) (h : isPending c s.flt.causes = true) :
    s.raiseAt a c d = { s with flt.causes := repeatCause c s.flt.causes } := by
  simp [State.raiseAt, h]

/-- A first raise of a halting cause (R134, R148). -/
theorem State.raiseAt_halts (a : Stamp) (c : Cause) (d : Detail) (h : isPending c s.flt.causes = false)
    (hc : c.halting = true) :
    s.raiseAt a c d
      = ({ s with flt.causes := addCause ⟨c, 0, a.mode, a.position, a.revolution, d⟩ s.flt.causes }.setFlag .fault).enterHalted
          (.cause c) := by
  simp [State.raiseAt, h, hc]

/-- A raise of a warning touches the pending set and the FAULT flag alone. -/
theorem State.raiseAt_warns (a : Stamp) (c : Cause) (d : Detail) (hc : c.halting = false) :
    (s.raiseAt a c d).cfg = s.cfg ∧ (s.raiseAt a c d).axt = s.axt ∧ (s.raiseAt a c d).cam = s.cam
      ∧ (s.raiseAt a c d).lfu = s.lfu ∧ (s.raiseAt a c d).out = s.out ∧ (s.raiseAt a c d).mcr = s.mcr
      ∧ (s.raiseAt a c d).revq = s.revq ∧ (s.raiseAt a c d).modc = s.modc ∧ (s.raiseAt a c d).pins = s.pins
      ∧ (s.raiseAt a c d).tb = s.tb ∧ (s.raiseAt a c d).resetHeld = s.resetHeld
      ∧ (s.raiseAt a c d).encInput = s.encInput ∧ (s.raiseAt a c d).pending = s.pending := by
  unfold State.raiseAt
  split <;> simp [hc]

/-- Any raise keeps the configuration, the table port, the position, the pins, the clock and the queue of commands. -/
@[simp] theorem State.raiseAt_keeps (a : Stamp) (c : Cause) (d : Detail) :
    (s.raiseAt a c d).cfg = s.cfg ∧ (s.raiseAt a c d).cam = s.cam ∧ (s.raiseAt a c d).pins = s.pins
      ∧ (s.raiseAt a c d).tb = s.tb ∧ (s.raiseAt a c d).resetHeld = s.resetHeld
      ∧ (s.raiseAt a c d).encInput = s.encInput
      ∧ (s.raiseAt a c d).pending = s.pending ∧ (s.raiseAt a c d).revq.opens = s.revq.opens
      ∧ (s.raiseAt a c d).revq.lock = s.revq.lock ∧ (s.raiseAt a c d).revq.staging = s.revq.staging
      ∧ (s.raiseAt a c d).revq.nextSeq = s.revq.nextSeq ∧ (s.raiseAt a c d).lfu.late = s.lfu.late
      ∧ (s.raiseAt a c d).lfu.unexamined = s.lfu.unexamined ∧ (s.raiseAt a c d).out.interlock = s.out.interlock
      ∧ (s.raiseAt a c d).out.suppressed = s.out.suppressed ∧ (s.raiseAt a c d).mcr.queue = s.mcr.queue
      ∧ (s.raiseAt a c d).mcr.overflow = s.mcr.overflow ∧ (s.raiseAt a c d).modc.badRun = s.modc.badRun
      ∧ (s.raiseAt a c d).modc.goodRun = s.modc.goodRun ∧ (s.raiseAt a c d).axt.position = s.axt.position
      ∧ (s.raiseAt a c d).axt.hwm = s.axt.hwm ∧ (s.raiseAt a c d).axt.deficit = s.axt.deficit
      ∧ (s.raiseAt a c d).axt.stretch = s.axt.stretch ∧ (s.raiseAt a c d).axt.revolution = s.axt.revolution := by
  unfold State.raiseAt
  split
  · simp
  · split <;> simp

/-! ### The pending set -/

/-- A cause that joins a set in priority order leaves it in priority order, and is then the only new member (R153). -/
theorem mem_addCause (r x : FaultRecord) (l : List FaultRecord) : x ∈ addCause r l ↔ x = r ∨ x ∈ l := by
  induction l with
  | nil => simp [addCause]
  | cons y ys ih =>
    unfold addCause
    split
    · simp
    · simp only [List.mem_cons, ih, or_left_comm]

theorem addCause_sorted (r : FaultRecord) (l : List FaultRecord)
    (hl : l.Pairwise fun a b => a.cause.code < b.cause.code) (hr : ∀ x ∈ l, x.cause.code ≠ r.cause.code) :
    (addCause r l).Pairwise fun a b => a.cause.code < b.cause.code := by
  induction l with
  | nil => simp [addCause]
  | cons y ys ih =>
    have hy := List.pairwise_cons.mp hl
    unfold addCause
    split
    · rename_i hlt
      refine List.pairwise_cons.mpr ⟨fun x hx => ?_, hl⟩
      rcases List.mem_cons.mp hx with rfl | hx
      · exact hlt
      · exact Nat.lt_trans hlt (hy.1 x hx)
    · rename_i hge
      refine List.pairwise_cons.mpr ⟨fun x hx => ?_, ih hy.2 fun x hx => hr x (List.mem_cons_of_mem _ hx)⟩
      rcases (mem_addCause r x ys).mp hx with rfl | hx
      · have := hr y List.mem_cons_self; omega
      · exact hy.1 x hx

/-- A repeat keeps every cause, its place and all but its count (R149). -/
theorem repeatCause_causes (c : Cause) (l : List FaultRecord) :
    (repeatCause c l).map FaultRecord.cause = l.map FaultRecord.cause := by
  unfold repeatCause
  rw [List.map_map]
  refine List.map_congr_left fun r _ => ?_
  simp only [Function.comp]
  split <;> rfl

end Sys2Proof.Machine
end

