-- ==== Sys2Proof/Laws/Firing.lean ====
section
/-! SUPPORT. What the hand-over of actions to the lines, a firing evaluation and the load of a slot keep and do. -/

namespace Sys2Proof.Machine

variable (s : State)

/-! ### One action -/

@[simp] theorem Cfg.firesAt_eq (c : Cfg) (v : Nat) (e : Entry) : c.firesAt v e = c.effective v e := rfl

/-- One line takes a state, and the others keep theirs. -/
@[simp] theorem Out.setLine_getElem (o : Out) (i : LineNo) (l : LineState) (j : Nat) (h : j < 16) :
    (o.setLine i l).lines[j] = if i = ⟨j, h⟩ then l else o.lines[j] := by
  simp only [Out.setLine, Vector.getElem_set, Fin.ext_iff]

theorem Out.setLine_lines (o : Out) (i j : LineNo) (l : LineState) :
    (o.setLine i l).lines[j] = if i = j then l else o.lines[j] := o.setLine_getElem i l j.val j.isLt

/-- A claim puts the lines it names at their safe levels and moves no other (R71, R72). -/
@[simp] theorem Out.claim_getElem (o : Out) (c : Cfg) (w : LineNo → Bool) (j : Nat) (h : j < 16) :
    (o.claim c w).lines[j] = if w ⟨j, h⟩ then c.safeLine ⟨j, h⟩ else o.lines[j] := by
  simp [Out.claim]

theorem Out.claim_lines (o : Out) (c : Cfg) (w : LineNo → Bool) (i : LineNo) :
    (o.claim c w).lines[i] = if w i then c.safeLine i else o.lines[i] := o.claim_getElem c w i.val i.isLt

@[simp] theorem Out.claimAll_getElem (o : Out) (c : Cfg) (j : Nat) (h : j < 16) :
    (o.claimAll c).lines[j] = c.safeLine ⟨j, h⟩ := by
  simp [Out.claimAll]

theorem Out.claimAll_lines (o : Out) (c : Cfg) (i : LineNo) : (o.claimAll c).lines[i] = c.safeLine i :=
  o.claimAll_getElem c i.val i.isLt

/-- An action touches the Output Stage alone, and not the interlock. -/
@[simp] theorem State.act_keeps (i : LineNo) (a : EntryAction) :
    (s.act i a).cfg = s.cfg ∧ (s.act i a).axt = s.axt ∧ (s.act i a).cam = s.cam ∧ (s.act i a).lfu = s.lfu
      ∧ (s.act i a).mcr = s.mcr ∧ (s.act i a).revq = s.revq ∧ (s.act i a).modc = s.modc ∧ (s.act i a).flt = s.flt
      ∧ (s.act i a).biu = s.biu ∧ (s.act i a).pins = s.pins ∧ (s.act i a).tb = s.tb
      ∧ (s.act i a).resetHeld = s.resetHeld ∧ (s.act i a).encInput = s.encInput ∧ (s.act i a).pending = s.pending
      ∧ (s.act i a).out.interlock = s.out.interlock := by
  unfold State.act
  split <;> simp

/-- A suppressed action moves no line; one carried out moves its own (R64, R70, R76). -/
theorem State.act_lines (i j : LineNo) (a : EntryAction) :
    (s.act i a).out.lines[j] = if s.suppresses i = false ∧ i = j then a.result else s.out.lines[j] := by
  unfold State.act
  split <;> rename_i h
  · simp only [h, Bool.true_eq_false, false_and, if_false]
  · rw [Out.setLine_lines]
    simp only [h, true_and]

/-- A suppressed action is counted (R77). -/
theorem State.act_suppressed (i : LineNo) (a : EntryAction) :
    (s.act i a).out.suppressed = if s.suppresses i then min Config.count16Max (s.out.suppressed + 1) else s.out.suppressed := by
  unfold State.act
  split <;> simp_all [addSat]

/-! ### Firing -/

/-- A firing touches the lines and the counts, and through LATE_FIRE the pending set and the flags; it moves no mode,
no position and no slot that is still in the window. -/
@[simp] theorem State.fireSlot_keeps (x : Slot) :
    (s.fireSlot x).cfg = s.cfg ∧ (s.fireSlot x).axt = s.axt ∧ (s.fireSlot x).cam = s.cam ∧ (s.fireSlot x).mcr = s.mcr
      ∧ (s.fireSlot x).revq = s.revq ∧ (s.fireSlot x).modc = s.modc ∧ (s.fireSlot x).pins = s.pins
      ∧ (s.fireSlot x).tb = s.tb ∧ (s.fireSlot x).resetHeld = s.resetHeld
      ∧ (s.fireSlot x).encInput = s.encInput ∧ (s.fireSlot x).pending = s.pending
      ∧ (s.fireSlot x).out.interlock = s.out.interlock
      ∧ (s.fireSlot x).lfu = { s.lfu with
          late := if x.eff < s.axt.hwm then min Config.count16Max (s.lfu.late + 1) else s.lfu.late } := by
  have warns : Cause.lateFire.halting = false := rfl
  unfold State.fireSlot
  split <;> simp [*, State.raise, State.raiseAt_warns, addSat]

theorem State.fireSlot_suppresses (x : Slot) (i : LineNo) : (s.fireSlot x).suppresses i = s.suppresses i := by
  simp [State.suppresses]

theorem State.fireSlot_lines (x : Slot) (i : LineNo) :
    (s.fireSlot x).out.lines[i]
      = if s.suppresses i = false ∧ x.entry.line = i then x.entry.action.result else s.out.lines[i] := by
  have warns : Cause.lateFire.halting = false := rfl
  unfold State.fireSlot
  split
  · rw [State.act_lines]
    simp only [State.raise, State.suppresses, State.raiseAt_warns, warns]
    by_cases h : x.entry.line = i <;> simp [h]
  · rw [State.act_lines]
    by_cases h : x.entry.line = i <;> simp [h]

theorem State.fireSlot_suppressed (x : Slot) :
    (s.fireSlot x).out.suppressed
      = if s.suppresses x.entry.line then min Config.count16Max (s.out.suppressed + 1) else s.out.suppressed := by
  have warns : Cause.lateFire.halting = false := rfl
  unfold State.fireSlot
  split
  · rw [State.act_suppressed]
    simp [State.raise, State.suppresses, State.raiseAt_warns, warns]
  · rw [State.act_suppressed]

/-- The firing of a list of slots in order keeps what each firing keeps. -/
@[simp] theorem fireSlots_keep (l : List Slot) :
    (l.foldl State.fireSlot s).cfg = s.cfg ∧ (l.foldl State.fireSlot s).axt = s.axt
      ∧ (l.foldl State.fireSlot s).cam = s.cam ∧ (l.foldl State.fireSlot s).mcr = s.mcr
      ∧ (l.foldl State.fireSlot s).revq = s.revq ∧ (l.foldl State.fireSlot s).modc = s.modc
      ∧ (l.foldl State.fireSlot s).pins = s.pins ∧ (l.foldl State.fireSlot s).tb = s.tb
      ∧ (l.foldl State.fireSlot s).resetHeld = s.resetHeld
      ∧ (l.foldl State.fireSlot s).encInput = s.encInput ∧ (l.foldl State.fireSlot s).pending = s.pending
      ∧ (l.foldl State.fireSlot s).out.interlock = s.out.interlock
      ∧ (l.foldl State.fireSlot s).lfu.window = s.lfu.window ∧ (l.foldl State.fireSlot s).lfu.cursor = s.lfu.cursor
      ∧ (l.foldl State.fireSlot s).lfu.fetch = s.lfu.fetch
      ∧ (l.foldl State.fireSlot s).lfu.deferred = s.lfu.deferred
      ∧ (l.foldl State.fireSlot s).lfu.unexamined = s.lfu.unexamined := by
  induction l generalizing s with
  | nil => simp
  | cons x xs ih => simp [ih]

/-- The claims' word for a line at its safe level is the operations' (R71). -/
@[simp] theorem Cfg.atSafeLevel_eq (c : Cfg) (i : LineNo) : c.atSafeLevel i = c.safeLine i := rfl

/-- The claims' words for a suppressed action and for what an action leaves are the operations' (R66, R67, R70, R76). -/
theorem State.turnsAway_eq (i : LineNo) : s.turnsAway i = s.suppresses i := by
  unfold State.turnsAway State.suppresses
  cases s.out.interlock <;> cases s.modc.mode <;> simp

theorem EntryAction.leaves_eq (a : EntryAction) : a.leaves = a.result := by cases a <;> rfl

/-- What a list of firings does to the lines and the counts, whatever the list (R51, R52, R68, R70, R76). -/
theorem fireSlots_handOver (l : List Slot) (hl : s.lfu.late ≤ Config.count16Max)
    (hs : s.out.suppressed ≤ Config.count16Max) : s.HandedOver l s.axt.hwm (l.foldl State.fireSlot s) := by
  simp only [State.HandedOver, State.turnsAway_eq, EntryAction.leaves_eq]
  induction l generalizing s with
  | nil => exact ⟨by simp, rfl, (Nat.min_eq_right hs).symm, (Nat.min_eq_right hl).symm⟩
  | cons x xs ih =>
    have hl' : (s.fireSlot x).lfu.late ≤ Config.count16Max := by
      simp only [State.fireSlot_keeps]; split
      · exact Nat.min_le_left _ _
      · exact hl
    have hs' : (s.fireSlot x).out.suppressed ≤ Config.count16Max := by
      rw [State.fireSlot_suppressed]; split
      · exact Nat.min_le_left _ _
      · exact hs
    obtain ⟨h1, h2, h3, h4⟩ := ih (s.fireSlot x) hl' hs'
    simp only [State.fireSlot_suppresses, State.fireSlot_lines, State.fireSlot_suppressed] at h1 h3
    simp only [State.fireSlot_keeps] at h2 h4
    refine ⟨fun i => ?_, h2, ?_, ?_⟩
    · rw [List.foldl_cons, h1 i]
      by_cases hi : s.suppresses i = true
      · simp [hi]
      · by_cases hx : x.entry.line = i
        · simp only [hi, hx, List.filter_cons, decide_true, if_true, List.getLast?_cons, and_self]
          cases (xs.filter fun y => decide (y.entry.line = i)).getLast? <;> simp
        · simp [hi, hx]
    · rw [List.foldl_cons, h3]
      by_cases hx : s.suppresses x.entry.line = true
      · simp [hx, Nat.min_def]; split <;> split <;> split <;> omega
      · simp [hx]
    · rw [List.foldl_cons, h4]
      by_cases hx : x.eff < s.axt.hwm
      · simp [hx, Nat.min_def]; split <;> split <;> split <;> omega
      · simp [hx]

/-- A firing evaluation (R50): the due slots leave the window, and nothing but firing happens. -/
@[simp] theorem State.evaluate_keeps :
    s.evaluate.cfg = s.cfg ∧ s.evaluate.axt = s.axt ∧ s.evaluate.cam = s.cam ∧ s.evaluate.mcr = s.mcr
      ∧ s.evaluate.revq = s.revq ∧ s.evaluate.modc = s.modc ∧ s.evaluate.pins = s.pins ∧ s.evaluate.tb = s.tb
      ∧ s.evaluate.resetHeld = s.resetHeld ∧ s.evaluate.encInput = s.encInput ∧ s.evaluate.pending = s.pending
      ∧ s.evaluate.out.interlock = s.out.interlock
      ∧ s.evaluate.lfu.window = s.lfu.window.filter (fun x => !x.due s.axt.hwm)
      ∧ s.evaluate.lfu.cursor = s.lfu.cursor ∧ s.evaluate.lfu.fetch = s.lfu.fetch
      ∧ s.evaluate.lfu.deferred = s.lfu.deferred ∧ s.evaluate.lfu.unexamined = s.lfu.unexamined := by
  simp [State.evaluate]

/-- What a firing evaluation hands over. -/
theorem State.evaluate_handOver (hl : s.lfu.late ≤ Config.count16Max) (hs : s.out.suppressed ≤ Config.count16Max) :
    s.HandedOver (s.lfu.window.filter (Slot.due s.axt.hwm)) s.axt.hwm s.evaluate :=
  fireSlots_handOver { s with lfu.window := s.lfu.window.filter fun x => !x.due s.axt.hwm } _ hl hs

/-- No slot is due after an evaluation (R50). -/
theorem State.evaluate_nothingDue : ∀ x ∈ s.evaluate.lfu.window, x.due s.evaluate.axt.hwm = false := by
  intro x hx
  simp only [State.evaluate_keeps, List.mem_filter] at hx ⊢
  simpa using hx.2

/-! ### Loading, overruns and the account -/

/-- A clamp raises LEAD_CLAMPED and does nothing else (R48). -/
@[simp] theorem State.raiseClamp_keeps (e : Entry) :
    (s.raiseClamp e).cfg = s.cfg ∧ (s.raiseClamp e).axt = s.axt ∧ (s.raiseClamp e).cam = s.cam
      ∧ (s.raiseClamp e).lfu = s.lfu ∧ (s.raiseClamp e).out = s.out ∧ (s.raiseClamp e).mcr = s.mcr
      ∧ (s.raiseClamp e).revq = s.revq ∧ (s.raiseClamp e).modc = s.modc ∧ (s.raiseClamp e).pins = s.pins
      ∧ (s.raiseClamp e).tb = s.tb ∧ (s.raiseClamp e).resetHeld = s.resetHeld
      ∧ (s.raiseClamp e).encInput = s.encInput ∧ (s.raiseClamp e).pending = s.pending := by
  have warns : Cause.leadClamped.halting = false := rfl
  unfold State.raiseClamp
  split <;> simp [State.raise, State.raiseAt_warns, warns]

/-- An overrun raises COMMIT_OVERRUN and does nothing else (R114). -/
@[simp] theorem State.watchOverrun_keeps :
    s.watchOverrun.cfg = s.cfg ∧ s.watchOverrun.axt = s.axt ∧ s.watchOverrun.cam = s.cam ∧ s.watchOverrun.lfu = s.lfu
      ∧ s.watchOverrun.out = s.out ∧ s.watchOverrun.mcr = s.mcr ∧ s.watchOverrun.revq = s.revq
      ∧ s.watchOverrun.modc = s.modc ∧ s.watchOverrun.pins = s.pins ∧ s.watchOverrun.tb = s.tb
      ∧ s.watchOverrun.resetHeld = s.resetHeld
      ∧ s.watchOverrun.encInput = s.encInput ∧ s.watchOverrun.pending = s.pending := by
  have warns : Cause.commitOverrun.halting = false := rfl
  unfold State.watchOverrun
  split
  · split <;> simp [State.raise, State.raiseAt_warns, warns]
  · simp

/-- The account of a revolution moves the unexamined count, and raises MISSED_ENTRY (R53). -/
@[simp] theorem State.settleAccount_keeps (a : Stamp) :
    (s.settleAccount a).cfg = s.cfg ∧ (s.settleAccount a).axt = s.axt ∧ (s.settleAccount a).cam = s.cam
      ∧ (s.settleAccount a).out = s.out ∧ (s.settleAccount a).mcr = s.mcr ∧ (s.settleAccount a).revq = s.revq
      ∧ (s.settleAccount a).modc = s.modc ∧ (s.settleAccount a).pins = s.pins ∧ (s.settleAccount a).tb = s.tb
      ∧ (s.settleAccount a).resetHeld = s.resetHeld
      ∧ (s.settleAccount a).encInput = s.encInput ∧ (s.settleAccount a).pending = s.pending
      ∧ (s.settleAccount a).lfu = { s.lfu with
          unexamined := if s.unread = 0 then s.lfu.unexamined else min Config.count16Max (s.lfu.unexamined + s.unread) } := by
  have warns : Cause.missedEntry.halting = false := rfl
  unfold State.settleAccount
  split <;> simp [*, State.raiseAt_warns, addSat]

/-- The roll of the window moves the window, the cursor and the deferred start (R54, R55, R58). -/
@[simp] theorem State.rollWindow_keeps (b : Bool) :
    (s.rollWindow b).cfg = s.cfg ∧ (s.rollWindow b).axt = s.axt ∧ (s.rollWindow b).cam = s.cam
      ∧ (s.rollWindow b).out = s.out ∧ (s.rollWindow b).mcr = s.mcr ∧ (s.rollWindow b).revq = s.revq
      ∧ (s.rollWindow b).modc = s.modc ∧ (s.rollWindow b).flt = s.flt ∧ (s.rollWindow b).biu = s.biu
      ∧ (s.rollWindow b).pins = s.pins ∧ (s.rollWindow b).tb = s.tb ∧ (s.rollWindow b).resetHeld = s.resetHeld
      ∧ (s.rollWindow b).encInput = s.encInput ∧ (s.rollWindow b).pending = s.pending ∧ (s.rollWindow b).lfu.fetch = s.lfu.fetch
      ∧ (s.rollWindow b).lfu.late = s.lfu.late ∧ (s.rollWindow b).lfu.unexamined = s.lfu.unexamined := by
  unfold State.rollWindow
  split
  · simp
  · split <;> simp

/-- Taking up fetching again moves the cursor, the deferred start and what a fetch request moves (R55, R58). -/
@[simp] theorem State.resumeFetching_keeps :
    s.resumeFetching.cfg = s.cfg ∧ s.resumeFetching.axt = s.axt ∧ s.resumeFetching.out = s.out
      ∧ s.resumeFetching.mcr = s.mcr ∧ s.resumeFetching.revq = s.revq ∧ s.resumeFetching.modc = s.modc
      ∧ s.resumeFetching.flt = s.flt ∧ s.resumeFetching.biu = s.biu ∧ s.resumeFetching.pins = s.pins
      ∧ s.resumeFetching.tb = s.tb ∧ s.resumeFetching.resetHeld = s.resetHeld
      ∧ s.resumeFetching.encInput = s.encInput ∧ s.resumeFetching.pending = s.pending ∧ s.resumeFetching.cam.table = s.cam.table
      ∧ s.resumeFetching.cam.record = s.cam.record ∧ s.resumeFetching.lfu.window = s.lfu.window
      ∧ s.resumeFetching.lfu.late = s.lfu.late ∧ s.resumeFetching.lfu.unexamined = s.lfu.unexamined := by
  unfold State.resumeFetching
  split <;> simp

end Sys2Proof.Machine
end

