-- ==== Sys2Proof/Laws/Claims.lean ====
section
/-! SUPPORT. A halt, a warning and a hand-over in the words of the claims. -/

namespace Sys2Proof.Machine

variable (s : State)

/-- A flag just set reads as set, and the setting of one flag leaves the reading of another (R157). -/
theorem State.flag_setFlag (f g : Flag) : (s.setFlag f).flag g = (decide (f = g) || s.flag g) := by
  have bits : ∀ b : BitVec 6, ((b ||| f.mask) &&& g.mask == g.mask) = (decide (f = g) || (b &&& g.mask == g.mask)) := by
    cases f <;> cases g <;> decide
  exact bits s.biu.flags

@[simp] theorem State.flag_setFlag_self (f : Flag) : (s.setFlag f).flag f = true := by
  simp [State.flag_setFlag]

/-- A cancellation is the one the claims speak of (R45). -/
@[simp] theorem Lfu.cancelFetch_fetch (l : Lfu) : l.cancelFetch.fetch = cancelled l.fetch := by
  unfold Lfu.cancelFetch cancelled
  cases h : l.fetch with
  | none => rfl
  | some f => obtain ⟨i, tag, st⟩ := f; cases st <;> rfl

/-- A cancelled fetch is all that a cancellation leaves in flight (R45). -/
theorem Lfu.cancelFetch_cancelled (l : Lfu) : ∀ f, l.cancelFetch.fetch = some f → f.state = .cancelled := by
  intro f h
  rw [Lfu.cancelFetch_fetch] at h
  unfold cancelled at h
  split at h
  · split at h
    · cases h
    · cases h; rfl
  · cases h

/-- The flags after an entry into HALTED: MODE is set, COMMIT too where a group waited, and the others are as before
(R115, R123). -/
theorem State.enterHalted_flag (r : HaltReason) (f : Flag) :
    (s.enterHalted r).flag f = (decide (f = .mode) || (decide (f = .commit) && s.groupWaits) || s.flag f) := by
  unfold State.enterHalted State.abandonWaiting State.groupWaits
  rw [State.flag_setFlag]
  simp only [State.quiesce]
  rcases hg : s.revq.group with _ | ⟨q, ph, rs⟩
  · cases f <;> simp [State.flag]
  · cases ph
    · simp only [State.writeResult, State.flag_setFlag]
      cases f <;> simp [State.flag]
    · cases f <;> simp [State.flag]

/-- What an entry into HALTED writes of the bus (R115, R123). -/
theorem State.enterHalted_bus (r : HaltReason) :
    let t := s.enterHalted r
    t.biu = { s.biu with flags := t.biu.flags, sticky := t.biu.sticky } := by
  unfold State.enterHalted State.abandonWaiting
  dsimp only
  split <;> rfl

theorem State.groupWaits_iff : s.groupWaits = true ↔ s.HasWaitingGroup := by
  unfold State.groupWaits State.HasWaitingGroup
  split
  · rename_i q rs h; simp [h]
  · rename_i h
    simp only [Bool.false_eq_true, false_iff]
    rintro ⟨q, rs, hg⟩
    exact h q rs hg

/-- The entry into HALTED is the one the claims speak of. -/
theorem State.enterHalted_entry (r : HaltReason) : s.HaltEntry r (s.enterHalted r) := by
  have flags := s.enterHalted_flag r
  refine ⟨by simp, fun i => by simp, by simp, by simp, ?_, by simp, by simp, ?_, by simp [flags], by simp [flags],
    by simp [flags], by simp [flags], ?_, ?_, by simp, by simp, by simp, by simp, by simp, by simp, by simp⟩
  · simp only [State.enterHalted_keeps, Lfu.quiesce]
    rw [← s.lfu.cancelFetch_fetch]
    rfl
  · rw [s.enterHalted_bus r]
  · intro q rs h
    simp [State.enterHalted, State.abandonWaiting, h, State.writeResult, State.flag_setFlag, resultOverwrittenMask]
  · intro h
    have hw : s.groupWaits = false := by rw [← Bool.not_eq_true, s.groupWaits_iff]; exact h
    refine ⟨?_, by simp [flags, hw], ?_⟩
    all_goals
      unfold State.enterHalted State.abandonWaiting
      split
      · rename_i q rs hg
        simp at hg
        exact absurd ⟨q, rs, hg⟩ h
      · simp

/-- The claims' words for the pending set are the operations' (R148 to R150). -/
theorem inPendingSet_eq : inPendingSet = isPending := rfl

theorem withRepeat_eq : withRepeat = repeatCause := rfl

theorem withRecord_eq (r : FaultRecord) (l : List FaultRecord) : withRecord r l = addCause r l := by
  induction l with
  | nil => rfl
  | cons x xs ih =>
    unfold withRecord at ih ⊢
    unfold addCause
    by_cases h : r.cause.code < x.cause.code
    · have h' : ¬x.cause.code ≤ r.cause.code := by omega
      simp [h, h']
    · have h' : x.cause.code ≤ r.cause.code := by omega
      simp [h, h', ← ih]

theorem raisedOnto_eq (a : Stamp) (l : List FaultRecord) (w : Cause × Detail) :
    raisedOnto a l w
      = if isPending w.1 l then repeatCause w.1 l else addCause ⟨w.1, 0, a.mode, a.position, a.revolution, w.2⟩ l := by
  unfold raisedOnto
  rw [withRecord_eq]
  rfl

/-- The stamp of a raise taken now is the claims' (R147). -/
theorem State.placeNow_eq : s.placeNow = s.stamp := by
  unfold State.placeNow State.stamp
  cases s.modc.mode <;> rfl

/-- No halting cause is pending where the claims say so (R151). -/
theorem State.noneHalting_iff : s.NoneHalting ↔ s.flt.haltingPending = false := by
  unfold State.NoneHalting Flt.haltingPending
  simp [Cause.halting]

theorem State.NoneHalting.notPending {s : State} (h : s.NoneHalting) (c : Cause) (hc : c.halting = true) :
    isPending c s.flt.causes = false := by
  rw [isPending, List.any_eq_false]
  intro r hr heq
  rw [beq_iff_eq] at heq
  have := h r hr
  rw [heq] at this
  simp [Cause.halting] at hc
  omega

/-- Writing the result record and entering HALTED leave COMMAND_RESULT. -/
@[simp] theorem State.enterHalted_result (r : HaltReason) : (s.enterHalted r).biu.result = s.biu.result := by
  unfold State.enterHalted State.abandonWaiting
  split <;> simp [State.writeResult]

/-- No raise answers a command. -/
@[simp] theorem State.raiseAt_result (a : Stamp) (c : Cause) (d : Detail) :
    (s.raiseAt a c d).biu.result = s.biu.result := by
  unfold State.raiseAt
  split
  · rfl
  · split <;> simp

/-- A first raise of a halting cause is the halt the claims speak of (R134, R148). -/
theorem State.raiseAt_haltedBy (a : Stamp) (c : Cause) (d : Detail) (hc : c.halting = true)
    (h : s.NoneHalting) : s.HaltedBy c a d (s.raiseAt a c d) := by
  rw [State.raiseAt_halts _ a c d (h.notPending c hc) hc]
  let u : State := { s with flt.causes := addCause ⟨c, 0, a.mode, a.position, a.revolution, d⟩ s.flt.causes }
  have e := (u.setFlag .fault).enterHalted_entry (.cause c)
  have others : ∀ f, f ≠ .fault → (u.setFlag .fault).flag f = s.flag f := by
    intro f hf
    rw [State.flag_setFlag, decide_eq_false (Ne.symm hf), Bool.false_or]
    rfl
  refine ⟨?_, by rw [withRecord_eq]; simp, ?_⟩
  · obtain ⟨h1, h2, h3, h4, h5, h6, h7, h8, h9, h10, h11, h12, h13, h14, h15⟩ := e
    rw [others _ (by decide)] at h10 h11 h12
    refine ⟨h1, h2, h3, h4, h5, h6, h7, h8, h9, h10, h11, h12, h13, fun hw => ?_, h15⟩
    obtain ⟨h16, h17, h18⟩ := h14 hw
    rw [others _ (by decide)] at h17
    exact ⟨h16, h17, h18⟩
  · rw [State.enterHalted_flag]; simp

/-- Whether a cause is pending is a matter of the causes alone. -/
theorem isPending_causes (c : Cause) (l : List FaultRecord) :
    isPending c l = (l.map FaultRecord.cause).any (· == c) := by
  simp only [isPending, List.any_map]; rfl

/-- What is pending after the raise of a warning (R148, R149). -/
theorem State.raiseAt_pending (a : Stamp) (c : Cause) (d : Detail) (x : Cause) (hc : c.halting = false) :
    isPending x (s.raiseAt a c d).flt.causes = (isPending x s.flt.causes || (c == x)) := by
  unfold State.raiseAt
  split
  · rename_i h
    rw [isPending_causes, repeatCause_causes, ← isPending_causes]
    by_cases hx : c = x
    · rw [← hx, h]; rfl
    · simp [hx]
  · simp only [hc, Bool.false_eq_true, if_false, State.setFlag_fields]
    rw [Bool.eq_iff_iff]
    simp only [isPending, List.any_eq_true, mem_addCause, Bool.or_eq_true]
    constructor
    · rintro ⟨r, rfl | hr, h⟩
      · exact .inr h
      · exact .inl ⟨r, hr, h⟩
    · rintro (⟨r, hr, h⟩ | h)
      · exact ⟨r, .inr hr, h⟩
      · exact ⟨_, .inl rfl, h⟩

/-! ### COMMAND_RESULT under firing -/

@[simp] theorem State.act_result (i : LineNo) (a : EntryAction) : (s.act i a).biu.result = s.biu.result := by
  unfold State.act
  split <;> rfl

@[simp] theorem State.fireSlot_result (x : Slot) : (s.fireSlot x).biu.result = s.biu.result := by
  unfold State.fireSlot
  split <;> simp [State.raise]

@[simp] theorem fireSlots_result (l : List Slot) : (l.foldl State.fireSlot s).biu.result = s.biu.result := by
  induction l generalizing s <;> simp_all

@[simp] theorem State.evaluate_result : s.evaluate.biu.result = s.biu.result := by
  simp [State.evaluate]

@[simp] theorem State.watchOverrun_result : s.watchOverrun.biu.result = s.biu.result := by
  unfold State.watchOverrun
  (repeat' split) <;> simp [State.raise]

@[simp] theorem State.raiseClamp_result (e : Entry) : (s.raiseClamp e).biu.result = s.biu.result := by
  unfold State.raiseClamp
  split <;> simp [State.raise]

/-! ### Clamps and hand-overs -/

/-- LEAD_CLAMPED is pending after a computation that clamps, and else as before (R48). -/
theorem State.raiseClamp_pending (e : Entry) :
    isPending .leadClamped (s.raiseClamp e).flt.causes
      = (isPending .leadClamped s.flt.causes || s.cfg.clamps s.axt.speed e) := by
  unfold State.raiseClamp
  split <;> rename_i h
  · rw [State.raise, s.raiseAt_pending _ _ _ _ rfl, h]; rfl
  · simp [h]

/-- The clamps of a whole window move the pending set and the FAULT flag alone (R49). -/
theorem raiseClamps_keep (l : List Slot) :
    let t := l.foldl (fun (t : State) (x : Slot) => t.raiseClamp x.entry) s
    t.cfg = s.cfg ∧ t.axt = s.axt ∧ t.cam = s.cam ∧ t.lfu = s.lfu ∧ t.out = s.out ∧ t.mcr = s.mcr ∧ t.revq = s.revq
      ∧ t.modc = s.modc ∧ t.pins = s.pins ∧ t.tb = s.tb ∧ t.resetHeld = s.resetHeld
      ∧ t.encInput = s.encInput ∧ t.pending = s.pending
      ∧ t.biu.result = s.biu.result := by
  induction l generalizing s with
  | nil => simp
  | cons x xs ih => simpa using ih (s.raiseClamp x.entry)

/-- LEAD_CLAMPED after the clamps of a whole window. -/
theorem raiseClamps_pending (l : List Slot) :
    isPending .leadClamped (l.foldl (fun (t : State) (x : Slot) => t.raiseClamp x.entry) s).flt.causes
      = (isPending .leadClamped s.flt.causes || l.any fun x => s.cfg.clamps s.axt.speed x.entry) := by
  induction l generalizing s with
  | nil => simp
  | cons x xs ih => rw [List.foldl_cons, ih, State.raiseClamp_pending, List.any_cons, Bool.or_assoc]; simp

/-- Firing raises no LEAD_CLAMPED. -/
theorem fireSlots_clamped (l : List Slot) :
    isPending .leadClamped (l.foldl State.fireSlot s).flt.causes = isPending .leadClamped s.flt.causes := by
  induction l generalizing s with
  | nil => rfl
  | cons x xs ih =>
    rw [List.foldl_cons, ih]
    unfold State.fireSlot
    split
    · simp only [State.act_keeps, State.raise]
      rw [State.raiseAt_pending _ _ .lateFire _ _ rfl]
      simp
    · simp

/-- A hand-over is a matter of the lines and the late count. -/
theorem State.HandedOver.congr {s t t' : State} {l : List Slot} {h : Nat} (hh : s.HandedOver l h t)
    (ho : t'.out = t.out) (hl : t'.lfu.late = t.lfu.late) : s.HandedOver l h t' := by
  obtain ⟨a, b, c, d⟩ := hh
  exact ⟨by rw [ho]; exact a, by rw [ho]; exact b, by rw [ho]; exact c, by rw [hl]; exact d⟩

/-- The seven checks of START as the claims write them and as the command runs them (R125). -/
theorem State.startCheck_chain : s.startCheck =
    (open Classical in
      if s.FailsCheck 1 then 1 else if s.FailsCheck 2 then 2 else if s.FailsCheck 3 then 3 else if s.FailsCheck 4 then 4
      else if s.FailsCheck 5 then 5 else if s.FailsCheck 6 then 6 else if s.FailsCheck 7 then 7 else 0) := by
  have h1 : s.FailsCheck 1 ↔ s.revLen < Config.revLengthMin := Iff.rfl
  have h2 : s.FailsCheck 2 ↔ s.cfg.guardValid = false := by
    simp only [← Bool.not_eq_true, State.FailsCheck, Cfg.guardValid, Bool.and_eq_true, decide_eq_true_eq]
    unfold Config.guardMin Config.guardMax
    omega
  have h3 : s.FailsCheck 3 ↔ s.guardLen ≤ s.cfg.maxCorr.toNat := Iff.rfl
  have h4 : s.FailsCheck 4 ↔ s.cfg.windowValid = false := by
    cases h : s.cfg.regEnable <;> cases h' : s.cfg.acqSource
      <;> simp [State.FailsCheck, Cfg.windowValid, Cfg.inRange, h, h'] <;> omega
  have h5 : s.FailsCheck 5 ↔ s.cfg.ladderValid = false := by
    simp only [← Bool.not_eq_true, State.FailsCheck, Cfg.ladderValid, Bool.and_eq_true, decide_eq_true_eq]
    omega
  have h6 : s.FailsCheck 6 ↔ s.cfg.dividerValid = false := by
    simp only [← Bool.not_eq_true, State.FailsCheck, Cfg.dividerValid, Bool.and_eq_true, decide_eq_true_eq]
    unfold Config.dividerMin Config.dividerMax
    omega
  have h7 : s.FailsCheck 7 ↔ (s.cam.table.all fun e => s.cfg.inRange e.position.toNat) = false := by
    simp only [State.FailsCheck, Cfg.inRange, List.all_eq_false, Bool.and_eq_true, decide_eq_true_eq]
    exact exists_congr fun e => and_congr_right fun _ => by omega
  unfold State.startCheck
  simp only [h1, h2, h3, h4, h5, h6, h7]

/-- START finds no check that fails exactly when none of the seven does (R125). -/
theorem State.startCheck_eq_zero_iff : s.startCheck = 0 ↔ ∀ k, ¬s.FailsCheck k := by
  rw [State.startCheck_chain]
  constructor
  · intro h k
    repeat' split at h
    all_goals first | exact absurd h (by decide) | skip
    match k with
    | 0 | _ + 8 => exact id
    | 1 | 2 | 3 | 4 | 5 | 6 | 7 => assumption
  · intro h
    simp [h]

/-- START answers the first check that fails (R125). -/
theorem State.startCheck_eq_iff {k : Nat} (h0 : 0 < k) (h7 : k ≤ 7) :
    s.startCheck = BitVec.ofNat 3 k ↔ s.FailsCheck k ∧ ∀ j < k, ¬s.FailsCheck j := by
  constructor
  · intro h
    rw [State.startCheck_chain] at h
    repeat' split at h
    all_goals
      match k, h0, h7 with
      | 1, _, _ | 2, _, _ | 3, _, _ | 4, _, _ | 5, _, _ | 6, _, _ | 7, _, _ =>
        first
          | exact absurd h (by decide)
          | refine ⟨by assumption, fun j hj => ?_⟩
            match j, hj with
            | 0, _ => exact id
            | 1, _ | 2, _ | 3, _ | 4, _ | 5, _ | 6, _ => first | assumption | omega
  · rintro ⟨hk, h⟩
    rw [State.startCheck_chain]
    match k with
    | 0 | _ + 8 => exact absurd hk id
    | 1 | 2 | 3 | 4 | 5 | 6 | 7 => simp [hk, h]

end Sys2Proof.Machine
end

