-- ==== Sys2Proof/Laws/Port.lean ====
section
/-! SUPPORT. What a fetch request and an acquisition leave at the table port, and what each operation raises. -/

namespace Sys2Proof.Machine

variable (s : State)

/-! ### The table port -/

/-- A waiting fetch is one in state WAITING. -/
theorem Lfu.waitingFetch_eq (l : Lfu) (i : Nat) : l.waitingFetch = some i ↔ ∃ tag, l.fetch = some ⟨i, tag, .waiting⟩ := by
  unfold Lfu.waitingFetch
  split
  · rename_i j tag h; simp [h]
  · rename_i h
    constructor
    · intro h'; cases h'
    · rintro ⟨tag, h'⟩; exact (h i tag h').elim

/-- What the arbiter grants, with the fetch that was in flight as the one wanted (R8 to R10). -/
theorem State.arbitrate_served :
    let noneWaits := ∀ i tag, s.lfu.fetch ≠ some ⟨i, tag, .waiting⟩
    (s.cam.port ≠ .free → s.arbitrate.cam = s.cam ∧ s.arbitrate.lfu.fetch = s.lfu.fetch)
    ∧ (s.cam.port = .free → s.applying = true →
        s.arbitrate.cam = { s.cam with port := .application } ∧ s.arbitrate.lfu.fetch = s.lfu.fetch)
    ∧ (s.cam.port = .free → s.applying = false →
        (∀ i tag, s.lfu.fetch = some ⟨i, tag, .waiting⟩ → s.cam.readbackWaits = none ∨ s.cam.turn = .fetch →
          s.arbitrate.cam = { s.cam with port := .fetch s.cam.table[i]?, turn := .readback }
            ∧ s.arbitrate.lfu.fetch = some ⟨i, tag, .granted⟩)
        ∧ (∀ j, s.cam.readbackWaits = some j → s.cam.turn = .readback ∨ noneWaits →
          s.arbitrate.cam = { s.cam with port := .readback j s.cam.table[j]?, turn := .fetch, readbackWaits := none }
            ∧ s.arbitrate.lfu.fetch = s.lfu.fetch)
        ∧ (s.cam.readbackWaits = none → noneWaits →
          s.arbitrate.cam = s.cam ∧ s.arbitrate.lfu.fetch = s.lfu.fetch)) := by
  intro noneWaits
  have idle : noneWaits → s.lfu.waitingFetch = none := by
    intro h
    cases hw : s.lfu.waitingFetch with
    | none => rfl
    | some i => obtain ⟨tag, hf⟩ := (s.lfu.waitingFetch_eq i).mp hw; exact (h i tag hf).elim
  refine ⟨fun h => ?_, fun h ha => ?_, fun h ha => ⟨fun i tag hf ht => ?_, fun j hj ht => ?_, fun hj hn => ?_⟩⟩
  · rw [s.arbitrate_held h]; exact ⟨rfl, rfl⟩
  · rw [s.arbitrate_application h ha]; exact ⟨rfl, rfl⟩
  · have hw := (s.lfu.waitingFetch_eq i).mpr ⟨tag, hf⟩
    have ha' : s.revq.applying = false := ha
    rcases ht with ht | ht
    · simp [State.arbitrate, h, ha', hw, ht, State.grantFetch, hf]
    · cases hr : s.cam.readbackWaits <;> simp [State.arbitrate, h, ha', hw, ht, hr, State.grantFetch, hf]
  · have ha' : s.revq.applying = false := ha
    rcases ht with ht | ht
    · cases hw : s.lfu.waitingFetch <;> simp [State.arbitrate, h, ha', hw, ht, hj, State.grantReadback]
    · simp [State.arbitrate, h, ha', idle ht, hj, State.grantReadback]
  · have ha' : s.revq.applying = false := ha
    rw [s.arbitrate_idle (idle hn) hj ha']; exact ⟨rfl, rfl⟩

/-- A fetch request is the one the claims speak of (R8 to R10, R44). -/
theorem State.requestFetch_served : s.requestFetch.PortServed s.cam s.lfu.fetch := by
  have wanted : s.requestFetch.fetchWanted s.lfu.fetch
      = ((s.wantsFetch.map fun p => (⟨p.1, p.2, .waiting⟩ : Fetch)).or s.lfu.fetch) := by
    unfold State.fetchWanted State.wantsFetch
    simp only [State.requestFetch_keeps, State.applying]
    cases hc : s.lfu.cursor <;> cases hf : s.lfu.fetch <;> simp
    by_cases room : s.lfu.window.length < 8 <;> cases s.modc.mode.tracking <;> cases s.revq.applying <;> simp [room]
  unfold State.PortServed
  simp only [wanted]
  unfold State.requestFetch
  cases hw : s.wantsFetch with
  | none => simpa using s.arbitrate_served
  | some p => simpa using ({ s with lfu.fetch := some ⟨p.1, p.2, .waiting⟩ } : State).arbitrate_served

/-- What the port shows is a matter of the port, the window, the mode and the group. -/
theorem State.PortServed.congr {cam : Cam} {f : Option Fetch} {t u : State} (h : t.PortServed cam f)
    (hc : u.cam = t.cam) (hl : u.lfu = t.lfu) (hm : u.modc.mode.tracking = t.modc.mode.tracking)
    (ha : u.applying = t.applying) : u.PortServed cam f := by
  unfold State.PortServed State.fetchWanted at h ⊢
  rw [hc, hl, hm, ha]
  exact h

/-- The cursor for an acquisition point is where the claims place it (R57). -/
theorem cursorBeyond_place (p : Nat) (t : List Entry) : CursorBeyond p t (cursorBeyond p t) := by
  refine ⟨fun i entry hi hp hlow => ?_, fun hall => ?_⟩
  · have first : t.findIdx (fun x => decide (p < x.position.toNat)) = i := by
      obtain ⟨hlt, hget⟩ := List.getElem?_eq_some_iff.mp hi
      rw [List.findIdx_eq hlt]
      refine ⟨by simpa [hget] using hp, fun j hj => ?_⟩
      have := hlow j hj _ (List.getElem?_eq_getElem (by omega))
      simp only [decide_eq_false_iff_not]; omega
    obtain ⟨hlt, _⟩ := List.getElem?_eq_some_iff.mp hi
    simp [cursorBeyond, first, hlt]
  · have none : t.findIdx (fun x => decide (p < x.position.toNat)) = t.length := by
      rw [List.findIdx_eq_length]
      intro x hx
      have := hall x hx
      simp only [decide_eq_false_iff_not]; omega
    simp only [cursorBeyond, none, Nat.lt_irrefl, if_false, Cursor.endOfTable]
    cases t <;> simp

/-- LFU's part in an acquisition is the one the claims speak of (R57, R58). -/
theorem State.startCursor_started (p : Nat) : s.CursorStarted p (s.startCursor p) := by
  refine ⟨fun ha => ?_, fun ha => ?_, by simp, by simp, by simp⟩
  · simp only [State.applying_eq] at ha
    simp [State.startCursor, ha]
  · have served := ({ s with lfu.cursor := cursorBeyond p s.cam.table } : State).requestFetch_served
    have e : s.startCursor p = ({ s with lfu.cursor := cursorBeyond p s.cam.table } : State).requestFetch := by
      simp only [State.applying_eq] at ha
      simp [State.startCursor, ha]
    rw [e]
    refine ⟨?_, by simp, served⟩
    simp only [State.requestFetch_keeps]
    exact cursorBeyond_place _ _

/-- Taking up fetching again is served like any request (R55, R58). -/
theorem State.resumeFetching_served : s.resumeFetching.PortServed s.cam s.lfu.fetch := by
  unfold State.resumeFetching
  split
  · exact ({ s with lfu.cursor := cursorBeyond _ s.cam.table, lfu.deferred := none } : State).requestFetch_served
  · exact ({ s with lfu.cursor := s.lfu.cursor.endOfTable s.cam.table.length } : State).requestFetch_served

/-- What an acquisition finds is a matter of LFU, the port and the group. -/
theorem State.CursorStarted.from {s s' t : State} {p : Nat} (h : s'.CursorStarted p t) (hl : s'.lfu = s.lfu)
    (hc : s'.cam = s.cam) (ha : s'.applying = s.applying) : s.CursorStarted p t := by
  unfold State.CursorStarted at h ⊢
  rw [hl, hc, ha] at h
  exact h

/-- What an acquisition leaves is a matter of LFU, the port, the mode and the group. -/
theorem State.CursorStarted.congr {s t t' : State} {p : Nat} (h : s.CursorStarted p t) (hl : t'.lfu = t.lfu)
    (hc : t'.cam = t.cam) (hm : t'.modc.mode.tracking = t.modc.mode.tracking) (ha : t'.applying = t.applying) :
    s.CursorStarted p t' := by
  unfold State.CursorStarted at h ⊢
  rw [hl, hc]
  obtain ⟨held, free, rest⟩ := h
  refine ⟨held, fun n => ?_, rest⟩
  obtain ⟨place, deferred, served⟩ := free n
  exact ⟨place, deferred, served.congr hc hl hm ha⟩

/-- An acquisition's effect on LFU and the port is the one the claims speak of. -/
theorem State.acquire_started (p : Nat) (b : Bool) : s.CursorStarted p (s.acquire p b) := by
  unfold State.acquire
  exact (State.startCursor_started _ p).from (by simp) (by simp) (by simp)

/-! ### What each operation raises -/

/-- No raise. -/
theorem State.WarnedInTurn.none (a : Stamp) (t : State) (hf : t.flt = s.flt) (hb : t.biu = s.biu) :
    s.WarnedInTurn [] a t := by
  simp [State.WarnedInTurn, hf, hb]

/-- One raise of a warning (R148, R149). -/
theorem State.raiseAt_raises (a : Stamp) (c : Cause) (d : Detail) (hc : c.halting = false) :
    s.WarnedInTurn [(c, d)] a (s.raiseAt a c d) := by
  simp only [State.WarnedInTurn, State.raiseAt, raisedOnto_eq, inPendingSet_eq, List.foldl_cons, List.foldl_nil]
  cases h : isPending c s.flt.causes <;> simp [h, hc, Flag.mask]

/-- Which causes are pending after a raise. -/
theorem isPending_raisedOnto (a : Stamp) (l : List FaultRecord) (w : Cause × Detail) (x : Cause) :
    isPending x (raisedOnto a l w) = (isPending x l || (w.1 == x)) := by
  rw [raisedOnto_eq]
  split
  · rename_i h
    rw [isPending_causes, repeatCause_causes, ← isPending_causes]
    by_cases hx : w.1 = x
    · rw [← hx, h]; rfl
    · simp [hx]
  · rw [Bool.eq_iff_iff]
    simp only [isPending, List.any_eq_true, mem_addCause, Bool.or_eq_true]
    constructor
    · rintro ⟨r, rfl | hr, h⟩
      · exact .inr h
      · exact .inl ⟨r, hr, h⟩
    · rintro (⟨r, hr, h⟩ | h)
      · exact ⟨r, .inr hr, h⟩
      · exact ⟨_, .inl rfl, h⟩

theorem isPending_raises (a : Stamp) (ws : List (Cause × Detail)) (l : List FaultRecord) (x : Cause) :
    isPending x (ws.foldl (raisedOnto a) l) = (isPending x l || ws.any fun w => w.1 == x) := by
  induction ws generalizing l with
  | nil => simp
  | cons w ws ih => rw [List.foldl_cons, ih, isPending_raisedOnto, List.any_cons, Bool.or_assoc]

/-- Raises after raises. -/
theorem State.WarnedInTurn.append {v w : List (Cause × Detail)} {a : Stamp} {s t u : State}
    (h : s.WarnedInTurn v a t) (h' : t.WarnedInTurn w a u) : s.WarnedInTurn (v ++ w) a u := by
  obtain ⟨hf, hb⟩ := h
  obtain ⟨hf', hb'⟩ := h'
  refine ⟨by rw [hf', hf, List.foldl_append], ?_⟩
  have second : (w.any fun x => !isPending x.1 t.flt.causes)
      = true → ((v ++ w).any fun x => !isPending x.1 s.flt.causes) = true := by
    intro h
    obtain ⟨x, hx, hp⟩ := List.any_eq_true.mp h
    refine List.any_eq_true.mpr ⟨x, List.mem_append_right _ hx, ?_⟩
    rw [hf, isPending_raises] at hp
    simp only [Bool.not_or, Bool.and_eq_true] at hp
    exact hp.1
  have either : ((v ++ w).any fun x => !isPending x.1 s.flt.causes) = true →
      (v.any fun x => !isPending x.1 s.flt.causes) = true ∨ (w.any fun x => !isPending x.1 t.flt.causes) = true := by
    intro h
    by_cases hv : (v.any fun x => !isPending x.1 s.flt.causes) = true
    · exact .inl hv
    · right
      obtain ⟨x, hx, hp⟩ := List.any_eq_true.mp h
      have hxv : ∀ y ∈ v, isPending y.1 s.flt.causes = true := by
        intro y hy
        cases hq : isPending y.1 s.flt.causes with
        | true => rfl
        | false => exact (hv (List.any_eq_true.mpr ⟨y, hy, by simp [hq]⟩)).elim
      rcases List.mem_append.mp hx with hx | hx
      · rw [hxv x hx] at hp; cases hp
      · refine List.any_eq_true.mpr ⟨x, hx, ?_⟩
        rw [hf, isPending_raises]
        have : (v.any fun y => y.1 == x.1) = false := by
          rw [List.any_eq_false]
          intro y hy he
          rw [beq_iff_eq] at he
          have := hxv y hy
          rw [he] at this
          rw [this] at hp; cases hp
        simpa [this] using hp
  rw [hb', hb]
  simp only [inPendingSet_eq]
  by_cases h1 : (v.any fun x => !isPending x.1 s.flt.causes) = true <;>
    by_cases h2 : (w.any fun x => !isPending x.1 t.flt.causes) = true
  · simp [h1, h2, List.any_append, BitVec.or_assoc]
  · simp [h1, h2, List.any_append]
  · have := second h2
    simp [h1, h2, this]
  · have : ¬((v ++ w).any fun x => !isPending x.1 s.flt.causes) = true := fun h => (either h).elim h1 h2
    simp only [h1, h2, this, Bool.false_eq_true, if_false]

/-- Raises are a matter of the causes and the bus. -/
theorem State.WarnedInTurn.congr {w : List (Cause × Detail)} {a : Stamp} {s s' t t' : State} (h : s.WarnedInTurn w a t)
    (hs : s'.flt = s.flt) (hsb : s'.biu = s.biu) (ht : t'.flt = t.flt) (htb : t'.biu = t.biu) :
    s'.WarnedInTurn w a t' := by
  unfold State.WarnedInTurn at h ⊢
  rw [hs, hsb, ht, htb]
  exact h

@[simp] theorem State.act_bus (i : LineNo) (a : EntryAction) : (s.act i a).flt = s.flt ∧ (s.act i a).biu = s.biu := by
  simp

/-- The raises of one firing (R52). -/
theorem State.fireSlot_raises (x : Slot) : s.WarnedInTurn (lateRaises s.axt.hwm [x]) s.stamp (s.fireSlot x) := by
  unfold State.fireSlot lateRaises
  split <;> rename_i h
  · have r := ({ s with lfu.late := addSat Config.count16Max s.lfu.late 1 } : State).raiseAt_raises
      s.stamp .lateFire (.lineTag x.entry.line x.entry.tag) rfl
    simp only [List.filter_cons, h, decide_true, if_true, List.filter_nil, List.map_cons, List.map_nil]
    exact r.congr rfl rfl (by simp [State.raise]; rfl) (by simp [State.raise]; rfl)
  · simp only [List.filter_cons, h, decide_false, Bool.false_eq_true, if_false, List.filter_nil, List.map_nil]
    exact State.WarnedInTurn.none _ _ _ (by simp) (by simp)

/-- The stamp is a matter of the mode and the position (R147). -/
theorem State.stamp_congr {t : State} (hm : t.modc.mode = s.modc.mode) (ha : t.axt = s.axt) : t.stamp = s.stamp := by
  simp only [State.stamp, hm, ha]

/-- The raises of a list of firings (R52). -/
theorem fireSlots_raise (l : List Slot) : s.WarnedInTurn (lateRaises s.axt.hwm l) s.stamp (l.foldl State.fireSlot s) := by
  induction l generalizing s with
  | nil => exact State.WarnedInTurn.none _ _ _ rfl rfl
  | cons x xs ih =>
    have first := s.fireSlot_raises x
    have rest := ih (s.fireSlot x)
    rw [s.stamp_congr (by simp) (by simp)] at rest
    simp only [State.fireSlot_keeps] at rest
    have e : lateRaises s.axt.hwm (x :: xs) = lateRaises s.axt.hwm [x] ++ lateRaises s.axt.hwm xs := by
      simp only [lateRaises, ← List.map_append, ← List.filter_append, List.singleton_append]
    rw [e, List.foldl_cons]
    exact first.append rest

/-- The raises of an evaluation (R50, R52). -/
theorem State.evaluate_raises :
    s.WarnedInTurn (lateRaises s.axt.hwm (s.lfu.window.filter (Slot.due s.axt.hwm))) s.stamp s.evaluate :=
  fireSlots_raise { s with lfu.window := s.lfu.window.filter fun x => !x.due s.axt.hwm } _

/-- The claims' condition for a clamp is the operation's (R48). -/
theorem Cfg.clampRaises_eq (c : Cfg) (speed : Nat) (es : List Entry) :
    c.clampRaises speed es = (es.filter fun e => c.clamps speed e).map fun e => (.leadClamped, .num e.line.val) := rfl

/-- The raise of one computation (R48). -/
theorem State.raiseClamp_raises (e : Entry) :
    s.WarnedInTurn (s.cfg.clampRaises s.axt.speed [e]) s.stamp (s.raiseClamp e) := by
  unfold State.raiseClamp
  rw [Cfg.clampRaises_eq]
  split <;> rename_i h
  · simp only [List.filter_cons, h, if_true, List.filter_nil, List.map_cons, List.map_nil]
    exact s.raiseAt_raises _ _ _ rfl
  · simp only [List.filter_cons, h, Bool.false_eq_true, if_false, List.filter_nil, List.map_nil]
    exact State.WarnedInTurn.none _ _ _ rfl rfl

/-- The raises of the computations of a whole window (R48, R49). -/
theorem raiseClamps_raise (l : List Slot) :
    s.WarnedInTurn (s.cfg.clampRaises s.axt.speed (l.map Slot.entry)) s.stamp
      (l.foldl (fun (t : State) (x : Slot) => t.raiseClamp x.entry) s) := by
  induction l generalizing s with
  | nil => exact State.WarnedInTurn.none _ _ _ rfl rfl
  | cons x xs ih =>
    have first := s.raiseClamp_raises x.entry
    have rest := ih (s.raiseClamp x.entry)
    rw [s.stamp_congr (by simp) (by simp)] at rest
    simp only [State.raiseClamp_keeps] at rest
    have e : s.cfg.clampRaises s.axt.speed ((x :: xs).map Slot.entry)
        = s.cfg.clampRaises s.axt.speed [x.entry] ++ s.cfg.clampRaises s.axt.speed (xs.map Slot.entry) := by
      simp only [Cfg.clampRaises, ← List.map_append, ← List.filter_append, List.singleton_append, List.map_cons]
    rw [e, List.foldl_cons]
    exact first.append rest

/-- The raise of an hwm advance (R114). -/
theorem State.watchOverrun_raises : s.WarnedInTurn (s.overrunRaises s.axt.hwm) s.stamp s.watchOverrun := by
  have none := State.WarnedInTurn.none s s.stamp s rfl rfl
  have warns : ∀ d, s.WarnedInTurn [(Cause.commitOverrun, d)] s.stamp (s.raise .commitOverrun d) :=
    fun d => s.raiseAt_raises _ _ _ rfl
  unfold State.watchOverrun State.overrunRaises State.guardLen
  cases s.revq.group with
  | none => exact none
  | some g =>
    obtain ⟨q, p, rs⟩ := g
    cases p with
    | waiting => exact none
    | applying b n =>
      cases b with
      | false => exact none
      | true =>
        by_cases h : s.axt.hwm = s.cfg.guardZone.toNat
        · simp only [h, if_true]; exact warns _
        · simp only [h, if_false]; exact none

end Sys2Proof.Machine
end

