-- ==== Sys2Proof/Laws/Boundary.lean ====
section
/-! SUPPORT. What the boundary's two parts keep and do: the turn-over of the blocks, and the ladder. -/

namespace Sys2Proof.Machine

variable (s : State)

/-! ### The judgement of a revolution -/

@[simp] theorem Cfg.judgeRevolution_verdict (c : Cfg) (m : MarkState) : (c.judgeRevolution m).1 = c.verdictFor m := by
  unfold Cfg.judgeRevolution Cfg.verdictFor
  cases c.regEnable with
  | false => rfl
  | true =>
    cases m.accepted with
    | none => rfl
    | some d =>
      simp only [Nat.shiftRight_eq_div_pow, Bool.true_eq_false, if_false]
      split <;> rfl

theorem against_eq (d : Int) (k : Nat) : against d k = -d.sign * k := by
  unfold against
  split <;> rename_i h
  · rw [Int.sign_eq_one_of_pos h]; omega
  · split <;> rename_i h'
    · rw [Int.sign_eq_neg_one_of_neg h']; omega
    · have zero : d = 0 := by omega
      simp [zero]

@[simp] theorem Cfg.judgeRevolution_correction (c : Cfg) (m : MarkState) :
    (c.judgeRevolution m).2 = c.correctionFor m := by
  unfold Cfg.judgeRevolution Cfg.correctionFor
  cases c.regEnable with
  | false => rfl
  | true =>
    cases m.accepted with
    | none => rfl
    | some d =>
      simp only [Nat.shiftRight_eq_div_pow, Bool.true_eq_false, if_false]
      split <;> rename_i h
      · simp only [against_eq]; rw [Nat.min_eq_left h]
      · simp only [against_eq]; rw [Nat.min_eq_right (by omega)]

/-- R27 in one line: the correction above 0 is the position, below 0 the stretch. -/
theorem Axt.correct_eq (a : Axt) (c : Int) :
    a.correct c = { a with position := c.toNat, hwm := c.toNat, stretch := (-c).toNat, deficit := 0 } := by
  unfold Axt.correct
  split
  · have zero : (-c).toNat = 0 := by omega
    rw [zero]
  · have zero : c.toNat = 0 := by omega
    rw [zero]

/-! ### The turn-over -/

/-- What the turn-over of the blocks sets and keeps (R26, R27, R91). -/
theorem State.turnOver_keeps :
    s.turnOver.cfg = s.cfg ∧ s.turnOver.out = s.out ∧ s.turnOver.modc = s.modc ∧ s.turnOver.pins = s.pins
      ∧ s.turnOver.tb = s.tb ∧ s.turnOver.resetHeld = s.resetHeld
      ∧ s.turnOver.encInput = s.encInput ∧ s.turnOver.pending = s.pending
      ∧ s.turnOver.mcr = s.mcr.publish s.cfg
      ∧ s.turnOver.axt = { s.axt.correct (s.cfg.judgeRevolution s.mcr.mark).2 with revolution := s.axt.revolution + 1 }
      ∧ s.turnOver.cam.table = s.cam.table ∧ s.turnOver.cam.record = s.cam.record
      ∧ s.turnOver.biu.result = s.biu.result ∧ s.turnOver.flag .rev = true ∧ s.turnOver.lfu.late = s.lfu.late := by
  have account : ∀ (u : State) (a : Stamp), (u.settleAccount a).biu.result = u.biu.result := by
    intro u a
    unfold State.settleAccount
    split <;> simp
  refine ⟨?_, ?_, ?_, ?_, ?_, ?_, ?_, ?_, ?_, ?_, ?_, ?_, ?_, ?_, ?_⟩
  case refine_14 =>
    simp only [State.turnOver, State.flag, State.requestFetch_keeps, State.beginApplication_keeps, State.rollWindow_keeps]
    exact State.flag_setFlag_self _ _
  all_goals simp [State.turnOver, account]

/-- The entries left unread are those the claims count (R53, R58). -/
theorem State.unread_eq (h : s.lfu.deferred ≠ none → s.TableLaw) : s.unread = s.leftUnread := by
  unfold State.unread State.leftUnread State.accountCursor
  cases hd : s.lfu.deferred with
  | none => cases s.lfu.cursor with
    | parked => rfl
    | reading i tag => cases tag <;> rfl
  | some point =>
    have sorted : s.cam.table.Pairwise fun a b => a.position.toNat ≤ b.position.toNat := by
      refine (h (by simp [hd])).1.imp fun {a b} hk => ?_
      rcases hk with hk | ⟨hk, _⟩
      · omega
      · exact Nat.le_of_eq (by rw [hk])
    have split : ∀ l : List Entry, l.Pairwise (fun a b => a.position.toNat ≤ b.position.toNat) →
        l.filter (fun e => decide (point < e.position.toNat))
          = l.drop (l.findIdx fun e => decide (point < e.position.toNat)) := by
      intro l hl
      induction l with
      | nil => rfl
      | cons x xs ih =>
        have hx := List.pairwise_cons.mp hl
        by_cases hp : point < x.position.toNat
        · have all : (x :: xs).filter (fun e => decide (point < e.position.toNat)) = x :: xs := by
            rw [List.filter_eq_self]
            intro y hy
            rcases List.mem_cons.mp hy with rfl | hy
            · simpa using hp
            · have := hx.1 y hy; simp only [decide_eq_true_eq]; omega
          rw [all, List.findIdx_cons]
          simp [hp]
        · rw [List.filter_cons, List.findIdx_cons]
          simp [hp, ih hx.2]
    have both : ∀ (p q : Entry → Bool) (l : List Entry), l.filter (fun e => p e && q e) = (l.filter p).filter q := by
      intro p q l
      rw [List.filter_filter]
      exact congrArg (fun f => l.filter f) (funext fun e => Bool.and_comm _ _)
    simp only [both, split _ sorted]
    by_cases hlt : s.cam.table.findIdx (fun e => decide (point < e.position.toNat)) < s.cam.table.length
    · simp only [cursorBeyond, hlt, if_true]; rfl
    · simp only [cursorBeyond, hlt, if_false, Cursor.endOfTable]
      rw [List.drop_eq_nil_of_le (by omega)]
      split <;> rename_i he
      · split at he <;> cases he
      · rfl

/-- The account that LFU settles is the one the claims speak of (R53, R147). -/
theorem State.settleAccount_settled (h : s.lfu.deferred ≠ none → s.TableLaw) :
    s.AccountSettled (s.settleAccount s.endingStamp) := by
  refine ⟨?_, ?_, ?_⟩
  · simp [s.unread_eq h]
  · intro r hr
    unfold State.settleAccount
    rw [s.unread_eq h]
    split <;> rename_i hn
    · rfl
    · simp only [State.raiseAt, raisedOnto_eq]
      cases isPending .missedEntry s.flt.causes <;> simp [Cause.halting, Cause.code] <;> rfl
  · intro hn hp
    rw [inPendingSet_eq] at hp
    unfold State.settleAccount
    rw [s.unread_eq h, if_neg (by omega)]
    simp [State.raiseAt, hp, Cause.halting, Cause.code]

/-! ### The ladder -/

/-- The ladder's counters never carry the mode (R138). -/
theorem Modc.judge_mode (m : Modc) (c : Cfg) (v : Verdict) :
    (m.judge c v).1.mode = m.mode ∧ (m.judge c v).1.stopPending = m.stopPending
      ∧ (m.judge c v).1.haltReason = m.haltReason := by
  unfold Modc.judge
  cases v <;> simp only [] <;> (repeat' split) <;> simp

/-- A raise moves the monitor's state in AXT alone, and the mark state in MCR alone. -/
theorem State.raiseAt_monitor (a : Stamp) (c : Cause) (d : Detail) :
    (s.raiseAt a c d).axt = { s.axt with armed := (s.raiseAt a c d).axt.armed }
      ∧ (s.raiseAt a c d).mcr = { s.mcr with mark := (s.raiseAt a c d).mcr.mark } := by
  unfold State.raiseAt
  split
  · exact ⟨rfl, rfl⟩
  · split
    · simp
    · exact ⟨rfl, rfl⟩

/-- The entry into CONFIG leaves COMMAND_RESULT. -/
@[simp] theorem State.enterConfig_result : s.enterConfig.biu.result = s.biu.result := by
  simp [State.enterConfig]

/-- What the ladder and a served STOP keep, whatever the verdict (R132, R139 to R142). -/
theorem State.ladderStep_keeps (a : Stamp) (v : Verdict) :
    let t := s.ladderStep a v
    t.cfg = s.cfg ∧ t.cam.table = s.cam.table ∧ t.cam.record = s.cam.record ∧ t.pins = s.pins ∧ t.tb = s.tb
      ∧ t.resetHeld = s.resetHeld ∧ t.encInput = s.encInput ∧ t.pending = s.pending ∧ t.biu.result = s.biu.result
      ∧ t.lfu.late = s.lfu.late ∧ t.lfu.unexamined = s.lfu.unexamined
      ∧ t.axt = { s.axt with armed := t.axt.armed } ∧ t.mcr = { s.mcr with mark := t.mcr.mark } := by
  have freewheel : ∀ u : State, u.enterFreewheel.biu.result = u.biu.result := fun _ => rfl
  have relocked : ∀ u : State, u.relock.biu.result = u.biu.result := fun _ => rfl
  have raised := fun (m : Modc) (n : Nat) => ({ s with modc := m } : State).raiseAt_monitor a .marksLost (.num n)
  simp only [State.ladderStep]
  generalize s.modc.judge s.cfg v = judged
  obtain ⟨m, move⟩ := judged
  cases move <;> simp only
  case marksLost =>
    refine ⟨?_, ?_, ?_, ?_, ?_, ?_, ?_, ?_, ?_, ?_, ?_, (raised _ _).1, (raised _ _).2⟩ <;> simp
  all_goals split <;> simp [freewheel, relocked]

/-- A raise of MARKS_LOST and the mode entries leave every other cause's record (R148, R149). -/
theorem State.ladderStep_causes (a : Stamp) (v : Verdict) (r : FaultRecord) (hr : r.cause ≠ .marksLost) :
    r ∈ (s.ladderStep a v).flt.causes ↔ r ∈ s.flt.causes := by
  have repeated : ∀ l : List FaultRecord, r ∈ repeatCause .marksLost l ↔ r ∈ l := by
    intro l
    induction l with
    | nil => rfl
    | cons x xs ih =>
      unfold repeatCause at ih ⊢
      rw [List.map_cons, List.mem_cons, List.mem_cons, ih]
      split
      · rename_i hx
        have h1 : r ≠ x := fun e => hr (e ▸ hx)
        have h2 : ∀ n, r ≠ { x with repeats := n } := fun n e => hr (by rw [e]; exact hx)
        simp [h1, h2]
      · rfl
  unfold State.ladderStep
  generalize s.modc.judge s.cfg v = judged
  obtain ⟨m, move⟩ := judged
  cases move <;> simp only
  case marksLost =>
    unfold State.raiseAt
    split
    · exact repeated _
    · simp only [Cause.halting, Cause.code, Nat.reduceLeDiff, decide_true, if_true, State.enterHalted_keeps,
        State.setFlag_fields, mem_addCause, or_iff_right_iff_imp]
      intro e
      exact (hr (by rw [e])).elim
  all_goals split <;> simp

/-- The mode entries never clear the FAULT flag. -/
theorem State.ladderStep_fault (a : Stamp) (v : Verdict) (h : s.flag .fault = true) :
    (s.ladderStep a v).flag .fault = true := by
  have kept : ∀ (t : State) (f : Flag), t.flag .fault = true → (t.setFlag f).flag .fault = true := by
    intro t f ht; simp [State.flag_setFlag, ht]
  have config : ∀ t : State, t.flag .fault = true → t.enterConfig.flag .fault = true := by
    intro t ht
    refine kept _ _ ?_
    simpa [State.flag] using ht
  unfold State.ladderStep
  generalize s.modc.judge s.cfg v = judged
  obtain ⟨m, move⟩ := judged
  cases move <;> simp only
  case marksLost =>
    unfold State.raiseAt
    split
    · exact h
    · refine (State.enterHalted_flag _ _ _).trans ?_
      simp
  case stay =>
    split
    · exact config _ h
    · exact h
  case toFreewheel =>
    split
    · exact config _ h
    · exact kept _ _ h
  case toLocked =>
    split
    · exact config _ h
    · exact kept _ _ h

/-- The account of a boundary is the one the claims speak of (R53, R59, R147). -/
theorem State.boundary_settled (h : s.lfu.deferred ≠ none → s.TableLaw) : s.AccountSettled s.boundary := by
  let u : State := { s with mcr := s.mcr.publish s.cfg, lfu := s.lfu.cancelFetch }
  have same : u.leftUnread = s.leftUnread := rfl
  have settled : u.AccountSettled (u.settleAccount s.endingStamp) := u.settleAccount_settled h
  obtain ⟨count, causes, flag⟩ := settled
  have turned : s.turnOver.flt = (u.settleAccount s.endingStamp).flt
      ∧ s.turnOver.lfu.unexamined = (u.settleAccount s.endingStamp).lfu.unexamined := by
    constructor <;> simp [State.turnOver, u]
  have bus : ∀ f, (u.settleAccount s.endingStamp).flag f = true → s.turnOver.flag f = true := by
    intro f hf
    have : s.turnOver.biu = { (u.settleAccount s.endingStamp).biu with
        flags := (u.settleAccount s.endingStamp).biu.flags ||| Flag.rev.mask } := by simp [State.turnOver, u]
    have e : s.turnOver.flag f = ((u.settleAccount s.endingStamp).setFlag .rev).flag f := by
      simp only [State.flag, this, State.setFlag]
    rw [e, State.flag_setFlag, hf, Bool.or_true]
  refine ⟨?_, fun r hr => ?_, fun hn hp => ?_⟩
  · rw [State.boundary, ((s.turnOver.ladderStep_keeps _ _).2.2.2.2.2.2.2.2.2.2.1), turned.2]
    exact count
  · rw [State.boundary, s.turnOver.ladderStep_causes _ _ r hr, turned.1]
    exact causes r hr
  · exact s.turnOver.ladderStep_fault _ _ (bus _ (flag hn hp))

end Sys2Proof.Machine
end

