-- ==== Sys2Proof/Laws/Holds.lean ====
section
/-! SUPPORT. What keeps the hold registers of the leading-word latches: every operation but the three leading reads and the resets. -/

namespace Sys2Proof.Machine

variable (s : State)

/-- The hold registers of the three groups (R165). -/
def State.holds : PositionHold × ResultHold × FaultHold := (s.biu.positionHold, s.biu.resultHold, s.biu.faultHold)

/-! ### The operations that several commands share -/

@[simp] theorem State.setFlag_holds (f : Flag) : (s.setFlag f).holds = s.holds := rfl
@[simp] theorem State.setAccessViolation_holds : s.setAccessViolation.holds = s.holds := rfl
@[simp] theorem State.answer_holds (c : Command) (r : ResultCode) (k : BitVec 3) : (s.answer c r k).holds = s.holds := rfl
@[simp] theorem State.writeResult_holds (r : ResultRecord) : (s.writeResult r).holds = s.holds := rfl

@[simp] theorem State.arbitrate_holds : s.arbitrate.holds = s.holds := by
  unfold State.arbitrate
  repeat' split
  all_goals rfl

@[simp] theorem State.requestFetch_holds : s.requestFetch.holds = s.holds := by
  unfold State.requestFetch
  split <;> rw [State.arbitrate_holds] <;> rfl

@[simp] theorem State.beginApplication_holds (b : Bool) : (s.beginApplication b).holds = s.holds := by
  unfold State.beginApplication
  split
  · rw [State.arbitrate_holds]; rfl
  · rfl

@[simp] theorem State.abandonWaiting_holds : s.abandonWaiting.holds = s.holds := by
  unfold State.abandonWaiting
  split <;> rfl

@[simp] theorem State.enterHalted_holds (r : HaltReason) : (s.enterHalted r).holds = s.holds := by
  unfold State.enterHalted
  rw [State.setFlag_holds, State.abandonWaiting_holds]
  rfl

@[simp] theorem State.enterConfig_holds : s.enterConfig.holds = s.holds := by
  unfold State.enterConfig
  rw [State.setFlag_holds, State.beginApplication_holds]
  rfl

@[simp] theorem State.enterAcquire_holds : s.enterAcquire.holds = s.holds := rfl
@[simp] theorem State.enterFreewheel_holds : s.enterFreewheel.holds = s.holds := rfl
@[simp] theorem State.relock_holds : s.relock.holds = s.holds := rfl

@[simp] theorem State.startCursor_holds (p : Nat) : (s.startCursor p).holds = s.holds := by
  unfold State.startCursor
  split
  · rfl
  · rw [State.requestFetch_holds]; rfl

@[simp] theorem State.acquire_holds (p : Nat) (b : Bool) : (s.acquire p b).holds = s.holds :=
  State.startCursor_holds _ _

@[simp] theorem State.raiseAt_holds (a : Stamp) (c : Cause) (d : Detail) : (s.raiseAt a c d).holds = s.holds := by
  unfold State.raiseAt
  split
  · rfl
  · split
    · rw [State.enterHalted_holds]; rfl
    · rfl

@[simp] theorem State.raise_holds (c : Cause) (d : Detail) : (s.raise c d).holds = s.holds := s.raiseAt_holds ..

/-! ### The lookahead -/

@[simp] theorem State.act_holds (i : LineNo) (a : EntryAction) : (s.act i a).holds = s.holds := by
  unfold State.act
  split <;> rfl

@[simp] theorem State.fireSlot_holds (x : Slot) : (s.fireSlot x).holds = s.holds := by
  unfold State.fireSlot
  rw [State.act_holds]
  split
  · rw [State.raise_holds]; rfl
  · rfl

@[simp] theorem fireSlots_holds (l : List Slot) : (l.foldl State.fireSlot s).holds = s.holds := by
  induction l generalizing s with
  | nil => rfl
  | cons x xs ih => rw [List.foldl_cons, ih, State.fireSlot_holds]

@[simp] theorem State.evaluate_holds : s.evaluate.holds = s.holds := by
  unfold State.evaluate
  rw [fireSlots_holds]
  rfl

@[simp] theorem State.raiseClamp_holds (e : Entry) : (s.raiseClamp e).holds = s.holds := by
  unfold State.raiseClamp
  split
  · rw [State.raise_holds]
  · rfl

@[simp] theorem raiseClamps_holds (l : List Slot) :
    (l.foldl (fun (t : State) (x : Slot) => t.raiseClamp x.entry) s).holds = s.holds := by
  induction l generalizing s with
  | nil => rfl
  | cons x xs ih => rw [List.foldl_cons, ih, State.raiseClamp_holds]

@[simp] theorem State.watchOverrun_holds : s.watchOverrun.holds = s.holds := by
  unfold State.watchOverrun
  split
  · split
    · rw [State.raise_holds]
    · rfl
  · rfl

@[simp] theorem State.hwmAdvanced_holds : s.hwmAdvanced.holds = s.holds := by
  simp [State.hwmAdvanced]

@[simp] theorem State.recompute_holds : s.recompute.holds = s.holds := by
  unfold State.recompute
  split
  · simp only [State.requestFetch_holds, State.evaluate_holds, raiseClamps_holds]; rfl
  · rfl

@[simp] theorem State.examine_holds (e : Option Entry) (f : Fetch) : (s.examine e f).holds = s.holds := by
  have loads : ∀ e, (s.load e f).holds = s.holds := by
    intro e
    unfold State.load
    split <;> simp only [State.evaluate_holds, State.raiseClamp_holds] <;> rfl
  unfold State.examine
  cases e with
  | none => rfl
  | some e =>
    dsimp only
    split
    · exact loads e
    · rfl

@[simp] theorem State.fetchCompletes_holds : s.fetchCompletes.holds = s.holds := by
  unfold State.fetchCompletes
  split
  · rw [State.requestFetch_holds]
    split
    · rw [State.examine_holds]; rfl
    · rfl
    · rfl
  · rfl

@[simp] theorem State.resumeFetching_holds : s.resumeFetching.holds = s.holds := by
  unfold State.resumeFetching
  rw [State.requestFetch_holds]
  split <;> rfl

/-! ### The boundary -/

@[simp] theorem State.settleAccount_holds (a : Stamp) : (s.settleAccount a).holds = s.holds := by
  unfold State.settleAccount
  split
  · rfl
  · rw [State.raiseAt_holds]; rfl

@[simp] theorem State.rollWindow_holds (b : Bool) : (s.rollWindow b).holds = s.holds := by
  unfold State.rollWindow
  split
  · rfl
  · split <;> rfl

@[simp] theorem State.boundary_holds : s.boundary.holds = s.holds := by
  have turned : s.turnOver.holds = s.holds := by
    unfold State.turnOver
    rw [State.requestFetch_holds, State.beginApplication_holds, State.rollWindow_holds, State.setFlag_holds]
    exact (State.settleAccount_holds _ _)
  unfold State.boundary State.ladderStep
  rw [← turned]
  dsimp only
  repeat' split
  all_goals first | rfl | exact State.raiseAt_holds .. | exact State.enterConfig_holds _

/-! ### Counts, the index and edges -/

@[simp] theorem State.forward_holds : s.forward.holds = s.holds := by
  have advances : ∀ u : State, u.advance.holds = u.holds := by
    intro u
    unfold State.advance
    dsimp only
    repeat' split
    all_goals first | rfl | exact State.hwmAdvanced_holds _ | exact State.boundary_holds _
  have counts : ∀ u : State, u.acquireCount.holds = u.holds := by
    intro u
    unfold State.acquireCount
    dsimp only
    split
    · rw [State.raise_holds]; rfl
    · rfl
  unfold State.forward
  dsimp only
  split
  all_goals first | rfl | exact advances _ | exact counts _

@[simp] theorem State.backward_holds : s.backward.holds = s.holds := by
  have retreats : ∀ u : State, u.retreat.holds = u.holds := by
    intro u
    unfold State.retreat
    dsimp only
    repeat' split
    all_goals first | rfl | exact State.raise_holds ..
  unfold State.backward
  dsimp only
  split
  all_goals first | rfl | exact retreats _

@[simp] theorem State.invalidChange_holds : s.invalidChange.holds = s.holds := by
  unfold State.invalidChange
  split
  · rfl
  · dsimp only
    split
    · rw [State.raise_holds]; rfl
    · rfl

@[simp] theorem State.speedExpires_holds : s.speedExpires.holds = s.holds := by
  unfold State.speedExpires
  dsimp only
  rw [State.recompute_holds]
  split
  · rw [State.raise_holds]; rfl
  · rfl

@[simp] theorem State.indexArrives_holds : s.indexArrives.holds = s.holds := by
  have ends : s.endInterval.holds = s.holds := by
    unfold State.endInterval
    dsimp only
    split
    · rw [State.raise_holds]; rfl
    · rfl
  unfold State.indexArrives
  repeat' split
  all_goals first | rfl | exact ends | exact State.acquire_holds ..

@[simp] theorem State.record_holds (r : CaptureRecord) : (s.record r).holds = s.holds := by
  unfold State.record
  split
  · dsimp only
    split <;> rfl
  · rw [State.raise_holds]; rfl

@[simp] theorem State.edgeArrives_holds (n : SensorNo) (d : Edge) : (s.edgeArrives n d).holds = s.holds := by
  have judged : ∀ cls, (s.judgeMark cls).holds = s.holds := by intro cls; cases cls <;> rfl
  have acquired : (s.acquireByMark n d).holds = s.holds := by
    unfold State.acquireByMark
    rw [State.record_holds]
    exact State.acquire_holds ..
  unfold State.edgeArrives
  repeat' split
  all_goals simp only [State.record_holds, judged, acquired]

@[simp] theorem State.interlockOpens_holds : s.interlockOpens.holds = s.holds := by
  unfold State.interlockOpens
  split
  · rfl
  · dsimp only
    split
    · rw [State.raise_holds]; rfl
    · rfl

@[simp] theorem State.pulseExpires_holds (i : LineNo) : (s.pulseExpires i).holds = s.holds := by
  unfold State.pulseExpires
  split <;> rfl

@[simp] theorem State.readbackCompletes_holds : s.readbackCompletes.holds = s.holds := by
  unfold State.readbackCompletes
  split
  · rw [State.arbitrate_holds]; rfl
  · rfl

@[simp] theorem State.applicationCompletes_holds : s.applicationCompletes.holds = s.holds := by
  unfold State.applicationCompletes
  split
  · dsimp only; rw [State.resumeFetching_holds]; rfl
  · rfl

/-! ### The commands and the writes -/

@[simp] theorem State.submit_holds (k : SubmitKind) (c : Command) : (s.submit k c).holds = s.holds := by
  unfold State.submit
  repeat' split
  all_goals rfl

/-- Every command given by a strobe but SOFT_RESET keeps the hold registers (R165). -/
theorem State.runCommand_holds (c : Command) (h : c ≠ .softReset) : (s.runCommand c).holds = s.holds := by
  cases c with
  | softReset => exact absurd rfl h
  | start =>
    show s.cmdStart.holds = _
    unfold State.cmdStart
    repeat' split
    all_goals simp
  | stop =>
    show s.cmdStop.holds = _
    unfold State.cmdStop
    split
    all_goals simp only [State.answer_holds, State.enterConfig_holds]
    all_goals rfl
  | haltNow =>
    show s.cmdHaltNow.holds = _
    unfold State.cmdHaltNow
    split <;> simp
  | clearHalt =>
    show s.cmdClearHalt.holds = _
    unfold State.cmdClearHalt
    repeat' split
    all_goals simp
  | ackFault =>
    show s.cmdAckFault.holds = _
    unfold State.cmdAckFault
    repeat' split
    all_goals rfl
  | popCapture =>
    show s.cmdPopCapture.holds = _
    unfold State.cmdPopCapture
    split <;> rfl
  | applyManual =>
    show s.cmdApplyManual.holds = _
    unfold State.cmdApplyManual
    repeat' split
    all_goals rfl
  | clearCounters => rfl
  | submitInsert | submitRemove | submitModify => exact s.submit_holds ..
  | commit =>
    show s.cmdCommit.holds = _
    unfold State.cmdCommit
    repeat' split
    all_goals simp only [State.answer_holds, State.beginApplication_holds]
    all_goals rfl
  | discardOpen => rfl
  | readEntry =>
    show s.cmdReadEntry.holds = _
    unfold State.cmdReadEntry
    repeat' split
    all_goals simp only [State.answer_holds, State.arbitrate_holds]
    all_goals rfl
  | clearTable =>
    show s.cmdClearTable.holds = _
    unfold State.cmdClearTable
    repeat' split
    all_goals rfl
  | raiseLock =>
    show s.cmdRaiseLock.holds = _
    unfold State.cmdRaiseLock
    repeat' split
    all_goals rfl

/-- A strobe write that does not name SOFT_RESET keeps the hold registers (R165, R167). -/
theorem State.writeStrobe_holds (r : StrobeReg) (v : Word) (h : strobeDecode r v ≠ .command .softReset) :
    (s.writeStrobe r v).holds = s.holds := by
  unfold State.writeStrobe
  split
  · rfl
  · rename_i c hc
    exact s.runCommand_holds c fun e => h (e ▸ hc)
  · rfl

/-- A bus write that is no strobe keeps the hold registers (R165, R166). -/
theorem State.busWrite_holds (w : WriteTarget) (v : Word) (h : ∀ r, w ≠ .strobe r) :
    (s.busWrite w v).holds = s.holds := by
  cases w with
  | strobe r => exact absurd rfl (h r)
  | frozen w => show (s.writeFrozen w v).holds = _; unfold State.writeFrozen; split <;> rfl
  | encoderCfg => show (s.writeEncoderCfg v).holds = _; unfold State.writeEncoderCfg; split <;> rfl
  | timebaseDiv => show (s.writeTimebaseDiv v).holds = _; unfold State.writeTimebaseDiv; split <;> rfl
  | acqCfg => show (s.writeAcqCfg v).holds = _; unfold State.writeAcqCfg; split <;> rfl
  | safeLevels =>
    show (s.writeSafeLevels v).holds = _
    unfold State.writeSafeLevels
    repeat' split
    all_goals rfl
  | _ => rfl

/-- SOFT_RESET is bit 4 of COMMAND_A (R167). -/
theorem strobeDecode_softReset {r : StrobeReg} {v : Word} (h : strobeDecode r v = .command .softReset) :
    r = .a ∧ v = 0x0010 := by
  unfold strobeDecode at h
  split at h
  · cases h
  · rename_i bit hb
    split at h
    · rename_i c hc
      cases h
      have hlt : bit ∈ bitsSet v := by simp [hb]
      have lt : bit < 16 := by
        unfold bitsSet at hlt; simp at hlt; exact hlt.1
      have : ∀ b < 16, ∀ r, commandAt r b = some .softReset → r = .a ∧ b = 4 := by
        intro b hb r; revert b; cases r <;> decide
      obtain ⟨rfl, rfl⟩ := this bit lt r hc
      refine ⟨rfl, ?_⟩
      ext i hi
      have hm : v.getLsbD i = true ↔ i = 4 := by
        have : i ∈ bitsSet v ↔ i = 4 := by simp [hb]
        rw [← this]
        simp [bitsSet, hi]
      have e : ∀ i < 16, ((0x0010 : Word).getLsbD i = true ↔ i = 4) := by decide
      rw [Bool.eq_iff_iff]
      exact hm.trans (e i hi).symm
    · cases h
  · cases h

/-- Hold registers that are as before are as a claim says. -/
theorem State.KeepsHolds.of_holds {c : Instr} {s t : State} (h : t.holds = s.holds) : s.KeepsHolds c t := by
  simp only [State.holds, Prod.mk.injEq] at h
  exact ⟨fun _ => h.1, fun _ => h.2.1, fun _ => h.2.2⟩

end Sys2Proof.Machine
end

