-- ==== Sys2Proof/Laws/Table.lean ====
section
/-! SUPPORT. The cam table's canonical form under the three edits, and what the judgement of a group gives. -/

namespace Sys2Proof.Machine

/-! ### Keys -/

/-- Two keys are one number only where position and line are equal (R4). -/
theorem keyOf_inj {p q : Word} {l m : LineNo} : keyOf p l = keyOf q m ↔ p = q ∧ l = m := by
  constructor
  · intro h
    have := l.isLt
    have := m.isLt
    unfold keyOf at h
    exact ⟨BitVec.eq_of_toNat_eq (by omega), Fin.ext (by omega)⟩
  · rintro ⟨rfl, rfl⟩; rfl

theorem hasKey_iff {k : Nat} {t : List Entry} : hasKey k t = true ↔ ∃ x ∈ t, x.key = k := by
  simp [hasKey]

/-- The claims' order of the keys is the order of the numbers (R4). -/
theorem Entry.before_iff (a b : Entry) : a.before b ↔ a.key < b.key := by
  unfold Entry.before Entry.key keyOf
  have ha := a.line.isLt
  have hb := b.line.isLt
  constructor
  · rintro (h | ⟨h, h'⟩)
    · omega
    · rw [h]; omega
  · intro h
    by_cases e : a.position.toNat = b.position.toNat
    · exact .inr ⟨BitVec.eq_of_toNat_eq e, by omega⟩
    · exact .inl (by omega)

theorem tableOk_iff (t : List Entry) : tableOk t ↔ t.Pairwise (fun a b => a.key < b.key) ∧ t.length ≤ 192 := by
  unfold tableOk
  rw [List.pairwise_iff_forall_sublist, List.pairwise_iff_forall_sublist]
  simp only [Entry.before_iff]

/-! ### The edits -/

theorem mem_insertEntry {e x : Entry} {t : List Entry} : x ∈ insertEntry e t ↔ x = e ∨ x ∈ t := by
  induction t with
  | nil => simp [insertEntry]
  | cons y ys ih =>
    unfold insertEntry
    split
    · simp
    · simp only [List.mem_cons, ih, or_left_comm]

@[simp] theorem length_insertEntry (e : Entry) (t : List Entry) : (insertEntry e t).length = t.length + 1 := by
  induction t with
  | nil => rfl
  | cons y ys ih => unfold insertEntry; split <;> simp [ih]

/-- An INSERT of a new key keeps the order. -/
theorem insertEntry_sorted {e : Entry} {t : List Entry} (h : t.Pairwise fun a b => a.key < b.key)
    (fresh : ∀ x ∈ t, x.key ≠ e.key) : (insertEntry e t).Pairwise fun a b => a.key < b.key := by
  induction t with
  | nil => simp [insertEntry]
  | cons y ys ih =>
    have hy := List.pairwise_cons.mp h
    unfold insertEntry
    split <;> rename_i hlt
    · refine List.pairwise_cons.mpr ⟨fun x hx => ?_, h⟩
      rcases List.mem_cons.mp hx with rfl | hx
      · exact hlt
      · exact Nat.lt_trans hlt (hy.1 x hx)
    · refine List.pairwise_cons.mpr ⟨fun x hx => ?_, ih hy.2 fun x hx => fresh x (List.mem_cons_of_mem _ hx)⟩
      rcases mem_insertEntry.mp hx with rfl | hx
      · have := fresh y List.mem_cons_self; omega
      · exact hy.1 x hx

@[simp] theorem length_modifyEntry (e : Entry) (t : List Entry) : (modifyEntry e t).length = t.length := by
  simp [modifyEntry]

/-- A MODIFY keeps every key and the order. -/
theorem modifyEntry_sorted (e : Entry) {t : List Entry} (h : t.Pairwise fun a b => a.key < b.key) :
    (modifyEntry e t).Pairwise fun a b => a.key < b.key := by
  have same : ∀ x : Entry, (if x.key = e.key then { e with position := x.position, line := x.line } else x).key = x.key := by
    intro x; split <;> rfl
  simp only [modifyEntry, List.pairwise_map]
  exact h.imp fun {a b} hab => by rw [same, same]; exact hab

/-- A REMOVE keeps the order. -/
theorem removeEntry_sorted (k : Nat) {t : List Entry} (h : t.Pairwise fun a b => a.key < b.key) :
    (removeEntry k t).Pairwise fun a b => a.key < b.key := h.filter _

/-- A REMOVE of a key that is present takes one entry out. -/
theorem length_removeEntry {k : Nat} {t : List Entry} (h : t.Pairwise fun a b => a.key < b.key)
    (present : ∃ x ∈ t, x.key = k) : (removeEntry k t).length + 1 = t.length := by
  induction t with
  | nil => simp at present
  | cons z zs ih =>
    have hz := List.pairwise_cons.mp h
    obtain ⟨y, hy, hk⟩ := present
    simp only [removeEntry] at ih ⊢
    rcases List.mem_cons.mp hy with rfl | hy
    · have others : zs.filter (fun x => x.key != k) = zs := by
        rw [List.filter_eq_self]; intro x hx; have := hz.1 x hx; simp; omega
      rw [List.filter_cons_of_neg (by simp [hk]), others]; rfl
    · have := hz.1 y hy
      rw [List.filter_cons_of_pos (by simp; omega), List.length_cons, ih hz.2 ⟨y, hy, hk⟩]; rfl

/-! ### Judging a group -/

/-- A group whose revisions all pass in turn gives the table they leave (R109, R111). -/
theorem judgeGroup_passes (s : State) (t : List Entry) (i : Nat) (rs : List Revision)
    (h : ∀ k < rs.length, (rs[k]?.bind fun x => x.failure s ((rs.take k).foldl Revision.edit t)) = none) :
    judgeGroup s t i rs = .ok (rs.foldl Revision.edit t) := by
  induction rs generalizing t i with
  | nil => rfl
  | cons r rs ih =>
    have first := h 0 (by simp)
    simp at first
    unfold judgeGroup
    rw [first]
    exact ih _ _ fun k hk => by simpa using h (k + 1) (by simpa using hk)

/-- Judging stops at the first revision that fails (R109, R111). -/
theorem judgeGroup_fails (s : State) (t : List Entry) (i : Nat) (pre : List Revision) (r : Revision)
    (post : List Revision) (reason : Reason)
    (h : ∀ k < pre.length, (pre[k]?.bind fun x => x.failure s ((pre.take k).foldl Revision.edit t)) = none)
    (hr : r.failure s (pre.foldl Revision.edit t) = some reason) :
    judgeGroup s t i (pre ++ r :: post) = .error (i + pre.length, reason) := by
  induction pre generalizing t i with
  | nil => simp at hr; simp [judgeGroup, hr]
  | cons q qs ih =>
    have first := h 0 (by simp)
    simp at first
    rw [List.cons_append]
    unfold judgeGroup
    rw [first]
    simp only
    rw [ih (q.edit t) (i + 1) (fun k hk => by simpa using h (k + 1) (by simpa using hk)) (by simpa using hr)]
    simp; omega

end Sys2Proof.Machine
end

