-- ==== Sys2Proof/Tests/Slice0.lean ====
section
/-! SUPPORT. Small tests: the well-formedness check, worked values of the spec, one step of each family, and for every statement with hypotheses states that meet them at the ends of their ranges. -/

namespace Sys2Proof.Tests

open Sys2Proof Sys2Proof.Machine

/-! ### States -/

/-- The reset state in a mode. -/
def inMode (m : Mode) : State := { State.reset with modc.mode := m }

def entryA : Entry := ⟨0x0100, 0, .pulse 800, true, .p1, 0, 1⟩
def entryB : Entry := ⟨0x0200, 9, .set, false, .p4, 1, 2⟩

/-- A tracking state with a table and a window, at a position of revolution 0. -/
def running (m : Mode) (p : Nat) (w : List Slot) (c : Cursor) : State :=
  { inMode m with
    cam.table := [entryA, entryB]
    axt.position := p
    axt.hwm := p
    lfu.window := w
    lfu.cursor := c }

/-- At position L-1, where the next forward count is the boundary. -/
def atEnd (m : Mode) : State := running m 0x0FFF [] (.reading 0 .next)

/-- A state with a group whose application holds the port. -/
def applyingState (m : Mode) (rs : List Revision) : State :=
  { inMode m with revq.group := some ⟨7, .applying true 3, rs⟩, cam.port := .application }

/-- A state with a group that waits. -/
def waitingState (m : Mode) : State := { atEnd m with revq.group := some ⟨7, .waiting, [.insert entryA]⟩ }

/-- A state with a fetch of index 0 on the port. -/
def fetching (tag : RevTag) (e : Entry) (f : FetchState) : State :=
  { running .locked 0x0100 [] (.reading 0 tag) with cam.port := .fetch (some e), lfu.fetch := some ⟨0, tag, f⟩ }

/-- One record of the capture queue. -/
def recordA : CaptureRecord := ⟨1, .rising, 3000, 0, .accepted⟩

/-- A pending warning and a pending halting cause. -/
def slipRecord : FaultRecord := ⟨.indexSlip, 0, .locked, 5, 1, .num 3⟩
def lostRecord : FaultRecord := ⟨.marksLost, 0, .locked, 5, 1, .num 8⟩

/-- The staged record of a PULSE on Q15 with period 16 and phase 15. -/
def stagedPulse : Staging := ⟨0x0100, 15, 2, true, 4, 15, 1, 0xFF⟩

/-- The state that a step or a command answers, to read its parts. -/
def after (c : Instr) (s : State) : State :=
  match exec c s with
  | .next t => t
  | _ => s

/-! ### The checks refuse an ill-formed command -/

theorem test_invalidCommandWrite_naming_START_is_illFormed : ¬(Instr.invalidCommandWrite .a 1).WellFormed := by decide
theorem test_invalidCommandWrite_of_two_bits_is_wellFormed : (Instr.invalidCommandWrite .a 3).WellFormed := by decide
theorem test_registerWrite_to_REV_LENGTH_is_illFormed : ¬(Instr.registerWrite 0x10 5).WellFormed := by decide
theorem test_registerWrite_to_COMMAND_ARG_is_wellFormed : (Instr.registerWrite 0x05 5).WellFormed := by decide

/-- No row of the opcode table gives bits. -/
theorem test_no_word_spells_a_command : decodeTableWord 16 0x0001 = none := rfl

/-! ### Worked values of the spec -/

/-- R48's arithmetic: at 600 counts/ms a lead time of 500 µs is 300 counts. -/
theorem test_effective_position : ({ Cfg.reset with leadTime := Cfg.reset.leadTime.set 0 500 }).effective 600
    ⟨400, 0, .set, true, .p1, 0, 0⟩ = 100 := by decide

/-- R90: a deviation of 8 with GAIN_SHIFT 1 and MAX_CORR 20 is corrected by -4. -/
theorem test_correction : ({ Cfg.reset with regEnable := true, gainShift := 1, maxCorr := 20 }).judgeRevolution ⟨some 8, 0⟩
    = (.good, -4) := by decide

/-- R18: the quadrature order, forward. -/
theorem test_quadrature_forward : Cfg.reset.decodeChange ⟨false, false⟩ ⟨true, false⟩ = .forward := by decide

/-! ### One command of each row -/

theorem test_forwardCount : (after .forwardCount (running .locked 5 [] .parked)).axt.hwm = 6 := by decide
theorem test_backwardCount : (after .backwardCount (running .locked 5 [] .parked)).axt.position = 4 := by decide
theorem test_invalidTransition : (after .invalidTransition (inMode .locked)).modc.haltReason = .cause .encoderError := by decide
theorem test_revolutionBoundary : (after .revolutionBoundary (atEnd .locked)).axt.revolution = 1 := by decide
theorem test_acquireTimeout :
    (after .acquireTimeout { inMode .acquire with axt.acqCount := 0x1FFF }).modc.mode = .halted := by decide
theorem test_indexArrival : (after .indexArrival (inMode .acquire)).modc.mode = .locked := by decide
theorem test_speedWindowExpiry :
    (after .speedWindowExpiry { inMode .config with axt.net := 600 }).axt.speed = 600 := by decide
theorem test_sensorEdge :
    (after (.sensorEdge 2 .rising) { inMode .locked with cfg.sensorSel := Vector.ofFn fun _ => .both }).mcr.queue
      = [⟨2, .rising, 0, 0, .plain⟩] := by decide
theorem test_interlockOpening : (after .interlockOpening (inMode .locked)).modc.haltReason = .cause .interlockOpen := by decide
theorem test_interlockClosing : (after .interlockClosing (inMode .halted)).out.interlock = .closed := by decide
theorem test_pulseExpiry :
    (after (.pulseExpiry 4) { State.reset with out.lines := State.reset.out.lines.set 4 (.pulsing 0) }).out.lines[4] = .low := by
  decide
theorem test_pulseExpiry_of_a_replaced_pulse :
    after (.pulseExpiry 4) { State.reset with out.lines := State.reset.out.lines.set 4 (.pulsing 7) }
      = { State.reset with out.lines := State.reset.out.lines.set 4 (.pulsing 7) } := by decide
theorem test_fetchCompletion :
    (after .fetchCompletion (fetching .current entryA .granted)).out.lines[0] = .pulsing 800 := by decide
theorem test_readbackCompletion :
    (after .readbackCompletion { inMode .locked with cam.port := .readback 0 (some entryA) }).cam.record
      = ⟨0, some entryA⟩ := by decide
theorem test_applicationCompletion :
    (after .applicationCompletion (applyingState .config [.insert entryA])).cam.table = [entryA] := by decide
theorem test_powerOn : (after (.powerOn ⟨true, false, false⟩) (inMode .locked)).out.interlock = .opened := by decide
theorem test_resetPin : (after (.resetPin ⟨true, false, true⟩) (inMode .locked)).axt.ref = ⟨true, false⟩ := by decide
theorem test_start : (after .start State.reset).modc.mode = .acquire := by decide
theorem test_stop : (after .stop (inMode .freewheel)).modc.stopPending = true := by decide
theorem test_haltNow : (after .haltNow (inMode .acquire)).modc.haltReason = .command := by decide
theorem test_clearHalt : (after .clearHalt (inMode .halted)).modc.mode = .config := by decide
theorem test_softReset : (after .softReset (inMode .halted)).modc.mode = .config := by decide
theorem test_ackFault :
    (after .ackFault { State.reset with biu.arg := 8, flt.causes := [slipRecord] }).flt.causes = [] := by decide
theorem test_popCapture : (after .popCapture { State.reset with mcr.queue := [recordA] }).mcr.queue = [] := by decide
theorem test_applyManual :
    (after .applyManual { State.reset with cfg.manualLevels := 0x8000 }).out.lines[15] = .high := by decide
theorem test_clearCounters : (after .clearCounters { State.reset with lfu.late := 9 }).lfu.late = 0 := by decide
theorem test_submitInsert : (after .submitInsert { State.reset with revq.staging := stagedPulse }).revq.opens
    = [.insert ⟨0x0100, 15, .pulse 1, true, .p16, 15, 0xFF⟩] := by decide
theorem test_submitRemove : (after .submitRemove { State.reset with revq.staging := stagedPulse }).revq.opens
    = [.remove 0x0100 15] := by decide
theorem test_submitModify : (after .submitModify { State.reset with revq.staging.phase := 1 }).biu.result
    = ⟨19, .badArgument, 0⟩ := by decide
theorem test_commit : (after .commit { inMode .locked with revq.opens := [.remove 0 0] }).revq.group
    = some ⟨0, .waiting, [.remove 0 0]⟩ := by decide
theorem test_discardOpen : (after .discardOpen { State.reset with revq.opens := [.remove 0 0] }).revq.opens = [] := by decide
theorem test_readEntry : (after .readEntry (running .locked 5 [] .parked)).cam.port = .readback 0 (some entryA) := by decide
theorem test_clearTable : (after .clearTable { State.reset with cam.table := [entryA] }).cam.table = [] := by decide
theorem test_raiseLock : (after .raiseLock { State.reset with biu.arg := 2 }).revq.lock = 2 := by decide
theorem test_invalidCommandWrite : (after (.invalidCommandWrite .b 0x0300) State.reset).biu.result
    = ⟨31, .badArgument, 0⟩ := by decide
theorem test_intFlagsWrite : (after (.intFlagsWrite 1) { State.reset with biu.flags := 3 }).biu.flags = 2 := by decide
theorem test_intEnableWrite : (after (.intEnableWrite 0xFFFF) State.reset).biu.enables = 0x3F := by decide
theorem test_stickyStatusWrite : (after (.stickyStatusWrite 2) { State.reset with biu.sticky := 3 }).biu.sticky = 1 := by decide
theorem test_frozenWordWrite : (after (.frozenWordWrite (.leadTime 3) 20001) State.reset).cfg.leadTime[3] = 20000 := by decide
theorem test_encoderCfgWrite : (after (.encoderCfgWrite 3) State.reset).cfg.encMode = .stepDir := by decide
theorem test_timebaseDivWrite : (after (.timebaseDivWrite 25) (inMode .locked)).biu.sticky = 1 := by decide
theorem test_acqCfgWrite : (after (.acqCfgWrite 0x33) State.reset).revq.lock = 2 := by decide
theorem test_safeLevelsWrite :
    (after (.safeLevelsWrite 4) { State.reset with out.interlock := .opened }).out.lines[2] = .high := by decide
theorem test_registerWrite : (after (.registerWrite 0x41 0xFFFF) State.reset).readWord 0x41 = 0x7FFF := by decide
theorem test_positionRead :
    (after .positionRead { inMode .acquire with axt.acqCount := 70000 }).biu.dataOut = some 4464 := by decide
theorem test_commitResultRead : (after .commitResultRead { State.reset with revq.resultRead := false }).revq.resultRead
    = true := by decide
theorem test_faultCauseRead :
    (after .faultCauseRead { State.reset with flt.causes := [lostRecord, slipRecord] }).biu.faultHold.cause = 0x0216 := by decide
theorem test_resetPinHeld : (after .resetPinHeld (inMode .locked)).resetHeld = true := by decide

/-! ### The encoder pins -/

/-- In STEP_DIR, ENC_A stands at 1. -/
def stepHigh : State :=
  { State.reset with cfg.encMode := .stepDir, axt.ref := ⟨true, false⟩, pins.encA := true, encInput := [⟨false, true⟩] }

/-- R17, R20: ENC_A falling and ENC_B changing make no count, and are the reference state and the pins at once. -/
theorem test_change_without_a_count_is_accepted :
    step stepHigh = .next { stepHigh with
      axt.ref := ⟨false, true⟩, pins.encA := false, pins.encB := true, encInput := [], tb.elapsed := 1 } := rfl

/-- A change that makes a count is queued as that count. -/
theorem test_change_with_a_count_is_queued :
    step { State.reset with encInput := [⟨true, false⟩] }
      = .next { State.reset with pending := [.forwardCount], tb.elapsed := 1 } := rfl

/-! ### States that meet the hypotheses of the statements, clause by clause, at the ends of the ranges

Each theorem bears the statement's name. A state that appears twice meets the hypotheses of two clauses. -/

theorem test_witness_EmptyQueueRunsOnePeriodOfRefclk :
    (State.reset.pending = [] ∧ { State.reset with resetHeld := true }.resetHeld = true)
      ∧ ({ State.reset with tb.elapsed := 23 }.resetHeld = false ∧ 23 + 1 < State.reset.tb.length)
      ∧ ({ State.reset with tb.elapsed := 24 }.resetHeld = false ∧ State.reset.tb.length ≤ 24 + 1)
      ∧ (applyingState .locked [.insert entryA]).revq.group = some ⟨7, .applying true 3, [.insert entryA]⟩
      ∧ State.reset.applying = false
      ∧ (State.reset.encInput = [] ∧ stepHigh.encInput = ⟨false, true⟩ :: []
          ∧ stepHigh.cfg.decodeChange stepHigh.axt.ref ⟨false, true⟩ = .noCount
          ∧ stepHigh.cfg.decodeChange State.reset.axt.ref ⟨true, true⟩ = .backward
          ∧ Cfg.reset.decodeChange State.reset.axt.ref ⟨true, false⟩ = .forward
          ∧ Cfg.reset.decodeChange State.reset.axt.ref ⟨true, true⟩ = .invalid) := by decide

theorem test_witness_OutsideConfigTheConfigurationStands :
    (isHardReset .softReset = false ∧ (inMode .halted).modc.mode ≠ .config)
      ∧ (after .softReset { inMode .halted with revq.lock := 1 }).revq.lock < (1 : Fin 3) := by decide

theorem test_witness_ModeChangesOnlyAlongTheTransitionTable :
    isHardReset .stop = false ∧ (after .stop (inMode .acquire)).modc.mode ≠ .acquire
      ∧ isHardReset .softReset = false ∧ (after .softReset (inMode .locked)).modc.mode ≠ .locked := by decide

theorem test_witness_EveryStepKeepsTheTableOrdered :
    (running .locked 5 [] .parked).TableLaw
      ∧ ∃ t, step { running .locked 5 [] .parked with pending := [.forwardCount] } = .next t :=
  ⟨by unfold State.TableLaw tableOk Entry.before; decide, _, rfl⟩

theorem test_witness_EveryStepKeepsHaltingCausesInHalted :
    { inMode .halted with flt.causes := [lostRecord, slipRecord] }.PendingLaw
      ∧ ∃ t, step { inMode .halted with flt.causes := [lostRecord, slipRecord], pending := [.clearHalt] } = .next t :=
  ⟨by unfold State.PendingLaw; decide, _, rfl⟩

/-- A position record at the far end of the backlash tolerance. -/
def backlashEnd : State := { running .locked 5 [] .parked with axt.hwm := 13, pending := [.backwardCount] }

theorem test_witness_EveryStepKeepsTheReverseDistanceWithinBacklash :
    backlashEnd.PendingLaw ∧ backlashEnd.PositionLaw ∧ ∃ t, step backlashEnd = .next t :=
  ⟨by unfold State.PendingLaw; decide, by unfold State.PositionLaw; decide, _, rfl⟩

/-- A state that START would accept, with hwm below L, obeys the law of the geometry. -/
theorem geometryLaw_of_checks {s : State} (h : s.startCheck = 0) (hw : s.axt.hwm < s.cfg.revLength.toNat) :
    s.GeometryLaw :=
  ⟨fun _ k _ => s.startCheck_eq_zero_iff.mp h k, fun _ => hw⟩

theorem test_witness_EveryStepKeepsEntriesOutOfTheGuardZone :
    (atEnd .locked).PendingLaw ∧ (atEnd .locked).PositionLaw ∧ (atEnd .locked).GeometryLaw
      ∧ ∃ t, step { atEnd .locked with pending := [.revolutionBoundary] } = .next t :=
  ⟨by unfold State.PendingLaw; decide, by unfold State.PositionLaw; decide, geometryLaw_of_checks (by decide) (by decide),
    _, rfl⟩

/-- A window with a slot of each tag, behind its cursor. -/
def twoSlots : State :=
  running .freewheel 0x00FF [⟨entryB, 1, .current, 0x0200⟩, ⟨entryA, 0, .next, 0x0100⟩] (.reading 1 .next)

theorem test_witness_EveryStepKeepsTheWindowAndTheSafeLines :
    twoSlots.PendingLaw ∧ twoSlots.PositionLaw ∧ twoSlots.GeometryLaw ∧ twoSlots.WindowLaw ∧ twoSlots.LinesLaw
      ∧ ∃ t, step { twoSlots with pending := [.forwardCount] } = .next t := by
  refine ⟨by unfold State.PendingLaw; decide, by unfold State.PositionLaw; decide,
    geometryLaw_of_checks (by decide) (by decide), ?_, ?_, _, rfl⟩
  · refine ⟨by decide, ?_, ?_, fun h => by simp [twoSlots, running, inMode, Mode.tracking] at h, by decide, by decide,
      by decide, by decide, by decide⟩
    · simp [twoSlots, running, Slot.before]
    · simp [twoSlots, running, Slot.passedBy]
  · exact ⟨by decide, by decide, by decide⟩

/-- At position L-1 with the slot of the next revolution in the window, its effective position at Z, and a fetch on the
port. -/
def lastPosition : State :=
  { running .locked 0x0FFF [⟨entryA, 0, .next, 0x0040⟩] (.reading 1 .next) with
    lfu.fetch := some ⟨1, .next, .granted⟩
    cam.port := .fetch (some entryB) }

theorem test_witness_EveryStepKeepsTheWindowAndTheSafeLines_lastPosition :
    lastPosition.PendingLaw ∧ lastPosition.PositionLaw ∧ lastPosition.GeometryLaw ∧ lastPosition.WindowLaw
      ∧ lastPosition.LinesLaw ∧ (∃ t, step { lastPosition with pending := [.forwardCount] } = .next t)
      ∧ lastPosition.modc.mode.tracking = true ∧ lastPosition.cfg.revLength.toNat ≤ lastPosition.axt.position + 1 := by
  refine ⟨by unfold State.PendingLaw; decide, by unfold State.PositionLaw; decide,
    geometryLaw_of_checks (by decide) (by decide), ?_, ?_, ⟨_, rfl⟩, by decide⟩
  · refine ⟨by decide, ?_, ?_, fun h => by simp [lastPosition, running, inMode, Mode.tracking] at h, by decide, by decide,
      by decide, by decide, by decide⟩
    · simp [lastPosition, running, Slot.before]
    · simp [lastPosition, running, Slot.passedBy]
  · exact ⟨by decide, by decide, by decide⟩

/-- R76: with the interlock OPEN in CONFIG, SAFE_LEVELS moves the line whose safe level changes. -/
theorem test_witness_EveryStepKeepsTheWindowAndTheSafeLines_opened :
    let s := { State.reset with out.interlock := .opened, out.lines := State.reset.out.lines.set 3 .high, cfg.safeLevels := 8 }
    s.LinesLaw ∧ s.out.interlock = .opened ∧ (after (.safeLevelsWrite 0) s).out.lines[3] = .low :=
  ⟨⟨by decide, by decide, by decide⟩, by decide⟩

theorem test_witness_EveryStepKeepsTheLadderAndTheCounts :
    (inMode .locked).PendingLaw ∧ (inMode .locked).LadderLaw
      ∧ { inMode .locked with mcr.overflow := 255, lfu.late := 65535 }.CountsLaw
      ∧ ∃ t, step { inMode .locked with pending := [.revolutionBoundary] } = .next t :=
  ⟨by unfold State.PendingLaw; decide, by unfold State.LadderLaw; decide, by unfold State.CountsLaw; decide, _, rfl⟩

theorem test_witness_ResetPinHeldDropsTheLinesAndTakesNoCommand :
    { State.reset with resetHeld := true }.resetHeld = true ∧ isHardReset .start = false := by decide

theorem test_witness_SoftResetKeepsTheProgramAndTheConfiguration :
    ((applyingState .locked []).resetHeld = false ∧ (applyingState .locked []).applying = true)
      ∧ ((fetching .next entryA .waiting).resetHeld = false ∧ (fetching .next entryA .waiting).applying = false
          ∧ (fetching .next entryA .waiting).lfu.fetch = some ⟨0, .next, .waiting⟩)
      ∧ ((inMode .locked).applying = false ∧ (inMode .locked).lfu.fetch = none) := by decide

theorem test_witness_DecoderFollowsTheQuadratureAndStepTables :
    Cfg.reset.encMode = .quadrature
      ∧ ({ Cfg.reset with encMode := .stepDir } : Cfg).encMode = .stepDir
      ∧ (⟨false, true⟩ : EncLevels).a = false
      ∧ { Cfg.reset with encMode := .stepDir }.decodeChange ⟨false, true⟩ ⟨true, false⟩ = .forward
      ∧ { Cfg.reset with encMode := .stepDir }.decodeChange ⟨false, true⟩ ⟨true, true⟩ = .backward
      ∧ Cfg.reset.decodeChange ⟨true, false⟩ ⟨false, true⟩ = .invalid := by decide

theorem test_witness_CountsOutsideTheTrackingModesReachTheSpeedWindow :
    ((inMode .config).resetHeld = false ∧ (inMode .config).modc.mode = .config)
      ∧ (inMode .halted).modc.mode = .halted
      ∧ ((inMode .acquire).modc.mode = .acquire ∧ 0x1FFE + 1 ≠ 2 * (inMode .acquire).cfg.revLength.toNat) := by decide

theorem test_witness_AcquisitionCountAtTwiceTheLengthHalts :
    (inMode .acquire).resetHeld = false ∧ (inMode .acquire).modc.mode = .acquire
      ∧ (inMode .acquire).NoneHalting ∧ 0x1FFF + 1 = 2 * (inMode .acquire).cfg.revLength.toNat := by
  unfold State.NoneHalting; decide

theorem test_witness_ForwardCountRepaysBeforeThePositionMoves :
    let s := { running .freewheel 0x0FFE [] .parked with axt.hwm := 0x0FFF }
    (s.resetHeld = false ∧ s.modc.mode.tracking = true)
      ∧ 0 < { s with axt.deficit := 1 }.axt.deficit
      ∧ (s.axt.deficit = 0 ∧ 0 < { s with axt.stretch := 1 }.axt.stretch)
      ∧ (s.axt.deficit = 0 ∧ s.axt.stretch = 0 ∧ s.axt.position + 1 < s.cfg.revLength.toNat
          ∧ s.axt.position < s.axt.hwm) := by decide

/-- One count short of the last position, with the last slot due at the next advance. -/
def lastAdvance : State := running .locked 0x0FFE [⟨entryB, 1, .current, 0x0FFF⟩] .parked

theorem test_witness_HighWaterAdvanceFiresTheSlotsItReaches :
    lastAdvance.resetHeld = false ∧ lastAdvance.modc.mode.tracking = true ∧ lastAdvance.CountsLaw
      ∧ lastAdvance.axt.deficit = 0 ∧ lastAdvance.axt.stretch = 0
      ∧ lastAdvance.axt.position + 1 < lastAdvance.cfg.revLength.toNat
      ∧ lastAdvance.axt.hwm ≤ lastAdvance.axt.position
      ∧ lateRaises 0x0FFF lastAdvance.lfu.window = [] ∧ lastAdvance.overrunRaises 0x0FFF = [] := by
  unfold State.CountsLaw; decide

/-- A slot at its position fires in time, and one behind it late. -/
theorem test_lateRaises : lateRaises 0x0200 [⟨entryA, 0, .current, 0x01FF⟩, ⟨entryB, 1, .current, 0x0200⟩]
    = [(.lateFire, .lineTag 0 1)] := by decide

theorem test_witness_HighWaterAtTheGuardEndDuringAnApplicationWarns :
    let s := { applyingState .locked [] with axt.position := 0x3F, axt.hwm := 0x3F }
    (s.resetHeld = false ∧ s.modc.mode.tracking = true ∧ s.axt.deficit = 0 ∧ s.axt.stretch = 0
        ∧ s.axt.position + 1 < s.cfg.revLength.toNat ∧ s.axt.hwm ≤ s.axt.position ∧ s.lfu.window = [])
      ∧ (∀ x ∈ [(⟨entryA, 0, .current, 0x41⟩ : Slot), ⟨entryA, 0, .next, 0x40⟩],
          x.tag = .current → s.axt.position + 1 < x.eff)
      ∧ (s.revq.group = some ⟨7, .applying true 3, []⟩ ∧ s.axt.position + 1 = s.cfg.guardZone.toNat)
      ∧ ({ s with axt.position := 0x40, axt.hwm := 0x40 }.axt.position + 1 ≠ s.cfg.guardZone.toNat
          ∧ inPendingSet .commitOverrun s.flt.causes = false) := by decide

theorem test_witness_BackwardCountGivesUpGroundOrHalts :
    let s := running .locked 5 [] .parked
    (s.resetHeld = false ∧ s.modc.mode.tracking = true)
      ∧ (12 - (5 - 1)) + 0 ≤ s.cfg.backlash.toNat
      ∧ (s.cfg.backlash.toNat < (13 - (5 - 1)) + 0 ∧ s.NoneHalting)
      ∧ s.cfg.backlash.toNat < (0 - (0 - 1)) + (8 + 1) := by
  unfold State.NoneHalting; decide

theorem test_witness_InvalidTransitionMakesNoCountAndHaltsARun :
    { State.reset with cfg.encMode := .stepDir }.cfg.encMode = .stepDir
      ∧ (State.reset.resetHeld = false ∧ State.reset.cfg.encMode = .quadrature ∧ State.reset.modc.mode.running = false)
      ∧ ((inMode .acquire).cfg.encMode = .quadrature ∧ (inMode .acquire).modc.mode.running = true
          ∧ (inMode .acquire).NoneHalting) := by
  unfold State.NoneHalting; decide

theorem test_witness_BoundaryAppliesTheCorrectionOfTheEndedRevolution :
    ((atEnd .locked).resetHeld = false ∧ (atEnd .locked).modc.mode.tracking = true ∧ (atEnd .locked).axt.deficit = 0
        ∧ (atEnd .locked).axt.stretch = 0 ∧ (atEnd .locked).cfg.revLength.toNat ≤ (atEnd .locked).axt.position + 1)
      ∧ (after .revolutionBoundary (atEnd .locked)).modc.mode.tracking = true
      ∧ (after .revolutionBoundary { atEnd .locked with modc.stopPending := true }).modc.mode.tracking = false
      ∧ ((inMode .acquire).modc.mode.tracking = false ∧ 0 < { atEnd .locked with axt.deficit := 1 }.axt.deficit
          ∧ 0 < { atEnd .locked with axt.stretch := 1 }.axt.stretch
          ∧ lastAdvance.axt.position + 1 < lastAdvance.cfg.revLength.toNat) := by decide

/-- At a boundary with registration enabled, one bad verdict short of a limit. -/
def ladderEnd (m : Mode) (bad : Nat) : State :=
  { atEnd m with cfg.regEnable := true, modc.badRun := bad }

theorem test_witness_BoundaryStepsTheLadderAndServesAStop :
    ((ladderEnd .locked 2).resetHeld = false ∧ (ladderEnd .locked 2).modc.mode.tracking = true
        ∧ (ladderEnd .locked 2).axt.deficit = 0 ∧ (ladderEnd .locked 2).axt.stretch = 0
        ∧ (ladderEnd .locked 2).cfg.revLength.toNat ≤ (ladderEnd .locked 2).axt.position + 1
        ∧ (ladderEnd .locked 2).NoneHalting)
      ∧ (after .revolutionBoundary (ladderEnd .locked 2)).modc.mode = .freewheel
      ∧ (after .revolutionBoundary (ladderEnd .freewheel 7)).modc.haltReason = .cause .marksLost
      ∧ (after .revolutionBoundary { ladderEnd .freewheel 3 with mcr.mark := ⟨some 0, 0⟩, modc.goodRun := 3 }).modc.mode
          = .locked
      ∧ (after .revolutionBoundary { ladderEnd .locked 2 with modc.stopPending := true }).modc.mode = .config := by
  unfold State.NoneHalting; decide

theorem test_witness_BoundaryCountsUnreadEntriesAndCarriesTheWindow :
    let s := { atEnd .locked with lfu.cursor := .reading 1 .current }
    (s.resetHeld = false ∧ s.modc.mode.tracking = true ∧ s.axt.deficit = 0 ∧ s.axt.stretch = 0
        ∧ s.cfg.revLength.toNat ≤ s.axt.position + 1 ∧ s.revq.group = none ∧ s.lfu.deferred = none)
      ∧ ((after .revolutionBoundary s).modc.mode.tracking = true ∧ s.lfu.cursor = .reading 1 .current)
      ∧ ((atEnd .locked).lfu.cursor = .reading 0 .next ∧ 0 < (atEnd .locked).cam.table.length)
      ∧ { s with lfu.cursor := .parked }.lfu.cursor = .parked
      ∧ (after .revolutionBoundary { s with modc.stopPending := true }).modc.mode.tracking = false
      ∧ (s.leftUnread = 0 ∧ { s with lfu.cursor := .reading 0 .current }.leftUnread = 1) := by decide

/-- An application begun outside the tracking modes, and an acquisition during it that still waits for its end. -/
def deferredEnd : State :=
  { atEnd .locked with
    revq.group := some ⟨7, .applying false 3, [.remove 0x0200 9]⟩
    cam.port := .application
    lfu.cursor := .parked
    lfu.deferred := some 0x00FF }

theorem test_witness_BoundaryCountsUnreadEntriesAndCarriesTheWindow_deferred :
    deferredEnd.TableLaw ∧ ¬deferredEnd.HasWaitingGroup ∧ deferredEnd.lfu.deferred ≠ none ∧ deferredEnd.leftUnread = 1
      ∧ deferredEnd.applying = true ∧ (after .revolutionBoundary deferredEnd).modc.mode.tracking = true := by
  refine ⟨by unfold State.TableLaw tableOk Entry.before; decide, ?_, by decide, by decide, by decide, by decide⟩
  rintro ⟨q, rs, h⟩
  cases h

theorem test_witness_BoundaryBeginsTheWaitingGroup :
    let s := waitingState .locked
    (s.resetHeld = false ∧ s.modc.mode.tracking = true ∧ s.axt.deficit = 0 ∧ s.axt.stretch = 0
        ∧ s.cfg.revLength.toNat ≤ s.axt.position + 1 ∧ s.revq.group = some ⟨7, .waiting, [.insert entryA]⟩)
      ∧ (s.cam.port = .free ∧ s.lfu.fetch = none ∧ (after .revolutionBoundary s).modc.mode.tracking = true)
      ∧ { s with cam.port := .readback 0 none }.cam.port ≠ .free
      ∧ (after .revolutionBoundary { s with modc.stopPending := true }).modc.mode.tracking = false
      ∧ (cancelled (some ⟨0, .next, .waiting⟩) = none
          ∧ cancelled (some ⟨0, .next, .granted⟩) = some ⟨0, .next, .cancelled⟩)
      ∧ (s.lfu.deferred = none ∧ { s with lfu.cursor := .reading 0 .current }.leftUnread = 1) := by decide

theorem test_witness_IndexArrivalAcquiresPhase :
    let s := { inMode .acquire with cfg.indexPos := 0x0FFF, cam.table := [entryA, entryB] }
    (s.resetHeld = false ∧ s.modc.mode = .acquire ∧ s.cfg.acqSource = .index)
      ∧ (applyingState .acquire []).applying = true
      ∧ (s.applying = false ∧ ∀ e ∈ s.cam.table, e.position.toNat ≤ 0x0FFF)
      ∧ (s.cam.table[1]? = some entryB ∧ 0x01FF < entryB.position.toNat ∧ entryA.position.toNat ≤ 0x01FF) := by decide

theorem test_witness_IndexArrivalAtTheSlipMonitor :
    let s := { running .locked 5 [] .parked with cfg.indexMonitor := true, axt.armed := true }
    (s.resetHeld = false ∧ (inMode .config).modc.mode = .config ∧ (inMode .halted).modc.mode = .halted
        ∧ { inMode .acquire with cfg.acqSource := .mark }.cfg.acqSource ≠ .index
        ∧ (inMode .locked).cfg.indexMonitor = false)
      ∧ (s.modc.mode.tracking = true ∧ s.cfg.indexMonitor = true ∧ { s with axt.armed := false }.axt.armed = false)
      ∧ (s.axt.armed = true ∧ ((0x1002 : Int) - s.cfg.revLength.toNat).natAbs ≤ s.cfg.slipTolerance.toNat)
      ∧ s.cfg.slipTolerance.toNat < ((0x0FFD : Int) - s.cfg.revLength.toNat).natAbs := by decide

theorem test_witness_SpeedWindowExpiryPublishesAndJudgesOverspeed :
    (State.reset.resetHeld = false ∧ State.reset.modc.mode = .config)
      ∧ ((inMode .acquire).modc.mode = .acquire ∧ (4095 : Int) ≤ (inMode .acquire).cfg.overspeed.toNat)
      ∧ ((inMode .acquire).modc.mode.running = true ∧ ((inMode .acquire).cfg.overspeed.toNat : Int) < 4096
          ∧ (inMode .acquire).NoneHalting) := by
  unfold State.NoneHalting; decide

theorem test_witness_SpeedWindowExpiryMovesTheWindowAndFires :
    let s := { running .locked 0x00FF [⟨entryA, 0, .current, 0x0100⟩] (.reading 1 .current) with axt.net := 4095 }
    s.resetHeld = false ∧ s.modc.mode.tracking = true ∧ s.axt.net ≤ s.cfg.overspeed.toNat ∧ s.CountsLaw := by
  unfold State.CountsLaw; decide

/-- A lead beyond its entry's position clamps, one at the guard zone does not. -/
theorem test_clampRaises :
    { Cfg.reset with leadTime := Cfg.reset.leadTime.set 0 1000 }.clampRaises 193 [{ entryA with lead := true }]
        = [(.leadClamped, .num 0)]
      ∧ { Cfg.reset with leadTime := Cfg.reset.leadTime.set 0 1000 }.clampRaises 192 [{ entryA with lead := true }] = [] := by
  decide

/-- R149: a repeat counts in its own record and stands at 255; the record of another cause is kept. -/
theorem test_withRepeat :
    withRepeat .indexSlip [lostRecord, slipRecord] = [lostRecord, { slipRecord with repeats := 1 }]
      ∧ withRepeat .indexSlip [{ slipRecord with repeats := 255 }] = [{ slipRecord with repeats := 255 }] := by decide

/-- R66, R70, R76: a PULSE that is carried out leaves its line PULSING with its width; in FREEWHEEL an action on a critical
line is counted and moves nothing, and with the interlock OPEN one on any line. -/
theorem test_actions_on_the_lines :
    let s := { inMode .freewheel with cfg.criticalLines := 2 }
    (s.turnsAway 0 = false ∧ (s.fireSlot ⟨entryA, 0, .current, 0x0100⟩).out.lines[0] = .pulsing 800)
      ∧ (s.turnsAway 1 = true ∧ (s.fireSlot ⟨{ entryA with line := 1 }, 0, .current, 0x0100⟩).out.suppressed = 1)
      ∧ ({ s with out.interlock := .opened }.turnsAway 0 = true
          ∧ ({ s with out.interlock := .opened }.fireSlot ⟨entryA, 0, .current, 0x0100⟩).out.lines[0] = .low) := by decide

/-- Registration on sensor 1 with its window, every sensor selected, and a capture queue of a length. -/
def sensing (m : Mode) (p k : Nat) : State :=
  { running m p [] .parked with
    cfg.regEnable := true
    cfg.markSensor := 1
    cfg.acqSource := .mark
    cfg.sensorSel := Vector.ofFn fun _ => .both
    mcr.queue := List.replicate k recordA }

theorem test_witness_SensorEdgeIsStampedClassedAndQueued :
    ((sensing .locked 0x0600 15).resetHeld = false ∧ (sensing .locked 0x0600 15).modc.mode.tracking = true
        ∧ (sensing .locked 0x0600 15).mcr.queue.length < 16
        ∧ (sensing .locked 0x0600 15).classify 1 = .accepted
        ∧ (sensing .locked 0x0A00 15).classify 1 = .accepted
        ∧ (sensing .locked 0x0A01 15).classify 1 = .outside
        ∧ (sensing .locked 0x0600 15).classify 0 = .plain)
      ∧ ((sensing .acquire 0 0).modc.mode = .acquire ∧ (0 : SensorNo) ≠ (sensing .acquire 0 0).cfg.markSensor)
      ∧ State.reset.cfg.sensorSel[(3 : SensorNo)] = .off := by decide

theorem test_witness_SensorEdgeOnAFullQueueIsCountedAndJudged :
    let s := sensing .locked 0x0A00 16
    (s.resetHeld = false ∧ s.cfg.sensorSel[(1 : SensorNo)].Takes .falling ∧ s.mcr.queue.length = 16
        ∧ s.modc.mode.running = true ∧ s.modc.mode ≠ .acquire)
      ∧ (s.modc.mode.tracking = true ∧ (1 : SensorNo) = s.cfg.markSensor ∧ s.cfg.regEnable = true
          ∧ s.cfg.winOpen.toNat ≤ s.axt.position ∧ s.axt.position ≤ s.cfg.winClose.toNat)
      ∧ (sensing .locked 0x0A01 16).cfg.winClose.toNat < (sensing .locked 0x0A01 16).axt.position := by
  unfold EdgeSel.Takes; decide

theorem test_witness_MarkEdgeAcquiresAtTheNominal :
    let s := sensing .acquire 0 15
    (s.resetHeld = false ∧ s.modc.mode = .acquire ∧ s.cfg.acqSource = .mark
        ∧ s.cfg.sensorSel[s.cfg.markSensor].Takes .rising)
      ∧ s.mcr.queue.length < 16 ∧ 16 ≤ (sensing .acquire 0 16).mcr.queue.length
      ∧ (s.applying = false ∧ { applyingState .acquire [] with cfg.acqSource := .mark }.applying = true) := by
  unfold EdgeSel.Takes; decide

theorem test_witness_PopCaptureRemovesTheHead :
    (State.reset.resetHeld = false ∧ State.reset.mcr.queue = [])
      ∧ (sensing .locked 0 1).mcr.queue = recordA :: [] := by decide

theorem test_witness_InterlockOpeningDropsTheLinesAndClosingMovesNone :
    { inMode .locked with out.interlock := .opened }.out.interlock = .opened
      ∧ ((inMode .halted).resetHeld = false ∧ (inMode .halted).out.interlock = .closed
          ∧ (inMode .halted).modc.mode.running = false)
      ∧ ((inMode .acquire).out.interlock = .closed ∧ (inMode .acquire).modc.mode.running = true
          ∧ (inMode .acquire).NoneHalting) := by
  unfold State.NoneHalting; decide

theorem test_witness_PulseExpiryTakesThePulsingLineLow :
    let s := { State.reset with out.lines := (State.reset.out.lines.set 15 (.pulsing 0)).set 14 (.pulsing 1) }
    (s.resetHeld = false ∧ s.out.lines[(15 : LineNo)] = .pulsing 0)
      ∧ s.out.lines[(14 : LineNo)] ≠ .pulsing 0 ∧ s.out.lines[(0 : LineNo)] ≠ .pulsing 0 := by decide

theorem test_witness_ApplyManualDrivesEveryLineInConfig :
    ((inMode .halted).resetHeld = false ∧ (inMode .halted).modc.mode ≠ .config)
      ∧ (State.reset.modc.mode = .config ∧ { State.reset with out.interlock := .opened }.out.interlock = .opened)
      ∧ State.reset.out.interlock = .closed := by decide

theorem test_witness_FetchOfNoUseLoadsNothing :
    (State.reset.resetHeld = false ∧ State.reset.cam.port = .free)
      ∧ ((fetching .current entryA .cancelled).cam.port = .fetch (some entryA)
          ∧ (fetching .current entryA .cancelled).lfu.fetch = some ⟨0, .current, .cancelled⟩)
      ∧ ((fetching .current entryB .granted).cam.port = .fetch (some entryB)
          ∧ (fetching .current entryB .granted).lfu.fetch = some ⟨0, .current, .granted⟩
          ∧ (fetching .current entryB .granted).axt.revolution.toNat % entryB.period.value ≠ entryB.phase.toNat
          ∧ 0 + 1 ≠ (fetching .current entryB .granted).cam.table.length
          ∧ 0 + 1 = { fetching .current entryB .granted with cam.table := [entryB] }.cam.table.length) := by decide

/-- R9: a free port with a fetch and a read-back waiting goes to the one whose turn it is. -/
theorem test_arbitration_follows_the_turn :
    let s := { running .locked 5 [] (.reading 1 .next) with
      lfu.fetch := some ⟨1, .next, .waiting⟩, cam.readbackWaits := some 0 }
    s.arbitrate.cam.port = .fetch (some entryB)
      ∧ { s with cam.turn := .readback }.arbitrate.cam.port = .readback 0 (some entryA) := by decide

theorem test_witness_FetchCompletionLoadsASlotAndFiresWhatIsDue :
    let s := fetching .current entryA .granted
    let n := fetching .next entryB .granted
    (s.resetHeld = false ∧ s.CountsLaw ∧ s.cam.port = .fetch (some entryA) ∧ s.lfu.fetch = some ⟨0, .current, .granted⟩
        ∧ s.axt.revolution.toNat % entryA.period.value = entryA.phase.toNat)
      ∧ (n.CountsLaw ∧ n.cam.port = .fetch (some entryB) ∧ n.lfu.fetch = some ⟨0, .next, .granted⟩
        ∧ (n.axt.revolution + 1).toNat % entryB.period.value = entryB.phase.toNat)
      ∧ (0 + 1 ≠ s.cam.table.length ∧ 0 + 1 = { s with cam.table := [entryA] }.cam.table.length) := by
  unfold State.CountsLaw; decide

theorem test_witness_ReadbackCompletionFillsTheRecordAndFreesThePort :
    let s := { running .locked 5 [] .parked with cam.port := .readback 1 (some entryB) }
    State.reset.cam.port = .free
      ∧ (s.resetHeld = false ∧ s.cam.port = .readback 1 (some entryB) ∧ s.cam.readbackWaits = none)
      ∧ { applyingState .locked [] with cam.port := .readback 0 none }.applying = true
      ∧ (s.applying = false ∧ { s with lfu.fetch := some ⟨1, .next, .waiting⟩ }.lfu.fetch = some ⟨1, .next, .waiting⟩)
      ∧ s.lfu.fetch = none := by decide

theorem test_witness_ReadEntryRequestsAReadback :
    let s := { running .locked 5 [] .parked with biu.arg := 1 }
    ((applyingState .locked []).applying = true ∧ { s with cam.readbackWaits := some 0 }.cam.readbackWaits ≠ none)
      ∧ (s.resetHeld = false ∧ s.applying = false ∧ s.cam.readbackWaits = none
          ∧ s.cam.table.length ≤ { s with biu.arg := 2 }.biu.arg.toNat)
      ∧ (s.biu.arg.toNat < s.cam.table.length ∧ (fetching .next entryA .granted).cam.port ≠ .free)
      ∧ (s.cam.port = .free ∧ s.lfu.fetch = none) := by decide

theorem test_witness_ClearTableEmptiesTheTableInConfig :
    ((inMode .halted).resetHeld = false ∧ (inMode .halted).modc.mode ≠ .config)
      ∧ ((applyingState .config []).modc.mode = .config ∧ (applyingState .config []).revq.group ≠ none)
      ∧ State.reset.revq.group = none := by decide

theorem test_witness_SubmitsQueueTheStagedRevision :
    let s := { State.reset with revq.staging := stagedPulse }
    s.resetHeld = false
      ∧ 16 ≤ { s with revq.opens := List.replicate 16 (.remove 0 0) }.revq.opens.length
      ∧ { s with revq.opens := List.replicate 15 (.remove 0 0) }.revq.opens.length < 16
      ∧ (s.revq.staging.line.toNat < 16 ∧ s.revq.staging.action.toNat ≠ 3
          ∧ ¬(s.revq.staging.action.toNat = 2 ∧ s.revq.staging.width = 0) ∧ s.revq.staging.periodCode.toNat ≤ 4
          ∧ s.revq.staging.phase.toNat < 2 ^ s.revq.staging.periodCode.toNat)
      ∧ ¬({ s with revq.staging.width := 0 }.revq.staging.width ≠ 0)
      ∧ 16 ≤ { s with revq.staging.line := 16 }.revq.staging.line.toNat
      ∧ (15 : LineNo).val = s.revq.staging.line.toNat := by decide

theorem test_witness_CommitMakesTheOpenRevisionsOneGroup :
    let s := { inMode .locked with revq.opens := [.remove 0 0] }
    (State.reset.resetHeld = false ∧ State.reset.revq.opens = [])
      ∧ (s.revq.opens ≠ [] ∧ (waitingState .locked).revq.group ≠ none)
      ∧ (s.revq.group = none ∧ s.modc.mode.tracking = true)
      ∧ (inMode .acquire).modc.mode.tracking = false := by decide

theorem test_witness_RaiseLockNeverLowersTheLevel :
    (2 < { State.reset with biu.arg := 3 }.biu.arg.toNat
        ∧ { State.reset with biu.arg := 1 }.biu.arg.toNat < { State.reset with revq.lock := 2 }.revq.lock.val)
      ∧ (State.reset.resetHeld = false ∧ (2 : Fin 3).val = { State.reset with biu.arg := 2 }.biu.arg.toNat
          ∧ { State.reset with revq.lock := 2 }.revq.lock ≤ 2) := by decide

theorem test_witness_PassingRevisionsEditTheTableAsTheirKindSays :
    tableOk [entryA, entryB]
      ∧ (Revision.insert { entryA with line := 1 }).failure State.reset [entryA, entryB] = none
      ∧ (Revision.insert { entryA with position := 0x0040 }).failure State.reset [entryA, entryB] = none
      ∧ (Revision.insert { entryA with position := 0x003F }).failure State.reset [entryA, entryB] = some .outOfRange
      ∧ (Revision.modify { entryA with tag := 9 }).failure State.reset [entryA, entryB] = none
      ∧ (Revision.remove 0x0200 9).failure State.reset [entryA, entryB] = none
      ∧ (Revision.remove 0x0200 8).failure State.reset [entryA, entryB] = some .keyAbsent
      ∧ (Revision.insert entryB).failure State.reset [entryA, entryB] = some .keyExists
      ∧ (Revision.insert entryA).failure { inMode .halted with revq.lock := 2 } [] = some .lockedAll
      ∧ (Revision.insert entryA).failure { inMode .halted with revq.lock := 1, cfg.protectedLines := 1 } []
          = some .lineProtected
      ∧ (Revision.insert entryA).failure { inMode .halted with revq.lock := 1, cfg.protectedLines := 0xFFFE } [] = none
      ∧ (Revision.remove 0x0200 9).failure { inMode .locked with revq.lock := 1 } [entryA] = some .keyAbsent
      ∧ (Revision.insert entryA).failure { inMode .config with revq.lock := 2, cfg.protectedLines := 1 } [] = none := by
  unfold tableOk Entry.before; decide

/-- A full table in order. -/
def fullTable : List Entry := (List.range 192).map fun i => { entryA with position := BitVec.ofNat 16 (0x0300 + i) }

theorem test_witness_PassingRevisionsEditTheTableAsTheirKindSays_full :
    tableOk fullTable ∧ fullTable.length = 192 ∧ (∀ x ∈ fullTable, x.key ≠ entryB.key)
      ∧ (Revision.insert entryB).failure State.reset fullTable = some .tableFull
      ∧ (Revision.insert entryB).failure State.reset (fullTable.take 191) = none := by
  unfold tableOk Entry.before; decide +kernel

theorem test_witness_ApplicationIsWholeOrNotAtAll :
    let s := applyingState .locked [.insert entryA, .insert entryA]
    State.reset.cam.port ≠ .application
      ∧ (s.resetHeld = false ∧ s.revq.group = some ⟨7, .applying true 3, [.insert entryA] ++ .insert entryA :: []⟩
          ∧ s.cam.port = .application)
      ∧ ((Revision.insert entryA).failure s [] = none ∧ (Revision.insert entryA).failure s [entryA] = some .keyExists)
      ∧ { s with lfu.deferred := some 0x0FFF }.lfu.deferred = some 0x0FFF
      ∧ { s with lfu.cursor := .reading 0 .current }.lfu.cursor = .reading 0 .current
      ∧ s.lfu.cursor = .parked := by decide

/-- A state whose first failing check is the `k`th. -/
def FirstFails (s : State) (k : Nat) : Prop := s.FailsCheck k ∧ ∀ j < k, ¬s.FailsCheck j

theorem test_witness_StartIsRefusedAtTheFirstFailingCheck :
    ((inMode .halted).resetHeld = false ∧ (inMode .halted).modc.mode ≠ .config)
      ∧ { State.reset with out.interlock := .opened }.out.interlock = .opened
      ∧ FirstFails { State.reset with cfg.revLength := 63 } 1
      ∧ FirstFails { State.reset with cfg.guardZone := 7 } 2
      ∧ FirstFails { State.reset with cfg.maxCorr := 0x40 } 3
      ∧ FirstFails { State.reset with cfg.regEnable := true, cfg.winClose := 0x1000 } 4
      ∧ FirstFails { State.reset with cfg.ha := 2 } 5
      ∧ FirstFails { State.reset with cfg.timebaseDiv := 51 } 6
      ∧ FirstFails { State.reset with cam.table := [{ entryA with position := 0x1000 }] } 7 :=
  ⟨by decide, by decide, (State.startCheck_eq_iff _ (by decide) (by decide)).mp (by decide),
    (State.startCheck_eq_iff _ (by decide) (by decide)).mp (by decide),
    (State.startCheck_eq_iff _ (by decide) (by decide)).mp (by decide),
    (State.startCheck_eq_iff _ (by decide) (by decide)).mp (by decide),
    (State.startCheck_eq_iff _ (by decide) (by decide)).mp (by decide),
    (State.startCheck_eq_iff _ (by decide) (by decide)).mp (by decide),
    (State.startCheck_eq_iff _ (by decide) (by decide)).mp (by decide)⟩

theorem test_witness_AcceptedStartWaitsOrAcquiresAtOnce :
    (State.reset.resetHeld = false ∧ State.reset.modc.mode = .config ∧ State.reset.out.interlock = .closed
        ∧ ∀ k, ¬State.reset.FailsCheck k)
      ∧ State.reset.cfg.acqSource ≠ .immediate
      ∧ ((∀ k, ¬{ State.reset with cfg.acqSource := .immediate }.FailsCheck k) ∧ State.reset.applying = false)
      ∧ ((∀ k, ¬{ applyingState .config [] with cfg.acqSource := .immediate }.FailsCheck k)
          ∧ (applyingState .config []).applying = true)
      ∧ ∀ k, ¬{ State.reset with
          cam.table := [{ entryA with position := 0x0040 }], cfg.timebaseDiv := 50 }.FailsCheck k := by
  simp only [← State.startCheck_eq_zero_iff]
  decide

theorem test_witness_StopWaitsForTheBoundaryOrLeavesAcquire :
    (State.reset.resetHeld = false ∧ State.reset.modc.mode = .config) ∧ (inMode .halted).modc.mode = .halted
      ∧ (inMode .freewheel).modc.mode.tracking = true
      ∧ ((inMode .acquire).modc.mode = .acquire ∧ (inMode .acquire).revq.group = none) := by decide

theorem test_witness_HaltNowHaltsARunWithoutACause :
    (State.reset.resetHeld = false ∧ State.reset.modc.mode.running = false)
      ∧ (waitingState .locked).modc.mode.running = true := by decide

theorem test_witness_ClearHaltNeedsTheHaltingCauseAcknowledged :
    let s := { inMode .halted with flt.causes := [slipRecord] }
    (State.reset.resetHeld = false ∧ State.reset.modc.mode ≠ .halted)
      ∧ ((inMode .halted).modc.mode = .halted ∧ ∃ r ∈ [lostRecord, slipRecord], r.cause.code ≤ 6)
      ∧ (s.modc.mode = .halted ∧ (∀ r ∈ s.flt.causes, 6 < r.cause.code) ∧ s.revq.group = none) := by decide

theorem test_witness_AckFaultRemovesTheHighestCauseAlone :
    let s := { inMode .halted with flt.causes := [lostRecord, slipRecord], biu.arg := 6 }
    (s.resetHeld = false ∧ s.PendingLaw)
      ∧ ({ s with biu.arg := 0 }.biu.arg.toNat = 0 ∧ 12 < { s with biu.arg := 13 }.biu.arg.toNat)
      ∧ (1 ≤ { s with biu.arg := 8 }.biu.arg.toNat ∧ { s with biu.arg := 8 }.biu.arg.toNat ≤ 12
          ∧ ¬∃ r ∈ s.flt.causes, r.cause.code = 8 ∧ ∀ x ∈ s.flt.causes, r.cause.code ≤ x.cause.code)
      ∧ (lostRecord ∈ s.flt.causes ∧ lostRecord.cause.code = s.biu.arg.toNat
          ∧ ∀ x ∈ s.flt.causes, lostRecord.cause.code ≤ x.cause.code) := by
  unfold State.PendingLaw; decide

theorem test_witness_StrobeWritesAreDecodedByTheBitsSet :
    State.reset.resetHeld = false ∧ strobeDecode .a 0x0200 = .noSingleCommand ∧ strobeDecode .b 0x0100 = .noSingleCommand
      ∧ strobeDecode .a 0x0100 = .command .clearCounters ∧ strobeDecode .b 3 = .noSingleCommand := by decide

theorem test_witness_FlagWritesClearAndEnablesDriveTheInterrupt :
    { State.reset with biu.flags := 0x20, biu.enables := 0x20 }.resetHeld = false
      ∧ { State.reset with biu.flags := 0x20, biu.enables := 0x20 }.intAsserted = true := by decide

theorem test_witness_FrozenWordsAreStoredInConfigAlone :
    ((inMode .halted).resetHeld = false ∧ (inMode .halted).modc.mode ≠ .config)
      ∧ (State.reset.modc.mode = .config ∧ State.reset.out.interlock = .closed)
      ∧ { State.reset with out.interlock := .opened }.out.interlock = .opened
      ∧ ((after (.frozenWordWrite .overspeed 0x1000) State.reset).readTarget (.frozen .overspeed) = 1
          ∧ (after (.frozenWordWrite (.leadTime 15) 20000) State.reset).readTarget (.frozen (.leadTime 15)) = 20000) := by
  decide

theorem test_witness_UnfrozenRegistersAreWrittenInEveryMode :
    State.reset.resetHeld = false
      ∧ ((0x02 : BitVec 7).toNat ≤ 0x02 ∧ 0x44 ≤ (0x7F : BitVec 7).toNat ∧ (0x3F : BitVec 7).toNat ≤ 0x3F) := by decide

/-- R154, R165, R166: a held word reads what its leading read latched, although a count, a write of the result record and
a raise came between. -/
theorem test_held_words_are_those_of_the_leading_read :
    ((after .forwardCount (after .positionRead (running .locked 5 [] .parked))).readWord 0x0C = 5
        ∧ (after .forwardCount (after .positionRead (running .locked 5 [] .parked))).axt.hwm = 6)
      ∧ (after .applicationCompletion (after .commitResultRead (applyingState .config [.insert entryA]))).readWord 0x4E = 0
      ∧ (after .invalidTransition (after .faultCauseRead { inMode .locked with flt.causes := [slipRecord] })).readWord 0x5C
          = 3 := by decide

theorem test_witness_ReadsShowTheStateAndLeadingWordsLatchTheirGroup :
    let s := { inMode .halted with
      flt.causes := [lostRecord, slipRecord], revq.result := ⟨7, .rejected 15 .tableFull, 192⟩ }
    (isHardReset .forwardCount = false
        ∧ Instr.forwardCount ∉ [Instr.softReset, .invalidCommandWrite .a 0x0010, .registerWrite 0x03 0x0010])
      ∧ (s.resetHeld = false ∧ s.modc.mode ≠ .acquire ∧ (inMode .acquire).modc.mode = .acquire)
      ∧ (s.revq.result.outcome = .rejected 15 .tableFull ∧ State.reset.revq.result.outcome = .none)
      ∧ (State.reset.flt.causes = [] ∧ s.flt.causes = lostRecord :: [slipRecord])
      ∧ (s.PendingLaw ∧ s.readWord 0x5D = 0x00A0)
      ∧ (State.reset.cam.record.entry = none
          ∧ { s with cam.record := ⟨191, some entryB⟩ }.cam.record.entry = some entryB)
      ∧ (State.reset.mcr.queue = [] ∧ (sensing .locked 0 16).mcr.queue = recordA :: List.replicate 15 recordA) := by
  unfold State.PendingLaw; decide

/-- R178: the words of a read-back record, of a PULSE with lead and of an empty record. -/
theorem test_readback_words :
    let s := { State.reset with
      cam.record := ⟨191, some ⟨0x0ABC, 15, .pulse 500, true, .p16, 15, 0x5A⟩⟩ }
    [0x46, 0x47, 0x48, 0x49, 0x4A].map s.readWord = [0x0ABC, 0x7CCF, 500, 0x005A, 0x80BF]
      ∧ [0x46, 0x47, 0x48, 0x49, 0x4A].map State.reset.readWord = [0, 0, 0, 0, 0] := by decide

end Sys2Proof.Tests
end

section
/-! PROOFS. What the dispatch of a command comes to: each command but the resets is one change of state, made while
the RESET pin is released; and what every step keeps follows from what those changes keep. -/

namespace Sys2Proof.Machine

/-- The change of state that a command makes while the RESET pin is released. -/
def effectOf : Instr → State → State
  | .forwardCount, s => s.forward
  | .backwardCount, s => s.backward
  | .invalidTransition, s => s.invalidChange
  | .revolutionBoundary, s => s.boundaryCount
  | .acquireTimeout, s => s.timeoutCount
  | .indexArrival, s => s.indexArrives
  | .speedWindowExpiry, s => s.speedExpires
  | .sensorEdge sensor edge, s => s.edgeArrives sensor edge
  | .interlockOpening, s => s.interlockOpens
  | .interlockClosing, s => s.interlockCloses
  | .pulseExpiry line, s => s.pulseExpires line
  | .fetchCompletion, s => s.fetchCompletes
  | .readbackCompletion, s => s.readbackCompletes
  | .applicationCompletion, s => s.applicationCompletes
  | .powerOn pins, s => s.resetTo pins
  | .resetPin pins, s => s.resetTo pins
  | .start, s => s.runCommand .start
  | .stop, s => s.runCommand .stop
  | .haltNow, s => s.runCommand .haltNow
  | .clearHalt, s => s.runCommand .clearHalt
  | .softReset, s => s.runCommand .softReset
  | .ackFault, s => s.runCommand .ackFault
  | .popCapture, s => s.runCommand .popCapture
  | .applyManual, s => s.runCommand .applyManual
  | .clearCounters, s => s.runCommand .clearCounters
  | .submitInsert, s => s.runCommand .submitInsert
  | .submitRemove, s => s.runCommand .submitRemove
  | .submitModify, s => s.runCommand .submitModify
  | .commit, s => s.runCommand .commit
  | .discardOpen, s => s.runCommand .discardOpen
  | .readEntry, s => s.runCommand .readEntry
  | .clearTable, s => s.runCommand .clearTable
  | .raiseLock, s => s.runCommand .raiseLock
  | .invalidCommandWrite reg data, s => s.busWrite (.strobe reg) data
  | .intFlagsWrite data, s => s.busWrite .intFlags data
  | .intEnableWrite data, s => s.busWrite .intEnable data
  | .stickyStatusWrite data, s => s.busWrite .stickyStatus data
  | .frozenWordWrite word data, s => s.busWrite (.frozen word) data
  | .encoderCfgWrite data, s => s.busWrite .encoderCfg data
  | .timebaseDivWrite data, s => s.busWrite .timebaseDiv data
  | .acqCfgWrite data, s => s.busWrite .acqCfg data
  | .safeLevelsWrite data, s => s.busWrite .safeLevels data
  | .registerWrite addr data, s => s.busWrite (writeTarget addr) data
  | .positionRead, s => s.readPosition
  | .commitResultRead, s => s.readCommitResult
  | .faultCauseRead, s => s.readFaultCause
  | .resetPinHeld, s => s.holdReset

/-- Every command but the three resets makes its change while the RESET pin is released, and none while it is held. -/
theorem exec_eq_taken (c : Instr) (s : State) (h : isHardReset c = false) : exec c s = s.taken (effectOf c) := by
  cases c with
  | powerOn | resetPin | resetPinHeld => cases h
  | _ => rfl

/-- The three resets make their change whether the pin is held or not. -/
theorem exec_hardReset (c : Instr) (s : State) (h : isHardReset c = true) : exec c s = .next (effectOf c s) := by
  cases c with
  | powerOn | resetPin | resetPinHeld => rfl
  | _ => cases h

/-- With the RESET pin released every command makes its change. -/
theorem exec_live (c : Instr) (s : State) (h : s.resetHeld = false) : exec c s = .next (effectOf c s) := by
  cases hc : isHardReset c with
  | true => exact exec_hardReset c s hc
  | false => rw [exec_eq_taken c s hc, State.taken_live _ h]

/-- A command that answers a next state has made its change, or the RESET pin is held and nothing has changed. -/
theorem exec_next {c : Instr} {s t : State} (h : exec c s = .next t) : t = s ∨ t = effectOf c s := by
  cases hr : s.resetHeld with
  | false => rw [exec_live c s hr] at h; cases h; exact .inr rfl
  | true =>
    cases hc : isHardReset c with
    | true => rw [exec_hardReset c s hc] at h; cases h; exact .inr rfl
    | false => rw [exec_eq_taken c s hc, State.taken_held _ hr] at h; cases h; exact .inl rfl

/-- What the clock and every command's change keep, and what does not speak of the queue, every step keeps. -/
theorem step_preserves {P : State → Prop} (queue : ∀ s q, P s → P { s with pending := q })
    (clock : ∀ s, P s → P s.refclk) (command : ∀ c s, P s → P (effectOf c s)) {s t : State} (hs : P s)
    (h : step s = .next t) : P t := by
  unfold step at h
  split at h
  · cases h; exact clock s hs
  · rename_i c rest _
    have ready := queue s rest hs
    rcases exec_next h with rfl | rfl
    · exact ready
    · exact command c _ ready

/-! ### The clock -/

/-- Taking the next levels of the encoder pins moves AXT's reference state, the pins and the two queues (R17). -/
theorem State.takeLevels_keeps (s : State) :
    s.takeLevels.cfg = s.cfg ∧ s.takeLevels.cam = s.cam ∧ s.takeLevels.lfu = s.lfu ∧ s.takeLevels.modc = s.modc
      ∧ s.takeLevels.axt = { s.axt with ref := s.takeLevels.axt.ref } := by
  unfold State.takeLevels
  split
  · exact ⟨rfl, rfl, rfl, rfl, rfl⟩
  · dsimp only
    split <;> simp

/-- One period of REFCLK moves no configuration word, no table entry and no mode, and of AXT the reference state and the
time in the speed window alone (R17, R30). -/
theorem State.refclk_keeps (s : State) :
    s.refclk.cfg = s.cfg ∧ s.refclk.cam = s.cam ∧ s.refclk.modc = s.modc ∧ s.refclk.axt.hwm = s.axt.hwm := by
  obtain ⟨cfg, cam, -, modc, axt⟩ := s.takeLevels_keeps
  have hwm : s.takeLevels.axt.hwm = s.axt.hwm := by rw [axt]
  unfold State.refclk
  split
  · exact ⟨rfl, rfl, rfl, rfl⟩
  · unfold State.tick
    split <;> exact ⟨cfg, cam, modc, hwm⟩

end Sys2Proof.Machine
end

section
/-! PROOFS. The cam table and the configuration under every command, and the law of the table (R4). -/

namespace Sys2Proof.Machine

variable (s : State)

/-! ### The operations that leave the program alone: no entry of the table and no configuration word moves -/

@[simp] theorem State.raise_program (c : Cause) (d : Detail) :
    (s.raise c d).cfg = s.cfg ∧ (s.raise c d).cam.table = s.cam.table := by
  simp [State.raise]

@[simp] theorem State.hwmAdvanced_keeps :
    s.hwmAdvanced.cfg = s.cfg ∧ s.hwmAdvanced.cam.table = s.cam.table ∧ s.hwmAdvanced.axt = s.axt
      ∧ s.hwmAdvanced.modc = s.modc := by
  simp [State.hwmAdvanced]

@[simp] theorem State.boundary_program : s.boundary.cfg = s.cfg ∧ s.boundary.cam.table = s.cam.table := by
  simp [State.boundary, State.ladderStep_keeps, State.turnOver_keeps]

@[simp] theorem State.advance_program : s.advance.cfg = s.cfg ∧ s.advance.cam.table = s.cam.table := by
  unfold State.advance
  dsimp only
  repeat' split
  all_goals simp

@[simp] theorem State.acquireCount_program : s.acquireCount.cfg = s.cfg ∧ s.acquireCount.cam.table = s.cam.table := by
  unfold State.acquireCount
  dsimp only
  split <;> simp

@[simp] theorem State.forward_program : s.forward.cfg = s.cfg ∧ s.forward.cam.table = s.cam.table := by
  unfold State.forward
  split <;> simp

@[simp] theorem State.retreat_program : s.retreat.cfg = s.cfg ∧ s.retreat.cam.table = s.cam.table := by
  unfold State.retreat
  dsimp only
  repeat' split
  all_goals simp

@[simp] theorem State.backward_program : s.backward.cfg = s.cfg ∧ s.backward.cam.table = s.cam.table := by
  unfold State.backward
  split <;> simp

@[simp] theorem State.invalidChange_program :
    s.invalidChange.cfg = s.cfg ∧ s.invalidChange.cam.table = s.cam.table := by
  unfold State.invalidChange
  dsimp only
  repeat' split
  all_goals simp

@[simp] theorem State.endInterval_program : s.endInterval.cfg = s.cfg ∧ s.endInterval.cam.table = s.cam.table := by
  unfold State.endInterval
  dsimp only
  split <;> simp

@[simp] theorem State.indexArrives_program :
    s.indexArrives.cfg = s.cfg ∧ s.indexArrives.cam.table = s.cam.table := by
  unfold State.indexArrives
  repeat' split
  all_goals simp

@[simp] theorem State.recompute_keeps :
    s.recompute.cfg = s.cfg ∧ s.recompute.cam.table = s.cam.table ∧ s.recompute.axt = s.axt
      ∧ s.recompute.modc = s.modc := by
  unfold State.recompute
  split <;> simp [raiseClamps_keep]

@[simp] theorem State.speedExpires_program :
    s.speedExpires.cfg = s.cfg ∧ s.speedExpires.cam.table = s.cam.table := by
  unfold State.speedExpires
  dsimp only
  split <;> simp

@[simp] theorem State.judgeMark_keeps (cls : CaptureClass) :
    (s.judgeMark cls).cfg = s.cfg ∧ (s.judgeMark cls).cam = s.cam ∧ (s.judgeMark cls).axt = s.axt
      ∧ (s.judgeMark cls).modc = s.modc := by
  cases cls <;> exact ⟨rfl, rfl, rfl, rfl⟩

/-- A record that joins the capture queue, or is discarded with a warning, touches MCR, the pending set and the bus
alone (R84). -/
@[simp] theorem State.record_keeps (r : CaptureRecord) :
    (s.record r).cfg = s.cfg ∧ (s.record r).axt = s.axt ∧ (s.record r).cam = s.cam ∧ (s.record r).lfu = s.lfu
      ∧ (s.record r).out = s.out ∧ (s.record r).revq = s.revq ∧ (s.record r).modc = s.modc
      ∧ (s.record r).pins = s.pins ∧ (s.record r).tb = s.tb ∧ (s.record r).resetHeld = s.resetHeld
      ∧ (s.record r).encInput = s.encInput ∧ (s.record r).pending = s.pending := by
  have warns : Cause.captureOverflow.halting = false := rfl
  unfold State.record
  dsimp only
  split
  · split <;> simp
  · simp [State.raise, State.raiseAt_warns, warns]

@[simp] theorem State.edgeArrives_program (n : SensorNo) (d : Edge) :
    (s.edgeArrives n d).cfg = s.cfg ∧ (s.edgeArrives n d).cam.table = s.cam.table := by
  unfold State.edgeArrives State.acquireByMark
  repeat' split
  all_goals simp

@[simp] theorem State.interlockOpens_program :
    s.interlockOpens.cfg = s.cfg ∧ s.interlockOpens.cam.table = s.cam.table := by
  unfold State.interlockOpens
  dsimp only
  repeat' split
  all_goals simp

@[simp] theorem State.pulseExpires_program (i : LineNo) :
    (s.pulseExpires i).cfg = s.cfg ∧ (s.pulseExpires i).cam.table = s.cam.table := by
  unfold State.pulseExpires
  split <;> exact ⟨rfl, rfl⟩

/-- The load of a slot and the examination of a returned entry are LFU's, OUT's and FLT's alone (R46). -/
@[simp] theorem State.load_keeps (e : Entry) (f : Fetch) :
    (s.load e f).cfg = s.cfg ∧ (s.load e f).cam = s.cam ∧ (s.load e f).axt = s.axt ∧ (s.load e f).modc = s.modc := by
  unfold State.load
  dsimp only
  split <;> simp

@[simp] theorem State.examine_keeps (e : Option Entry) (f : Fetch) :
    (s.examine e f).cfg = s.cfg ∧ (s.examine e f).cam = s.cam ∧ (s.examine e f).axt = s.axt
      ∧ (s.examine e f).modc = s.modc := by
  unfold State.examine
  dsimp only
  repeat' split
  all_goals simp

@[simp] theorem State.fetchCompletes_keeps :
    s.fetchCompletes.cfg = s.cfg ∧ s.fetchCompletes.cam.table = s.cam.table ∧ s.fetchCompletes.axt = s.axt
      ∧ s.fetchCompletes.modc = s.modc := by
  unfold State.fetchCompletes
  dsimp only
  repeat' split
  all_goals simp

@[simp] theorem State.readbackCompletes_keeps :
    s.readbackCompletes.cfg = s.cfg ∧ s.readbackCompletes.cam.table = s.cam.table
      ∧ s.readbackCompletes.axt = s.axt ∧ s.readbackCompletes.modc = s.modc := by
  unfold State.readbackCompletes
  split <;> simp

/-- A COUNT at a place named by its own row is the forward count, or nothing (R26, R35). -/
@[simp] theorem State.placedCounts_program :
    (s.boundaryCount.cfg = s.cfg ∧ s.boundaryCount.cam.table = s.cam.table)
      ∧ s.timeoutCount.cfg = s.cfg ∧ s.timeoutCount.cam.table = s.cam.table := by
  constructor
  · unfold State.boundaryCount; split <;> simp
  · unfold State.timeoutCount; split <;> simp

/-! ### The commands of the bus -/

@[simp] theorem State.submit_keeps (k : SubmitKind) (c : Command) :
    (s.submit k c).cfg = s.cfg ∧ (s.submit k c).cam = s.cam ∧ (s.submit k c).axt = s.axt
      ∧ (s.submit k c).modc = s.modc := by
  unfold State.submit
  repeat' split
  all_goals simp

/-- No command given by a strobe but CLEAR_TABLE moves the program. -/
theorem State.runCommand_program (c : Command) (h : c ≠ .clearTable) :
    (s.runCommand c).cfg = s.cfg ∧ (s.runCommand c).cam.table = s.cam.table := by
  cases c with
  | clearTable => exact absurd rfl h
  | submitInsert | submitRemove | submitModify =>
    simp [State.runCommand, State.cmdSubmitInsert, State.cmdSubmitRemove, State.cmdSubmitModify]
  | start =>
    unfold State.runCommand State.cmdStart
    dsimp only
    repeat' split
    all_goals simp
  | stop =>
    unfold State.runCommand State.cmdStop
    dsimp only
    split <;> simp
  | haltNow =>
    unfold State.runCommand State.cmdHaltNow
    dsimp only
    split <;> simp
  | clearHalt =>
    unfold State.runCommand State.cmdClearHalt
    dsimp only
    repeat' split
    all_goals simp
  | softReset =>
    unfold State.runCommand State.cmdSoftReset
    dsimp only
    split <;> simp
  | ackFault =>
    unfold State.runCommand State.cmdAckFault
    dsimp only
    repeat' split
    all_goals simp
  | popCapture =>
    unfold State.runCommand State.cmdPopCapture
    dsimp only
    split <;> simp
  | applyManual =>
    unfold State.runCommand State.cmdApplyManual
    dsimp only
    repeat' split
    all_goals simp
  | clearCounters => exact ⟨rfl, rfl⟩
  | commit =>
    unfold State.runCommand State.cmdCommit
    dsimp only
    repeat' split
    all_goals simp
  | discardOpen => exact ⟨rfl, rfl⟩
  | readEntry =>
    unfold State.runCommand State.cmdReadEntry
    dsimp only
    repeat' split
    all_goals simp
  | raiseLock =>
    unfold State.runCommand State.cmdRaiseLock
    dsimp only
    repeat' split
    all_goals simp

end Sys2Proof.Machine
end

section
/-! PROOFS. The law of the table (R4): what the edits of a passing revision, the completion of an
application, a bus write and every other command do to it. -/

namespace Sys2Proof.Machine

variable (s : State)

/-! ### The edits of a revision that passes -/

/-- A revision that passes keeps the table in order and within its capacity (R3, R4, R109). -/
theorem Revision.edit_tableOk {t : List Entry} {r : Revision} (ht : tableOk t) (hr : r.failure s t = none) :
    tableOk (r.edit t) := by
  obtain ⟨sorted, size⟩ := (tableOk_iff t).mp ht
  rw [tableOk_iff]
  cases r with
  | insert e =>
    have passes : hasKey e.key t = false ∧ t.length < 192 := by
      unfold Revision.failure at hr
      grind [Config.tableCapacity]
    refine ⟨insertEntry_sorted sorted fun x hx hk => ?_, by simp [Revision.edit]; omega⟩
    have present := hasKey_iff.mpr ⟨x, hx, hk⟩
    simp [passes.1] at present
  | modify e => exact ⟨modifyEntry_sorted e sorted, by simpa [Revision.edit] using size⟩
  | remove p l =>
    exact ⟨removeEntry_sorted _ sorted, Nat.le_trans (List.length_filter_le _ _) size⟩

/-- A group judged whole leaves a table in order (R109, R111). -/
theorem judgeGroup_tableOk {t t' : List Entry} {i : Nat} {rs : List Revision} (ht : tableOk t)
    (h : judgeGroup s t i rs = .ok t') : tableOk t' := by
  induction rs generalizing t i with
  | nil => cases h; exact ht
  | cons r rs ih =>
    unfold judgeGroup at h
    split at h
    · cases h
    · rename_i passes
      exact ih (Revision.edit_tableOk s ht passes) h

/-- Whatever becomes of a group, the table it leaves is in order (R111). -/
theorem State.outcomeOf_tableOk (rs : List Revision) (h : tableOk s.cam.table) : tableOk (s.outcomeOf rs).1 := by
  unfold State.outcomeOf
  split
  · rename_i t ok
    exact judgeGroup_tableOk s h ok
  · exact h

/-- The completion of an application leaves the table that the judgement of its group gives, or does not take place. -/
theorem State.applicationCompletes_keeps :
    s.applicationCompletes.cfg = s.cfg ∧ s.applicationCompletes.axt = s.axt ∧ s.applicationCompletes.modc = s.modc
      ∧ (s.applicationCompletes.cam.table = s.cam.table
          ∨ ∃ rs, s.applicationCompletes.cam.table = (s.outcomeOf rs).1) := by
  unfold State.applicationCompletes
  split
  · rename_i q b n rs _ _
    refine ⟨?_, ?_, ?_, .inr ⟨rs, ?_⟩⟩ <;> simp
  · exact ⟨rfl, rfl, rfl, .inl rfl⟩

/-! ### Bus writes -/

/-- CLEAR_TABLE leaves the table where it is refused, and else empties it; it moves no other part of the program (R14). -/
theorem State.cmdClearTable_keeps :
    s.cmdClearTable.cfg = s.cfg ∧ s.cmdClearTable.axt = s.axt ∧ s.cmdClearTable.modc = s.modc
      ∧ (s.cmdClearTable.cam.table = s.cam.table ∨ s.modc.mode = .config ∧ s.cmdClearTable.cam.table = []) := by
  unfold State.cmdClearTable
  split
  · exact ⟨rfl, rfl, rfl, .inl rfl⟩
  · rename_i config
    rw [Decidable.not_not] at config
    split
    · exact ⟨rfl, rfl, rfl, .inl rfl⟩
    · exact ⟨rfl, rfl, rfl, .inr ⟨config, rfl⟩⟩

/-- A command given by a strobe leaves the table, or empties it (R14). -/
theorem State.runCommand_table (c : Command) :
    (s.runCommand c).cam.table = s.cam.table ∨ (s.runCommand c).cam.table = [] := by
  by_cases h : c = .clearTable
  · subst h
    obtain ⟨-, -, -, kept | ⟨-, emptied⟩⟩ := s.cmdClearTable_keeps
    · exact .inl kept
    · exact .inr emptied
  · exact .inl (s.runCommand_program c h).2

/-- A bus write leaves the table, or empties it (R14, R164). -/
theorem State.busWrite_table (w : WriteTarget) (v : Word) :
    (s.busWrite w v).cam.table = s.cam.table ∨ (s.busWrite w v).cam.table = [] := by
  cases w with
  | strobe r =>
    unfold State.busWrite State.writeStrobe
    dsimp only
    split
    · exact .inl rfl
    · exact s.runCommand_table _
    · exact .inl rfl
  | frozen w => left; unfold State.busWrite State.writeFrozen; dsimp only; split <;> rfl
  | encoderCfg => left; unfold State.busWrite State.writeEncoderCfg; dsimp only; split <;> rfl
  | timebaseDiv => left; unfold State.busWrite State.writeTimebaseDiv; dsimp only; split <;> rfl
  | acqCfg => left; unfold State.busWrite State.writeAcqCfg; dsimp only; split <;> rfl
  | safeLevels =>
    left
    unfold State.busWrite State.writeSafeLevels
    dsimp only
    repeat' split
    all_goals rfl
  | _ => exact .inl rfl

/-! ### Every command -/

/-- What a command does to the table: nothing, but that CLEAR_TABLE and the resets empty it, and that the completion of
an application leaves what the judgement of its group gives. -/
theorem effectOf_table (c : Instr) :
    (effectOf c s).cam.table = s.cam.table ∨ (effectOf c s).cam.table = []
      ∨ ∃ rs, (effectOf c s).cam.table = (s.outcomeOf rs).1 := by
  have written : ∀ u : State, u.cam.table = s.cam.table ∨ u.cam.table = [] →
      u.cam.table = s.cam.table ∨ u.cam.table = [] ∨ ∃ rs, u.cam.table = (s.outcomeOf rs).1 :=
    fun _ h => h.imp_right .inl
  cases c with
  | applicationCompletion =>
    obtain ⟨-, -, -, kept | judged⟩ := s.applicationCompletes_keeps
    · exact .inl kept
    · exact .inr (.inr judged)
  | powerOn | resetPin | resetPinHeld => exact .inr (.inl rfl)
  | start | stop | haltNow | clearHalt | softReset | ackFault | popCapture | applyManual | clearCounters | submitInsert
  | submitRemove | submitModify | commit | discardOpen | readEntry | clearTable | raiseLock =>
    exact written _ (s.runCommand_table _)
  | invalidCommandWrite | intFlagsWrite | intEnableWrite | stickyStatusWrite | frozenWordWrite | encoderCfgWrite
  | timebaseDivWrite | acqCfgWrite | safeLevelsWrite | registerWrite => exact written _ (s.busWrite_table _ _)
  | interlockClosing | positionRead | commitResultRead | faultCauseRead => exact .inl rfl
  | _ => left; simp [effectOf]

/-- Every command keeps the law of the table. -/
theorem effectOf_tableLaw (c : Instr) (h : s.TableLaw) : (effectOf c s).TableLaw := by
  unfold State.TableLaw at h ⊢
  obtain kept | emptied | ⟨rs, judged⟩ := effectOf_table s c
  · rw [kept]; exact h
  · rw [emptied]; exact ⟨.nil, by simp⟩
  · rw [judged]; exact s.outcomeOf_tableOk rs h

/-- Settles O5: the law of the table does not speak of the queue or the clock, and every command keeps it. -/
theorem everyStepKeepsTheTableOrdered : Obligations.EveryStepKeepsTheTableOrdered := by
  intro s t law h
  refine step_preserves (P := State.TableLaw) (fun _ _ h => h) (fun s h => ?_) (fun c s => effectOf_tableLaw s c) law h
  obtain ⟨-, cam, -, -⟩ := s.refclk_keeps
  unfold State.TableLaw at h ⊢
  rw [cam]
  exact h

end Sys2Proof.Machine
end

section
/-! PROOFS. The law of the geometry (R5, R27, R126): which changes leave it alone, and why the few that could
break it do not: an acquisition, a boundary, an advance of the high-water mark, an application and a write to the configuration. -/

namespace Sys2Proof.Machine

variable {s t u : State}

/-! ### The checks of START and the law -/

/-- The checks of START on the geometry all pass (R125): all but check 5, the ladder's. -/
def State.GeometryValid (s : State) : Prop := ∀ k, k ≠ 5 → ¬s.FailsCheck k

/-- The checks read the configuration and, for check 7, the table. -/
theorem State.failsCheck_congr (cfg : t.cfg = s.cfg) (table : t.cam.table = s.cam.table) (k : Nat) :
    t.FailsCheck k ↔ s.FailsCheck k := by
  unfold State.FailsCheck
  rw [cfg, table]

/-- Only check 7 reads the table. -/
theorem State.GeometryValid.of_table (h : s.GeometryValid) (cfg : t.cfg = s.cfg)
    (table : ∀ e ∈ t.cam.table, s.cfg.inRange e.position.toNat = true) : t.GeometryValid := by
  intro k hk fails
  by_cases h7 : k = 7
  · subst h7
    obtain ⟨e, he, out⟩ := fails
    have := table e he
    rw [cfg] at out
    simp only [Cfg.inRange, Bool.and_eq_true, decide_eq_true_eq] at this
    omega
  · have same : ({ t with cam := s.cam } : State).FailsCheck k := by
      match k, h7 with
      | 7, h7 => exact absurd rfl h7
      | 0, _ | 1, _ | 2, _ | 3, _ | 4, _ | 5, _ | 6, _ | _ + 8, _ => exact fails
    exact h k hk ((State.failsCheck_congr (s := s) (t := { t with cam := s.cam }) cfg rfl k).mp same)

theorem State.GeometryValid.congr (h : s.GeometryValid) (cfg : t.cfg = s.cfg) (table : t.cam.table = s.cam.table) :
    t.GeometryValid :=
  fun k hk => mt (State.failsCheck_congr cfg table k).mp (h k hk)

/-- What the checks say in numbers: L is at least 64, Z is above the greatest correction and at most a quarter of L, and
every entry stands in [Z, L-1]. -/
theorem State.GeometryValid.bounds (h : s.GeometryValid) :
    64 ≤ s.cfg.revLength.toNat ∧ 4 * s.cfg.guardZone.toNat ≤ s.cfg.revLength.toNat
      ∧ s.cfg.maxCorr.toNat < s.cfg.guardZone.toNat
      ∧ ∀ e ∈ s.cam.table, s.cfg.inRange e.position.toNat = true := by
  have length := h 1 (by decide)
  have guard := h 2 (by decide)
  have corr := h 3 (by decide)
  have entries := h 7 (by decide)
  simp only [State.FailsCheck] at length guard corr entries
  refine ⟨by omega, by omega, by omega, fun e he => ?_⟩
  have outside : ¬(e.position.toNat < s.cfg.guardZone.toNat ∨ s.cfg.revLength.toNat ≤ e.position.toNat) :=
    fun out => entries ⟨e, he, out⟩
  have low : s.cfg.guardZone.toNat ≤ e.position.toNat := by omega
  have high : e.position.toNat < s.cfg.revLength.toNat := by omega
  rw [Cfg.inRange, decide_eq_true low, decide_eq_true high, Bool.and_self]

/-- With source MARK the nominal stands below L, whether registration is enabled or not (R125, check 4). -/
theorem State.GeometryValid.nominal (h : s.GeometryValid) (source : s.cfg.acqSource = .mark) :
    s.cfg.markNominal.toNat < s.cfg.revLength.toNat := by
  have window := h 4 (by decide)
  simp only [State.FailsCheck, source, true_and] at window
  cases enabled : s.cfg.regEnable <;> simp only [enabled, true_and, false_and, or_false, false_or, reduceCtorEq] at window
    <;> omega

theorem Mode.tracking_running {m : Mode} (h : m.tracking = true) : m.running = true := by
  cases m with
  | locked | freewheel => rfl
  | config | acquire | halted => cases h

/-- Outside the running modes the law says nothing. -/
theorem State.GeometryLaw.of_not_running (h : s.modc.mode.running = false) : s.GeometryLaw :=
  ⟨fun running => absurd running (by simp [h]),
    fun tracking => absurd (Mode.tracking_running tracking) (by simp [h])⟩

/-- Where the checks pass and hwm stands below L the law holds in every mode. -/
theorem State.GeometryLaw.of_valid (h : s.GeometryValid) (hwm : s.axt.hwm < s.cfg.revLength.toNat) : s.GeometryLaw :=
  ⟨fun _ => h, fun _ => hwm⟩

/-! ### The changes that leave the law alone -/

/-- From `s` to `t` nothing that the law speaks of moves, but that a run may end. -/
structure State.KeepsGeometry (s t : State) : Prop where
  checks : s.GeometryValid → t.GeometryValid
  revLength : t.cfg.revLength = s.cfg.revLength
  hwm : t.axt.hwm = s.axt.hwm
  mode : t.modc.mode = s.modc.mode ∨ t.modc.mode.running = false

theorem State.KeepsGeometry.of_program (program : t.cfg = s.cfg ∧ t.cam.table = s.cam.table)
    (hwm : t.axt.hwm = s.axt.hwm) (mode : t.modc.mode = s.modc.mode ∨ t.modc.mode.running = false) :
    s.KeepsGeometry t where
  checks h := h.congr program.1 program.2
  revLength := by rw [program.1]
  hwm := hwm
  mode := mode

theorem State.KeepsGeometry.refl (s : State) : s.KeepsGeometry s := .of_program ⟨rfl, rfl⟩ rfl (.inl rfl)

theorem State.KeepsGeometry.trans (h : s.KeepsGeometry t) (h' : t.KeepsGeometry u) : s.KeepsGeometry u where
  checks v := h'.checks (h.checks v)
  revLength := h'.revLength.trans h.revLength
  hwm := h'.hwm.trans h.hwm
  mode := by
    rcases h'.mode with same | ended
    · rw [same]; exact h.mode
    · exact .inr ended

theorem State.GeometryLaw.keep (law : s.GeometryLaw) (h : s.KeepsGeometry t) : t.GeometryLaw := by
  rcases h.mode with same | ended
  · obtain ⟨valid, below⟩ := law
    refine ⟨fun running => h.checks (valid (same ▸ running)), fun tracking => ?_⟩
    rw [h.hwm, h.revLength]
    exact below (same ▸ tracking)
  · exact .of_not_running ended

/-- A raise leaves the mode, or halts (R134, R149). -/
theorem State.raiseAt_mode (s : State) (a : Stamp) (c : Cause) (d : Detail) :
    (s.raiseAt a c d).modc.mode = s.modc.mode ∨ (s.raiseAt a c d).modc.mode = .halted := by
  unfold State.raiseAt
  split
  · exact .inl rfl
  · split
    · right; simp
    · left; simp

/-- A raise moves nothing that the law speaks of, but that it may halt. -/
theorem State.KeepsGeometry.raise (h : s.KeepsGeometry t) (c : Cause) (d : Detail) : s.KeepsGeometry (t.raise c d) :=
  h.trans (.of_program (t.raise_program c d) (by simp [State.raise])
    ((t.raiseAt_mode t.stamp c d).imp_right fun halted => by rw [State.raise, halted]; rfl))

/-! ### Acquisition and START -/

/-- An acquisition at a point below L, where the checks pass, leaves the law in force (R37). -/
theorem State.acquire_geometry (h : s.GeometryValid) {p : Nat} (b : Bool) (hp : p < s.cfg.revLength.toNat) :
    (s.acquire p b).GeometryLaw :=
  .of_valid (h.congr (by simp) (by simp)) (by simpa using hp)

/-- INDEX_POS reduced modulo L stands below L (R37). -/
theorem State.GeometryValid.indexPoint (h : s.GeometryValid) : s.indexPoint < s.cfg.revLength.toNat := by
  obtain ⟨length, -⟩ := h.bounds
  exact Nat.mod_lt _ (by unfold State.revLen; omega)

/-- START leaves the law in force: it enters a running mode only where its checks pass (R125, R126). -/
theorem State.cmdStart_geometry (law : s.GeometryLaw) : s.cmdStart.GeometryLaw := by
  unfold State.cmdStart
  split
  · exact law
  · split
    · exact law
    · split
      · exact law
      · rename_i passes
        rw [Decidable.not_not, State.startCheck_eq_zero_iff] at passes
        have valid : s.enterAcquire.GeometryValid :=
          State.GeometryValid.congr (s := s) (fun k _ => passes k) (by simp) (by simp)
        have point : s.indexPoint < s.enterAcquire.cfg.revLength.toNat := by
          have := State.GeometryValid.indexPoint (s := s) fun k _ => passes k
          simpa using this
        split
        · exact State.acquire_geometry valid false point
        all_goals exact ⟨fun _ => valid, fun tracking => absurd tracking (by simp [Mode.tracking])⟩

/-! ### Counts and the boundary -/

/-- A correction is MAX_CORR at most (R90). -/
theorem Cfg.correctionFor_le (c : Cfg) (m : MarkState) : (c.correctionFor m).toNat ≤ c.maxCorr.toNat := by
  unfold Cfg.correctionFor
  split
  · rename_i d _ _
    generalize d.natAbs / 2 ^ c.gainShift.toNat = shifted
    rcases Int.sign_trichotomy d with h | h | h <;> rw [h] <;> omega
  · simp

/-- The boundary sets hwm to the correction, which is below Z and so below L (R27). -/
theorem State.boundary_geometry (h : s.GeometryValid) : s.boundary.GeometryLaw := by
  obtain ⟨-, quarter, corr, -⟩ := h.bounds
  have hwm : s.boundary.axt.hwm = (s.cfg.correctionFor s.mcr.mark).toNat := by
    obtain ⟨-, -, -, -, -, -, -, -, -, -, -, ladder, -⟩ :=
      s.turnOver.ladderStep_keeps s.endingStamp (s.cfg.judgeRevolution s.mcr.mark).1
    obtain ⟨-, -, -, -, -, -, -, -, -, axt, -⟩ := s.turnOver_keeps
    rw [State.boundary, ladder, axt, Cfg.judgeRevolution_correction, Axt.correct_eq]
  refine .of_valid (h.congr (by simp) (by simp)) ?_
  have := s.cfg.correctionFor_le s.mcr.mark
  rw [hwm, s.boundary_program.1]
  omega

/-- A forward count in a tracking mode keeps the law: the position stays below L (R23). -/
theorem State.advance_geometry (law : s.GeometryLaw) (tracking : s.modc.mode.tracking = true) :
    s.advance.GeometryLaw := by
  have valid : s.GeometryValid := law.1 (Mode.tracking_running tracking)
  have quiet : ∀ a : Axt, a.hwm = s.axt.hwm → ({ s with axt := a } : State).GeometryLaw :=
    fun a ha => law.keep (.of_program ⟨rfl, rfl⟩ ha (.inl rfl))
  unfold State.advance
  dsimp only
  split
  · exact quiet _ rfl
  · split
    · exact quiet _ rfl
    · split
      · rename_i below
        split
        · exact .of_valid (valid.congr (by simp) (by simp)) (by simpa [State.revLen] using below)
        · exact quiet _ rfl
      · exact State.boundary_geometry valid

/-- A count moves no part that the law speaks of, before the mode takes it (R21). -/
theorem State.counted_keepsGeometry (s : State) (l : EncLevels) (d : Int) :
    s.KeepsGeometry ((s.acceptLevels l).counted d) :=
  .of_program (by simp) (by simp) (by simp)

theorem State.forward_geometry (law : s.GeometryLaw) : s.forward.GeometryLaw := by
  have counted := law.keep (s.counted_keepsGeometry (s.cfg.levelsForward s.axt.ref) 1)
  unfold State.forward
  dsimp only
  split
  case h_1 | h_2 => exact counted
  case h_3 =>
    refine counted.keep ?_
    unfold State.acquireCount
    dsimp only
    split
    · refine .raise ?_ _ _
      exact .of_program ⟨rfl, rfl⟩ rfl (.inl rfl)
    · exact .of_program ⟨rfl, rfl⟩ rfl (.inl rfl)
  case h_4 | h_5 =>
    rename_i mode
    exact State.advance_geometry counted (by simp [mode, Mode.tracking])

theorem State.backward_keepsGeometry (s : State) : s.KeepsGeometry s.backward := by
  refine .trans (s.counted_keepsGeometry (s.cfg.levelsBackward s.axt.ref) (-1)) ?_
  unfold State.backward
  dsimp only
  split
  case h_1 | h_2 | h_3 => exact .refl _
  case h_4 | h_5 =>
    unfold State.retreat
    dsimp only
    repeat' split
    all_goals first
      | exact .of_program ⟨rfl, rfl⟩ rfl (.inl rfl)
      | refine .raise ?_ _ _
        exact .of_program ⟨rfl, rfl⟩ rfl (.inl rfl)

theorem State.invalidChange_keepsGeometry (s : State) : s.KeepsGeometry s.invalidChange := by
  have accepted (l : EncLevels) : s.KeepsGeometry (s.acceptLevels l) := .of_program (by simp) (by simp) (by simp)
  unfold State.invalidChange
  split
  · exact .refl s
  · dsimp only
    split
    · exact (accepted _).raise _ _
    · exact accepted _

/-! ### The speed window, the index and the sensors -/

theorem State.speedExpires_keepsGeometry (s : State) : s.KeepsGeometry s.speedExpires := by
  have recomputed (t : State) : t.KeepsGeometry t.recompute := .of_program (by simp) (by simp) (by simp)
  have published : s.KeepsGeometry { s with axt := s.axt.publishSpeed } := .of_program ⟨rfl, rfl⟩ rfl (.inl rfl)
  unfold State.speedExpires
  dsimp only
  split
  · exact .trans (published.raise _ _) (recomputed _)
  · exact .trans published (recomputed _)

theorem State.indexArrives_geometry (law : s.GeometryLaw) : s.indexArrives.GeometryLaw := by
  unfold State.indexArrives
  split
  case h_1 | h_2 => exact law
  case h_3 =>
    rename_i mode
    split
    · have valid : s.GeometryValid := law.1 (by simp [mode, Mode.running])
      exact State.acquire_geometry valid true valid.indexPoint
    · exact law
    · exact law
  case h_4 | h_5 =>
    split
    · exact law
    · split
      · refine law.keep ?_
        unfold State.endInterval
        dsimp only
        split
        · refine .raise ?_ _ _
          exact .of_program ⟨rfl, rfl⟩ rfl (.inl rfl)
        · exact .of_program ⟨rfl, rfl⟩ rfl (.inl rfl)
      · exact law.keep (.of_program ⟨rfl, rfl⟩ rfl (.inl rfl))

/-- A sensor edge keeps the law: with source MARK the nominal is below L (R93, R125). -/
theorem State.edgeArrives_geometry (law : s.GeometryLaw) (n : SensorNo) (d : Edge) :
    (s.edgeArrives n d).GeometryLaw := by
  have recorded (t : State) (r : CaptureRecord) : t.KeepsGeometry (t.record r) :=
    .of_program (by simp) (by simp) (by simp)
  unfold State.edgeArrives
  split
  · exact law
  · split
    case h_1 | h_2 => exact law
    case h_3 =>
      rename_i mode
      split
      · rename_i source
        have valid : s.GeometryValid := law.1 (by simp [mode, Mode.running])
        have acquired := State.acquire_geometry valid false (valid.nominal source.1)
        exact acquired.keep (.of_program (by simp [State.acquireByMark]) (by simp [State.acquireByMark])
          (.inl (by simp [State.acquireByMark])))
      · exact law.keep (recorded _ _)
    case h_4 | h_5 =>
      have judged (cls : CaptureClass) : s.KeepsGeometry (s.judgeMark cls) :=
        .of_program (by simp) (by simp) (by simp)
      exact law.keep (.trans (judged _) (recorded _ _))

theorem State.interlockOpens_keepsGeometry (s : State) : s.KeepsGeometry s.interlockOpens := by
  unfold State.interlockOpens
  split
  · exact .refl s
  · dsimp only
    split
    · refine .raise ?_ _ _
      exact .of_program ⟨rfl, rfl⟩ rfl (.inl rfl)
    · exact .of_program ⟨rfl, rfl⟩ rfl (.inl rfl)

/-! ### Applications -/

/-- An edit of a revision that passes leaves every entry in [Z, L-1]: an INSERT passes only there, and a MODIFY keeps the
position (R5, R109). -/
theorem Revision.edit_inRange {l : List Entry} {r : Revision}
    (h : ∀ e ∈ l, s.cfg.inRange e.position.toNat = true) (passes : r.failure s l = none) :
    ∀ e ∈ r.edit l, s.cfg.inRange e.position.toNat = true := by
  intro x hx
  cases r with
  | insert e =>
    have inside : s.cfg.inRange e.position.toNat = true := by
      unfold Revision.failure at passes
      grind
    rcases mem_insertEntry.mp hx with rfl | old
    · exact inside
    · exact h x old
  | modify e =>
    obtain ⟨y, hy, rfl⟩ := List.mem_map.mp hx
    split
    · exact h y hy
    · exact h y hy
  | remove p line => exact h x (List.mem_filter.mp hx).1

theorem judgeGroup_inRange {l l' : List Entry} {i : Nat} {rs : List Revision}
    (h : ∀ e ∈ l, s.cfg.inRange e.position.toNat = true) (ok : judgeGroup s l i rs = .ok l') :
    ∀ e ∈ l', s.cfg.inRange e.position.toNat = true := by
  induction rs generalizing l i with
  | nil => cases ok; exact h
  | cons r rs ih =>
    unfold judgeGroup at ok
    split at ok
    · cases ok
    · rename_i passes
      exact ih (Revision.edit_inRange h passes) ok

/-- An application keeps the law: it leaves every entry in [Z, L-1] (R5, R109). -/
theorem State.applicationCompletes_geometry (law : s.GeometryLaw) : s.applicationCompletes.GeometryLaw := by
  obtain ⟨cfg, axt, modc, kept | ⟨rs, judged⟩⟩ := s.applicationCompletes_keeps
  · exact law.keep (.of_program ⟨cfg, kept⟩ (by rw [axt]) (.inl (by rw [modc])))
  · refine ⟨fun running => ?_, fun tracking => ?_⟩
    · rw [modc] at running
      have valid : s.GeometryValid := law.1 running
      refine valid.of_table cfg ?_
      obtain ⟨-, -, -, entries⟩ := valid.bounds
      rw [judged]
      unfold State.outcomeOf
      split
      · rename_i ok
        exact judgeGroup_inRange entries ok
      · exact entries
    · rw [modc] at tracking
      rw [axt, cfg]
      exact law.2 tracking

end Sys2Proof.Machine
end

section
/-! PROOFS. The law of the geometry under the bus and under every step (R5, R27, R126). -/

namespace Sys2Proof.Machine

variable {s : State}

/-! ### The commands given by a strobe -/

/-- The commands given by a strobe that may change the mode. -/
def movesMode (c : Command) : Bool := c ∈ [.start, .stop, .haltNow, .clearHalt, .softReset]

/-- Every other command leaves the mode controller and the axis tracker alone. -/
theorem State.runCommand_quiet (s : State) (c : Command) (h : movesMode c = false) :
    (s.runCommand c).axt = s.axt ∧ (s.runCommand c).modc = s.modc := by
  cases c with
  | start | stop | haltNow | clearHalt | softReset => cases h
  | submitInsert | submitRemove | submitModify =>
    simp [State.runCommand, State.cmdSubmitInsert, State.cmdSubmitRemove, State.cmdSubmitModify]
  | clearTable =>
    obtain ⟨-, axt, modc, -⟩ := s.cmdClearTable_keeps
    exact ⟨axt, modc⟩
  | ackFault =>
    unfold State.runCommand State.cmdAckFault
    dsimp only
    repeat' split
    all_goals simp
  | popCapture =>
    unfold State.runCommand State.cmdPopCapture
    dsimp only
    split <;> simp
  | applyManual =>
    unfold State.runCommand State.cmdApplyManual
    dsimp only
    repeat' split
    all_goals simp
  | commit =>
    unfold State.runCommand State.cmdCommit
    dsimp only
    repeat' split
    all_goals simp
  | readEntry =>
    unfold State.runCommand State.cmdReadEntry
    dsimp only
    repeat' split
    all_goals simp
  | raiseLock =>
    unfold State.runCommand State.cmdRaiseLock
    dsimp only
    repeat' split
    all_goals simp
  | clearCounters | discardOpen => exact ⟨rfl, rfl⟩

theorem State.runCommand_keepsGeometry (s : State) (c : Command) (h : movesMode c = false) (clear : c ≠ .clearTable) :
    s.KeepsGeometry (s.runCommand c) := by
  obtain ⟨axt, modc⟩ := s.runCommand_quiet c h
  exact .of_program (s.runCommand_program c clear) (by rw [axt]) (.inl (by rw [modc]))

/-- STOP, HALT_NOW and CLEAR_HALT move nothing that the law speaks of, but that they may end a run. -/
theorem State.runCommand_ends (s : State) (c : Command) (h : c ∈ [Command.stop, .haltNow, .clearHalt]) :
    s.KeepsGeometry (s.runCommand c) := by
  cases c with
  | stop =>
    refine .of_program (s.runCommand_program _ (by decide)) ?_ ?_ <;>
    · unfold State.runCommand State.cmdStop
      dsimp only
      split <;> simp [Mode.running]
  | haltNow =>
    refine .of_program (s.runCommand_program _ (by decide)) ?_ ?_ <;>
    · unfold State.runCommand State.cmdHaltNow
      dsimp only
      split <;> simp [Mode.running]
  | clearHalt =>
    refine .of_program (s.runCommand_program _ (by decide)) ?_ ?_ <;>
    · unfold State.runCommand State.cmdClearHalt
      dsimp only
      repeat' split
      all_goals simp [Mode.running]
  | _ => exact absurd h (by decide)

/-- Every command given by a strobe keeps the law: CLEAR_TABLE and SOFT_RESET leave CONFIG where they do anything. -/
theorem State.runCommand_geometry (law : s.GeometryLaw) (c : Command) : (s.runCommand c).GeometryLaw := by
  cases c with
  | start => exact State.cmdStart_geometry law
  | stop | haltNow | clearHalt => exact law.keep (s.runCommand_ends _ (by decide))
  | softReset =>
    unfold State.runCommand State.cmdSoftReset
    dsimp only
    split
    · exact law
    · exact .of_not_running rfl
  | clearTable =>
    obtain ⟨cfg, axt, modc, kept | ⟨config, -⟩⟩ := s.cmdClearTable_keeps
    · exact law.keep (.of_program ⟨cfg, kept⟩ (congrArg Axt.hwm axt) (.inl (congrArg Modc.mode modc)))
    · exact .of_not_running (by rw [State.runCommand, modc, config]; rfl)
  | _ => exact law.keep (s.runCommand_keepsGeometry _ (by decide) (by decide))

/-! ### Bus writes -/

/-- A write taken in CONFIG alone, and discarded with ACCESS_VIOLATION elsewhere, keeps the law: in CONFIG it says
nothing (R172). -/
theorem State.GeometryLaw.of_frozen (law : s.GeometryLaw) (t : State) (mode : t.modc.mode = s.modc.mode) :
    (if s.modc.mode ≠ .config then s.setAccessViolation else t).GeometryLaw := by
  split
  · exact law
  · rename_i config
    rw [Decidable.not_not] at config
    exact .of_not_running (by rw [mode, config]; rfl)

/-- RELOCK_CFG and MANUAL_LEVELS, which may be written in a run, are in none of the checks but check 5 (R74, R124). -/
theorem State.unfrozen_keepsGeometry (s : State) (rla : BitVec 5) (manual : Word) :
    s.KeepsGeometry { s with cfg.rla := rla, cfg.manualLevels := manual } where
  checks valid k hk := by
    match k, hk with
    | 5, hk => exact absurd rfl hk
    | 0, _ => exact id
    | 1, h | 2, h | 3, h | 4, h | 6, h | 7, h => exact valid _ h
    | _ + 8, _ => exact id
  revLength := rfl
  hwm := rfl
  mode := .inl rfl

/-- Every bus write keeps the law. -/
theorem State.busWrite_geometry (law : s.GeometryLaw) (w : WriteTarget) (v : Word) : (s.busWrite w v).GeometryLaw := by
  cases w with
  | strobe r =>
    unfold State.busWrite State.writeStrobe
    dsimp only
    split
    · exact law
    · exact State.runCommand_geometry law _
    · exact law
  | frozen w => exact law.of_frozen { s with cfg := s.cfg.store w v } rfl
  | encoderCfg => exact law.of_frozen _ rfl
  | timebaseDiv => exact law.of_frozen _ rfl
  | acqCfg => exact law.of_frozen _ rfl
  | safeLevels =>
    refine law.of_frozen _ ?_
    dsimp only
    split <;> rfl
  | manualLevels => exact law.keep (s.unfrozen_keepsGeometry s.cfg.rla v)
  | relockCfg => exact law.keep (s.unfrozen_keepsGeometry (v.extractLsb' 0 5) s.cfg.manualLevels)
  | _ => exact law.keep (.of_program ⟨rfl, rfl⟩ rfl (.inl rfl))

/-! ### Every step -/

/-- Every command keeps the law of the geometry. -/
theorem effectOf_geometry (c : Instr) (law : s.GeometryLaw) : (effectOf c s).GeometryLaw := by
  cases c with
  | forwardCount => exact State.forward_geometry law
  | revolutionBoundary =>
    unfold effectOf State.boundaryCount
    dsimp only
    split
    · exact State.forward_geometry law
    · exact law
  | acquireTimeout =>
    unfold effectOf State.timeoutCount
    dsimp only
    split
    · exact State.forward_geometry law
    · exact law
  | backwardCount => exact law.keep s.backward_keepsGeometry
  | invalidTransition => exact law.keep s.invalidChange_keepsGeometry
  | indexArrival => exact State.indexArrives_geometry law
  | speedWindowExpiry => exact law.keep s.speedExpires_keepsGeometry
  | sensorEdge n d => exact State.edgeArrives_geometry law n d
  | interlockOpening => exact law.keep s.interlockOpens_keepsGeometry
  | pulseExpiry i =>
    refine law.keep (.of_program (s.pulseExpires_program i) ?_ (.inl ?_)) <;>
    · unfold effectOf State.pulseExpires
      dsimp only
      split <;> rfl
  | fetchCompletion =>
    obtain ⟨cfg, table, axt, modc⟩ := s.fetchCompletes_keeps
    exact law.keep (.of_program ⟨cfg, table⟩ (by rw [effectOf, axt]) (.inl (by rw [effectOf, modc])))
  | readbackCompletion =>
    obtain ⟨cfg, table, axt, modc⟩ := s.readbackCompletes_keeps
    exact law.keep (.of_program ⟨cfg, table⟩ (by rw [effectOf, axt]) (.inl (by rw [effectOf, modc])))
  | applicationCompletion => exact State.applicationCompletes_geometry law
  | powerOn | resetPin | resetPinHeld => exact .of_not_running rfl
  | start | stop | haltNow | clearHalt | softReset | ackFault | popCapture | applyManual | clearCounters | submitInsert
  | submitRemove | submitModify | commit | discardOpen | readEntry | clearTable | raiseLock =>
    exact State.runCommand_geometry law _
  | invalidCommandWrite | intFlagsWrite | intEnableWrite | stickyStatusWrite | frozenWordWrite | encoderCfgWrite
  | timebaseDivWrite | acqCfgWrite | safeLevelsWrite | registerWrite => exact State.busWrite_geometry law _ _
  | interlockClosing | positionRead | commitResultRead | faultCauseRead =>
    exact law.keep (.of_program ⟨rfl, rfl⟩ rfl (.inl rfl))

/-- Settles O8: the clock leaves everything the law of the geometry speaks of alone, and every command keeps it. The laws
of the pending set and of the position are not needed. -/
theorem everyStepKeepsEntriesOutOfTheGuardZone : Obligations.EveryStepKeepsEntriesOutOfTheGuardZone := by
  intro s t _ _ law h
  refine step_preserves (P := State.GeometryLaw) (fun s q law => ?_) (fun s law => ?_)
    (fun c s => effectOf_geometry c) law h
  · exact law.keep (.of_program ⟨rfl, rfl⟩ rfl (.inl rfl))
  · obtain ⟨cfg, cam, modc, hwm⟩ := s.refclk_keeps
    exact law.keep (.of_program ⟨cfg, by rw [cam]⟩ hwm (.inl (by rw [modc])))

end Sys2Proof.Machine
end

section
/-! PROOFS. Frames, resets, and the commands of the table port: READ_ENTRY, the completion of a read-back, and CLEAR_TABLE. -/

namespace Sys2Proof.Machine

variable {s t : State}

/-- A frame is shown part by part: each part is among those listed, or the two states agree on it. -/
theorem State.sameBut_of {changed : List Part} (parts : ∀ p, p ∈ changed ∨ s.agreesOn t p)
    (outside : t.resetHeld = s.resetHeld ∧ t.encInput = s.encInput ∧ t.pending = s.pending) : s.sameBut changed t :=
  ⟨fun p hp => (parts p).resolve_left hp, outside⟩

/-! ### Resets -/

/-- Settles O11: the reset state has an empty table, an empty pending set, an empty window, no position, and is in
CONFIG. -/
theorem resetStateObeysEveryLaw : Obligations.ResetStateObeysEveryLaw := by
  have geometry : State.reset.GeometryLaw := .of_not_running rfl
  refine ⟨⟨.nil, by decide⟩, ⟨.nil, by decide, ?_⟩, ?_, geometry, ?_, ?_, ?_, ?_⟩
  · rintro ⟨r, hr, -⟩; cases hr
  · exact ⟨by decide, by decide, by decide, by decide⟩
  · refine ⟨by decide, .nil, ?_, fun _ => ⟨rfl, rfl, rfl, ?_⟩, by decide, ?_, by decide, ?_, ?_⟩ <;> intro _ h <;> cases h
  · exact ⟨by decide, by decide, by decide⟩
  · exact ⟨by decide, by decide, by decide, by decide⟩
  · refine ⟨by decide, by decide, by decide, by decide, by decide, by decide, ?_⟩
    intro _ h; cases h

/-- The reset values of the words (9.5). ENC_A and ENC_B do not show in them. -/
theorem resetTo_words : ∀ (enable : Bool) (a : BitVec 7),
    (State.reset.resetTo ⟨false, false, enable⟩).readWord a = match a.toNat with
      | 0x00 => 0x5C16
      | 0x01 => 0x0002
      | 0x02 => if enable then 0x0401 else 0x0001
      | 0x10 => 0x1000
      | 0x11 => 0x0040
      | 0x12 => 0x0010
      | 0x13 => 0x0008
      | 0x14 => 0x0FFF
      | 0x16 => 0x0002
      | 0x18 => 0x0019
      | 0x1B => 0x0600
      | 0x1C => 0x0800
      | 0x1D => 0x0A00
      | 0x1E => 0x0083
      | 0x36 => 0x0004
      | _ => 0 := by
  decide

/-- Settles O12: both commands give the reset state with the pins' levels, and the words are those of the reset state. -/
theorem powerOnAndResetPinGiveTheResetState : Obligations.PowerOnAndResetPinGiveTheResetState :=
  fun p _ => ⟨rfl, rfl, fun a => resetTo_words p.enable a⟩

/-- Settles O14: SOFT_RESET is one update of the state, and the claims on the lines and on the fetch in flight are those
of a claim on every line and of a cancellation. -/
theorem softResetKeepsTheProgramAndTheConfiguration : Obligations.SoftResetKeepsTheProgramAndTheConfiguration := by
  intro s held
  rw [exec_live _ _ held]
  refine ⟨fun busy => ?_, fun idle => ⟨_, rfl, ?_⟩⟩
  · rw [effectOf, State.runCommand, State.cmdSoftReset, if_pos busy]; rfl
  · have resets : effectOf .softReset s = { s with
        axt := s.softAxt, lfu := s.lfu.softReset, out := s.softOut, mcr := Mcr.reset, revq := Revq.reset s.revq.staging
        modc := Modc.reset, flt := ⟨[]⟩
        biu := Biu.reset s.biu.arg ⟨commandCode .softReset, .ok, 0⟩ s.biu.dataOut, tb.elapsed := 0 } := by
      rw [effectOf, State.runCommand, State.cmdSoftReset, if_neg (Bool.eq_false_iff.mp idle)]
    have fetch : s.lfu.softReset.fetch = cancelled s.lfu.fetch := s.lfu.cancelFetch_fetch
    rw [resets]
    refine ⟨rfl, rfl, rfl, rfl, rfl, rfl, rfl, fun f hf => ?_, fun hf => ?_, fun i => s.out.claimAll_lines s.cfg i, rfl, rfl,
      rfl, rfl, rfl, rfl, rfl, State.sameBut_of (fun p => ?_) ⟨rfl, rfl, rfl⟩⟩
    · dsimp only; rw [fetch, hf]; rfl
    · dsimp only; rw [fetch, hf]; rfl
    · cases p <;> simp [State.agreesOn]

/-! ### The table port -/

/-- Settles O42, by the two refusals of R14 in their order. -/
theorem clearTableEmptiesTheTableInConfig : Obligations.ClearTableEmptiesTheTableInConfig := by
  intro s held
  rw [exec_live _ _ held]
  simp only [effectOf, State.runCommand, State.cmdClearTable]
  refine ⟨fun mode => ?_, fun config group => ?_, fun config none => ?_⟩
  · rw [if_pos mode]; rfl
  · rw [if_neg (by simp [config]), if_pos (Option.isSome_iff_ne_none.mpr group)]; rfl
  · rw [if_neg (by simp [config]), if_neg (by simp [none])]; rfl

/-- A read-back is pending where it holds the port or waits for it (R11). -/
theorem State.readbackPending_iff (s : State) :
    s.readbackPending = true ↔ (∃ i e, s.cam.port = .readback i e) ∨ s.cam.readbackWaits ≠ none := by
  unfold State.readbackPending
  cases s.cam.port <;> simp [Option.isSome_iff_ne_none]

/-- No waiting fetch, in the words of the claims (R44). -/
theorem Lfu.waitingFetch_none {l : Lfu} (h : ∀ f, l.fetch = some f → f.state ≠ .waiting) : l.waitingFetch = none := by
  cases hw : l.waitingFetch with
  | none => rfl
  | some i =>
    obtain ⟨tag, hf⟩ := (l.waitingFetch_eq i).mp hw
    exact absurd rfl (h _ hf)

/-- Settles O41: the refusals of R11 in their order, then the arbiter on a held or a free port. -/
theorem readEntryRequestsAReadback : Obligations.ReadEntryRequestsAReadback := by
  intro s held
  rw [exec_live _ _ held]
  simp only [effectOf, State.runCommand, State.cmdReadEntry, ← State.readbackPending_iff]
  refine ⟨fun busy => ?_, fun idle none beyond => ?_, fun idle none within port => ?_,
    fun idle none within port waits => ?_⟩
  · by_cases applies : s.applying = true
    · rw [if_pos applies]; rfl
    · rw [if_neg applies, if_pos (busy.resolve_left applies)]; rfl
  · rw [if_neg (Bool.eq_false_iff.mp idle), if_neg none, if_pos beyond]; rfl
  · rw [if_neg (Bool.eq_false_iff.mp idle), if_neg none, if_neg (by omega), State.arbitrate_held _ (by exact port)]; rfl
  · rw [if_neg (Bool.eq_false_iff.mp idle), if_neg none, if_neg (by omega)]
    have noFetch := Lfu.waitingFetch_none waits
    rw [State.applying_eq] at idle
    simp [State.arbitrate, port, idle, noFetch, State.grantReadback, State.answer, commandCode]

/-- A read-back that holds the port completes: the record, the READ flag, and the arbiter on the freed port (R12). -/
theorem State.readbackCompletes_readback {i : Nat} {e : Option Entry} (h : s.cam.port = .readback i e) :
    s.readbackCompletes = ({ s with cam.record := ⟨i, e⟩, cam.port := .free }.setFlag .read).arbitrate := by
  rw [State.readbackCompletes, h]

theorem State.readbackCompletes_other (h : ∀ i e, s.cam.port ≠ .readback i e) : s.readbackCompletes = s := by
  unfold State.readbackCompletes
  split
  · rename_i i e port
    exact absurd port (h i e)
  · rfl

/-- Of LFU the arbiter moves the fetch in flight alone. -/
theorem State.arbitrate_lfu (s : State) : s.arbitrate.lfu = { s.lfu with fetch := s.arbitrate.lfu.fetch } := by
  obtain ⟨-, -, -, -, -, -, -, -, -, -, -, -, -, -, -, window, cursor, deferred, late, unexamined⟩ := s.arbitrate_keeps
  dsimp only
  rw [← window, ← cursor, ← deferred, ← late, ← unexamined]

/-- The arbiter makes no read-back wait. -/
theorem State.arbitrate_noReadback (s : State) (h : s.cam.readbackWaits = none) :
    s.arbitrate.cam.readbackWaits = none := by
  unfold State.arbitrate
  repeat' split
  all_goals simp [h]

/-- Settles O40: on the freed port the arbiter grants an application, else a waiting fetch, else nobody. -/
theorem readbackCompletionFillsTheRecordAndFreesThePort :
    Obligations.ReadbackCompletionFillsTheRecordAndFreesThePort := by
  intro s held
  have run : exec .readbackCompletion s = .next s.readbackCompletes := exec_live _ s held
  rw [run]
  refine ⟨fun other => by rw [State.readbackCompletes_other other], fun i e port noReadback => ⟨_, rfl, ?_⟩⟩
  rw [State.readbackCompletes_readback port]
  let freed := ({ s with cam.record := ⟨i, e⟩, cam.port := .free } : State).setFlag .read
  obtain ⟨-, toApplication, toOthers⟩ := freed.arbitrate_served
  have kept : freed.arbitrate.cam.table = s.cam.table ∧ freed.arbitrate.cam.record = ⟨i, e⟩ := by simp [freed]
  have onlyFetch : ∀ f, freed.arbitrate.lfu.fetch = f → freed.arbitrate.lfu = { s.lfu with fetch := f } := by
    rintro f rfl; exact freed.arbitrate_lfu
  have noBack : freed.cam.readbackWaits = none := noReadback
  refine ⟨kept.2, kept.1, freed.arbitrate_noReadback noBack, by simp [Flag.mask], fun applies => ?_, fun idle j tag waiting => ?_,
    fun idle nobody => ?_, State.sameBut_of (fun p => ?_) (by simp)⟩
  · obtain ⟨cam, fetch⟩ := toApplication rfl applies
    exact ⟨by rw [cam], by rw [cam]; rfl, onlyFetch _ fetch⟩
  · obtain ⟨toFetch, -⟩ := toOthers rfl idle
    obtain ⟨cam, fetch⟩ := toFetch j tag waiting (.inl noBack)
    exact ⟨by rw [cam]; rfl, by rw [cam], onlyFetch _ fetch⟩
  · obtain ⟨-, -, toNobody⟩ := toOthers rfl idle
    obtain ⟨cam, fetch⟩ := toNobody noBack fun j tag waiting => absurd rfl (nobody _ waiting)
    exact ⟨by rw [cam]; rfl, by rw [cam]; rfl, onlyFetch _ fetch⟩
  · cases p <;> simp [State.agreesOn]

end Sys2Proof.Machine
end

section
/-! PROOFS. Acquisition: by index, by mark, and at once by an accepted START. -/

namespace Sys2Proof.Machine

variable {s t : State}

/-! ### By index -/

/-- In ACQUIRE with source INDEX an index arrival acquires (R31). -/
theorem State.indexArrives_acquires (mode : s.modc.mode = .acquire) (source : s.cfg.acqSource = .index) :
    s.indexArrives = s.acquire s.indexPoint true := by
  rw [State.indexArrives, mode]
  dsimp only
  rw [source]

/-- Settles O27: the arrival is an acquisition at the index point that may arm the monitor. -/
theorem indexArrivalAcquiresPhase : Obligations.IndexArrivalAcquiresPhase := by
  intro s held mode source
  have run : exec .indexArrival s = .next s.indexArrives := exec_live _ s held
  rw [run, State.indexArrives_acquires mode source]
  refine ⟨_, rfl, by simp, by simp [State.indexPoint, State.revLen], s.acquire_started _ _, by simp, by simp,
    by simp [Flag.mask], State.sameBut_of (fun p => ?_) (by simp)⟩
  cases p <;> simp [State.agreesOn]

/-! ### By mark -/

/-- The operation's reading of an edge selection is the claims' (R80). -/
theorem EdgeSel.selects_iff (sel : EdgeSel) (d : Edge) : sel.selects d = true ↔ sel.Takes d := by
  unfold EdgeSel.Takes
  cases sel <;> cases d <;> simp [EdgeSel.selects]

/-- A record that finds room joins the tail, and sets CAPT where the queue was empty (R84, R86). -/
theorem State.record_room (s : State) (r : CaptureRecord) (h : s.mcr.queue.length < 16) :
    (s.record r).mcr = { s.mcr with queue := s.mcr.queue ++ [r] } ∧ (s.record r).flt = s.flt
      ∧ (s.record r).biu = { s.biu with flags := s.biu.flags ||| if s.mcr.queue = [] then 0x08 else 0 } := by
  have room : s.mcr.queue.length < Config.capturePlaces := h
  unfold State.record
  rw [if_pos room]
  dsimp only
  split <;> rename_i empty <;> simp at empty <;> simp [empty, Flag.mask]

/-- A record that finds none is discarded, counted, and CAPTURE_OVERFLOW raised with the count (R84, R87). -/
theorem State.record_full (s : State) (r : CaptureRecord) (h : 16 ≤ s.mcr.queue.length) :
    (s.record r).mcr = { s.mcr with overflow := min 255 (s.mcr.overflow + 1) }
      ∧ s.WarnedInTurn [(.captureOverflow, .num (min 255 (s.mcr.overflow + 1)))] s.stamp (s.record r) := by
  have full : ¬s.mcr.queue.length < Config.capturePlaces := by simpa using h
  have warns : Cause.captureOverflow.halting = false := rfl
  have count : min 255 ((s.mcr.overflow : Int) + 1) = (min 255 (s.mcr.overflow + 1) : Nat) := by omega
  rw [count]
  unfold State.record
  rw [if_neg full]
  exact ⟨by simp [State.raise, State.raiseAt_warns, warns, addSat],
      ({ s with mcr.overflow := min 255 (s.mcr.overflow + 1) } : State).raiseAt_raises s.stamp _ _ rfl⟩

/-- The state after the acquisition by mark, before its record is queued (R93). -/
def State.markAcquired (s : State) : State :=
  { s.acquire s.cfg.markNominal.toNat false with mcr.mark := ⟨some 0, 0⟩ }

/-- The selected edge that acquires by mark: acquisition at the nominal, then the record of it (R93). -/
theorem State.edgeArrives_acquires {d : Edge} (mode : s.modc.mode = .acquire) (source : s.cfg.acqSource = .mark)
    (taken : s.cfg.sensorSel[s.cfg.markSensor].Takes d) :
    s.edgeArrives s.cfg.markSensor d
      = s.markAcquired.record ⟨s.cfg.markSensor, d, s.cfg.markNominal, 0, .accepted⟩ := by
  have selected := (EdgeSel.selects_iff _ _).mpr taken
  rw [State.edgeArrives, if_neg (by rw [selected]; decide), mode]
  exact if_pos ⟨source, rfl⟩

theorem State.markAcquired_stamp (s : State) : s.markAcquired.stamp = ⟨.locked, s.cfg.markNominal, 0⟩ := by
  simp [State.stamp, State.markAcquired, wordOf]

/-- Settles O33: the acquisition is the one by index but for the monitor, and the record is queued or discarded after it. -/
theorem markEdgeAcquiresAtTheNominal : Obligations.MarkEdgeAcquiresAtTheNominal := by
  intro s d held mode source taken
  have run : exec (.sensorEdge s.cfg.markSensor d) s = .next (s.edgeArrives s.cfg.markSensor d) := exec_live _ s held
  rw [run, State.edgeArrives_acquires mode source taken]
  let r : CaptureRecord := ⟨s.cfg.markSensor, d, s.cfg.markNominal, 0, .accepted⟩
  have mcr : s.markAcquired.mcr = { s.mcr with mark := ⟨some 0, 0⟩ } := by simp [State.markAcquired]
  have biu : s.markAcquired.biu = { s.biu with flags := s.biu.flags ||| 0x02 } := by simp [State.markAcquired, Flag.mask]
  have flt : s.markAcquired.flt = s.flt := by simp [State.markAcquired]
  have started : s.CursorStarted s.cfg.markNominal.toNat (s.markAcquired.record r) :=
    (s.acquire_started _ false).congr (by simp [State.markAcquired]) (by simp [State.markAcquired])
      (by simp [State.markAcquired]) (by simp [State.markAcquired])
  have room := s.markAcquired.record_room r
  have full := s.markAcquired.record_full r
  rw [State.markAcquired_stamp] at full
  simp only [mcr, biu, flt] at room full
  refine ⟨_, rfl, by simp [State.markAcquired], by simp [State.markAcquired], ?_, started, by simp [State.markAcquired],
    by simp [State.markAcquired], fun short => ?_, fun long => ?_,
    State.sameBut_of (fun p => ?_) (by simp [State.markAcquired])⟩
  · rcases Nat.lt_or_ge s.mcr.queue.length 16 with short | long
    · rw [(room short).1]
    · rw [(full long).1]
  · obtain ⟨mcr, flt, biu⟩ := room short
    rw [mcr, flt, biu]
    exact ⟨rfl, rfl, rfl, rfl⟩
  · obtain ⟨mcr, causes, bus⟩ := full long
    rw [mcr, causes, bus]
    refine ⟨rfl, rfl, by simp [flt], ?_⟩
    rw [biu, flt]
    cases pending : inPendingSet .captureOverflow s.flt.causes <;> simp [pending]
  · cases p <;> simp [State.agreesOn, State.markAcquired]

/-! ### By START -/

/-- R59's reaction to a mode entry, in the words of the claims. -/
theorem Lfu.quiesce_eq (l : Lfu) :
    l.quiesce = { l with window := [], cursor := .parked, deferred := none, fetch := cancelled l.fetch } := by
  rw [← l.cancelFetch_fetch]; rfl

/-- What the entry into ACQUIRE does to AXT and to the flags (R36, R127). -/
theorem State.enterAcquire_axt (s : State) :
    s.enterAcquire.axt = { s.axt with
        position := 0, hwm := 0, deficit := 0, stretch := 0, revolution := 0, acqCount := 0, armed := false }
      ∧ s.enterAcquire.biu = { s.biu with flags := s.biu.flags ||| 0x02 } := ⟨rfl, rfl⟩

/-- A START that passes every check enters ACQUIRE, and with source IMMEDIATE acquires there at once (R127, R129). -/
theorem State.cmdStart_accepted (config : s.modc.mode = .config) (closed : s.out.interlock = .closed)
    (passes : ∀ k, ¬s.FailsCheck k) :
    s.cmdStart = (if s.cfg.acqSource = .immediate then s.enterAcquire.acquire s.indexPoint false
      else s.enterAcquire).answer .start .ok := by
  rw [State.cmdStart, if_neg (Decidable.not_not.mpr config), if_neg (by rw [closed]; decide),
    if_neg (Decidable.not_not.mpr (s.startCheck_eq_zero_iff.mpr passes))]
  cases s.cfg.acqSource <;> rfl

/-- Settles O50: with every check passed START enters ACQUIRE, and with source IMMEDIATE acquires at the index point. -/
theorem acceptedStartWaitsOrAcquiresAtOnce : Obligations.AcceptedStartWaitsOrAcquiresAtOnce := by
  intro s held config closed passes
  have run : exec .start s = .next s.cmdStart := exec_live _ s held
  obtain ⟨axt, biu⟩ := s.enterAcquire_axt
  rw [run, State.cmdStart_accepted config closed passes]
  by_cases now : s.cfg.acqSource = .immediate
  · rw [if_pos now]
    have started := (s.enterAcquire.acquire_started s.indexPoint false).from
      (s := { s with lfu := s.lfu.quiesce }) (by simp) (by simp) (by simp)
    refine ⟨_, rfl, by simp [now], by simp [now, axt, State.indexPoint, State.revLen], fun i => by simp,
      by simp [closed], by simp, by simp, fun waits => absurd now waits, fun _ => ?_, by simp, by simp,
      by simp [biu, commandCode, Flag.mask, BitVec.or_assoc], State.sameBut_of (fun p => ?_) (by simp)⟩
    · rw [← Lfu.quiesce_eq]
      exact started.congr (by simp) (by simp) (by simp) (by simp)
    · cases p <;> simp [State.agreesOn]
  · rw [if_neg now]
    refine ⟨_, rfl, by simp [now], by simp [now, axt], fun i => by simp, by simp [closed], by simp, by simp,
      fun _ => by simp [Lfu.quiesce_eq], fun atOnce => absurd atOnce now, by simp, by simp, by simp [biu, commandCode],
      State.sameBut_of (fun p => ?_) (by simp)⟩
    cases p <;> simp [State.agreesOn]

end Sys2Proof.Machine
end

section
/-! PROOFS. Firing: at an advance of the high-water mark, at an expiry of the speed window, and at the completion of a fetch. -/

namespace Sys2Proof.Machine

variable {s t : State}

/-- A hand-over finds the lines, the mode, the critical lines and the late count of the state it begins in. -/
theorem State.HandedOver.from {s' : State} {l : List Slot} {h : Nat} (hh : s'.HandedOver l h t) (out : s'.out = s.out)
    (modc : s'.modc = s.modc) (cfg : s'.cfg = s.cfg) (late : s'.lfu.late = s.lfu.late) : s.HandedOver l h t := by
  unfold State.HandedOver State.turnsAway at hh ⊢
  rw [out, modc, cfg, late] at hh
  exact hh

/-- The counts that a hand-over adds to are within their ends where the law of the counts holds (R60, R77). -/
theorem State.CountsLaw.firing (h : s.CountsLaw) :
    s.lfu.late ≤ Config.count16Max ∧ s.out.suppressed ≤ Config.count16Max := by
  obtain ⟨-, -, -, late, -, suppressed, -⟩ := h
  exact ⟨late, suppressed⟩

/-- In a tracking mode the stamp is the mode with the position and the revolution number (R147). -/
theorem State.stamp_tracking (h : s.modc.mode.tracking = true) :
    s.stamp = ⟨s.modc.mode, wordOf s.axt.position, s.axt.revolution⟩ := by
  unfold State.stamp
  split
  · rename_i mode; rw [mode] at h; cases h
  · rfl

/-! ### An advance of the high-water mark -/

/-- The state after a forward count that takes the position and hwm one count on, before LFU and REVQ take it (R23). -/
def State.climbed (s : State) : State :=
  let t := (s.acceptLevels (s.cfg.levelsForward s.axt.ref)).counted 1
  { t with axt.position := s.axt.position + 1, axt.hwm := s.axt.position + 1 }

theorem State.climbed_keeps (s : State) :
    s.climbed.cfg = s.cfg ∧ s.climbed.cam = s.cam ∧ s.climbed.lfu = s.lfu ∧ s.climbed.out = s.out
      ∧ s.climbed.mcr = s.mcr ∧ s.climbed.revq = s.revq ∧ s.climbed.modc = s.modc ∧ s.climbed.flt = s.flt
      ∧ s.climbed.biu = s.biu ∧ s.climbed.tb = s.tb ∧ s.climbed.resetHeld = s.resetHeld
      ∧ s.climbed.encInput = s.encInput ∧ s.climbed.pending = s.pending :=
  ⟨rfl, rfl, rfl, rfl, rfl, rfl, rfl, rfl, rfl, rfl, rfl, rfl, rfl⟩

/-- Where R23's third case raises hwm, the forward count is that advance. -/
theorem State.forward_climbs (tracking : s.modc.mode.tracking = true) (deficit : s.axt.deficit = 0)
    (stretch : s.axt.stretch = 0) (below : s.axt.position + 1 < s.cfg.revLength.toNat)
    (top : s.axt.hwm ≤ s.axt.position) : s.forward = s.climbed.hwmAdvanced := by
  have advances : ((s.acceptLevels (s.cfg.levelsForward s.axt.ref)).counted 1).advance = s.climbed.hwmAdvanced := by
    unfold State.advance
    rw [if_neg (by simp [deficit]), if_neg (by simp [stretch]), if_pos (by simpa [State.revLen] using below)]
    exact if_pos (Nat.lt_succ_of_le top)
  unfold State.forward
  split
  case h_1 mode | h_2 mode | h_3 mode => rw [mode] at tracking; cases tracking
  case h_4 | h_5 => exact advances

/-- What LFU and REVQ do at an advance, in the words of the claims (R50 to R52, R114). -/
theorem State.hwmAdvanced_fires (s : State) (counts : s.CountsLaw) :
    s.HandedOver (s.lfu.window.filter (Slot.due s.axt.hwm)) s.axt.hwm s.hwmAdvanced
      ∧ s.WarnedInTurn (lateRaises s.axt.hwm (s.lfu.window.filter (Slot.due s.axt.hwm)) ++ s.overrunRaises s.axt.hwm)
          s.stamp s.hwmAdvanced
      ∧ s.hwmAdvanced.PortServed s.cam s.lfu.fetch := by
  obtain ⟨late, suppressed⟩ := counts.firing
  have overrun := s.evaluate.watchOverrun_raises
  rw [s.stamp_congr (t := s.evaluate) (by simp) (by simp)] at overrun
  simp only [State.overrunRaises, State.evaluate_keeps] at overrun
  refine ⟨(s.evaluate_handOver late suppressed).congr (by simp [State.hwmAdvanced]) (by simp [State.hwmAdvanced]),
    (s.evaluate_raises.append overrun).congr rfl rfl (by simp [State.hwmAdvanced]) (by simp [State.hwmAdvanced]), ?_⟩
  have served := s.evaluate.watchOverrun.requestFetch_served
  simp only [State.watchOverrun_keeps, State.evaluate_keeps] at served
  exact served

/-- Settles O19: the count is an advance, at which the due slots are handed over, warnings raised and a fetch requested. -/
theorem highWaterAdvanceFiresTheSlotsItReaches : Obligations.HighWaterAdvanceFiresTheSlotsItReaches := by
  intro s held tracking counts deficit stretch below top
  have run : exec .forwardCount s = .next s.forward := exec_live _ s held
  obtain ⟨cfg, cam, lfu, out, mcr, revq, modc, flt, biu, tb, resetHeld, encInput, pending⟩ := s.climbed_keeps
  have axt : s.climbed.axt = { s.axt with
      ref := s.cfg.levelsForward s.axt.ref, position := s.axt.position + 1, hwm := s.axt.position + 1
      net := s.axt.net + 1, mech := max (-131072) (min 131071 (s.axt.mech + 1)) } := by
    simp [State.climbed, State.counted, tracking, clampInt]
  obtain ⟨handed, warned, served⟩ := s.climbed.hwmAdvanced_fires (by
    unfold State.CountsLaw; rw [mcr, revq, lfu, out, flt]; exact counts)
  rw [State.stamp_tracking (by rw [modc]; exact tracking)] at warned
  simp only [State.overrunRaises, axt, cfg, cam, lfu, revq, modc] at handed warned served
  rw [run, State.forward_climbs tracking deficit stretch below top]
  refine ⟨_, rfl, by simp [axt], ?_, ?_, by simp [State.hwmAdvanced, lfu], by simp [State.hwmAdvanced, lfu],
    by simp [State.hwmAdvanced, lfu], handed.from out modc cfg (by rw [lfu]), warned.congr flt.symm biu.symm rfl rfl, served,
    State.sameBut_of (fun p => ?_) (by simp [State.hwmAdvanced, resetHeld, encInput, pending])⟩
  · simp [State.hwmAdvanced, State.climbed]
  · simp [State.hwmAdvanced, lfu, axt, Slot.due]
  · cases p <;> simp [State.agreesOn, State.hwmAdvanced, cfg, mcr, revq, modc, tb]

end Sys2Proof.Machine
end

section
/-! PROOFS. The expiry of the speed window, and the completion of a fetch: what is computed, loaded and fired, and how the port is served after it. -/

namespace Sys2Proof.Machine

variable {s t : State}

/-- A change after a change leaves what neither touches. -/
theorem State.sameBut.trans {u : State} {l l' : List Part} (h : s.sameBut l t) (h' : t.sameBut l' u) :
    s.sameBut (l ++ l') u := by
  obtain ⟨parts, held, enc, pending⟩ := h
  obtain ⟨parts', held', enc', pending'⟩ := h'
  refine ⟨fun p hp => ?_, held'.trans held, enc'.trans enc, pending'.trans pending⟩
  rw [List.mem_append, not_or] at hp
  have first := parts p hp.1
  have second := parts' p hp.2
  cases p <;> exact Eq.trans second first

theorem State.sameBut.mono {l l' : List Part} (h : s.sameBut l t) (sub : l ⊆ l') : s.sameBut l' t :=
  ⟨fun p hp => h.1 p fun listed => hp (sub listed), h.2⟩

/-! ### The speed window -/

/-- The state with every slot's effective position computed anew, before its clamps are raised (R49). -/
def State.recomputed (s : State) : State :=
  { s with lfu.window := s.lfu.window.map fun x => { x with eff := s.cfg.effective s.axt.speed x.entry } }

/-- What an expiry in a tracking mode does to the window, the lines and the pending set, in the words of the claims
(R48 to R52). -/
theorem State.recompute_fires (s : State) (tracking : s.modc.mode.tracking = true) (counts : s.CountsLaw) :
    let moved := s.recomputed.lfu.window
    let fired := moved.filter (Slot.due s.axt.hwm)
    s.recompute.lfu.window = moved.filter (fun x => !x.due s.axt.hwm)
      ∧ s.recompute.lfu.cursor = s.lfu.cursor ∧ s.recompute.lfu.deferred = s.lfu.deferred
      ∧ s.recompute.lfu.unexamined = s.lfu.unexamined
      ∧ s.HandedOver fired s.axt.hwm s.recompute
      ∧ s.WarnedInTurn (s.cfg.clampRaises s.axt.speed (s.lfu.window.map Slot.entry) ++ lateRaises s.axt.hwm fired)
          s.stamp s.recompute
      ∧ s.recompute.PortServed s.cam s.lfu.fetch
      ∧ s.sameBut [.lfu, .out, .cam, .flt, .biu] s.recompute := by
  intro moved fired
  have runs : s.recompute = ((s.lfu.window.foldl (fun (t : State) (x : Slot) => t.raiseClamp x.entry)
      s.recomputed).evaluate).requestFetch := by
    rw [State.recompute, if_pos tracking]; rfl
  have clamps := raiseClamps_raise s.recomputed s.lfu.window
  obtain ⟨cfg, axt, cam, lfu, out, mcr, revq, modc, pins, tb, resetHeld, encInput, pending, -⟩ :=
    raiseClamps_keep s.recomputed s.lfu.window
  generalize s.lfu.window.foldl (fun (t : State) (x : Slot) => t.raiseClamp x.entry) s.recomputed = u at *
  obtain ⟨late, suppressed⟩ := counts.firing
  have handed := u.evaluate_handOver (by rw [lfu]; exact late) (by rw [out]; exact suppressed)
  have fires := u.evaluate_raises
  have served := u.evaluate.requestFetch_served
  rw [s.recomputed.stamp_congr (congrArg Modc.mode modc) axt] at fires
  simp only [State.evaluate_keeps, lfu, axt, cam] at handed fires served
  rw [runs]
  refine ⟨by simp [lfu, axt, moved, State.recomputed], by simp [lfu, State.recomputed], by simp [lfu, State.recomputed],
    by simp [lfu, State.recomputed], (handed.from out modc cfg (by rw [lfu])).congr (by simp) (by simp),
    (clamps.append fires).congr rfl rfl (by simp) (by simp), served,
    State.sameBut_of (fun p => ?_) (by simp [resetHeld, encInput, pending, State.recomputed])⟩
  cases p <;> simp [State.agreesOn, cfg, axt, mcr, revq, modc, pins, tb, State.recomputed]

/-- The state with the speed just published, before it is judged (R28). -/
def State.published (s : State) : State := { s with axt := s.axt.publishSpeed }

/-- Short of OVERSPEED an expiry publishes and computes anew (R28, R29, R49). -/
theorem State.speedExpires_quiet (h : s.axt.net ≤ s.cfg.overspeed.toNat) : s.speedExpires = s.published.recompute := by
  have slow : (s.modc.mode.running && decide ((s.cfg.overspeed.toNat : Int) < s.axt.net)) = false := by
    rw [decide_eq_false (by omega), Bool.and_false]
  unfold State.speedExpires
  dsimp only
  rw [slow]
  rfl

/-- Settles O30: the published speed, then the computation anew of the window. -/
theorem speedWindowExpiryMovesTheWindowAndFires : Obligations.SpeedWindowExpiryMovesTheWindowAndFires := by
  intro s held tracking slow counts
  have run : exec .speedWindowExpiry s = .next s.speedExpires := exec_live _ s held
  obtain ⟨window, cursor, deferred, unexamined, handed, warned, served, same⟩ :=
    s.published.recompute_fires tracking counts
  have publishes : s.sameBut [.axt] s.published :=
    State.sameBut_of (fun p => by cases p <;> simp [State.agreesOn, State.published]) ⟨rfl, rfl, rfl⟩
  rw [run, State.speedExpires_quiet slow, State.placeNow_eq]
  exact ⟨_, rfl, by simp; rfl, window, cursor, deferred, unexamined, handed, warned, served, publishes.trans same⟩

/-! ### The completion of a fetch -/

/-- The cursor after an entry is examined: one index on, or at the end of the table the next place (R43). -/
theorem Cursor.endOfTable_next (count i : Nat) (tag : RevTag) :
    (i + 1 ≠ count → Cursor.endOfTable count (.reading (i + 1) tag) = .reading (i + 1) tag)
      ∧ (i + 1 = count → Cursor.endOfTable count (.reading (i + 1) tag) = match tag with
        | .current => .reading 0 .next
        | .next => .parked) := by
  constructor
  · intro inside
    cases tag <;> simp [Cursor.endOfTable, inside]
  · rintro rfl
    cases tag <;> simp [Cursor.endOfTable]

theorem State.fetchCompletes_other (h : ∀ e, s.cam.port ≠ .fetch e) : s.fetchCompletes = s := by
  unfold State.fetchCompletes
  split
  · rename_i e port
    exact absurd port (h e)
  · rfl

/-- The completion of a cancelled fetch (R45). -/
theorem State.fetchCompletes_cancelled {e : Option Entry} {i : Nat} {tag : RevTag} (port : s.cam.port = .fetch e)
    (fetch : s.lfu.fetch = some ⟨i, tag, .cancelled⟩) :
    s.fetchCompletes = ({ s with cam.port := .free, lfu.fetch := none } : State).requestFetch := by
  rw [State.fetchCompletes, port]
  dsimp only
  rw [fetch]

/-- The completion of a granted fetch: the entry is loaded or passed over, and the cursor goes on (R46). -/
theorem State.fetchCompletes_granted {e : Entry} {i : Nat} {tag : RevTag} (port : s.cam.port = .fetch (some e))
    (fetch : s.lfu.fetch = some ⟨i, tag, .granted⟩) :
    s.fetchCompletes = (({ s with cam.port := .free } : State).examine (some e) ⟨i, tag, .granted⟩).requestFetch := by
  rw [State.fetchCompletes, port]
  dsimp only
  rw [fetch]

/-- An entry takes part exactly where the remainder of its revolution by its period is its phase (R2). -/
theorem Entry.takesPart_iff (e : Entry) (tag : RevTag) (s : State) :
    e.takesPart (s.revolutionOf tag) = true ↔ (match tag with
      | .current => s.axt.revolution
      | .next => s.axt.revolution + 1).toNat % e.period.value = e.phase.toNat := by
  cases tag <;> exact beq_iff_eq

/-- Settles O38: a cancelled fetch leaves LFU but for the fetch in flight, and an entry passed over moves the cursor. -/
theorem fetchOfNoUseLoadsNothing : Obligations.FetchOfNoUseLoadsNothing := by
  intro s held
  have run : exec .fetchCompletion s = .next s.fetchCompletes := exec_live _ s held
  rw [run]
  refine ⟨fun other => by rw [State.fetchCompletes_other other], fun e i tag port fetch => ?_,
    fun e i tag port fetch idle => ?_⟩
  · rw [State.fetchCompletes_cancelled port fetch]
    refine ⟨_, rfl, by simp, by simp, by simp, by simp, by simp,
      ({ s with cam.port := .free, lfu.fetch := none } : State).requestFetch_served, State.sameBut_of (fun p => ?_) (by simp)⟩
    cases p <;> simp [State.agreesOn]
  · let passed : State := { s with
      cam.port := .free, lfu.cursor := Cursor.endOfTable s.cam.table.length (.reading (i + 1) tag), lfu.fetch := none }
    have passes : ({ s with cam.port := .free } : State).examine (some e) ⟨i, tag, .granted⟩ = passed := by
      have out := mt (Entry.takesPart_iff e tag ({ s with cam.port := .free } : State)).mp idle
      rw [State.examine]
      dsimp only
      rw [if_neg out]
    have cursor : passed.requestFetch.lfu.cursor = passed.lfu.cursor := by simp
    obtain ⟨inside, atEnd⟩ := Cursor.endOfTable_next s.cam.table.length i tag
    rw [State.fetchCompletes_granted port fetch, passes]
    refine ⟨_, rfl, by simp [passed], fun h => cursor.trans (inside h), fun h => cursor.trans (atEnd h), by simp [passed],
      by simp [passed], by simp [passed], passed.requestFetch_served, State.sameBut_of (fun p => ?_) (by simp [passed])⟩
    cases p <;> simp [State.agreesOn, passed]

/-- The slot that a load puts at the tail (R46 to R48). -/
def State.slotOf (s : State) (e : Entry) (f : Fetch) : Slot := ⟨e, f.index, f.tag, s.cfg.effective s.axt.speed e⟩

/-- The state with the slot at the tail, before a clamp is raised (R46). -/
def State.tailed (s : State) (e : Entry) (f : Fetch) : State :=
  { s with lfu.window := s.lfu.window ++ [s.slotOf e f] }

/-- The slots that fire when an entry is loaded: none with a NEXT one, all CURRENT ones that are due with a CURRENT one. -/
def loadFires (tag : RevTag) (hwm : Nat) (x : Slot) : Bool := 
  tag == .current && x.tag == .current && decide (x.eff ≤ hwm)

/-- What a load does to the window, the lines and the pending set, in the words of the claims (R46 to R48, R50 to R52). -/
theorem State.load_fires (s : State) (e : Entry) (f : Fetch) (counts : s.CountsLaw) :
    let window := (s.tailed e f).lfu.window
    let fired := window.filter (loadFires f.tag s.axt.hwm)
    (s.load e f).lfu.window = window.filter (fun x => !loadFires f.tag s.axt.hwm x)
      ∧ (s.load e f).lfu.deferred = s.lfu.deferred ∧ (s.load e f).lfu.unexamined = s.lfu.unexamined
      ∧ s.HandedOver fired s.axt.hwm (s.load e f)
      ∧ s.WarnedInTurn (s.cfg.clampRaises s.axt.speed [e] ++ lateRaises s.axt.hwm fired) s.stamp (s.load e f)
      ∧ s.sameBut [.lfu, .out, .flt, .biu] (s.load e f) := by
  intro window fired
  obtain ⟨late, suppressed⟩ := counts.firing
  have clamps := (s.tailed e f).raiseClamp_raises e
  obtain ⟨cfg, axt, cam, lfu, out, mcr, revq, modc, pins, tb, resetHeld, encInput, pending⟩ :=
    (s.tailed e f).raiseClamp_keeps e
  have loads : s.load e f = match f.tag with
      | .current => ((s.tailed e f).raiseClamp e).evaluate
      | .next => (s.tailed e f).raiseClamp e := rfl
  generalize (s.tailed e f).raiseClamp e = u at *
  rw [loads]
  cases htag : f.tag with
  | current =>
    have same : loadFires .current s.axt.hwm = Slot.due s.axt.hwm := rfl
    have handed := u.evaluate_handOver (by rw [lfu]; exact late) (by rw [out]; exact suppressed)
    have fires := u.evaluate_raises
    rw [(s.tailed e f).stamp_congr (congrArg Modc.mode modc) axt] at fires
    simp only [lfu, axt] at handed fires
    simp only [fired, htag, same]
    refine ⟨by simp [lfu, axt, window]; rfl, by simp [lfu, State.tailed], by simp [lfu, State.tailed],
      handed.from out modc cfg (by rw [lfu]; rfl), clamps.append fires, State.sameBut_of (fun p => ?_) ?_⟩
    · cases p <;> simp [State.agreesOn, cfg, axt, cam, mcr, revq, modc, pins, tb, State.tailed]
    · simp [resetHeld, encInput, pending, State.tailed]
  | next =>
    have nothing : loadFires .next s.axt.hwm = fun _ => false := rfl
    have noneFire : window.filter (fun _ => false) = [] := List.filter_eq_nil_iff.mpr fun _ _ => Bool.false_ne_true
    have allStay : window.filter (fun _ => !false) = window := List.filter_eq_self.mpr fun _ _ => rfl
    simp only [fired, htag, nothing, noneFire, allStay, lateRaises, List.filter_nil, List.map_nil, List.append_nil]
    refine ⟨by rw [lfu], by rw [lfu]; rfl, by rw [lfu]; rfl, ?_, clamps, State.sameBut_of (fun p => ?_) ?_⟩
    · exact (fireSlots_handOver s [] late suppressed).congr out (by rw [lfu]; rfl)
    · cases p <;> simp [State.agreesOn, cfg, axt, cam, mcr, revq, modc, pins, tb, State.tailed]
    · simp [resetHeld, encInput, pending, State.tailed]

/-- Settles O39: the freed port, the load, the cursor one on, and LFU's next request. -/
theorem fetchCompletionLoadsASlotAndFiresWhatIsDue : Obligations.FetchCompletionLoadsASlotAndFiresWhatIsDue := by
  intro s e i tag held counts port fetch takes
  have run : exec .fetchCompletion s = .next s.fetchCompletes := exec_live _ s held
  let freed : State := { s with cam.port := .free }
  have loads : freed.examine (some e) ⟨i, tag, .granted⟩
      = { freed.load e ⟨i, tag, .granted⟩ with
          lfu.cursor := Cursor.endOfTable s.cam.table.length (.reading (i + 1) tag), lfu.fetch := none } := by
    have part := (Entry.takesPart_iff e tag freed).mpr takes
    rw [State.examine]
    dsimp only
    rw [if_pos part]
  let loaded := freed.load e ⟨i, tag, .granted⟩
  let passed : State := { loaded with
    lfu.cursor := Cursor.endOfTable s.cam.table.length (.reading (i + 1) tag), lfu.fetch := none }
  obtain ⟨window, deferred, unexamined, handed, warned, same⟩ := freed.load_fires e ⟨i, tag, .granted⟩ counts
  obtain ⟨inside, atEnd⟩ := Cursor.endOfTable_next s.cam.table.length i tag
  obtain ⟨-, -, out, -, -, -, flt, biu, -, -, -, -, -, -, -, keptWindow, cursor, keptDeferred, late, keptUnexamined⟩ :=
    passed.requestFetch_keeps
  have served := passed.requestFetch_served
  have cam : passed.cam = freed.cam := by simp [passed, loaded]
  rw [cam] at served
  have frees : s.sameBut [.cam] freed := State.sameBut_of (fun p => by cases p <;> simp [State.agreesOn, freed]) ⟨rfl, rfl, rfl⟩
  have requests : loaded.sameBut [.lfu, .cam] passed.requestFetch :=
    State.sameBut_of (fun p => by cases p <;> simp [State.agreesOn, passed]) (by simp [passed])
  rw [run, State.fetchCompletes_granted port fetch, loads, State.placeNow_eq]
  exact ⟨passed.requestFetch, rfl, keptWindow.trans window, handed.congr out late, fun h => cursor.trans (inside h),
    fun h => cursor.trans (atEnd h), warned.congr rfl rfl flt biu, keptDeferred.trans deferred,
    keptUnexamined.trans unexamined, served, ((frees.trans same).trans requests).mono (by decide)⟩

end Sys2Proof.Machine
end

section
/-! PROOFS. Revisions: why one fails, what one that passes does to the table, and the application of a group. -/

namespace Sys2Proof.Machine

variable {s t : State}

/-! ### Why a revision fails -/

/-- A key is present where an entry stands at its position and line (R1, R4). -/
theorem hasKey_keyOf (p : Word) (l : LineNo) (t : List Entry) :
    hasKey (keyOf p l) t = true ↔ ∃ x ∈ t, x.position = p ∧ x.line = l := by
  rw [hasKey_iff]
  exact exists_congr fun x => and_congr_right fun _ => keyOf_inj

/-- The lock refuses a revision: at level 2 outside CONFIG, and at level 1 on a protected line there (R109). -/
def State.locks (s : State) (r : Revision) : Prop :=
  (s.revq.lock = 2 ∧ s.modc.mode ≠ .config)
    ∨ (s.revq.lock = 1 ∧ s.cfg.protectedLines.getLsbD r.line = true ∧ s.modc.mode ≠ .config)

theorem Revision.failure_lockedAll {l : List Entry} {r : Revision} (h : s.revq.lock = 2 ∧ s.modc.mode ≠ .config) :
    r.failure s l = some .lockedAll := if_pos h

theorem Revision.failure_lineProtected {l : List Entry} {r : Revision}
    (h : s.revq.lock = 1 ∧ s.cfg.protectedLines.getLsbD r.line = true ∧ s.modc.mode ≠ .config) :
    r.failure s l = some .lineProtected := by
  have notAll : ¬(s.revq.lock = 2 ∧ s.modc.mode ≠ .config) := by rw [h.1]; simp
  exact (if_neg notAll).trans (if_pos h)

/-- Where the lock does not refuse an INSERT, the range, the key and the room decide, in this order (R109). -/
theorem Revision.failure_insert {l : List Entry} {e : Entry} (h : ¬s.locks (.insert e)) :
    (Revision.insert e).failure s l =
      if s.cfg.inRange e.position.toNat = false then some .outOfRange else if hasKey e.key l then some .keyExists
      else if 192 ≤ l.length then some .tableFull else none := by
  unfold State.locks at h
  rw [not_or] at h
  rw [Revision.failure, if_neg h.1, if_neg h.2]
  rfl

/-- Where the lock does not refuse a MODIFY or a REMOVE, the key decides (R109). -/
theorem Revision.failure_modify {l : List Entry} {e : Entry} (h : ¬s.locks (.modify e)) :
    (Revision.modify e).failure s l = if hasKey e.key l then none else some .keyAbsent := by
  unfold State.locks at h
  rw [not_or] at h
  rw [Revision.failure, if_neg h.1, if_neg h.2]

theorem Revision.failure_remove {l : List Entry} {p : Word} {line : LineNo} (h : ¬s.locks (.remove p line)) :
    (Revision.remove p line).failure s l = if hasKey (keyOf p line) l then none else some .keyAbsent := by
  unfold State.locks at h
  rw [not_or] at h
  rw [Revision.failure, if_neg h.1, if_neg h.2]

/-- The lock does not refuse a revision that passes. -/
theorem Revision.not_locks {l : List Entry} {r : Revision} (h : r.failure s l = none) : ¬s.locks r := by
  rintro (all | line)
  · rw [Revision.failure_lockedAll all] at h; cases h
  · rw [Revision.failure_lineProtected line] at h; cases h

/-! ### What a revision that passes does -/

/-- A MODIFY puts its entry in the place of the one with its key (R3). -/
theorem mem_modifyEntry {e x : Entry} {l : List Entry} (h : hasKey e.key l = true) :
    x ∈ modifyEntry e l ↔ x = e ∨ (x ∈ l ∧ ¬(x.position = e.position ∧ x.line = e.line)) := by
  have same {y : Entry} : y.key = e.key ↔ y.position = e.position ∧ y.line = e.line := keyOf_inj
  unfold modifyEntry
  rw [List.mem_map, ← same]
  constructor
  · rintro ⟨y, hy, rfl⟩
    by_cases key : y.key = e.key
    · left
      obtain ⟨position, line⟩ := same.mp key
      rw [if_pos key, position, line]
    · right
      rw [if_neg key]
      exact ⟨hy, key⟩
  · rintro (rfl | ⟨hx, key⟩)
    · obtain ⟨y, hy, key⟩ := hasKey_iff.mp h
      obtain ⟨position, line⟩ := same.mp key
      exact ⟨y, hy, by rw [if_pos key, position, line]⟩
    · exact ⟨x, hx, if_neg key⟩

/-- A REMOVE takes the entry with its key out (R3). -/
theorem mem_removeEntry {p : Word} {line : LineNo} {x : Entry} {l : List Entry} :
    x ∈ removeEntry (keyOf p line) l ↔ x ∈ l ∧ ¬(x.position = p ∧ x.line = line) := by
  have same : x.key = keyOf p line ↔ x.position = p ∧ x.line = line := keyOf_inj
  rw [removeEntry, List.mem_filter, bne_iff_ne, ne_eq, same]

/-- Settles O47: the conditions of R109 in their order, then the three edits. -/
theorem passingRevisionsEditTheTableAsTheirKindSays : Obligations.PassingRevisionsEditTheTableAsTheirKindSays := by
  intro s t r ok line lockedAll lineProtected present
  have sameLine : line = r.line := by cases r <;> rfl
  obtain ⟨sorted, size⟩ := (tableOk_iff t).mp ok
  refine ⟨Revision.failure_lockedAll, fun h => Revision.failure_lineProtected (by rw [← sameLine]; exact h),
    fun notAll notLine => ?_, fun passes => ⟨Revision.edit_tableOk s ok passes, ?_, ?_, ?_⟩⟩
  · have free : ¬s.locks r := not_or.mpr ⟨notAll, by rw [← sameLine]; exact notLine⟩
    refine ⟨?_, ?_, ?_⟩
    · rintro e rfl range
      have inRange : range ↔ ¬s.cfg.inRange e.position.toNat = false := by simp [range, Cfg.inRange]
      rw [Revision.failure_insert free, inRange]
      simp only [present, ← hasKey_keyOf]
      refine ⟨fun out => if_pos (Decidable.not_not.mp out), fun inside there => ?_, fun inside absent full => ?_,
        fun inside absent room => ?_⟩
      · rw [if_neg inside, if_pos (by exact there)]
      · rw [if_neg inside, if_neg (by exact absent), if_pos (by omega)]
      · rw [if_neg inside, if_neg (by exact absent), if_neg (by omega)]
    · rintro e rfl
      simp only [present, ← hasKey_keyOf, Revision.failure_modify free]
      exact ⟨fun absent => if_neg absent, fun present => if_pos present⟩
    · rintro p l rfl
      simp only [present, ← hasKey_keyOf, Revision.failure_remove free]
      exact ⟨fun absent => if_neg absent, fun present => if_pos present⟩
  · rintro e rfl
    exact ⟨fun x => mem_insertEntry, length_insertEntry e t⟩
  · rintro e rfl
    have there : hasKey e.key t = true := by
      refine Decidable.byContradiction fun absent => ?_
      rw [Revision.failure_modify (Revision.not_locks passes), if_neg absent] at passes
      cases passes
    exact ⟨fun x => mem_modifyEntry there, length_modifyEntry e t⟩
  · rintro p l rfl
    have there : hasKey (keyOf p l) t = true := by
      refine Decidable.byContradiction fun absent => ?_
      rw [Revision.failure_remove (Revision.not_locks passes), if_neg absent] at passes
      cases passes
    exact ⟨fun x => mem_removeEntry, length_removeEntry sorted (hasKey_iff.mp there)⟩

end Sys2Proof.Machine
end

section
/-! PROOFS. The application of a group: whole or not at all, and what LFU and the arbiter do after it. -/

namespace Sys2Proof.Machine

variable {s t : State}

/-- An application completes only where one holds the port (R111). -/
theorem State.applicationCompletes_other (h : s.cam.port ≠ .application) : s.applicationCompletes = s := by
  unfold State.applicationCompletes
  split
  · rename_i port
    exact absurd port h
  · rfl

/-- The state in which LFU takes up fetching after a group `rs` of sequence `q` is judged: the table the judgement gives,
the port free, the group gone and the result written (R111, R112). -/
def State.judged (s : State) (q : BitVec 8) (rs : List Revision) : State :=
  { s with cam.table := (s.outcomeOf rs).1, cam.port := .free, revq.group := none }.writeResult
    ⟨q, (s.outcomeOf rs).2, (s.outcomeOf rs).1.length⟩

theorem State.applicationCompletes_judged {q : BitVec 8} {b : Bool} {n : Nat} {rs : List Revision}
    (group : s.revq.group = some ⟨q, .applying b n, rs⟩) (port : s.cam.port = .application) :
    s.applicationCompletes = (s.judged q rs).resumeFetching := by
  rw [State.applicationCompletes, group, port]
  rfl

theorem State.judged_bus (s : State) (q : BitVec 8) (rs : List Revision) :
    (s.judged q rs).biu = { s.biu with
      flags := s.biu.flags ||| 0x10, sticky := if s.revq.resultRead then s.biu.sticky else s.biu.sticky ||| 2 } := by
  simp only [State.judged, State.writeResult, State.setFlag, Flag.mask, resultOverwrittenMask]

/-- A fetch request never gives the port to an application where none is in progress (R8). -/
theorem State.requestFetch_port (s : State) (port : s.cam.port ≠ .application) (idle : s.revq.applying = false) :
    s.requestFetch.cam.port ≠ .application := by
  have arbitrated (u : State) (port : u.cam.port ≠ .application) (idle : u.revq.applying = false) :
      u.arbitrate.cam.port ≠ .application := by
    unfold State.arbitrate
    rw [State.applying_eq, idle]
    repeat' split
    all_goals simp_all
  unfold State.requestFetch
  split
  · exact arbitrated _ port idle
  · exact arbitrated _ port idle

/-- Where LFU takes up fetching (R55, R58). -/
theorem State.resumeFetching_lfu (s : State) :
    s.resumeFetching.lfu.deferred = none
      ∧ s.resumeFetching.lfu.cursor = match s.lfu.deferred with
        | some point => cursorBeyond point s.cam.table
        | none => s.lfu.cursor.endOfTable s.cam.table.length := by
  unfold State.resumeFetching
  cases h : s.lfu.deferred <;> simp [h]

theorem State.resumeFetching_port (s : State) (port : s.cam.port ≠ .application) (idle : s.revq.applying = false) :
    s.resumeFetching.cam.port ≠ .application := by
  unfold State.resumeFetching
  split <;> exact State.requestFetch_port _ port idle

/-- Settles O48: the judgement of the group, the result record, and LFU on the freed port. -/
theorem applicationIsWholeOrNotAtAll : Obligations.ApplicationIsWholeOrNotAtAll := by
  intro s held
  have run : exec .applicationCompletion s = .next s.applicationCompletes := exec_live _ s held
  rw [run]
  refine ⟨fun other => by rw [State.applicationCompletes_other other], fun q b n rs group port => ?_⟩
  rw [State.applicationCompletes_judged group port]
  have cam : (s.judged q rs).cam = { s.cam with table := (s.outcomeOf rs).1, port := .free } := by simp [State.judged]
  have lfu : (s.judged q rs).lfu = s.lfu := by simp [State.judged]
  have revq : (s.judged q rs).revq = { s.revq with
      group := none, result := ⟨q, (s.outcomeOf rs).2, (s.outcomeOf rs).1.length⟩, resultRead := false } := by
    simp [State.judged]
  have served := (s.judged q rs).resumeFetching_served
  obtain ⟨noneDeferred, cursor⟩ := (s.judged q rs).resumeFetching_lfu
  have table : (s.judged q rs).resumeFetching.cam.table = (s.outcomeOf rs).1 := by simp [cam]
  have result : (s.judged q rs).resumeFetching.revq.result = ⟨q, (s.outcomeOf rs).2, (s.outcomeOf rs).1.length⟩ := by
    simp [revq]
  obtain ⟨-, -, -, -, -, -, -, biu, -⟩ := (s.judged q rs).resumeFetching_keeps
  rw [cam, lfu, ← table] at served
  rw [cam, lfu] at cursor
  refine ⟨_, rfl, fun pre r post reason split passes fails => ?_, fun passes => ?_, ?_, ?_, served, ?_, ?_, ?_, ?_, ?_,
    noneDeferred, fun point deferred => ?_, fun deferred start => ?_, fun deferred parked => ?_, ?_⟩
  · have failed : s.outcomeOf rs = (s.cam.table, .rejected pre.length reason) := by
      rw [State.outcomeOf, split, judgeGroup_fails s _ 0 pre r post reason passes fails, Nat.zero_add]
    rw [table, result, failed]
    exact ⟨rfl, rfl⟩
  · have whole : s.outcomeOf rs = (rs.foldl Revision.edit s.cam.table, .applied) := by
      rw [State.outcomeOf, judgeGroup_passes s _ 0 rs passes]
    rw [table, result, whole]
    exact ⟨rfl, rfl⟩
  · simp [revq]
  · rw [biu, s.judged_bus]
  · exact (s.judged q rs).resumeFetching_port (by rw [cam]; exact nofun) (by rw [revq]; rfl)
  · simp [cam]
  · simp [lfu]
  · simp [lfu]
  · simp [lfu]
  · rw [deferred] at cursor
    rw [cursor, table]
    exact cursorBeyond_place _ _
  · rw [deferred, start] at cursor
    rw [cursor, table]
    cases (s.outcomeOf rs).1 <;> simp [Cursor.endOfTable]
  · rw [deferred, parked] at cursor
    rw [cursor]
    rfl
  · refine State.sameBut_of (fun p => ?_) (by simp [State.judged])
    cases p <;> simp [State.agreesOn, State.judged]

end Sys2Proof.Machine
end

section
/-! PROOFS. The boundary where no application begins: the account, the window and the cursor carried over or
emptied, and the port. -/

namespace Sys2Proof.Machine

variable {s t : State}

/-! ### The turn-over -/

/-- Where no group waits no application begins (R106). -/
theorem State.beginApplication_idle (b : Bool) (h : ¬s.HasWaitingGroup) : s.beginApplication b = s := by
  unfold State.beginApplication
  split
  · rename_i q rs group
    exact absurd ⟨q, rs, group⟩ h
  · rfl

/-- The state in which LFU rolls its window: the revolution judged, its account settled, the next one begun (R26, R27,
R53, R91). -/
def State.turned (s : State) : State :=
  let settled := { s with mcr := s.mcr.publish s.cfg, lfu := s.lfu.cancelFetch }.settleAccount s.endingStamp
  { settled with
    axt := { settled.axt.correct (s.cfg.judgeRevolution s.mcr.mark).2 with
      revolution := settled.axt.revolution + 1 } }.setFlag .rev

theorem State.turned_keeps (s : State) :
    s.turned.cam = s.cam ∧ s.turned.revq = s.revq ∧ s.turned.modc = s.modc ∧ s.turned.lfu.window = s.lfu.window
      ∧ s.turned.lfu.cursor = s.lfu.cursor ∧ s.turned.lfu.deferred = s.lfu.deferred
      ∧ s.turned.lfu.fetch = cancelled s.lfu.fetch := by
  simp [State.turned]

/-- The turn-over where no group waits: the window is rolled and a fetch requested (R44, R54). -/
theorem State.turnOver_idle (h : ¬s.HasWaitingGroup) : s.turnOver = (s.turned.rollWindow false).requestFetch := by
  have noGroup : s.groupWaits = false := by rw [← Bool.not_eq_true, s.groupWaits_iff]; exact h
  have noBegin : ¬(s.turned.rollWindow false).HasWaitingGroup := by
    rintro ⟨q, rs, group⟩
    have revq : (s.turned.rollWindow false).revq = s.revq := by simp [s.turned_keeps]
    exact h ⟨q, rs, revq ▸ group⟩
  show ((s.turned.rollWindow s.groupWaits).beginApplication true).requestFetch = _
  rw [noGroup, State.beginApplication_idle _ noBegin]

/-- A window rolled without a deferred start is carried: NEXT slots become CURRENT, and the cursor goes with them (R54). -/
theorem State.rollWindow_carries (h : s.lfu.deferred = none) :
    (s.rollWindow false).lfu.window = carriedWindow s.lfu.window
      ∧ (s.rollWindow false).lfu.cursor
          = (if s.applying then s.lfu.cursor.carried else s.lfu.cursor.carried.endOfTable s.cam.table.length)
      ∧ (s.rollWindow false).lfu.deferred = none := by
  unfold State.rollWindow
  simp [h]

/-- With a deferred start held it is emptied, and the cursor goes to the beginning of the table (R58). -/
theorem State.rollWindow_defers (h : s.lfu.deferred ≠ none) :
    (s.rollWindow false).lfu.window = [] ∧ (s.rollWindow false).lfu.cursor = .reading 0 .current
      ∧ (s.rollWindow false).lfu.deferred = none := by
  have held : s.lfu.deferred.isSome = true := Option.isSome_iff_ne_none.mpr h
  simp [State.rollWindow, held]

/-! ### The ladder -/

/-- LFU at rest: no slot, the cursor parked, no deferred start, and no fetch in flight but a cancelled one (R59). -/
def Lfu.AtRest (l : Lfu) : Prop :=
  l.window = [] ∧ l.cursor = .parked ∧ l.deferred = none ∧ ∀ f, l.fetch = some f → f.state = .cancelled

/-- An entry into CONFIG puts LFU at rest (R59). -/
theorem State.enterConfig_atRest (s : State) : s.enterConfig.lfu.AtRest := by
  have rests (u : State) (quiet : ∀ f, u.lfu.fetch = some f → f.state = .cancelled) :
      ∀ f, (u.beginApplication false).lfu.fetch = some f → f.state = .cancelled := by
    unfold State.beginApplication
    split
    · rename_i q rs _
      rcases State.arbitrate_fetch { u with revq.group := some ⟨q, .applying false 0, rs⟩ } with same | ⟨i, tag, waits, -⟩
      · rw [same]; exact quiet
      · cases quiet _ waits
    · exact quiet
  refine ⟨by simp, by simp, by simp, ?_⟩
  exact rests _ s.lfu.cancelFetch_cancelled

/-- An entry into HALTED does too (R59). -/
theorem State.enterHalted_atRest (s : State) (r : HaltReason) : (s.enterHalted r).lfu.AtRest := by
  refine ⟨by simp, by simp, by simp, fun f hf => ?_⟩
  have fetch : (s.enterHalted r).lfu.fetch = s.lfu.cancelFetch.fetch := by simp
  exact s.lfu.cancelFetch_cancelled f (fetch ▸ hf)

/-- After a raise of a halting cause the part tracks on, where the cause was pending, or LFU is at rest (R134, R149). -/
theorem State.raiseAt_rests (s : State) (a : Stamp) {c : Cause} (d : Detail) (halting : c.halting = true)
    (tracking : s.modc.mode.tracking = true) :
    let t := s.raiseAt a c d
    (t.modc.mode.tracking = true ∧ t.lfu = s.lfu ∧ t.cam = s.cam ∧ t.revq = s.revq)
      ∨ (t.modc.mode.tracking = false ∧ t.lfu.AtRest) := by
  intro t
  cases pending : isPending c s.flt.causes with
  | true =>
    have repeats : t = { s with flt.causes := repeatCause c s.flt.causes } := s.raiseAt_repeat a c d pending
    rw [repeats]
    exact .inl ⟨tracking, rfl, rfl, rfl⟩
  | false =>
    have halts := s.raiseAt_halts a c d pending halting
    rw [show t = _ from halts]
    exact .inr ⟨by simp [Mode.tracking], State.enterHalted_atRest _ _⟩

/-- After the ladder and a served STOP the part tracks on with LFU, the port and the queue as they were, or LFU is at
rest (R132, R139 to R142). -/
theorem State.ladderStep_cases (s : State) (a : Stamp) (v : Verdict) (tracking : s.modc.mode.tracking = true) :
    let t := s.ladderStep a v
    (t.modc.mode.tracking = true ∧ t.lfu = s.lfu ∧ t.cam = s.cam ∧ t.revq = s.revq)
      ∨ (t.modc.mode.tracking = false ∧ t.lfu.AtRest) := by
  obtain ⟨mode, -, -⟩ := s.modc.judge_mode s.cfg v
  simp only [State.ladderStep]
  generalize s.modc.judge s.cfg v = judged at *
  obtain ⟨m, move⟩ := judged
  dsimp only at mode
  rw [← mode] at tracking
  have config : ({ s with modc := m } : State).enterConfig.modc.mode.tracking = false := by simp [Mode.tracking]
  have toConfig := ({ s with modc := m } : State).enterConfig_atRest
  cases move <;> dsimp only
  case marksLost =>
    exact State.raiseAt_rests { s with modc := m } a _ rfl tracking
  case stay =>
    split
    · exact .inr ⟨config, toConfig⟩
    · exact .inl ⟨tracking, rfl, rfl, rfl⟩
  case toFreewheel | toLocked =>
    split
    · exact .inr ⟨config, toConfig⟩
    · exact .inl ⟨rfl, rfl, rfl, rfl⟩

/-! ### The count -/

/-- The state after a count, before the mode takes it. -/
def State.countedForward (s : State) : State := (s.acceptLevels (s.cfg.levelsForward s.axt.ref)).counted 1

/-- At position L-1 the boundary's row is the boundary (R23, R26). -/
theorem State.boundaryCount_turns (tracking : s.modc.mode.tracking = true) (deficit : s.axt.deficit = 0)
    (stretch : s.axt.stretch = 0) (last : s.cfg.revLength.toNat ≤ s.axt.position + 1) :
    s.boundaryCount = s.countedForward.boundary := by
  have atBoundary : s.atBoundary = true := by
    simp [State.atBoundary, tracking, deficit, stretch, State.revLen, last]
  have advances : s.countedForward.advance = s.countedForward.boundary := by
    unfold State.advance
    rw [if_neg (by simp [State.countedForward, deficit]), if_neg (by simp [State.countedForward, stretch]),
      if_neg (by simpa [State.countedForward, State.revLen] using last)]
  rw [State.boundaryCount, if_pos atBoundary, State.forward]
  split
  case h_1 mode | h_2 mode | h_3 mode => rw [mode] at tracking; cases tracking
  case h_4 | h_5 => exact advances

/-- The cursor carried into the new revolution, in the words of the claims (R43, R54). -/
theorem Cursor.carried_endOfTable (table : List Entry) (applying : Bool) (c : Cursor) :
    let parks := table = [] ∧ applying = false
    let carried := if applying then c.carried else c.carried.endOfTable table.length
    (∀ i, c = .reading i .current → carried = if parks then .parked else .reading 0 .current)
      ∧ (∀ i, c = .reading i .next → i < table.length → carried = .reading i .current)
      ∧ (c = .parked → carried = if parks then .parked else .reading 0 .next) := by
  refine ⟨?_, ?_, ?_⟩
  · rintro i rfl
    cases applying <;> cases table <;> simp [Cursor.carried, Cursor.endOfTable]
  · rintro i rfl inside
    have : i ≠ table.length := by omega
    cases applying <;> simp [Cursor.carried, Cursor.endOfTable, this]
  · rintro rfl
    cases applying <;> cases table <;> simp [Cursor.carried, Cursor.endOfTable]

/-- Settles O25: the count is the boundary; the turn-over settles the account and rolls the window, and the ladder leaves
LFU as it is or at rest. -/
theorem boundaryCountsUnreadEntriesAndCarriesTheWindow : Obligations.BoundaryCountsUnreadEntriesAndCarriesTheWindow := by
  intro s held tracking deficit stretch last noGroup law parks
  have run : exec .revolutionBoundary s = .next s.boundaryCount := exec_live _ s held
  let u := s.countedForward
  let rolled := u.turned.rollWindow false
  obtain ⟨turnedCam, turnedRevq, -, window, cursor, deferred, fetch⟩ := u.turned_keeps
  have turnOver : u.turnOver = rolled.requestFetch := State.turnOver_idle noGroup
  have served := rolled.requestFetch_served
  have rolledPort : rolled.cam = s.cam ∧ rolled.lfu.fetch = cancelled s.lfu.fetch := by
    simp only [rolled, State.rollWindow_keeps]
    exact ⟨turnedCam, fetch⟩
  rw [← turnOver, rolledPort.1, rolledPort.2] at served
  obtain ⟨-, -, modc, -, -, -, -, -, -, -, -, -, -, -, late⟩ := u.turnOver_keeps
  obtain ⟨-, -, -, -, -, -, -, -, -, ladderLate, -⟩ :=
    u.turnOver.ladderStep_keeps u.endingStamp (u.cfg.judgeRevolution u.mcr.mark).1
  have windowKept : u.turnOver.lfu.window = rolled.lfu.window := by rw [turnOver]; simp
  have cursorKept : u.turnOver.lfu.cursor = rolled.lfu.cursor := by rw [turnOver]; simp
  have noDeferred : u.turnOver.lfu.deferred = none := by
    have kept : u.turnOver.lfu.deferred = rolled.lfu.deferred := by rw [turnOver]; simp
    rw [kept]
    by_cases h : u.turned.lfu.deferred = none
    · obtain ⟨-, -, none⟩ := State.rollWindow_carries h
      exact none
    · obtain ⟨-, -, none⟩ := State.rollWindow_defers h
      exact none
  rw [run, State.boundaryCount_turns tracking deficit stretch last]
  refine ⟨_, rfl, u.boundary_settled law, ladderLate.trans late, ?_⟩
  have trackingOn : u.turnOver.modc.mode.tracking = true := by rw [modc]; exact tracking
  rcases u.turnOver.ladderStep_cases u.endingStamp (u.cfg.judgeRevolution u.mcr.mark).1 trackingOn with
    ⟨tracks, lfu, cam, revq⟩ | ⟨ended, noSlots, parked, noStart, noFetch⟩
  · rw [State.boundary, tracks, lfu, windowKept, cursorKept]
    refine ⟨noDeferred, fun _ => ⟨fun start => ?_, fun noStart => ?_, ?_⟩, fun ended => absurd ended (by decide)⟩
    · obtain ⟨noSlots, atStart, -⟩ := State.rollWindow_defers (s := u.turned) (by rw [deferred]; exact start)
      exact ⟨noSlots, atStart⟩
    · obtain ⟨carriedSlots, carriedCursor, -⟩ := State.rollWindow_carries (s := u.turned) (deferred.trans noStart)
      rw [window] at carriedSlots
      rw [cursor, turnedCam, State.applying_eq, turnedRevq] at carriedCursor
      obtain ⟨current, next, wasParked⟩ := Cursor.carried_endOfTable s.cam.table s.applying s.lfu.cursor
      exact ⟨carriedSlots, fun i h => carriedCursor.trans (current i h),
        fun i h inside => carriedCursor.trans (next i h inside), fun h => carriedCursor.trans (wasParked h)⟩
    · exact served.congr cam lfu (tracks.trans trackingOn.symm) (congrArg Revq.applying revq)
  · rw [State.boundary]
    exact ⟨noStart, fun tracks => absurd (ended.symm.trans tracks) (by decide), fun _ => ⟨noSlots, parked, noFetch⟩⟩

end Sys2Proof.Machine
end

section
/-! PROOFS. The register window: the bits of a word that is a sum of powers of two, the codes, the words that can be
written, and the addresses that are not listed. -/

namespace Sys2Proof.Machine

variable {s t : State}

/-! ### Sums of distinct powers of two -/

/-- A sum of powers of two with exponents of `k` and above is a multiple of the power of `k`. -/
theorem two_pow_dvd_sum (k : Nat) (l : List Nat) (h : ∀ e ∈ l, k ≤ e) : 2 ^ k ∣ (l.map (2 ^ ·)).sum := by
  induction l with
  | nil => exact Nat.dvd_zero _
  | cons e es ih =>
    rw [List.map_cons, List.sum_cons]
    exact Nat.dvd_add (Nat.pow_dvd_pow 2 (h e List.mem_cons_self)) (ih fun x hx => h x (List.mem_cons_of_mem e hx))

/-- A sum of powers of two with ascending exponents has exactly those bits set. -/
theorem testBit_sum_two_pow (l : List Nat) (h : l.Pairwise (· < ·)) (j : Nat) :
    ((l.map (2 ^ ·)).sum).testBit j = decide (j ∈ l) := by
  induction l with
  | nil => simp
  | cons e es ih =>
    obtain ⟨below, sorted⟩ := List.pairwise_cons.mp h
    obtain ⟨q, rest⟩ := two_pow_dvd_sum (e + 1) es fun x hx => below x hx
    have bits : ((e :: es).map (2 ^ ·)).sum = q <<< (e + 1) ||| 2 ^ e := by
      rw [← Nat.shiftLeft_add_eq_or_of_lt (Nat.pow_lt_pow_right (by decide) (Nat.lt_succ_self e)), Nat.shiftLeft_eq,
        List.map_cons, List.sum_cons, rest, Nat.mul_comm, Nat.add_comm]
    have others : (q <<< (e + 1)).testBit j = decide (j ∈ es) := by
      rw [Nat.shiftLeft_eq, Nat.mul_comm, ← rest]
      exact ih sorted
    rw [bits, Nat.testBit_or, others, Nat.testBit_two_pow]
    by_cases he : e = j
    · simp [he]
    · have : ¬j = e := fun h => he h.symm
      simp [he, this]

/-- A word that is such a sum shows at each place whether its exponent is there. -/
theorem wordOf_sum_getLsbD (l : List Nat) (h : l.Pairwise (· < ·)) {j : Nat} (hj : j < 16) :
    (wordOf (l.map (2 ^ ·)).sum).getLsbD j = decide (j ∈ l) := by
  rw [wordOf, BitVec.getLsbD_ofNat, testBit_sum_two_pow l h, decide_eq_true hj, Bool.true_and]

/-- A word of one bit per line has each line's bit at the line's place (R174). -/
theorem wordOfLines_getLsbD (p : LineNo → Bool) (i : LineNo) : (wordOfLines p).getLsbD i = p i := by
  have sums (l : List LineNo) :
      (l.map fun i => placeBit (p i) i.val).sum = (((l.filter p).map Fin.val).map (2 ^ ·)).sum := by
    induction l with
    | nil => rfl
    | cons x xs ih =>
      rw [List.map_cons, List.sum_cons, ih, List.filter_cons]
      cases p x <;> simp [placeBit]
  have sorted : (((List.finRange 16).filter p).map Fin.val).Pairwise (· < ·) := by
    rw [List.pairwise_map]
    exact ((List.pairwise_lt_finRange 16).filter p).imp id
  have word : wordOfLines p = wordOf (((((List.finRange 16).filter p).map Fin.val).map (2 ^ ·)).sum) := by
    rw [wordOfLines, sums, wordOf]
  rw [word, wordOf_sum_getLsbD _ sorted i.isLt]
  simp [Fin.val_inj]

/-- The codes of the causes are 1 to 12, each cause its own (R145). -/
theorem Cause.code_bounds (c : Cause) : 1 ≤ c.code ∧ c.code ≤ 12 := by
  cases c <;> decide

theorem Cause.code_injective {c d : Cause} (h : c.code = d.code) : c = d := by
  cases c <;> cases d <;> first | rfl | cases h

/-- PENDING_SET shows each cause at the place of its code (R180). -/
theorem State.pendingWord_getLsbD (law : s.PendingLaw) (c : Cause) :
    s.flt.pendingWord.getLsbD (c.code - 1) = inPendingSet c s.flt.causes := by
  let places := s.flt.causes.map fun r => r.cause.code - 1
  have sorted : places.Pairwise (· < ·) := by
    rw [List.pairwise_map]
    refine law.1.imp fun {a b} below => ?_
    obtain ⟨low, -⟩ := a.cause.code_bounds
    omega
  have word : s.flt.pendingWord = wordOf (places.map (2 ^ ·)).sum := by
    rw [Flt.pendingWord, List.map_map]; rfl
  obtain ⟨low, high⟩ := c.code_bounds
  rw [word, wordOf_sum_getLsbD places sorted (by omega), Bool.eq_iff_iff, decide_eq_true_eq, inPendingSet, List.any_eq_true,
    List.mem_map]
  refine exists_congr fun r => and_congr_right fun _ => ?_
  rw [beq_iff_eq]
  constructor
  · intro same
    obtain ⟨low', -⟩ := r.cause.code_bounds
    exact Cause.code_injective (by omega)
  · rintro rfl; rfl

/-! ### The codes and the words -/

/-- The codes of the fields are those of the tables (R145, R170, R176 to R180). -/
theorem codesOfTheWindow : CodesOfTheWindow := by
  refine ⟨rfl, rfl, rfl, fun _ => rfl, rfl, rfl, rfl, rfl, rfl, rfl, rfl, rfl, fun _ _ => rfl, rfl, rfl, fun _ => rfl,
    rfl, rfl, fun _ => rfl, fun _ => rfl, fun _ => rfl, fun _ _ => rfl⟩

/-- An address outside the register map reads 0 (R164). -/
theorem State.readWord_unlisted (s : State) (a : BitVec 7)
    (h : (0x37 ≤ a.toNat ∧ a.toNat ≤ 0x3F) ∨ a.toNat ∈ [0x4B, 0x4F, 0x55, 0x56, 0x57, 0x5E, 0x5F] ∨ 0x69 ≤ a.toNat) :
    s.readWord a = 0 := by
  have discarded : ∀ a : BitVec 7,
      (0x37 ≤ a.toNat ∧ a.toNat ≤ 0x3F) ∨ a.toNat ∈ [0x4B, 0x4F, 0x55, 0x56, 0x57, 0x5E, 0x5F] ∨ 0x69 ≤ a.toNat →
      writeTarget a = .discarded := by decide
  unfold State.readWord
  split
  case h_43 => rw [discarded a h]; rfl
  all_goals
    rename_i listed
    rw [listed] at h
    exact absurd h (by decide)

/-- An address that a write can reach shows what the write reaches (R164). -/
theorem State.readWord_writable (s : State) (a : BitVec 7) (h : writeTarget a ≠ .discarded) :
    s.readWord a = s.readTarget (writeTarget a) := by
  unfold State.readWord
  split
  case h_43 => rfl
  all_goals
    rename_i listed
    unfold writeTarget at h
    rw [listed] at h
    exact absurd rfl h

/-- The lead-time words are those of the sixteen lines in turn (R174). -/
theorem writeTarget_leadTime : ∀ i : LineNo, writeTarget (BitVec.ofNat 7 (0x20 + i.val)) = .frozen (.leadTime i) := by
  decide

theorem State.readWord_leadTime (s : State) (i : LineNo) :
    s.readWord (BitVec.ofNat 7 (0x20 + i.val)) = s.cfg.leadTime[i] := by
  rw [s.readWord_writable _ (by rw [writeTarget_leadTime]; exact nofun), writeTarget_leadTime]
  rfl

/-- The words that can be written read the stored values (R164, R174, R175, R177). -/
theorem State.showsStoredWords (s : State) : s.ShowsStoredWords := by
  unfold State.ShowsStoredWords
  refine ⟨rfl, rfl, rfl, rfl, rfl, rfl, rfl, rfl, rfl, rfl, rfl, rfl, rfl, ?_, rfl, ?_, rfl, rfl, rfl, rfl, rfl, ?_,
    s.readWord_leadTime, rfl, rfl, rfl, rfl, rfl, rfl, rfl, rfl, rfl, s.readWord_unlisted⟩
  · show wordOf (s.cfg.encMode.code + _ + _) = _
    cases s.cfg.encMode <;> rfl
  · show wordOf (s.cfg.acqSource.code + _) = _
    cases s.cfg.acqSource <;> rfl
  · have selection : ∀ sel : EdgeSel, sel.code = match sel with
        | .off => 0
        | .rising => 1
        | .falling => 2
        | .both => 3 := fun sel => by cases sel <;> rfl
    show wordOf (s.cfg.sensorSel[0].code + place s.cfg.sensorSel[1].code 2 + place s.cfg.sensorSel[2].code 4
      + place s.cfg.sensorSel[3].code 6) = _
    rw [selection, selection, selection, selection]
    rfl

end Sys2Proof.Machine
end

section
/-! PROOFS. The reads of the leading words, what keeps their hold registers, and the read-only words. -/

namespace Sys2Proof.Machine

variable {s t : State}

/-! ### The hold registers -/

/-- A write to a word address reaches COMMAND_A only at its address (9.5). -/
theorem writeTarget_strobeA : ∀ a : BitVec 7, writeTarget a = .strobe .a → a = 0x03 := by decide

/-- A bus write keeps the hold registers, but for one to COMMAND_A that names SOFT_RESET (R165, R167). -/
theorem State.busWrite_keepsHolds (s : State) (w : WriteTarget) (v : Word) (h : ¬(w = .strobe .a ∧ v = 0x0010)) :
    (s.busWrite w v).holds = s.holds := by
  by_cases strobe : ∃ r, w = .strobe r
  · obtain ⟨r, rfl⟩ := strobe
    refine s.writeStrobe_holds r v fun reset => h ?_
    obtain ⟨rfl, rfl⟩ := strobeDecode_softReset reset
    exact ⟨rfl, rfl⟩
  · exact s.busWrite_holds w v fun r hr => strobe ⟨r, hr⟩

/-- No command but the read of its leading word and the resets changes the hold registers of a group (R165, R166). -/
theorem effectOf_keepsHolds (c : Instr) (s : State) (running : isHardReset c = false)
    (reset : c ∉ [.softReset, .invalidCommandWrite .a 0x0010, .registerWrite 0x03 0x0010]) :
    s.KeepsHolds c (effectOf c s) := by
  simp only [List.mem_cons, List.not_mem_nil, or_false, not_or] at reset
  obtain ⟨soft, invalid, register⟩ := reset
  cases c with
  | powerOn | resetPin | resetPinHeld => cases running
  | positionRead => exact ⟨fun h => absurd rfl h, fun _ => rfl, fun _ => rfl⟩
  | commitResultRead => exact ⟨fun _ => rfl, fun h => absurd rfl h, fun _ => rfl⟩
  | faultCauseRead => exact ⟨fun _ => rfl, fun _ => rfl, fun h => absurd rfl h⟩
  | softReset => exact absurd rfl soft
  | revolutionBoundary =>
    refine .of_holds ?_
    show s.boundaryCount.holds = s.holds
    unfold State.boundaryCount
    split <;> simp
  | acquireTimeout =>
    refine .of_holds ?_
    show s.timeoutCount.holds = s.holds
    unfold State.timeoutCount
    split <;> simp
  | start | stop | haltNow | clearHalt | ackFault | popCapture | applyManual | clearCounters | submitInsert
  | submitRemove | submitModify | commit | discardOpen | readEntry | clearTable | raiseLock =>
    exact .of_holds (s.runCommand_holds _ (by decide))
  | invalidCommandWrite r v =>
    refine .of_holds (s.busWrite_keepsHolds _ v ?_)
    rintro ⟨target, rfl⟩
    cases target
    exact invalid rfl
  | registerWrite a v =>
    refine .of_holds (s.busWrite_keepsHolds _ v ?_)
    rintro ⟨target, rfl⟩
    exact register (by rw [writeTarget_strobeA a target])
  | intFlagsWrite | intEnableWrite | stickyStatusWrite | frozenWordWrite | encoderCfgWrite | timebaseDivWrite
  | acqCfgWrite | safeLevelsWrite => exact .of_holds (s.busWrite_keepsHolds _ _ (by simp))
  | interlockClosing => exact .of_holds rfl
  | _ => exact .of_holds (by simp [effectOf])

/-! ### The leading reads -/

/-- SPEED, with the reverse indication at bit 15 (R176). -/
theorem Axt.speedWord_eq (a : Axt) : a.speedWord = wordOf (a.speed + if a.reverse then 0x8000 else 0) := rfl

/-- In ACQUIRE the position group shows the acquisition count and zeros (R22). -/
theorem State.positionGroup_acquire (h : s.modc.mode = .acquire) :
    s.positionWord = wordOf s.axt.acqCount ∧ s.positionGroup = ⟨0, 0, 0, 0, s.axt.speedWord⟩ := by
  simp only [State.positionWord, State.positionGroup, h, and_self]

/-- Elsewhere it shows the position record (R22). -/
theorem State.positionGroup_record (h : s.modc.mode ≠ .acquire) :
    s.positionWord = wordOf s.axt.position
      ∧ s.positionGroup
        = ⟨s.axt.revolution, wordOf s.axt.hwm, wordOf s.axt.deficit, wordOf s.axt.stretch, s.axt.speedWord⟩ := by
  unfold State.positionWord State.positionGroup
  cases mode : s.modc.mode with
  | acquire => exact absurd mode h
  | config | locked | freewheel | halted => exact ⟨rfl, rfl⟩

/-- The failure word is 0 unless the outcome is REJECTED (R178). -/
theorem GroupOutcome.failureWord_eq (o : GroupOutcome) :
    o.failureWord = match o with
      | .rejected i reason => wordOf (i + reason.code * 16)
      | _ => 0 := by
  cases o <;> rfl

/-- The words of the fault view are 0 with no cause pending (R154). -/
theorem Flt.viewWords_nil {f : Flt} (h : f.causes = []) : f.causeWord = 0 ∧ f.viewWords = ⟨0, 0, 0, 0, 0⟩ := by
  rw [Flt.viewWords, Flt.causeWord, h]
  exact ⟨rfl, rfl⟩

/-- The words of the fault view with a cause pending (R153, R180). -/
theorem Flt.viewWords_cons {f : Flt} {r : FaultRecord} {rest : List FaultRecord} (h : f.causes = r :: rest) :
    f.causeWord = wordOf (r.cause.code + (if r.cause.code ≤ 6 then 16 else 0) + f.causes.length * 256)
      ∧ f.viewWords
        = ⟨f.causeWord, wordOf (r.repeats + r.mode.code * 256), r.position, r.revolution, r.detail.word⟩ := by
  constructor
  · rw [Flt.causeWord, h]
    simp [placeBit, place, Cause.halting]
  · rw [Flt.viewWords, h]
    rfl

/-! ### The read-only words -/

/-- Application in progress is a group whose application has begun (R108). -/
theorem State.applying_iff (s : State) :
    s.applying = true ↔ ∃ q b n rs, s.revq.group = some ⟨q, .applying b n, rs⟩ := by
  rw [State.applying_eq, Revq.applying]
  split
  · rename_i q b n rs group
    simp [group]
  · rename_i none
    simp only [Bool.false_eq_true, false_iff]
    rintro ⟨q, b, n, rs, group⟩
    exact none q b n rs group

/-- MODE_STATUS (R176). -/
theorem State.modeStatus_eq (s : State) : s.modeStatus =
    wordOf (s.modc.mode.code + (if s.modc.stopPending then 8 else 0) + s.modc.haltReason.code * 16
      + s.revq.lock.val * 256 + (if s.out.interlock = .closed then 1024 else 0) + (if s.applying then 2048 else 0)) := by
  simp [State.modeStatus, placeBit, place]

/-- REVQ_STATUS (R178). -/
theorem State.revqStatus_eq (s : State) : s.revqStatus =
    wordOf (s.revq.opens.length + (match s.revq.group with
      | some g => g.revisions.length
      | none => 0) * 32 + (if s.applying then 1024 else 0)) := by
  have held : s.revq.held - s.revq.opens.length = (match s.revq.group with
      | some g => g.revisions.length
      | none => 0) := Nat.add_sub_cancel _ _
  rw [State.revqStatus, held]
  rfl

/-- The line words show which lines are at level 1 and which timers run (R77). -/
theorem State.lineWords (s : State) (i : LineNo) :
    ((s.readWord 0x34).getLsbD i = true ↔ s.out.lines[i] ≠ .low)
      ∧ ((s.readWord 0x35).getLsbD i = true ↔ ∃ r, s.out.lines[i] = .pulsing r) := by
  have level : (s.readWord 0x34).getLsbD i = s.out.lines[i].level := wordOfLines_getLsbD _ i
  have timer : (s.readWord 0x35).getLsbD i = s.out.lines[i].timerRuns := wordOfLines_getLsbD _ i
  rw [level, timer]
  cases s.out.lines[i] <;> simp [LineState.level, LineState.timerRuns]

/-- The read-back words show the record (R12, R177). -/
theorem State.recordWords_none (h : s.cam.record.entry = none) :
    s.readWord 0x46 = 0 ∧ s.readWord 0x47 = 0 ∧ s.readWord 0x48 = 0 ∧ s.readWord 0x49 = 0
      ∧ s.readWord 0x4A = wordOf s.cam.record.index := by
  unfold State.readWord
  simp [h, placeBit]

theorem State.recordWords_some {e : Entry} (h : s.cam.record.entry = some e) :
    s.readWord 0x46 = e.position
      ∧ s.readWord 0x47 = wordOf (e.line.val + e.action.code * 32 + (if e.lead then 128 else 0) + e.period.code * 256
          + e.phase.toNat * 2048)
      ∧ s.readWord 0x48 = (match e.action with
        | .pulse w => w
        | _ => 0)
      ∧ s.readWord 0x49 = wordOf e.tag.toNat ∧ s.readWord 0x4A = wordOf (s.cam.record.index + 32768) := by
  unfold State.readWord
  rw [h]
  exact ⟨rfl, rfl, rfl, rfl, rfl⟩

/-- The capture words of an empty queue are 0 (R137). -/
theorem State.captureWords_nil (h : s.mcr.queue = []) :
    s.readWord 0x50 = 0 ∧ s.readWord 0x51 = 0 ∧ s.readWord 0x52 = 0 ∧ s.readWord 0x53 = 0 := by
  unfold State.readWord Mcr.status
  rw [h]
  exact ⟨rfl, rfl, rfl, rfl⟩

/-- The capture words show the head record of the queue (R137). -/
theorem State.captureWords_cons {r : CaptureRecord} {rest : List CaptureRecord} (h : s.mcr.queue = r :: rest) :
    s.readWord 0x50 = wordOf (s.mcr.queue.length + 32768)
      ∧ s.readWord 0x51 = wordOf (r.sensor.val + (if r.edge = .falling then 4 else 0) + r.cls.code * 16)
      ∧ s.readWord 0x52 = r.position ∧ s.readWord 0x53 = r.revolution := by
  unfold State.readWord Mcr.status
  rw [h]
  refine ⟨rfl, ?_, rfl, rfl⟩
  show wordOf (r.sensor.val + edgeCode r.edge * 4 + r.cls.code * 16) = _
  cases r.edge <;> rfl

/-- WINDOW_STATUS (R61, R176). -/
theorem Lfu.status_eq (l : Lfu) : l.status = wordOf (l.window.length + match l.cursor with
    | .parked => 0
    | .reading i .current => 16 + i * 256
    | .reading i .next => 32 + i * 256) := by
  unfold Lfu.status
  cases l.cursor with
  | parked => rfl
  | reading i tag => cases tag <;> rfl

/-! ### The leading reads as commands -/

/-- The read of POSITION shows the word and latches the rest of its group (R22, R165, R176). -/
theorem exec_positionRead (held : s.resetHeld = false) {p : Word} {g : PositionHold}
    (h : s.positionWord = p ∧ s.positionGroup = g) :
    s.readWord 0x0A = p ∧ exec .positionRead s = .next { s with biu.positionHold := g, biu.dataOut := some p } := by
  obtain ⟨rfl, rfl⟩ := h
  exact ⟨rfl, exec_live _ s held⟩

/-- The read of FAULT_CAUSE shows the word and latches the fault view (R154, R165, R180). -/
theorem exec_faultCauseRead (held : s.resetHeld = false) {c : Word} {v : FaultHold}
    (h : s.flt.causeWord = c ∧ s.flt.viewWords = v) :
    s.readWord 0x58 = c ∧ exec .faultCauseRead s = .next { s with biu.faultHold := v, biu.dataOut := some c } := by
  obtain ⟨rfl, rfl⟩ := h
  exact ⟨rfl, exec_live _ s held⟩

/-- The read of COMMIT_RESULT latches the failure word and the entry count (R113, R165, R178). -/
theorem exec_commitResultRead (held : s.resetHeld = false) :
    exec .commitResultRead s = .next { s with
      biu.resultHold := ⟨match s.revq.result.outcome with
        | .rejected i reason => wordOf (i + reason.code * 16)
        | _ => 0, wordOf s.revq.result.tableCount⟩
      biu.dataOut := some (s.readWord 0x4C)
      revq.resultRead := true } := by
  have run : exec .commitResultRead s = .next s.readCommitResult := exec_live _ s held
  rw [run, ← GroupOutcome.failureWord_eq]
  rfl

/-- Settles O60: every word shows the state, and a leading word latches its group. -/
theorem readsShowTheStateAndLeadingWordsLatchTheirGroup :
    Obligations.ReadsShowTheStateAndLeadingWordsLatchTheirGroup := by
  unfold Obligations.ReadsShowTheStateAndLeadingWordsLatchTheirGroup
  intro s
  refine ⟨⟨rfl, rfl, rfl, rfl, rfl, rfl, rfl, rfl, rfl, rfl, rfl⟩, ?keeps, ?leading, codesOfTheWindow,
    s.showsStoredWords, s.applying_iff, rfl, rfl, s.modeStatus_eq, rfl, s.lineWords, s.revqStatus_eq, rfl,
    State.recordWords_none, fun _ => State.recordWords_some, rfl, State.captureWords_nil,
    fun _ _ => State.captureWords_cons, rfl, State.pendingWord_getLsbD, rfl, rfl, rfl, rfl, rfl, rfl, rfl,
    s.lfu.status_eq, rfl⟩
  case keeps =>
    intro c t running reset h
    rcases exec_next h with rfl | rfl
    · exact .of_holds rfl
    · exact effectOf_keepsHolds c s running reset
  case leading =>
    intro held
    refine ⟨fun acquire => ?_, fun record => ?_, exec_commitResultRead held, fun none => ?_, fun r rest causes => ?_⟩
    · exact exec_positionRead held (State.positionGroup_acquire acquire)
    · exact exec_positionRead held (State.positionGroup_record record)
    · exact exec_faultCauseRead held (Flt.viewWords_nil none)
    · obtain ⟨cause, view⟩ := Flt.viewWords_cons causes
      exact exec_faultCauseRead held ⟨cause, cause ▸ view⟩

end Sys2Proof.Machine
end

section
/-! PROOFS. What a step can do, and what a count does in each mode: one equation for each case of R21, R23, R24, R35. -/

namespace Sys2Proof.Machine

variable {s t : State}

/-! ### The step -/

/-- A step is a period of REFCLK on an empty queue; else the command at the front makes its change on the queue's rest, or
the RESET pin is held and nothing else has changed. -/
theorem step_cases (h : step s = .next t) :
    (s.pending = [] ∧ t = s.refclk)
      ∨ ∃ c rest, s.pending = c :: rest
          ∧ (t = { s with pending := rest } ∨ t = effectOf c { s with pending := rest }) := by
  unfold step at h
  split at h
  · rename_i empty
    cases h
    exact .inl ⟨empty, rfl⟩
  · rename_i c rest front
    exact .inr ⟨c, rest, front, exec_next h⟩

/-! ### A halt -/

/-- A halting raise leaves the part in HALTED (R134). -/
theorem State.HaltedBy.mode {c : Cause} {a : Stamp} {d : Detail} (h : s.HaltedBy c a d t) : t.modc.mode = .halted := by
  obtain ⟨⟨modc, -⟩, -⟩ := h
  rw [modc]

/-! ### A count before the mode takes it -/

/-- Outside the tracking modes a count reaches the speed window alone (R21, R28). -/
theorem State.counted_idle (l : EncLevels) (d : Int) (idle : s.modc.mode.tracking = false) :
    (s.acceptLevels l).counted d = { s with
      pins.encA := l.a, pins.encB := l.b, axt.ref := l, axt.net := s.axt.net + d } := by
  simp [State.counted, State.acceptLevels, idle]

/-- In the tracking modes it reaches the mechanical counter too, within the counter's ends (R32). -/
theorem State.counted_tracking (l : EncLevels) (d : Int) (tracking : s.modc.mode.tracking = true) :
    (s.acceptLevels l).counted d = { s with
      pins.encA := l.a, pins.encB := l.b, axt.ref := l, axt.net := s.axt.net + d
      axt.mech := max (-131072) (min 131071 (s.axt.mech + d)) } := by
  simp [State.counted, State.acceptLevels, tracking, clampInt]

/-- The state after a backward count, before the mode takes it. -/
def State.countedBackward (s : State) : State := (s.acceptLevels (s.cfg.levelsBackward s.axt.ref)).counted (-1)

/-! ### Counts by mode -/

theorem State.forward_idle (h : s.modc.mode = .config ∨ s.modc.mode = .halted) : s.forward = s.countedForward := by
  rcases h with mode | mode <;> rw [State.forward, mode] <;> rfl

theorem State.forward_acquire (h : s.modc.mode = .acquire) : s.forward = s.countedForward.acquireCount := by
  rw [State.forward, h]; rfl

theorem State.forward_tracking (h : s.modc.mode.tracking = true) : s.forward = s.countedForward.advance := by
  unfold State.forward
  split
  case h_1 mode | h_2 mode | h_3 mode => rw [mode] at h; cases h
  case h_4 | h_5 => rfl

theorem State.backward_idle (h : s.modc.mode.tracking = false) : s.backward = s.countedBackward := by
  unfold State.backward
  split
  case h_1 | h_2 | h_3 => rfl
  case h_4 mode | h_5 mode => rw [mode] at h; cases h

theorem State.backward_tracking (h : s.modc.mode.tracking = true) : s.backward = s.countedBackward.retreat := by
  unfold State.backward
  split
  case h_1 mode | h_2 mode | h_3 mode => rw [mode] at h; cases h
  case h_4 | h_5 => rfl

/-! ### The cases of R23 -/

theorem State.advance_repays (h : 0 < s.axt.deficit) : s.advance = { s with axt.deficit := s.axt.deficit - 1 } :=
  if_pos h

theorem State.advance_consumes (deficit : s.axt.deficit = 0) (h : 0 < s.axt.stretch) :
    s.advance = { s with axt.stretch := s.axt.stretch - 1 } := by
  rw [State.advance, if_neg (by omega), if_pos h]

theorem State.advance_regains (deficit : s.axt.deficit = 0) (stretch : s.axt.stretch = 0)
    (below : s.axt.position + 1 < s.cfg.revLength.toNat) (lost : s.axt.position < s.axt.hwm) :
    s.advance = { s with axt.position := s.axt.position + 1 } := by
  rw [State.advance, if_neg (by omega), if_neg (by omega), if_pos (by exact below)]
  exact if_neg (by omega)

theorem State.advance_climbs (deficit : s.axt.deficit = 0) (stretch : s.axt.stretch = 0)
    (below : s.axt.position + 1 < s.cfg.revLength.toNat) (top : s.axt.hwm ≤ s.axt.position) :
    s.advance = ({ s with axt.position := s.axt.position + 1, axt.hwm := s.axt.position + 1 } : State).hwmAdvanced := by
  rw [State.advance, if_neg (by omega), if_neg (by omega), if_pos (by exact below)]
  exact if_pos (by omega)

theorem State.advance_turns (deficit : s.axt.deficit = 0) (stretch : s.axt.stretch = 0)
    (last : s.cfg.revLength.toNat ≤ s.axt.position + 1) : s.advance = s.boundary := by
  rw [State.advance, if_neg (by omega), if_neg (by omega)]
  exact if_neg (by unfold State.revLen; omega)

/-! ### The case of R24 -/

/-- The state after a backward count has given up its ground, before R25 judges the distance (R24). -/
def State.retreated (s : State) : State :=
  { s with
    axt.position := s.axt.position - 1
    axt.deficit := if s.axt.position = 0 then s.axt.deficit + 1 else s.axt.deficit }

theorem State.retreat_eq (s : State) :
    s.retreat =
      if s.cfg.backlash.toNat < s.retreated.axt.reverseDistance then
        s.retreated.raise .reversal (.num s.retreated.axt.reverseDistance)
      else s.retreated := by
  have taken : (if 0 < s.axt.position then { s with axt.position := s.axt.position - 1 }
      else { s with axt.deficit := s.axt.deficit + 1 } : State) = s.retreated := by
    unfold State.retreated
    by_cases zero : s.axt.position = 0
    · simp [zero]
    · rw [if_pos (by omega), if_neg zero]
  unfold State.retreat
  rw [taken]

end Sys2Proof.Machine
end

section
/-! PROOFS. The law of the position (R22, R25): which changes leave the position record alone, and what the counts, the
boundary, an acquisition and a reset do to it. -/

namespace Sys2Proof.Machine

variable {s t u : State}

/-! ### The record and the law -/

/-- The position record that the law and its fourth relation speak of (R22): position, hwm, deficit, stretch and the
revolution number. -/
def Axt.record (a : Axt) : Nat × Nat × Nat × Nat × BitVec 16 := (a.position, a.hwm, a.deficit, a.stretch, a.revolution)

theorem Axt.record_eq_iff {a b : Axt} : b.record = a.record ↔
    b.position = a.position ∧ b.hwm = a.hwm ∧ b.deficit = a.deficit ∧ b.stretch = a.stretch
      ∧ b.revolution = a.revolution := by
  simp only [Axt.record, Prod.mk.injEq]

/-- After a change from `s` to `t` the law of the position holds, and hwm has not decreased within a revolution. -/
def State.HoldsPosition (s t : State) : Prop := t.PositionLaw ∧ s.HwmHolds t

/-- From `s` to `t` the position record stands, and the part tracks on under one tolerance or tracks no more. -/
structure State.KeepsPosition (s t : State) : Prop where
  record : t.axt.record = s.axt.record
  tracks : t.modc.mode.tracking = true → s.modc.mode.tracking = true ∧ t.cfg.backlash = s.cfg.backlash

/-- A change that leaves the mode and the configuration. -/
theorem State.KeepsPosition.of_same (record : t.axt.record = s.axt.record) (cfg : t.cfg = s.cfg)
    (mode : t.modc.mode = s.modc.mode) : s.KeepsPosition t :=
  ⟨record, fun tracking => ⟨mode ▸ tracking, by rw [cfg]⟩⟩

/-- A change that ends tracking. -/
theorem State.KeepsPosition.of_ended (record : t.axt.record = s.axt.record) (ended : t.modc.mode.tracking = false) :
    s.KeepsPosition t :=
  ⟨record, fun tracking => absurd tracking (by simp [ended])⟩

theorem State.KeepsPosition.refl (s : State) : s.KeepsPosition s := .of_same rfl rfl rfl

theorem State.KeepsPosition.trans (h : s.KeepsPosition t) (h' : t.KeepsPosition u) : s.KeepsPosition u where
  record := h'.record.trans h.record
  tracks tracking := by
    obtain ⟨between, backlash'⟩ := h'.tracks tracking
    obtain ⟨before, backlash⟩ := h.tracks between
    exact ⟨before, backlash'.trans backlash⟩

/-- A change that leaves the record keeps the law, and hwm with it. -/
theorem State.PositionLaw.keep (law : s.PositionLaw) (h : s.KeepsPosition t) : s.HoldsPosition t := by
  obtain ⟨position, hwm, deficit, stretch, -⟩ := Axt.record_eq_iff.mp h.record
  obtain ⟨behind, owed, stretched, within⟩ := law
  refine ⟨⟨by omega, by omega, by omega, fun tracking => ?_⟩, fun _ _ _ => Nat.le_of_eq hwm.symm⟩
  obtain ⟨before, backlash⟩ := h.tracks tracking
  rw [position, hwm, deficit, backlash]
  exact within before

/-- A record just phased: no deficit, no stretch, and the position at hwm (R37). -/
theorem State.PositionLaw.of_phased (top : t.axt.position = t.axt.hwm) (deficit : t.axt.deficit = 0)
    (stretch : t.axt.stretch = 0) : t.PositionLaw :=
  ⟨by omega, by omega, by omega, fun _ => by omega⟩

/-- Where the part did not track, the fourth relation says nothing. -/
theorem State.HwmHolds.of_idle (h : s.modc.mode.tracking = false) : s.HwmHolds t :=
  fun tracking => absurd tracking (by simp [h])

/-- Where it comes to CONFIG, it says nothing either. -/
theorem State.HwmHolds.of_config (h : t.modc.mode = .config) : s.HwmHolds t := by
  rintro - (tracks | halted) -
  · rw [h] at tracks; cases tracks
  · rw [h] at halted; cases halted

/-- In a tracking mode no halting cause is pending (R150). -/
theorem State.PendingLaw.noneHalting (h : s.PendingLaw) (tracking : s.modc.mode.tracking = true) : s.NoneHalting := by
  intro r hr
  obtain ⟨-, -, halted⟩ := h
  refine Nat.lt_of_not_le fun low => ?_
  rw [halted ⟨r, hr, low⟩] at tracking
  cases tracking

/-! ### The changes that leave the record alone -/

@[simp] theorem State.raise_record (s : State) (c : Cause) (d : Detail) : (s.raise c d).axt.record = s.axt.record := by
  simp [Axt.record, State.raise]

@[simp] theorem State.counted_record (s : State) (l : EncLevels) (d : Int) :
    ((s.acceptLevels l).counted d).axt.record = s.axt.record := by
  simp [Axt.record]

/-- A raise leaves the record, and the mode but that it may halt. -/
theorem State.KeepsPosition.raise (h : s.KeepsPosition t) (c : Cause) (d : Detail) : s.KeepsPosition (t.raise c d) := by
  refine h.trans ?_
  rcases t.raiseAt_mode t.stamp c d with same | halted
  · exact .of_same (t.raise_record c d) (t.raise_program c d).1 same
  · exact .of_ended (t.raise_record c d) (by rw [State.raise, halted]; rfl)

theorem State.countedForward_keepsPosition (s : State) : s.KeepsPosition s.countedForward :=
  .of_same (s.counted_record _ _) (by simp [State.countedForward]) (by simp [State.countedForward])

theorem State.countedBackward_keepsPosition (s : State) : s.KeepsPosition s.countedBackward :=
  .of_same (s.counted_record _ _) (by simp [State.countedBackward]) (by simp [State.countedBackward])

theorem State.acquireCount_keepsPosition (s : State) : s.KeepsPosition s.acquireCount := by
  have counted : s.KeepsPosition { s with axt.acqCount := s.axt.acqCount + 1 } := .of_same rfl rfl rfl
  unfold State.acquireCount
  dsimp only
  split
  · exact counted.raise _ _
  · exact counted

theorem State.invalidChange_keepsPosition (s : State) : s.KeepsPosition s.invalidChange := by
  have accepted (l : EncLevels) : s.KeepsPosition (s.acceptLevels l) := .of_same rfl (by simp) (by simp)
  unfold State.invalidChange
  split
  · exact .refl s
  · dsimp only
    split
    · exact (accepted _).raise _ _
    · exact accepted _

theorem State.speedExpires_keepsPosition (s : State) : s.KeepsPosition s.speedExpires := by
  have recomputed (t : State) : t.KeepsPosition t.recompute := .of_same (by simp) (by simp) (by simp)
  have published : s.KeepsPosition s.published := .of_same rfl rfl rfl
  unfold State.speedExpires
  dsimp only
  split
  · exact (published.raise _ _).trans (recomputed _)
  · exact published.trans (recomputed _)

theorem State.interlockOpens_keepsPosition (s : State) : s.KeepsPosition s.interlockOpens := by
  have opened (p : Pins) (o : Out) : s.KeepsPosition { s with pins := p, out := o } := .of_same rfl rfl rfl
  unfold State.interlockOpens
  split
  · exact .refl s
  · dsimp only
    split
    · exact (opened _ _).raise _ _
    · exact opened _ _

theorem State.endInterval_keepsPosition (s : State) : s.KeepsPosition s.endInterval := by
  have published (slip : Int) : s.KeepsPosition { s with axt.lastSlip := slip, axt.mech := 0 } := .of_same rfl rfl rfl
  unfold State.endInterval
  dsimp only
  split
  · exact (published _).raise _ _
  · exact published _

/-! ### Acquisition -/

/-- An acquisition phases the record: hwm and the position stand at the point (R37). -/
theorem State.acquire_position (s : State) (p : Nat) (b : Bool) : (s.acquire p b).PositionLaw :=
  .of_phased (by simp) (by simp) (by simp)

theorem State.indexArrives_position (law : s.PositionLaw) : s.HoldsPosition s.indexArrives := by
  have same := law.keep (.refl s)
  unfold State.indexArrives
  split
  case h_1 | h_2 => exact same
  case h_3 mode =>
    split
    · exact ⟨s.acquire_position _ _, .of_idle (by rw [mode]; rfl)⟩
    · exact same
    · exact same
  case h_4 | h_5 =>
    split
    · exact same
    · split
      · exact law.keep s.endInterval_keepsPosition
      · exact law.keep (.of_same rfl rfl rfl)

theorem State.edgeArrives_position (law : s.PositionLaw) (n : SensorNo) (d : Edge) :
    s.HoldsPosition (s.edgeArrives n d) := by
  have recorded (t : State) (r : CaptureRecord) : t.KeepsPosition (t.record r) := .of_same (by simp) (by simp) (by simp)
  unfold State.edgeArrives
  split
  · exact law.keep (.refl s)
  · split
    case h_1 | h_2 => exact law.keep (.refl s)
    case h_3 mode =>
      split
      · refine ⟨.of_phased ?_ ?_ ?_, .of_idle (by rw [mode]; rfl)⟩ <;> simp [State.acquireByMark]
      · exact law.keep (recorded _ _)
    case h_4 | h_5 =>
      have judged (cls : CaptureClass) : s.KeepsPosition (s.judgeMark cls) := .of_same (by simp) (by simp) (by simp)
      exact law.keep ((judged _).trans (recorded _ _))

/-! ### Counts in the tracking modes -/

/-- The record that a boundary leaves: the correction of the revolution that ended, and the next revolution (R27). -/
theorem State.boundary_axt (s : State) :
    s.boundary.axt = { s.axt with
      position := (s.cfg.correctionFor s.mcr.mark).toNat, hwm := (s.cfg.correctionFor s.mcr.mark).toNat
      stretch := (-s.cfg.correctionFor s.mcr.mark).toNat, deficit := 0, revolution := s.axt.revolution + 1
      armed := s.boundary.axt.armed } := by
  obtain ⟨-, -, -, -, -, -, -, -, -, -, -, ladder, -⟩ :=
    s.turnOver.ladderStep_keeps s.endingStamp (s.cfg.judgeRevolution s.mcr.mark).1
  obtain ⟨-, -, -, -, -, -, -, -, -, axt, -⟩ := s.turnOver_keeps
  rw [Cfg.judgeRevolution_correction, Axt.correct_eq] at axt
  rw [axt] at ladder
  exact ladder

/-- The boundary begins a revolution, with either the position or the stretch above 0 (R27). -/
theorem State.boundary_position (s : State) : s.HoldsPosition s.boundary := by
  have axt := s.boundary_axt
  have next : s.boundary.axt.revolution = s.axt.revolution + 1 := by rw [axt]
  refine ⟨?_, fun _ _ same => ?_⟩
  · unfold State.PositionLaw
    rw [axt]
    dsimp only
    exact ⟨by omega, by omega, by omega, fun _ => by omega⟩
  · rw [next] at same
    exact absurd same (by bv_omega)

/-- A forward count in a tracking mode: each case of R23 keeps the law. -/
theorem State.advance_position (law : s.PositionLaw) : s.HoldsPosition s.advance := by
  have hwmKept {t : State} (h : s.axt.hwm ≤ t.axt.hwm) : s.HwmHolds t := fun _ _ _ => h
  obtain ⟨behind, owed, stretched, within⟩ := law
  by_cases deficit : s.axt.deficit = 0
  · by_cases stretch : s.axt.stretch = 0
    · by_cases last : s.cfg.revLength.toNat ≤ s.axt.position + 1
      · rw [State.advance_turns deficit stretch last]
        exact s.boundary_position
      · by_cases top : s.axt.hwm ≤ s.axt.position
        · rw [State.advance_climbs deficit stretch (by omega) top]
          refine ⟨.of_phased ?_ ?_ ?_, hwmKept ?_⟩ <;> simp <;> omega
        · rw [State.advance_regains deficit stretch (by omega) (by omega)]
          refine ⟨⟨?_, ?_, ?_, fun tracking => ?_⟩, hwmKept (Nat.le_refl _)⟩ <;> dsimp only
          · omega
          · omega
          · omega
          · have := within tracking
            omega
    · rw [State.advance_consumes deficit (by omega)]
      exact ⟨⟨behind, owed, by dsimp only; omega, within⟩, hwmKept (Nat.le_refl _)⟩
  · rw [State.advance_repays (by omega)]
    refine ⟨⟨behind, ?_, stretched, fun tracking => ?_⟩, hwmKept (Nat.le_refl _)⟩ <;> dsimp only
    · omega
    · have := within tracking
      omega

/-- A backward count in a tracking mode: within the tolerance the law holds, and beyond it the part halts (R24, R25). -/
theorem State.retreat_position (law : s.PositionLaw) (none : s.NoneHalting) : s.HoldsPosition s.retreat := by
  obtain ⟨behind, owed, stretched, -⟩ := law
  have relations : s.retreated.axt.position ≤ s.retreated.axt.hwm
      ∧ (0 < s.retreated.axt.deficit → s.retreated.axt.position = 0)
      ∧ (0 < s.retreated.axt.stretch → s.retreated.axt.position = 0 ∧ s.retreated.axt.hwm = 0) := by
    unfold State.retreated
    dsimp only
    split <;> omega
  obtain ⟨behind', owed', stretched'⟩ := relations
  rw [State.retreat_eq]
  split
  · have halts := s.retreated.raiseAt_haltedBy s.retreated.stamp .reversal (.num s.retreated.axt.reverseDistance) rfl none
    obtain ⟨position, hwm, deficit, stretch, -⟩ := Axt.record_eq_iff.mp
      (s.retreated.raise_record .reversal (.num s.retreated.axt.reverseDistance))
    refine ⟨⟨?_, ?_, ?_, fun tracking => ?_⟩, fun _ _ _ => Nat.le_of_eq hwm.symm⟩
    · omega
    · omega
    · omega
    · rw [State.raise, halts.mode] at tracking; cases tracking
  · rename_i near
    exact ⟨⟨behind', owed', stretched', fun _ => Nat.le_of_not_lt near⟩, fun _ _ _ => Nat.le_refl _⟩

/-- A change after one that leaves the record and the mode. -/
theorem State.HoldsPosition.after (h : s.KeepsPosition t) (tracks : t.modc.mode = s.modc.mode)
    (h' : t.HoldsPosition u) : s.HoldsPosition u := by
  obtain ⟨-, hwm, -, -, revolution⟩ := Axt.record_eq_iff.mp h.record
  obtain ⟨law, holds⟩ := h'
  refine ⟨law, ?_⟩
  unfold State.HwmHolds at holds ⊢
  rw [tracks, hwm, revolution] at holds
  exact holds

theorem State.forward_position (law : s.PositionLaw) : s.HoldsPosition s.forward := by
  have counted := s.countedForward_keepsPosition
  cases mode : s.modc.mode with
  | config => rw [State.forward_idle (.inl mode)]; exact law.keep counted
  | halted => rw [State.forward_idle (.inr mode)]; exact law.keep counted
  | acquire =>
    rw [State.forward_acquire mode]
    exact law.keep (counted.trans s.countedForward.acquireCount_keepsPosition)
  | locked | freewheel =>
    rw [State.forward_tracking (by rw [mode]; rfl)]
    exact .after counted rfl (State.advance_position (law.keep counted).1)

theorem State.backward_position (law : s.PositionLaw) (pending : s.PendingLaw) : s.HoldsPosition s.backward := by
  have counted := s.countedBackward_keepsPosition
  cases tracking : s.modc.mode.tracking with
  | false => rw [State.backward_idle tracking]; exact law.keep counted
  | true =>
    rw [State.backward_tracking tracking]
    exact .after counted rfl (State.retreat_position (law.keep counted).1 (pending.noneHalting tracking))

/-! ### The commands given by a strobe -/

/-- START leaves the record where it is refused, and else begins one at 0 or at the index point (R36, R37, R125). -/
theorem State.cmdStart_position (law : s.PositionLaw) : s.HoldsPosition s.cmdStart := by
  have refused (code : ResultCode) (check : BitVec 3) : s.HoldsPosition (s.answer .start code check) :=
    law.keep (.of_same (by simp) (by simp) (by simp))
  unfold State.cmdStart
  split
  · exact refused _ _
  · rename_i config
    have idle : s.modc.mode.tracking = false := by rw [Decidable.not_not.mp config]; rfl
    split
    · exact refused _ _
    · split
      · exact refused _ _
      · refine ⟨?_, .of_idle idle⟩
        split
        · exact s.enterAcquire.acquire_position _ _
        all_goals exact .of_phased rfl rfl rfl

theorem State.runCommand_keepsPosition (s : State) (c : Command) (h : movesMode c = false) (clear : c ≠ .clearTable) :
    s.KeepsPosition (s.runCommand c) := by
  obtain ⟨axt, modc⟩ := s.runCommand_quiet c h
  exact .of_same (congrArg Axt.record axt) (s.runCommand_program c clear).1 (congrArg Modc.mode modc)

theorem State.runCommand_position (law : s.PositionLaw) (c : Command) : s.HoldsPosition (s.runCommand c) := by
  cases c with
  | start => exact State.cmdStart_position law
  | stop =>
    refine law.keep ?_
    unfold State.runCommand State.cmdStop
    dsimp only
    split
    case h_1 | h_2 => exact .of_same (by simp) (by simp) (by simp)
    case h_3 => exact .of_ended (by simp [Axt.record]) (by simp [Mode.tracking])
    case h_4 | h_5 => exact .of_same (by simp) (by simp) (by simp)
  | haltNow =>
    refine law.keep ?_
    unfold State.runCommand State.cmdHaltNow
    dsimp only
    split
    · exact .of_ended (by simp [Axt.record]) (by simp [Mode.tracking])
    · exact .of_same (by simp) (by simp) (by simp)
  | clearHalt =>
    refine law.keep ?_
    unfold State.runCommand State.cmdClearHalt
    dsimp only
    split
    · exact .of_same (by simp) (by simp) (by simp)
    · split
      · exact .of_same (by simp) (by simp) (by simp)
      · exact .of_ended (by simp [Axt.record]) (by simp [Mode.tracking])
  | softReset =>
    unfold State.runCommand State.cmdSoftReset
    dsimp only
    split
    · exact law.keep (.of_same (by simp) (by simp) (by simp))
    · exact ⟨.of_phased rfl rfl rfl, .of_config rfl⟩
  | clearTable =>
    obtain ⟨cfg, axt, modc, -⟩ := s.cmdClearTable_keeps
    exact law.keep (.of_same (congrArg Axt.record axt) cfg (congrArg Modc.mode modc))
  | _ => exact law.keep (s.runCommand_keepsPosition _ (by decide) (by decide))

/-! ### Bus writes -/

/-- A write taken in CONFIG alone leaves the record; in CONFIG the law of the position says nothing of the tolerance
(R172). -/
theorem State.KeepsPosition.of_frozen (s t : State) (record : t.axt.record = s.axt.record)
    (mode : t.modc.mode = s.modc.mode) :
    s.KeepsPosition (if s.modc.mode ≠ .config then s.setAccessViolation else t) := by
  split
  · exact .of_same (by simp) (by simp) (by simp)
  · rename_i config
    exact .of_ended record (by rw [mode, Decidable.not_not.mp config]; rfl)

theorem State.busWrite_position (law : s.PositionLaw) (w : WriteTarget) (v : Word) :
    s.HoldsPosition (s.busWrite w v) := by
  cases w with
  | strobe r =>
    unfold State.busWrite State.writeStrobe
    dsimp only
    split
    · exact law.keep (.refl s)
    · exact State.runCommand_position law _
    · exact law.keep (.of_same rfl rfl rfl)
  | frozen | encoderCfg | timebaseDiv | acqCfg => exact law.keep (.of_frozen s _ rfl rfl)
  | safeLevels =>
    refine law.keep (.of_frozen s _ ?_ ?_) <;>
    · dsimp only
      split <;> rfl
  | manualLevels | relockCfg => exact law.keep ⟨rfl, fun tracking => ⟨tracking, rfl⟩⟩
  | _ => exact law.keep (.of_same rfl rfl rfl)

/-! ### Every step -/

/-- Every command keeps the law of the position, and hwm within a revolution. -/
theorem effectOf_position (c : Instr) (pending : s.PendingLaw) (law : s.PositionLaw) :
    s.HoldsPosition (effectOf c s) := by
  have same := law.keep (.refl s)
  cases c with
  | forwardCount => exact State.forward_position law
  | revolutionBoundary =>
    unfold effectOf State.boundaryCount
    dsimp only
    split
    · exact State.forward_position law
    · exact same
  | acquireTimeout =>
    unfold effectOf State.timeoutCount
    dsimp only
    split
    · exact State.forward_position law
    · exact same
  | backwardCount => exact State.backward_position law pending
  | invalidTransition => exact law.keep s.invalidChange_keepsPosition
  | indexArrival => exact State.indexArrives_position law
  | speedWindowExpiry => exact law.keep s.speedExpires_keepsPosition
  | sensorEdge n d => exact State.edgeArrives_position law n d
  | interlockOpening => exact law.keep s.interlockOpens_keepsPosition
  | pulseExpiry i =>
    unfold effectOf State.pulseExpires
    dsimp only
    split
    · exact law.keep (.of_same rfl rfl rfl)
    · exact same
  | fetchCompletion =>
    obtain ⟨cfg, -, axt, modc⟩ := s.fetchCompletes_keeps
    exact law.keep (.of_same (congrArg Axt.record axt) cfg (congrArg Modc.mode modc))
  | readbackCompletion =>
    obtain ⟨cfg, -, axt, modc⟩ := s.readbackCompletes_keeps
    exact law.keep (.of_same (congrArg Axt.record axt) cfg (congrArg Modc.mode modc))
  | applicationCompletion =>
    obtain ⟨cfg, axt, modc, -⟩ := s.applicationCompletes_keeps
    exact law.keep (.of_same (congrArg Axt.record axt) cfg (congrArg Modc.mode modc))
  | powerOn | resetPin | resetPinHeld => exact ⟨.of_phased rfl rfl rfl, .of_config rfl⟩
  | start | stop | haltNow | clearHalt | softReset | ackFault | popCapture | applyManual | clearCounters | submitInsert
  | submitRemove | submitModify | commit | discardOpen | readEntry | clearTable | raiseLock =>
    exact State.runCommand_position law _
  | invalidCommandWrite | intFlagsWrite | intEnableWrite | stickyStatusWrite | frozenWordWrite | encoderCfgWrite
  | timebaseDivWrite | acqCfgWrite | safeLevelsWrite | registerWrite => exact State.busWrite_position law _ _
  | interlockClosing | positionRead | commitResultRead | faultCauseRead => exact law.keep (.of_same rfl rfl rfl)

/-- One period of REFCLK leaves the record (R17, R30). -/
theorem State.refclk_keepsPosition (s : State) : s.KeepsPosition s.refclk := by
  obtain ⟨cfg, -, -, modc, axt⟩ := s.takeLevels_keeps
  have record : s.takeLevels.axt.record = s.axt.record := by rw [axt]; rfl
  unfold State.refclk
  split
  · exact .refl s
  · unfold State.tick
    split <;> exact .of_same record cfg (congrArg Modc.mode modc)

/-- Settles O7: the clock leaves the position record, and every command keeps the law of it. -/
theorem everyStepKeepsTheReverseDistanceWithinBacklash :
    Obligations.EveryStepKeepsTheReverseDistanceWithinBacklash := by
  intro s t pending law h
  rcases step_cases h with ⟨-, rfl⟩ | ⟨c, rest, -, rfl | rfl⟩
  · exact law.keep s.refclk_keepsPosition
  · exact law.keep (.of_same rfl rfl rfl)
  · exact effectOf_position (s := { s with pending := rest }) c pending law

end Sys2Proof.Machine
end

section
/-! PROOFS. The decoder's tables, and the counts in every mode: what a count reaches, what repays, what halts. -/

namespace Sys2Proof.Machine

variable {s : State}

/-! ### The decoder -/

theorem Cfg.decodeChange_quadrature {c : Cfg} (h : c.encMode = .quadrature) (ref new : EncLevels) :
    c.decodeChange ref new =
      if new = ref.succ then (if c.encInvert then .backward else .forward)
      else if new = ref.pred then (if c.encInvert then .forward else .backward)
      else if new = ref.opposite then .invalid else .noCount := by
  rw [Cfg.decodeChange, h]

theorem Cfg.decodeChange_stepDir {c : Cfg} (h : c.encMode = .stepDir) (ref new : EncLevels) :
    c.decodeChange ref new =
      if ref.a = false ∧ new.a = true then (if new.b = c.encInvert then .forward else .backward) else .noCount := by
  rw [Cfg.decodeChange, h]

/-- The levels after the counts in QUADRATURE: the next and the previous state, or with the sense inverted the other way
about (R18). -/
theorem Cfg.levels_quadrature {c : Cfg} (h : c.encMode = .quadrature) (ref : EncLevels) :
    c.levelsForward ref = (if c.encInvert then ref.pred else ref.succ)
      ∧ c.levelsBackward ref = (if c.encInvert then ref.succ else ref.pred) := by
  rw [Cfg.levelsForward, Cfg.levelsBackward, h]
  exact ⟨rfl, rfl⟩

theorem Cfg.levels_stepDir {c : Cfg} (h : c.encMode = .stepDir) (ref : EncLevels) :
    c.levelsForward ref = ⟨true, c.encInvert⟩ ∧ c.levelsBackward ref = ⟨true, !c.encInvert⟩ := by
  rw [Cfg.levelsForward, Cfg.levelsBackward, h]
  exact ⟨rfl, rfl⟩

/-- One step of the order and one step back end in different states (R18). -/
theorem EncLevels.pred_ne_succ (l : EncLevels) : l.pred ≠ l.succ := by
  obtain ⟨a, b⟩ := l
  cases a <;> cases b <;> decide

/-- The table of R18 and R19: the sixteen changes of QUADRATURE, with `fwd` and `bwd` as the sense gives them. -/
theorem EncLevels.quadrature_table (ref new : EncLevels) (fwd bwd : Change) :
    (if new = ref.succ then fwd else if new = ref.pred then bwd else if new = ref.opposite then .invalid else .noCount)
      = match ref.a, ref.b, new.a, new.b with
        | false, false, true, false => fwd
        | true, false, true, true => fwd
        | true, true, false, true => fwd
        | false, true, false, false => fwd
        | false, false, false, true => bwd
        | true, false, false, false => bwd
        | true, true, true, false => bwd
        | false, true, true, true => bwd
        | false, false, true, true => .invalid
        | true, true, false, false => .invalid
        | true, false, false, true => .invalid
        | false, true, true, false => .invalid
        | _, _, _, _ => .noCount := by
  obtain ⟨a, b⟩ := ref
  obtain ⟨x, y⟩ := new
  cases a <;> cases b <;> cases x <;> cases y <;> rfl

/-- A change that the decoder reads as a count, or as an invalid transition, is the step of that command (R18 to R20). -/
theorem Cfg.decodeChange_step (c : Cfg) (ref new : EncLevels) :
    (c.decodeChange ref new = .forward → new = c.levelsForward ref)
      ∧ (c.decodeChange ref new = .backward → new = c.levelsBackward ref)
      ∧ (c.decodeChange ref new = .invalid → c.encMode = .quadrature ∧ new = ref.opposite) := by
  cases mode : c.encMode with
  | quadrature =>
    obtain ⟨forward, backward⟩ := c.levels_quadrature mode ref
    rw [c.decodeChange_quadrature mode, forward, backward]
    cases c.encInvert <;> grind
  | stepDir =>
    obtain ⟨forward, backward⟩ := c.levels_stepDir mode ref
    rw [c.decodeChange_stepDir mode, forward, backward]
    obtain ⟨a, b⟩ := new
    cases c.encInvert <;> grind

/-- Settles O15: the two tables, and the steps of the count commands read back by them. -/
theorem decoderFollowsTheQuadratureAndStepTables : Obligations.DecoderFollowsTheQuadratureAndStepTables := by
  intro c ref new
  refine ⟨fun mode => ?_, fun mode => ?_, c.decodeChange_step ref new⟩
  · obtain ⟨forward, backward⟩ := c.levels_quadrature mode ref
    refine ⟨?_, ?_, ?_⟩
    · rw [c.decodeChange_quadrature mode]
      exact ref.quadrature_table new _ _
    · rw [c.decodeChange_quadrature mode, forward]
      cases c.encInvert <;> simp [ref.pred_ne_succ]
    · rw [c.decodeChange_quadrature mode, backward]
      cases c.encInvert <;> simp [ref.pred_ne_succ]
  · obtain ⟨forward, backward⟩ := c.levels_stepDir mode ref
    refine ⟨c.decodeChange_stepDir mode ref new, fun low => ?_, forward, backward⟩
    rw [c.decodeChange_stepDir mode, c.decodeChange_stepDir mode, forward, backward]
    simp [low]

/-! ### Outside the tracking modes -/

/-- A forward count in ACQUIRE, short of 2 times L (R35). -/
theorem State.acquireCount_short (h : s.axt.acqCount + 1 ≠ 2 * s.cfg.revLength.toNat) :
    s.acquireCount = { s with axt.acqCount := s.axt.acqCount + 1 } :=
  if_neg h

/-- The one that reaches 2 times L (R35, R130). -/
theorem State.acquireCount_reaches (h : s.axt.acqCount + 1 = 2 * s.cfg.revLength.toNat) :
    s.acquireCount = ({ s with axt.acqCount := s.axt.acqCount + 1 } : State).raise .acquireTimeout (.num 0) :=
  if_pos h

/-- ACQUIRE_TIMEOUT can arrive at the count that reaches 2 times L, and only there (R35). -/
theorem State.atTimeout_iff (mode : s.modc.mode = .acquire) :
    s.atTimeout = true ↔ s.axt.acqCount + 1 = 2 * s.cfg.revLength.toNat := by
  rw [State.atTimeout, mode]
  exact beq_iff_eq

/-- Settles O16: the count reaches the speed window, and in ACQUIRE the acquisition count. -/
theorem countsOutsideTheTrackingModesReachTheSpeedWindow :
    Obligations.CountsOutsideTheTrackingModesReachTheSpeedWindow := by
  intro s held f b
  have forward : exec .forwardCount s = .next s.forward := exec_live _ s held
  have backward : exec .backwardCount s = .next s.backward := exec_live _ s held
  have timeout : exec .acquireTimeout s = .next s.timeoutCount := exec_live _ s held
  rw [forward, backward, timeout]
  refine ⟨fun mode => ?_, fun mode => ?_, fun mode short => ⟨?_, ?_⟩⟩
  · have idle : s.modc.mode.tracking = false := by rcases mode with mode | mode <;> rw [mode] <;> rfl
    rw [State.forward_idle mode, State.countedForward, State.counted_idle _ _ idle]
  · have idle : s.modc.mode.tracking = false := by rcases mode with mode | mode | mode <;> rw [mode] <;> rfl
    rw [State.backward_idle idle, State.countedBackward, State.counted_idle _ _ idle]
    rfl
  · rw [State.forward_acquire mode, State.acquireCount_short (by exact short), State.countedForward,
      State.counted_idle _ _ (by rw [mode]; rfl)]
  · rw [State.timeoutCount, if_neg (mt (State.atTimeout_iff mode).mp short)]

/-- In ACQUIRE the stamp is the acquisition count with revolution 0 (R147). -/
theorem State.stamp_acquire (h : s.modc.mode = .acquire) : s.stamp = ⟨.acquire, wordOf s.axt.acqCount, 0⟩ := by
  rw [State.stamp, h]

/-- Settles O17: the count is the one that reaches 2 times L, and its raise halts. -/
theorem acquisitionCountAtTwiceTheLengthHalts : Obligations.AcquisitionCountAtTwiceTheLengthHalts := by
  intro s held mode none reaches
  have forward : exec .forwardCount s = .next s.forward := exec_live _ s held
  have timeout : exec .acquireTimeout s = .next s.timeoutCount := exec_live _ s held
  have arrives : s.timeoutCount = s.forward := if_pos ((State.atTimeout_iff mode).mpr reaches)
  let u : State := { s with
    pins.encA := (s.cfg.levelsForward s.axt.ref).a, pins.encB := (s.cfg.levelsForward s.axt.ref).b
    axt.ref := s.cfg.levelsForward s.axt.ref, axt.net := s.axt.net + 1, axt.acqCount := 2 * s.cfg.revLength.toNat }
  have raises : s.forward = u.raiseAt ⟨.acquire, wordOf (2 * s.cfg.revLength.toNat), 0⟩ .acquireTimeout (.num 0) := by
    rw [State.forward_acquire mode, State.acquireCount_reaches (by exact reaches), State.countedForward,
      State.counted_idle _ _ (by rw [mode]; rfl), State.raise, State.stamp_acquire (by exact mode)]
    dsimp only
    rw [reaches]
  rw [timeout, forward, arrives, raises]
  exact ⟨_, rfl, rfl, u.raiseAt_result _ _ _, u.raiseAt_haltedBy _ _ _ rfl none⟩

/-! ### In the tracking modes -/

/-- Settles O18, by the first three cases of R23. -/
theorem forwardCountRepaysBeforeThePositionMoves : Obligations.ForwardCountRepaysBeforeThePositionMoves := by
  intro s held tracking l u
  have run : exec .forwardCount s = .next s.forward := exec_live _ s held
  have counted : s.countedForward = u := State.counted_tracking _ _ tracking
  rw [run, State.forward_tracking tracking, counted]
  refine ⟨fun deficit => ?_, fun deficit stretch => ?_, fun deficit stretch below lost => ?_⟩
  · rw [State.advance_repays (by exact deficit)]
  · rw [State.advance_consumes (by exact deficit) (by exact stretch)]
  · rw [State.advance_regains (by exact deficit) (by exact stretch) (by exact below) (by exact lost)]

/-- Settles O21: the count gives up its ground, and its distance is judged. -/
theorem backwardCountGivesUpGroundOrHalts : Obligations.BackwardCountGivesUpGroundOrHalts := by
  intro s held tracking l position deficit distance u
  have run : exec .backwardCount s = .next s.backward := exec_live _ s held
  have counted : s.countedBackward.retreated = u := by
    rw [State.countedBackward, State.counted_tracking _ _ tracking]
    rfl
  have backward : s.backward =
      if s.cfg.backlash.toNat < distance then u.raise .reversal (.num distance) else u := by
    rw [State.backward_tracking tracking, State.retreat_eq, counted]
    rfl
  rw [run, backward]
  refine ⟨fun near => ?_, fun far none => ?_⟩
  · rw [if_neg (by omega)]
  · rw [if_pos far, State.raise, State.stamp_tracking (by exact tracking)]
    exact ⟨_, rfl, u.raiseAt_result _ _ _, u.raiseAt_haltedBy _ _ _ rfl none⟩

/-- An invalid transition in STEP_DIR, and in QUADRATURE (R19, R20). -/
theorem State.invalidChange_stepDir (h : s.cfg.encMode = .stepDir) : s.invalidChange = s := by
  rw [State.invalidChange, h]

theorem State.invalidChange_quadrature (h : s.cfg.encMode = .quadrature) :
    s.invalidChange =
      if s.modc.mode.running then (s.acceptLevels s.axt.ref.opposite).raise .encoderError (.num 0)
      else s.acceptLevels s.axt.ref.opposite := by
  rw [State.invalidChange, h]

/-- Settles O22: the change becomes the reference state, and is raised in a running mode. -/
theorem invalidTransitionMakesNoCountAndHaltsARun : Obligations.InvalidTransitionMakesNoCountAndHaltsARun := by
  intro s held u
  have run : exec .invalidTransition s = .next s.invalidChange := exec_live _ s held
  rw [run]
  refine ⟨fun stepDir => ?_, fun quadrature idle => ?_, fun quadrature running none => ?_⟩
  · rw [State.invalidChange_stepDir stepDir]
  · rw [State.invalidChange_quadrature quadrature, idle]
    rfl
  · rw [State.invalidChange_quadrature quadrature, if_pos running, State.placeNow_eq]
    exact ⟨_, rfl, u.raiseAt_result _ _ _, u.raiseAt_haltedBy _ _ _ rfl none⟩

end Sys2Proof.Machine
end

section
/-! PROOFS. The slip monitor at an index arrival, and the judgement of OVERSPEED at an expiry of the speed window. -/

namespace Sys2Proof.Machine

variable {s : State}

/-! ### The slip monitor -/

/-- In CONFIG and HALTED, and in ACQUIRE with another source, an index arrival does nothing (R31). -/
theorem State.indexArrives_ignored
    (h : s.modc.mode = .config ∨ s.modc.mode = .halted ∨ (s.modc.mode = .acquire ∧ s.cfg.acqSource ≠ .index)) :
    s.indexArrives = s := by
  rcases h with mode | mode | ⟨mode, source⟩
  · rw [State.indexArrives, mode]
  · rw [State.indexArrives, mode]
  · rw [State.indexArrives, mode]
    dsimp only
    split
    · rename_i index
      exact absurd index source
    · rfl
    · rfl

/-- In a tracking mode it goes to the slip monitor, if that is enabled (R33). -/
theorem State.indexArrives_tracking (h : s.modc.mode.tracking = true) :
    s.indexArrives =
      if s.cfg.indexMonitor = false then s
      else if s.axt.armed then s.endInterval else { s with axt.armed := true, axt.mech := 0 } := by
  unfold State.indexArrives
  split
  case h_1 mode | h_2 mode | h_3 mode => rw [mode] at h; cases h
  case h_4 | h_5 => rfl

/-- Settles O28: an arrival is ignored, arms the monitor, or ends an interval. -/
theorem indexArrivalAtTheSlipMonitor : Obligations.IndexArrivalAtTheSlipMonitor := by
  intro s held
  have run : exec .indexArrival s = .next s.indexArrives := exec_live _ s held
  rw [run]
  refine ⟨fun ignored => ?_, fun tracking enabled disarmed => ?_, fun tracking enabled armed => ?_⟩
  · rcases ignored with config | halted | acquire | ⟨tracking, disabled⟩
    · rw [State.indexArrives_ignored (.inl config)]
    · rw [State.indexArrives_ignored (.inr (.inl halted))]
    · rw [State.indexArrives_ignored (.inr (.inr acquire))]
    · rw [State.indexArrives_tracking tracking, if_pos disabled]
  · rw [State.indexArrives_tracking tracking, if_neg (by rw [enabled]; decide), if_neg (by rw [disarmed]; decide)]
  · intro deviation slip u
    have ends : s.indexArrives =
        if s.cfg.slipTolerance.toNat < deviation.natAbs then u.raise .indexSlip (.num slip) else u := by
      rw [State.indexArrives_tracking tracking, if_neg (by rw [enabled]; decide), if_pos armed]
      rfl
    have stamp : u.stamp = s.placeNow := by
      rw [State.placeNow_eq, State.stamp_tracking tracking, State.stamp_tracking (by exact tracking)]
    rw [ends]
    refine ⟨fun near => by rw [if_neg (by omega)], fun far => ⟨_, by rw [if_pos far], ?_, ?_, ?_⟩⟩
    · rw [← stamp]
      exact u.raiseAt_raises _ _ _ rfl
    · exact u.raiseAt_result _ _ _
    · have warns : Cause.indexSlip.halting = false := rfl
      refine State.sameBut_of (fun p => ?_) (by simp [State.raise])
      cases p <;> simp [State.agreesOn, State.raise, State.raiseAt_warns, warns]

/-! ### The judgement of OVERSPEED -/

/-- Outside the tracking modes nothing is computed anew (R49). -/
theorem State.recompute_idle (h : s.modc.mode.tracking = false) : s.recompute = s :=
  if_neg (by rw [h]; decide)

/-- An expiry in no running mode publishes, whatever the net count (R28, R29). -/
theorem State.speedExpires_idle (h : s.modc.mode.running = false) : s.speedExpires = s.published.recompute := by
  unfold State.speedExpires
  dsimp only
  rw [h]
  rfl

/-- An expiry above the limit in a running mode raises OVERSPEED with the published speed (R29). -/
theorem State.speedExpires_fast (running : s.modc.mode.running = true) (fast : (s.cfg.overspeed.toNat : Int) < s.axt.net) :
    s.speedExpires = (s.published.raise .overspeed (.num (min 4095 s.axt.net.toNat : Nat))).recompute := by
  unfold State.speedExpires
  dsimp only
  rw [running, decide_eq_true fast]
  rfl

/-- Settles O29: the published window, and the halt before anything is computed anew. -/
theorem speedWindowExpiryPublishesAndJudgesOverspeed : Obligations.SpeedWindowExpiryPublishesAndJudgesOverspeed := by
  intro s held speed u
  have run : exec .speedWindowExpiry s = .next s.speedExpires := exec_live _ s held
  have published : s.published = u := rfl
  rw [run]
  refine ⟨fun quiet => ?_, fun running fast none => ?_⟩
  · have idle : u.modc.mode.tracking = false := by
      show s.modc.mode.tracking = false
      rcases quiet with mode | mode | ⟨mode, -⟩ <;> rw [mode] <;> rfl
    have publishes : s.speedExpires = s.published.recompute := by
      rcases quiet with mode | mode | ⟨-, slow⟩
      · exact State.speedExpires_idle (by rw [mode]; rfl)
      · exact State.speedExpires_idle (by rw [mode]; rfl)
      · exact State.speedExpires_quiet slow
    rw [publishes, published, State.recompute_idle idle]
  · have stamp : u.stamp = s.placeNow := by rw [State.placeNow_eq]; rfl
    have halts := u.raiseAt_haltedBy u.stamp .overspeed (.num speed) rfl none
    rw [State.speedExpires_fast running fast, published,
      State.recompute_idle (by rw [State.raise, halts.mode]; rfl), ← stamp]
    exact ⟨_, rfl, u.raiseAt_result _ _ _, halts⟩

end Sys2Proof.Machine
end

section
/-! PROOFS. The boundary: what its ladder can do, how the bus and the pending set grow, and the correction applied. -/

namespace Sys2Proof.Machine

variable {s t u : State}

/-! ### What the ladder can do -/

/-- With the ladder's counters set, MODC leaves the state, enters FREEWHEEL, returns to LOCKED, enters CONFIG, or raises
MARKS_LOST (R132, R139 to R142). -/
theorem State.ladderStep_moves (s : State) (a : Stamp) (v : Verdict) :
    ∃ m : Modc, m.mode = s.modc.mode ∧
      let counted : State := { s with modc := m }
      s.ladderStep a v = counted ∨ s.ladderStep a v = counted.enterFreewheel ∨ s.ladderStep a v = counted.relock
        ∨ s.ladderStep a v = counted.enterConfig
        ∨ s.ladderStep a v = counted.raiseAt a .marksLost (.num m.badRun) := by
  obtain ⟨mode, -, -⟩ := s.modc.judge_mode s.cfg v
  unfold State.ladderStep
  generalize s.modc.judge s.cfg v = judged at *
  obtain ⟨m, move⟩ := judged
  refine ⟨m, mode, ?_⟩
  cases move <;> dsimp only
  case marksLost => simp
  case toFreewheel | toLocked | stay => split <;> simp

/-- A raise of a halting cause leaves the monitor and the mark state where it was pending; else it disarms the one and
clears the other with the entry into HALTED (R38, R97, R134). -/
theorem State.raiseAt_ends (s : State) (a : Stamp) {c : Cause} (d : Detail) (halting : c.halting = true) :
    let t := s.raiseAt a c d
    (t.modc = s.modc ∧ t.axt = s.axt ∧ t.mcr = s.mcr)
      ∨ (t.modc.mode.tracking = false ∧ t.axt = { s.axt with armed := false }
          ∧ t.mcr = { s.mcr with mark := ⟨none, 0⟩ }) := by
  intro t
  cases pending : isPending c s.flt.causes with
  | true =>
    rw [show t = _ from s.raiseAt_repeat a c d pending]
    exact .inl ⟨rfl, rfl, rfl⟩
  | false =>
    rw [show t = _ from s.raiseAt_halts a c d pending halting]
    exact .inr ⟨by simp [Mode.tracking], by simp, by simp⟩

/-- The part tracks on after the ladder with the monitor and the mark state as they were, or it has ended its run with the
monitor disarmed and the mark state cleared (R38, R97). -/
theorem State.ladderStep_monitor (s : State) (a : Stamp) (v : Verdict) (tracking : s.modc.mode.tracking = true) :
    let t := s.ladderStep a v
    (t.modc.mode.tracking = true ∧ t.axt = s.axt ∧ t.mcr = s.mcr)
      ∨ (t.modc.mode.tracking = false ∧ t.axt = { s.axt with armed := false }
          ∧ t.mcr = { s.mcr with mark := ⟨none, 0⟩ }) := by
  intro t
  obtain ⟨m, mode, stays | freewheel | relocks | config | lost⟩ := s.ladderStep_moves a v
  · rw [show t = _ from stays]
    exact .inl ⟨mode ▸ tracking, rfl, rfl⟩
  · rw [show t = _ from freewheel]
    exact .inl ⟨by simp [Mode.tracking], by simp, by simp⟩
  · rw [show t = _ from relocks]
    exact .inl ⟨by simp [Mode.tracking], by simp, by simp⟩
  · rw [show t = _ from config]
    exact .inr ⟨by simp [Mode.tracking], by simp, by simp⟩
  · rw [show t = _ from lost]
    rcases ({ s with modc := m } : State).raiseAt_ends a (.num m.badRun) (c := .marksLost) rfl with
      ⟨modc, axt, mcr⟩ | ended
    · exact .inl ⟨by rw [modc]; exact mode ▸ tracking, axt, mcr⟩
    · exact .inr ended

/-! ### The growth of the bus and of the pending set -/

/-- From `s` to `t` of the bus the flags alone move, and of those REV, MODE and FAULT; none is cleared and no cause leaves
the pending set; FAULT is set exactly when a cause joins (R148, R149, R157). -/
structure State.BusGrows (s t : State) : Prop where
  bus : t.biu = { s.biu with flags := t.biu.flags }
  sets : ∀ f, s.flag f = true → t.flag f = true
  others : ∀ f ∈ [Flag.capt, .commit, .read], t.flag f = s.flag f
  pends : ∀ c, isPending c s.flt.causes = true → isPending c t.flt.causes = true
  fault : t.flag .fault = true ↔
    s.flag .fault = true ∨ ∃ c, isPending c t.flt.causes = true ∧ isPending c s.flt.causes = false

theorem State.BusGrows.trans (h : s.BusGrows t) (h' : t.BusGrows u) : s.BusGrows u where
  bus := by rw [h'.bus, h.bus]
  sets f := fun set => h'.sets f (h.sets f set)
  others f hf := (h'.others f hf).trans (h.others f hf)
  pends c := fun pending => h'.pends c (h.pends c pending)
  fault := by
    rw [h'.fault, h.fault]
    constructor
    · rintro ((set | ⟨c, now, before⟩) | ⟨c, now, before⟩)
      · exact .inl set
      · exact .inr ⟨c, h'.pends c now, before⟩
      · exact .inr ⟨c, now, Bool.eq_false_iff.mpr fun early => Bool.eq_false_iff.mp before (h.pends c early)⟩
    · rintro (set | ⟨c, now, before⟩)
      · exact .inl (.inl set)
      · cases between : isPending c t.flt.causes with
        | true => exact .inl (.inr ⟨c, between, before⟩)
        | false => exact .inr ⟨c, now, between⟩

/-- A change of the flags alone, that sets REV or MODE or none. -/
theorem State.BusGrows.of_flags (bus : t.biu = { s.biu with flags := t.biu.flags }) (causes : t.flt = s.flt)
    (sets : ∀ f, s.flag f = true → t.flag f = true) (others : ∀ f ∉ [Flag.rev, .mode], t.flag f = s.flag f) :
    s.BusGrows t where
  bus := bus
  sets := sets
  others f hf := others f (by revert hf; cases f <;> decide)
  pends c := by rw [causes]; exact id
  fault := by
    rw [causes, others .fault (by decide)]
    refine ⟨.inl, fun h => h.elim id ?_⟩
    rintro ⟨c, now, before⟩
    rw [now] at before
    cases before

theorem State.BusGrows.of_same (biu : t.biu = s.biu) (flt : t.flt = s.flt) : s.BusGrows t := by
  have flags (f : Flag) : t.flag f = s.flag f := by rw [State.flag, State.flag, biu]
  exact .of_flags (by rw [biu]) flt (fun f => by rw [flags]; exact id) fun f _ => flags f

/-- The growth is a matter of the bus and the causes. -/
theorem State.BusGrows.congr (h : s.BusGrows t) (biu : u.biu = t.biu) (flt : u.flt = t.flt) : s.BusGrows u :=
  h.trans (.of_same biu flt)

theorem State.setFlag_grows (s : State) {f : Flag} (h : f = .rev ∨ f = .mode) : s.BusGrows (s.setFlag f) := by
  refine .of_flags (by simp) (by simp) (fun g set => ?_) fun g hg => ?_
  · rw [State.flag_setFlag, set, Bool.or_true]
  · have ne : f ≠ g := by rintro rfl; rcases h with rfl | rfl <;> exact hg (by decide)
    rw [State.flag_setFlag, decide_eq_false ne, Bool.false_or]

/-- A record that joins the pending set, with FAULT set (R148). -/
theorem State.BusGrows.of_joined {r : FaultRecord} (new : isPending r.cause s.flt.causes = false) :
    s.BusGrows (({ s with flt.causes := addCause r s.flt.causes } : State).setFlag .fault) where
  bus := by simp
  sets f set := by
    have before : ({ s with flt.causes := addCause r s.flt.causes } : State).flag f = true := set
    rw [State.flag_setFlag, before, Bool.or_true]
  others f hf := by
    have ne : Flag.fault ≠ f := by rintro rfl; exact absurd hf (by decide)
    rw [State.flag_setFlag, decide_eq_false ne, Bool.false_or]
    rfl
  pends c pending := by
    obtain ⟨x, hx, cause⟩ := List.any_eq_true.mp pending
    exact List.any_eq_true.mpr ⟨x, (mem_addCause r x _).mpr (.inr hx), cause⟩
  fault := by
    refine ⟨fun _ => .inr ⟨r.cause, ?_, new⟩, fun _ => State.flag_setFlag_self _ _⟩
    exact List.any_eq_true.mpr ⟨r, (mem_addCause r r _).mpr (.inl rfl), beq_self_eq_true _⟩

/-- A repeat of a pending cause moves no flag and no cause (R149). -/
theorem State.BusGrows.of_repeated (s : State) (c : Cause) :
    s.BusGrows { s with flt.causes := repeatCause c s.flt.causes } := by
  have same (x : Cause) : isPending x (repeatCause c s.flt.causes) = isPending x s.flt.causes := by
    rw [isPending_causes, repeatCause_causes, ← isPending_causes]
  refine ⟨rfl, fun _ => id, fun _ _ => rfl, fun x => by rw [same]; exact id, ?_⟩
  dsimp only
  simp only [same]
  refine ⟨.inl, fun h => h.elim id ?_⟩
  rintro ⟨x, now, before⟩
  rw [now] at before
  cases before

/-- Where no group waits, the entry into HALTED sets MODE and moves nothing else of the bus (R115, R123). -/
theorem State.enterHalted_grows (s : State) (r : HaltReason) (noGroup : s.groupWaits = false) :
    s.BusGrows (s.enterHalted r) := by
  have sticky : (s.enterHalted r).biu.sticky = s.biu.sticky := by
    have entry := s.enterHalted_entry r
    obtain ⟨-, -, -, -, -, -, -, -, -, -, -, -, -, waitsNot, -⟩ := entry
    have none : ¬s.HasWaitingGroup := by rw [← s.groupWaits_iff, noGroup]; decide
    obtain ⟨-, -, sticky⟩ := waitsNot none
    exact sticky
  have flags (f : Flag) : (s.enterHalted r).flag f = (decide (f = .mode) || s.flag f) := by
    rw [State.enterHalted_flag, noGroup, Bool.and_false, Bool.or_false]
  refine .of_flags ?_ (by simp) (fun f set => by rw [flags, set, Bool.or_true]) fun f hf => ?_
  · rw [s.enterHalted_bus r, sticky]
  · have ne : f ≠ .mode := by rintro rfl; exact hf (by decide)
    rw [flags, decide_eq_false ne, Bool.false_or]

/-- A raise, where it halts no group that waits, grows the bus (R148, R149). -/
theorem State.raiseAt_grows (s : State) (a : Stamp) (c : Cause) (d : Detail)
    (h : c.halting = false ∨ s.groupWaits = false) : s.BusGrows (s.raiseAt a c d) := by
  cases pending : isPending c s.flt.causes with
  | true =>
    rw [s.raiseAt_repeat a c d pending]
    exact .of_repeated s c
  | false =>
    have joined := State.BusGrows.of_joined (r := ⟨c, 0, a.mode, a.position, a.revolution, d⟩) pending
    cases halting : c.halting with
    | true =>
      rw [s.raiseAt_halts a c d pending halting]
      have noGroup : s.groupWaits = false := h.resolve_left (by rw [halting]; decide)
      exact joined.trans (State.enterHalted_grows _ _ noGroup)
    | false =>
      have warns : s.raiseAt a c d =
          ({ s with flt.causes := addCause ⟨c, 0, a.mode, a.position, a.revolution, d⟩ s.flt.causes } : State).setFlag
            .fault := by
        simp [State.raiseAt, pending, halting]
      rw [warns]
      exact joined

/-- The ladder grows the bus, where no group waits. -/
theorem State.ladderStep_grows (s : State) (a : Stamp) (v : Verdict) (noGroup : s.groupWaits = false) :
    s.BusGrows (s.ladderStep a v) := by
  have mode : s.BusGrows (s.setFlag .mode) := s.setFlag_grows (.inr rfl)
  obtain ⟨m, -, stays | freewheel | relocks | config | lost⟩ := s.ladderStep_moves a v
  · rw [stays]
    exact .of_same rfl rfl
  · rw [freewheel]
    exact mode.congr (by simp [State.enterFreewheel]) (by simp)
  · rw [relocks]
    exact mode.congr (by simp [State.relock]) (by simp)
  · rw [config]
    exact mode.congr (by simp [State.enterConfig]) (by simp)
  · have counted : s.BusGrows { s with modc := m } := .of_same rfl rfl
    rw [lost]
    exact counted.trans (State.raiseAt_grows _ _ _ _ (.inr noGroup))

/-- The account of a revolution grows the bus (R53). -/
theorem State.settleAccount_grows (s : State) (a : Stamp) : s.BusGrows (s.settleAccount a) := by
  have counted (n : Nat) : s.BusGrows { s with lfu.unexamined := n } := .of_same rfl rfl
  unfold State.settleAccount
  split
  · exact .of_same rfl rfl
  · exact (counted _).trans (State.raiseAt_grows _ _ _ _ (.inl rfl))

/-- So does the turn-over (R26, R53). -/
theorem State.turnOver_grows (s : State) : s.BusGrows s.turnOver := by
  let judged : State := { s with mcr := s.mcr.publish s.cfg, lfu := s.lfu.cancelFetch }
  have judges : s.BusGrows judged := .of_same rfl rfl
  have settled := judges.trans (judged.settleAccount_grows s.endingStamp)
  have turned : s.BusGrows s.turned := (settled.trans (State.setFlag_grows _ (.inl rfl))).congr rfl rfl
  have rest : s.turnOver = ((s.turned.rollWindow s.groupWaits).beginApplication true).requestFetch := rfl
  rw [rest]
  exact turned.congr (by simp) (by simp)

/-- After the turn-over no group waits: one that waited has begun (R106). -/
theorem State.turnOver_noneWaits (s : State) : s.turnOver.groupWaits = false := by
  have revq : s.turnOver.revq = (s.turned.beginApplication true).revq := by
    simp [State.turnOver, State.turned, State.beginApplication_revq]
  rw [State.groupWaits, revq, State.beginApplication_revq]
  cases s.turned.revq.group with
  | none => rfl
  | some g =>
    obtain ⟨q, phase, rs⟩ := g
    cases phase <;> rfl

/-! ### The boundary -/

/-- The published values in the words of the claims (R91, R92). -/
theorem Mcr.publish_eq (m : Mcr) (c : Cfg) : m.publish c = { m with
    lastDeviation := if c.regEnable then max (-32768) (min 32767 (m.mark.accepted.getD 0)) else 0
    lastCorrection := c.correctionFor m.mark
    lastVerdict := c.verdictFor m.mark
    lastExtra := if c.regEnable then m.mark.extra else 0
    mark := ⟨none, 0⟩ } := by
  rw [← c.judgeRevolution_correction, ← c.judgeRevolution_verdict]
  rfl

/-- What a boundary in a tracking mode publishes, and where it leaves the monitor (R38, R91, R97). -/
theorem State.boundary_monitor (tracking : s.modc.mode.tracking = true) :
    s.boundary.mcr = s.mcr.publish s.cfg
      ∧ (s.boundary.modc.mode.tracking = true → s.boundary.axt.armed = s.axt.armed)
      ∧ (s.boundary.modc.mode.tracking = false → s.boundary.axt.armed = false) := by
  obtain ⟨-, -, modc, -, -, -, -, -, published, axt, -⟩ := s.turnOver_keeps
  have armed : s.turnOver.axt.armed = s.axt.armed := by rw [axt, Axt.correct_eq]
  rcases s.turnOver.ladderStep_monitor s.endingStamp (s.cfg.judgeRevolution s.mcr.mark).1 (by rw [modc]; exact tracking) with
    ⟨tracks, axt, mcr⟩ | ⟨ended, axt, mcr⟩
  · refine ⟨mcr.trans published, fun _ => (congrArg Axt.armed axt).trans armed, fun ended => ?_⟩
    exact absurd (tracks.symm.trans ended) (by decide)
  · refine ⟨?_, fun tracks => absurd (ended.symm.trans tracks) (by decide), fun _ => congrArg Axt.armed axt⟩
    rw [State.boundary, mcr, published]
    rfl

theorem State.boundary_grows (s : State) : s.BusGrows s.boundary :=
  s.turnOver_grows.trans (s.turnOver.ladderStep_grows _ _ s.turnOver_noneWaits)

/-- REV is set at every boundary (R26). -/
theorem State.boundary_rev (s : State) : s.boundary.flag .rev = true := by
  obtain ⟨-, -, -, -, -, -, -, -, -, -, -, -, -, rev, -⟩ := s.turnOver_keeps
  exact (s.turnOver.ladderStep_grows _ _ s.turnOver_noneWaits).sets .rev rev

/-- Of the table, the pins, the clock and the inputs a boundary leaves all as it was. -/
theorem State.boundary_frame (s : State) :
    s.boundary.cam.table = s.cam.table ∧ s.boundary.cam.record = s.cam.record ∧ s.boundary.pins = s.pins
      ∧ s.sameBut [.axt, .mcr, .cam, .lfu, .out, .revq, .modc, .flt, .biu] s.boundary := by
  obtain ⟨cfg, -, -, pins, tb, held, enc, pending, -, -, table, record, -⟩ := s.turnOver_keeps
  obtain ⟨cfg', table', record', pins', tb', held', enc', pending', -⟩ :=
    s.turnOver.ladderStep_keeps s.endingStamp (s.cfg.judgeRevolution s.mcr.mark).1
  refine ⟨table'.trans table, record'.trans record, pins'.trans pins,
    State.sameBut_of (fun p => ?_) ⟨held'.trans held, enc'.trans enc, pending'.trans pending⟩⟩
  cases p with
  | cfg => exact .inr (cfg'.trans cfg)
  | pins => exact .inr (pins'.trans pins)
  | tb => exact .inr (tb'.trans tb)
  | _ => exact .inl (by decide)

/-- REVOLUTION_BOUNDARY can arrive only where R23's fourth case holds; elsewhere it does nothing (R26). -/
theorem State.boundaryCount_idle (h : s.modc.mode.tracking = false ∨ 0 < s.axt.deficit ∨ 0 < s.axt.stretch
    ∨ s.axt.position + 1 < s.cfg.revLength.toNat) : s.boundaryCount = s := by
  refine if_neg fun arrives => ?_
  simp only [State.atBoundary, Bool.and_eq_true, beq_iff_eq, decide_eq_true_eq] at arrives
  obtain ⟨⟨⟨tracking, deficit⟩, stretch⟩, last⟩ := arrives
  have last' : s.cfg.revLength.toNat ≤ s.axt.position + 1 := last
  rcases h with idle | owed | stretched | below
  · rw [tracking] at idle; cases idle
  all_goals omega

/-- Some cause joined the pending set, in the words of the claims. -/
theorem exists_joined_iff (l l' : List FaultRecord) :
    (∃ c, isPending c l' = true ∧ isPending c l = false) ↔ ∃ r ∈ l', inPendingSet r.cause l = false := by
  constructor
  · rintro ⟨c, now, before⟩
    obtain ⟨r, hr, cause⟩ := List.any_eq_true.mp now
    rw [← beq_iff_eq.mp cause] at before
    exact ⟨r, hr, before⟩
  · rintro ⟨r, hr, before⟩
    exact ⟨r.cause, List.any_eq_true.mpr ⟨r, hr, beq_self_eq_true _⟩, before⟩

/-- Settles O23: both rows are the boundary taken after the count, which corrects, publishes and sets REV. -/
theorem boundaryAppliesTheCorrectionOfTheEndedRevolution :
    Obligations.BoundaryAppliesTheCorrectionOfTheEndedRevolution := by
  intro s held
  have boundaryRun : exec .revolutionBoundary s = .next s.boundaryCount := exec_live _ s held
  rw [boundaryRun]
  refine ⟨?_, fun idle => by rw [State.boundaryCount_idle idle]⟩
  intro tracking deficit stretch last c l
  have forwardRun : exec .forwardCount s = .next s.forward := exec_live _ s held
  let u := s.countedForward
  have forward : s.forward = u.boundary :=
    (State.forward_tracking tracking).trans (State.advance_turns (s := u) deficit stretch last)
  have counted : u = { s with
      pins.encA := l.a, pins.encB := l.b, axt.ref := l, axt.net := s.axt.net + 1
      axt.mech := max (-131072) (min 131071 (s.axt.mech + 1)) } := State.counted_tracking _ _ tracking
  have axt := u.boundary_axt
  obtain ⟨mcr, tracks, ended⟩ := State.boundary_monitor (s := u) tracking
  obtain ⟨table, record, pins, same⟩ := u.boundary_frame
  have grows := u.boundary_grows
  have rev := u.boundary_rev
  have before : s.sameBut [.axt, .pins] u :=
    State.sameBut_of (fun p => by rw [counted]; cases p <;> simp [State.agreesOn]) (by rw [counted]; exact ⟨rfl, rfl, rfl⟩)
  rw [Mcr.publish_eq] at mcr
  rw [State.boundaryCount_turns tracking deficit stretch last, forwardRun, forward]
  refine ⟨_, rfl, rfl, ?_, tracks, ended, mcr, rev, ?_, table, record, grows.bus, grows.others .capt (by decide),
    grows.others .commit (by decide), grows.others .read (by decide), ?_, (before.trans same).mono (by decide)⟩
  · rw [axt, counted]
  · rw [pins, counted]
  · rw [grows.fault, exists_joined_iff]
    rfl

end Sys2Proof.Machine
end

section
/-! PROOFS. One period of REFCLK: the levels of the encoder pins that it takes, and what falls due at the end of a
microsecond. -/

namespace Sys2Proof.Machine

variable {s : State}

/-! ### The encoder pins -/

theorem State.takeLevels_nil (h : s.encInput = []) : s.takeLevels = s := by
  rw [State.takeLevels, h]

/-- The change of the pins that a period takes, on an empty queue of commands: a count is queued, another change is the new
reference state (R17). -/
theorem State.takeLevels_cons {l : EncLevels} {rest : List EncLevels} (empty : s.pending = []) (h : s.encInput = l :: rest) :
    s.takeLevels = match s.cfg.decodeChange s.axt.ref l with
      | .forward => { s with encInput := rest, pending := [.forwardCount] }
      | .backward => { s with encInput := rest, pending := [.backwardCount] }
      | .invalid => { s with encInput := rest, pending := [.invalidTransition] }
      | .noCount => { s with encInput := rest, axt.ref := l, pins.encA := l.a, pins.encB := l.b } := by
  rw [State.takeLevels, h]
  dsimp only
  rw [empty]
  cases s.cfg.decodeChange s.axt.ref l <;> rfl

/-- Taking the next levels leaves the clock, the lines, the revision queue and the speed window. -/
theorem State.takeLevels_frame (s : State) :
    s.takeLevels.tb = s.tb ∧ s.takeLevels.out = s.out ∧ s.takeLevels.revq = s.revq
      ∧ s.takeLevels.resetHeld = s.resetHeld := by
  unfold State.takeLevels
  split
  · exact ⟨rfl, rfl, rfl, rfl⟩
  · dsimp only
    split <;> exact ⟨rfl, rfl, rfl, rfl⟩

/-- At most one command is queued by a change of the pins, and that is a count command or an invalid transition. -/
theorem State.takeLevels_pending (s : State) (empty : s.pending = []) :
    s.takeLevels.pending = [] ∨ ∃ c ∈ [Instr.forwardCount, .backwardCount, .invalidTransition], s.takeLevels.pending = [c] := by
  cases input : s.encInput with
  | nil =>
    rw [State.takeLevels_nil input]
    exact .inl empty
  | cons l rest =>
    rw [State.takeLevels_cons empty input]
    cases s.cfg.decodeChange s.axt.ref l with
    | forward => exact .inr ⟨_, by decide, rfl⟩
    | backward => exact .inr ⟨_, by decide, rfl⟩
    | invalid => exact .inr ⟨_, by decide, rfl⟩
    | noCount => exact .inl empty

/-! ### A microsecond -/

/-- The state with the timers, the speed window and an application counted one microsecond on (R28, R65, R108). -/
def State.aged (s : State) : State :=
  { s with
    out.lines := Vector.ofFn fun i => s.out.lines[i].countDown
    axt.windowMicros := s.axt.windowMicros + 1
    revq.group := s.revq.group.map Group.countUp }

/-- What falls due with the microsecond, in its order. -/
def State.falling (s : State) : List Instr := s.out.duePulses ++ s.aged.dueAccess ++ s.aged.axt.dueExpiry

theorem State.microsecond_eq (s : State) : s.microsecond = { s.aged with pending := s.pending ++ s.falling } := rfl

theorem LineState.countDown_eq (l : LineState) :
    l.countDown = match l with
      | .pulsing r => .pulsing (r - 1)
      | l => l := by
  cases l <;> rfl

theorem State.aged_lines (s : State) (i : LineNo) : s.aged.out.lines[i] = s.out.lines[i].countDown := by
  simp [State.aged]

theorem State.aged_out (s : State) :
    s.aged.out.interlock = s.out.interlock ∧ s.aged.out.suppressed = s.out.suppressed := by
  simp only [State.aged, and_self]

/-- An application in progress has run one microsecond more, and another group waits on (R108). -/
theorem State.aged_revq (s : State) :
    (∀ q b n rs, s.revq.group = some ⟨q, .applying b n, rs⟩ →
        s.aged.revq = { s.revq with group := some ⟨q, .applying b (n + 1), rs⟩ })
      ∧ (s.applying = false → s.aged.revq = s.revq) := by
  constructor
  · intro q b n rs group
    rw [State.aged, group]
    rfl
  · intro idle
    have same : s.revq.group.map Group.countUp = s.revq.group := by
      rw [State.applying_eq, Revq.applying] at idle
      cases group : s.revq.group with
      | none => rfl
      | some g =>
        obtain ⟨q, phase, rs⟩ := g
        cases phase with
        | waiting => rfl
        | applying b n => rw [group] at idle; cases idle
    rw [State.aged, same]

/-! ### What falls due -/

/-- A pulse ends with the microsecond where its timer has one microsecond left (R65). -/
theorem Out.mem_duePulses (o : Out) (c : Instr) :
    c ∈ o.duePulses ↔ ∃ i : LineNo, c = .pulseExpiry i ∧ ∃ r ≤ 1, o.lines[i] = .pulsing r := by
  have ends (i : LineNo) : o.lines[i].endsNow = true ↔ ∃ r ≤ 1, o.lines[i] = .pulsing r := by
    cases o.lines[i] <;> simp [LineState.endsNow]
  simp only [Out.duePulses, List.mem_map, List.mem_filter, List.mem_finRange, true_and, ends]
  exact exists_congr fun i => and_comm.trans (and_congr_left fun _ => eq_comm)

theorem Out.duePulses_nodup (o : Out) : o.duePulses.Nodup :=
  List.pairwise_map.mpr (((List.nodup_finRange 16).filter _).imp fun ne same => ne (Instr.pulseExpiry.inj same))

/-- An application has run to its bound with this microsecond (R108). -/
theorem State.atBound_iff (s : State) :
    (s.aged.revq.group.map Group.atBound).getD false = true
      ↔ ∃ q b n rs, s.revq.group = some ⟨q, .applying b n, rs⟩ ∧ 50 + 6 * rs.length ≤ n + 1 := by
  have counts : s.aged.revq.group = s.revq.group.map Group.countUp := rfl
  rw [counts]
  cases s.revq.group with
  | none => simp
  | some g =>
    obtain ⟨q, phase, rs⟩ := g
    cases phase with
    | waiting => simp [Group.countUp, Group.atBound]
    | applying b n =>
      have bound : (Group.countUp ⟨q, .applying b n, rs⟩).atBound = true ↔ 50 + 6 * rs.length ≤ n + 1 :=
        decide_eq_true_iff
      refine bound.trans ⟨fun ran => ⟨q, b, n, rs, rfl, ran⟩, ?_⟩
      rintro ⟨_, _, _, _, group, ran⟩
      cases group
      exact ran

/-- A fetch and a read-back end with the microsecond, and an application at its bound (R7, R108). -/
theorem State.mem_dueAccess (s : State) (c : Instr) :
    c ∈ s.aged.dueAccess ↔
      (c = .fetchCompletion ∧ ∃ e, s.cam.port = .fetch e)
        ∨ (c = .readbackCompletion ∧ ∃ i e, s.cam.port = .readback i e)
        ∨ (c = .applicationCompletion ∧ s.cam.port = .application
            ∧ ∃ q b n rs, s.revq.group = some ⟨q, .applying b n, rs⟩ ∧ 50 + 6 * rs.length ≤ n + 1) := by
  have cam : s.aged.cam = s.cam := rfl
  rw [← s.atBound_iff, State.dueAccess, cam]
  cases s.cam.port with
  | free | fetch | readback => simp
  | application => by_cases bound : (s.aged.revq.group.map Group.atBound).getD false = true <;> simp [bound]

theorem State.dueAccess_nodup (s : State) : s.dueAccess.Nodup := by
  unfold State.dueAccess
  split
  case h_1 => exact List.nodup_nil
  case h_2 | h_3 => exact List.nodup_cons.mpr ⟨List.not_mem_nil, List.nodup_nil⟩
  case h_4 => split <;> simp

/-- The speed window expires with its thousandth microsecond (R28). -/
theorem Axt.mem_dueExpiry (a : Axt) (c : Instr) :
    c ∈ a.dueExpiry ↔ c = .speedWindowExpiry ∧ 1000 ≤ a.windowMicros := by
  have limit : Config.speedWindowMicros = 1000 := rfl
  rw [Axt.dueExpiry, limit]
  by_cases h : 1000 ≤ a.windowMicros
  · simp [h]
  · simp [h]

theorem Axt.dueExpiry_nodup (a : Axt) : a.dueExpiry.Nodup := by
  unfold Axt.dueExpiry
  split <;> simp

/-- Exactly what the rules name falls due (R7, R28, R65, R108). -/
theorem State.mem_falling (s : State) (c : Instr) :
    c ∈ s.falling ↔
      (∃ i : LineNo, c = .pulseExpiry i ∧ ∃ r ≤ 1, s.out.lines[i] = .pulsing r)
        ∨ (c = .fetchCompletion ∧ ∃ e, s.cam.port = .fetch e)
        ∨ (c = .readbackCompletion ∧ ∃ i e, s.cam.port = .readback i e)
        ∨ (c = .applicationCompletion ∧ s.cam.port = .application
            ∧ ∃ q b n rs, s.revq.group = some ⟨q, .applying b n, rs⟩ ∧ 50 + 6 * rs.length ≤ n + 1)
        ∨ (c = .speedWindowExpiry ∧ 1000 ≤ s.axt.windowMicros + 1) := by
  have window : s.aged.axt.windowMicros = s.axt.windowMicros + 1 := rfl
  rw [State.falling, List.mem_append, List.mem_append, Out.mem_duePulses, State.mem_dueAccess, Axt.mem_dueExpiry, window]
  simp only [or_assoc]

/-- Nothing falls due twice. -/
theorem State.falling_nodup (s : State) : s.falling.Nodup := by
  refine List.nodup_append.mpr ⟨List.nodup_append.mpr ⟨s.out.duePulses_nodup, s.aged.dueAccess_nodup, ?_⟩,
    s.aged.axt.dueExpiry_nodup, ?_⟩
  · rintro c pulse _ access rfl
    obtain ⟨i, rfl, -⟩ := (s.out.mem_duePulses c).mp pulse
    simp [State.mem_dueAccess] at access
  · rintro c earlier _ expiry rfl
    obtain ⟨rfl, -⟩ := (s.aged.axt.mem_dueExpiry c).mp expiry
    simp [Out.mem_duePulses, State.mem_dueAccess] at earlier

/-- No count command falls due. -/
theorem State.falling_noCount (s : State) : ∀ c ∈ [Instr.forwardCount, .backwardCount, .invalidTransition], c ∉ s.falling := by
  intro c count due
  rcases (s.mem_falling c).mp due with ⟨i, rfl, -⟩ | ⟨rfl, -⟩ | ⟨rfl, -⟩ | ⟨rfl, -⟩ | ⟨rfl, -⟩ <;> simp at count

/-! ### The period -/

/-- On an empty queue a step is a period of REFCLK. -/
theorem step_clock (empty : s.pending = []) (released : s.resetHeld = false) : step s = .next s.takeLevels.tick := by
  rw [step, empty]
  dsimp only
  rw [State.refclk, released]
  rfl

/-- Settles O2: the levels that the period takes, then a period within the microsecond or the last of it. -/
theorem emptyQueueRunsOnePeriodOfRefclk : Obligations.EmptyQueueRunsOnePeriodOfRefclk := by
  intro s empty
  refine ⟨fun held => ?_, fun released => ⟨s.takeLevels, State.takeLevels_nil, fun l rest => State.takeLevels_cons empty,
    fun within => ?_, fun last => ?_⟩⟩
  · rw [step, empty]
    dsimp only
    rw [State.refclk, held]
    rfl
  · obtain ⟨tb, -⟩ := s.takeLevels_frame
    rw [step_clock empty released, State.tick, tb, if_pos within]
  · obtain ⟨tb, out, revq, heldKept⟩ := s.takeLevels_frame
    obtain ⟨cfg, cam, -, -, axt⟩ := s.takeLevels_keeps
    have queued := s.takeLevels_pending empty
    rw [step_clock empty released]
    generalize s.takeLevels = v at *
    have window : v.axt.windowMicros = s.axt.windowMicros := by rw [axt]
    let u : State := { v with tb := ⟨v.cfg.divider, 0⟩ }
    have ends : v.tick = u.microsecond := by rw [State.tick, tb, if_neg (by omega)]
    obtain ⟨interlock, suppressed⟩ := u.aged_out
    obtain ⟨applies, waits⟩ := u.aged_revq
    rw [ends, u.microsecond_eq]
    refine ⟨_, rfl, ?_, ?_, fun i => ?_, ?_, ?_, fun q b n rs group => ?_, fun idle => ?_,
      fun c => ?_, ?_, ⟨_, rfl⟩, fun p hp => ?_, heldKept.trans released, rfl⟩
    · exact congrArg (fun c => TimeBase.mk c.divider 0) cfg
    · rw [← window]
      rfl
    · rw [← out]
      exact (u.aged_lines i).trans (LineState.countDown_eq _)
    · rw [← out]
      exact interlock
    · rw [← out]
      exact suppressed
    · rw [← revq] at group ⊢
      exact applies q b n rs group
    · rw [State.applying_eq, ← revq] at idle
      rw [← revq]
      exact waits idle
    · rw [← out, ← cam, ← revq, ← window]
      exact List.mem_append.trans (or_congr_right (u.mem_falling c))
    · show (v.pending ++ u.falling).Nodup
      rcases queued with none | ⟨c, count, one⟩
      · rw [none]
        exact u.falling_nodup
      · rw [one]
        exact List.nodup_cons.mpr ⟨u.falling_noCount c count, u.falling_nodup⟩
    · cases p with
      | tb | axt | out | revq => exact absurd (by decide) hp
      | _ => rfl

end Sys2Proof.Machine
end

section
/-! PROOFS. What the law of the window reads of a state, and how the arbiter, a fetch request, an evaluation and the
carry over a boundary move it (R41 to R45, R50, R54). -/

namespace Sys2Proof.Machine

variable {s t : State}

/-! ### The lookahead -/

/-- What the law of the window reads of a state: LFU's own registers but its counts, the port with the table, the
geometry, hwm, and whether the part tracks and an application is in progress. -/
structure Lookahead where
  window : List Slot
  cursor : Cursor
  deferred : Option Nat
  fetch : Option Fetch
  port : Port
  table : List Entry
  guardZone : Nat
  revLength : Nat
  hwm : Nat
  tracking : Bool
  applying : Bool

def State.lookahead (s : State) : Lookahead where
  window := s.lfu.window
  cursor := s.lfu.cursor
  deferred := s.lfu.deferred
  fetch := s.lfu.fetch
  port := s.cam.port
  table := s.cam.table
  guardZone := s.cfg.guardZone.toNat
  revLength := s.cfg.revLength.toNat
  hwm := s.axt.hwm
  tracking := s.modc.mode.tracking
  applying := s.revq.applying

/-- No fetch is in flight but a cancelled one (R45). -/
def Lookahead.NoFetch (v : Lookahead) : Prop := ∀ f, v.fetch = some f → f.state = .cancelled

/-- The law of the window without its last clause: what it says also in the middle of an evaluation (R41 to R45, R48,
R58, R59). -/
structure Lookahead.Law (v : Lookahead) : Prop where
  room : v.window.length ≤ 8
  order : v.window.Pairwise Slot.before
  passed : ∀ x ∈ v.window, x.passedBy v.cursor
  idle : v.tracking = false → v.window = [] ∧ v.cursor = .parked ∧ v.deferred = none ∧ v.NoFetch
  start : v.deferred.isSome = true → v.window = [] ∧ v.cursor = .parked
  wanted : ∀ f, v.fetch = some f → f.state ≠ .cancelled →
    v.cursor = .reading f.index f.tag ∧ v.window.length < 8
  application : v.applying = true → v.window = [] ∧ v.NoFetch
  granted : ∀ f, v.fetch = some f → f.state = .granted → v.port = .fetch v.table[f.index]?
  copies : ∀ x ∈ v.window, v.table[x.index]? = some x.entry ∧ v.guardZone ≤ x.eff ∧ x.eff < v.revLength

/-- Its last clause: no CURRENT slot is due (R50). -/
def Lookahead.NoneDue (v : Lookahead) : Prop := ∀ x ∈ v.window, x.tag = .current → v.hwm < x.eff

theorem State.windowLaw_iff : s.WindowLaw ↔ s.lookahead.Law ∧ s.lookahead.NoneDue := by
  constructor
  · rintro ⟨room, order, passed, idle, start, wanted, application, granted, slots⟩
    refine ⟨⟨room, order, passed, idle, start, wanted, application, granted, fun x hx => ?_⟩, fun x hx => ?_⟩
    · obtain ⟨copy, low, high, -⟩ := slots x hx
      exact ⟨copy, low, high⟩
    · obtain ⟨-, -, -, notDue⟩ := slots x hx
      exact notDue
  · rintro ⟨law, noneDue⟩
    refine ⟨law.room, law.order, law.passed, law.idle, law.start, law.wanted, law.application, law.granted,
      fun x hx => ?_⟩
    obtain ⟨copy, low, high⟩ := law.copies x hx
    exact ⟨copy, low, high, noneDue x hx⟩

/-- The law of the window is a matter of the lookahead. -/
theorem State.WindowLaw.congr (law : s.WindowLaw) (same : t.lookahead = s.lookahead) : t.WindowLaw := by
  rw [State.windowLaw_iff, same]
  exact State.windowLaw_iff.mp law

/-! ### No slot -/

/-- With no slot and no fetch that still counts, the law asks for the cursor alone: it is parked outside the tracking
modes and where a deferred start is held (R58, R59). -/
theorem Lookahead.Law.of_empty {v : Lookahead} (empty : v.window = []) (noFetch : v.NoFetch)
    (idle : v.tracking = false → v.cursor = .parked ∧ v.deferred = none)
    (start : v.deferred.isSome = true → v.cursor = .parked) : v.Law where
  room := by simp [empty]
  order := by simp [empty]
  passed := by simp [empty]
  idle ended := ⟨empty, (idle ended).1, (idle ended).2, noFetch⟩
  start held := ⟨empty, start held⟩
  wanted f hf live := absurd (noFetch f hf) live
  application _ := ⟨empty, noFetch⟩
  granted f hf granted := by have := noFetch f hf; rw [granted] at this; cases this
  copies := by simp [empty]

theorem Lookahead.NoneDue.of_empty {v : Lookahead} (empty : v.window = []) : v.NoneDue := by
  simp [Lookahead.NoneDue, empty]

theorem State.WindowLaw.of_empty (empty : s.lfu.window = []) (noFetch : s.lookahead.NoFetch)
    (idle : s.modc.mode.tracking = false → s.lfu.cursor = .parked ∧ s.lfu.deferred = none)
    (start : s.lfu.deferred.isSome = true → s.lfu.cursor = .parked) : s.WindowLaw :=
  State.windowLaw_iff.mpr ⟨.of_empty empty noFetch idle start, .of_empty empty⟩

/-- LFU at rest meets the law in every mode (R59). -/
theorem State.WindowLaw.of_atRest (rest : s.lfu.AtRest) : s.WindowLaw := by
  obtain ⟨empty, parked, noStart, noFetch⟩ := rest
  exact .of_empty empty noFetch (fun _ => ⟨parked, noStart⟩) fun _ => parked

/-- Outside the tracking modes the law says that LFU is at rest (R59). -/
theorem State.WindowLaw.atRest (law : s.WindowLaw) (idle : s.modc.mode.tracking = false) : s.lfu.AtRest :=
  (State.windowLaw_iff.mp law).1.idle idle

/-! ### The port -/

/-- The lookahead once the port is granted to the waiting fetch of an index and a tag (R9, R10). -/
def Lookahead.grant (v : Lookahead) (i : Nat) (tag : RevTag) : Lookahead :=
  { v with fetch := some ⟨i, tag, .granted⟩, port := .fetch v.table[i]? }

/-- What the arbiter does to the lookahead: nothing; or a free port goes to an application or a read-back; or it goes to
the waiting fetch, which reads its entry (R8 to R10). -/
theorem State.arbitrate_lookahead (s : State) :
    s.arbitrate.lookahead = s.lookahead
      ∨ (s.cam.port = .free ∧ ∃ p, s.arbitrate.lookahead = { s.lookahead with port := p })
      ∨ ∃ i tag, s.lfu.fetch = some ⟨i, tag, .waiting⟩ ∧ s.arbitrate.lookahead = s.lookahead.grant i tag := by
  have fetched (i : Nat) (h : s.lfu.waitingFetch = some i) :
      ∃ i' tag, s.lfu.fetch = some ⟨i', tag, .waiting⟩ ∧ (s.grantFetch i).lookahead = s.lookahead.grant i' tag := by
    obtain ⟨tag, waits⟩ := (s.lfu.waitingFetch_eq i).mp h
    exact ⟨i, tag, waits, by simp [State.lookahead, Lookahead.grant, waits]⟩
  have readBack (j : Nat) : ∃ p, (s.grantReadback j).lookahead = { s.lookahead with port := p } := ⟨_, rfl⟩
  unfold State.arbitrate
  split
  · rename_i free
    split
    · exact .inr (.inl ⟨free, _, rfl⟩)
    · split
      · split
        case h_1 i _ waits _ _ _ => exact .inr (.inr (fetched i waits))
        · exact .inr (.inl ⟨free, readBack _⟩)
      case h_2 i waits _ => exact .inr (.inr (fetched i waits))
      · exact .inr (.inl ⟨free, readBack _⟩)
      · exact .inl rfl
  · exact .inl rfl

/-- The arbiter keeps the law: a free port is held by no granted fetch, and the fetch it grants reads the entry at its
index. -/
theorem State.arbitrate_window (law : s.WindowLaw) : s.arbitrate.WindowLaw := by
  obtain ⟨law, noneDue⟩ := State.windowLaw_iff.mp law
  rw [State.windowLaw_iff]
  rcases s.arbitrate_lookahead with same | ⟨free, p, port⟩ | ⟨i, tag, waits, grants⟩
  · rw [same]; exact ⟨law, noneDue⟩
  · rw [port]
    refine ⟨{ law with granted := fun f hf granted => ?_ }, noneDue⟩
    have holds : s.cam.port = _ := law.granted f hf granted
    rw [free] at holds; cases holds
  · rw [grants]
    have counts : ¬s.lookahead.NoFetch := fun noFetch => by cases noFetch _ waits
    exact ⟨{ law with
      idle := fun ended => by obtain ⟨-, -, -, noFetch⟩ := law.idle ended; exact absurd noFetch counts
      wanted := by rintro f ⟨⟩ -; exact law.wanted ⟨i, tag, .waiting⟩ waits nofun
      application := fun applies => absurd (law.application applies).2 counts
      granted := by rintro f ⟨⟩ -; rfl }, noneDue⟩

/-- A fetch request is made where the cursor reads, none is in flight, the part tracks, the window has room and no
application is in progress (R44). -/
theorem State.wantsFetch_some {i : Nat} {tag : RevTag} (h : s.wantsFetch = some (i, tag)) :
    s.lfu.cursor = .reading i tag ∧ s.lfu.fetch = none ∧ s.modc.mode.tracking = true ∧ s.lfu.window.length < 8
      ∧ s.revq.applying = false := by
  unfold State.wantsFetch at h
  split at h
  · rename_i cursor fetch
    split at h
    · rename_i allowed
      cases h
      simp only [Bool.and_eq_true, decide_eq_true_eq, Bool.not_eq_true'] at allowed
      obtain ⟨⟨tracking, room⟩, idle⟩ := allowed
      exact ⟨cursor, fetch, tracking, room, idle⟩
    · cases h
  · cases h

/-- A fetch request keeps the law (R44). -/
theorem State.requestFetch_window (law : s.WindowLaw) : s.requestFetch.WindowLaw := by
  unfold State.requestFetch
  split
  · rename_i i tag wants
    obtain ⟨cursor, -, tracking, room, idle⟩ := State.wantsFetch_some wants
    obtain ⟨law, noneDue⟩ := State.windowLaw_iff.mp law
    refine State.arbitrate_window (State.windowLaw_iff.mpr ⟨{ law with
      idle := fun ended => absurd tracking (Bool.eq_false_iff.mp ended)
      wanted := ?_
      application := fun applies => absurd applies (Bool.eq_false_iff.mp idle)
      granted := ?_ }, noneDue⟩)
    · rintro f ⟨⟩ -; exact ⟨cursor, room⟩
    · rintro f ⟨⟩ granted; cases granted
  · exact State.arbitrate_window law

/-- The beginning of an application keeps the law where no slot stands and no fetch counts for a group that waits
(R55, R108). -/
theorem State.beginApplication_window (law : s.WindowLaw) (b : Bool)
    (empty : s.HasWaitingGroup → s.lfu.window = [] ∧ s.lookahead.NoFetch) : (s.beginApplication b).WindowLaw := by
  unfold State.beginApplication
  split
  · rename_i q rs group
    obtain ⟨noSlot, noFetch⟩ := empty ⟨q, rs, group⟩
    obtain ⟨law, -⟩ := State.windowLaw_iff.mp law
    refine State.arbitrate_window (.of_empty noSlot noFetch (fun ended => ?_) fun held => ?_)
    · obtain ⟨-, parked, noStart, -⟩ := law.idle ended
      exact ⟨parked, noStart⟩
    · exact (law.start held).2
  · exact law

/-! ### The slots -/

/-- Slots may leave the window (R50). -/
theorem Lookahead.Law.filter {v : Lookahead} (law : v.Law) (p : Slot → Bool) :
    ({ v with window := v.window.filter p } : Lookahead).Law where
  room := Nat.le_trans (List.length_filter_le _ _) law.room
  order := law.order.filter p
  passed x hx := law.passed x (List.mem_filter.mp hx).1
  idle ended := by
    obtain ⟨empty, rest⟩ := law.idle ended
    exact ⟨by simp [empty], rest⟩
  start held := by
    obtain ⟨empty, parked⟩ := law.start held
    exact ⟨by simp [empty], parked⟩
  wanted f hf live := by
    obtain ⟨place, room⟩ := law.wanted f hf live
    exact ⟨place, Nat.lt_of_le_of_lt (List.length_filter_le _ _) room⟩
  application applies := by
    obtain ⟨empty, noFetch⟩ := law.application applies
    exact ⟨by simp [empty], noFetch⟩
  granted := law.granted
  copies x hx := law.copies x (List.mem_filter.mp hx).1

/-- A firing evaluation leaves the law whole: the due slots are gone (R50). -/
theorem State.evaluate_window (law : s.lookahead.Law) : s.evaluate.WindowLaw := by
  have fires : s.evaluate.lookahead
      = { s.lookahead with window := s.lookahead.window.filter fun x => !x.due s.axt.hwm } := by
    simp [State.lookahead]
  rw [State.windowLaw_iff, fires]
  refine ⟨law.filter _, fun x hx current => ?_⟩
  have notDue := (List.mem_filter.mp hx).2
  simp only [Slot.due, current, beq_self_eq_true, Bool.true_and, Bool.not_eq_true', decide_eq_false_iff_not] at notDue
  exact Nat.lt_of_not_le notDue

/-- The end-of-table step passes no slot by that the cursor had not passed (R43). -/
theorem Slot.passedBy_endOfTable {x : Slot} {c : Cursor} (h : x.passedBy c) (n : Nat) :
    x.passedBy (c.endOfTable n) := by
  cases c with
  | parked => exact h
  | reading i tag =>
    cases tag <;> unfold Cursor.endOfTable <;> dsimp only
    · split
      · split
        · trivial
        · exact .inl ⟨h.elim And.left And.left, rfl⟩
      · exact h
    · split
      · trivial
      · exact h

/-- A NEXT slot behind the cursor stands behind the carried cursor as a CURRENT one (R54). -/
theorem Slot.passedBy_carried {x : Slot} {c : Cursor} (next : x.tag = .next) (h : x.passedBy c) :
    x.carried.passedBy c.carried := by
  cases c with
  | parked => exact .inl ⟨rfl, rfl⟩
  | reading i tag =>
    have behind : x.tag = tag ∧ x.index < i := h.resolve_left fun current => by rw [next] at current; cases current.1
    rw [next] at behind
    obtain ⟨rfl, below⟩ := behind
    exact .inr ⟨rfl, below⟩

/-- The carry over a boundary keeps the law, with the fetch cancelled and no deferred start held (R43, R45, R54). -/
theorem Lookahead.Law.carry {v : Lookahead} (law : v.Law) (tracking : v.tracking = true) (noStart : v.deferred = none)
    (noFetch : v.NoFetch) {c : Cursor}
    (cursor : c = v.cursor.carried ∨ c = v.cursor.carried.endOfTable v.table.length) :
    ({ v with window := carriedWindow v.window, cursor := c } : Lookahead).Law := by
  have carries : ∀ x ∈ carriedWindow v.window, ∃ y ∈ v.window, y.tag = .next ∧ y.carried = x := by
    intro x hx
    obtain ⟨y, hy, rfl⟩ := List.mem_map.mp hx
    obtain ⟨old, next⟩ := List.mem_filter.mp hy
    exact ⟨y, old, beq_iff_eq.mp next, rfl⟩
  refine { law with
    room := ?room, order := ?order, passed := ?passed, idle := ?idle, start := ?start, wanted := ?wanted
    application := ?application, copies := ?copies }
  case room =>
    unfold carriedWindow
    rw [List.length_map]
    exact Nat.le_trans (List.length_filter_le _ _) law.room
  case order =>
    refine List.pairwise_map.mpr ((law.order.filter _).imp_of_mem fun {x y} hx hy before => .inr ⟨rfl, ?_⟩)
    have nextX := beq_iff_eq.mp (List.mem_filter.mp hx).2
    rcases before with ⟨current, -⟩ | ⟨-, below⟩
    · rw [nextX] at current; cases current
    · exact below
  case passed =>
    intro x hx
    obtain ⟨y, hy, next, rfl⟩ := carries x hx
    have carried := Slot.passedBy_carried next (law.passed y hy)
    rcases cursor with rfl | rfl
    · exact carried
    · exact Slot.passedBy_endOfTable carried _
  case idle => exact fun ended => absurd tracking (Bool.eq_false_iff.mp ended)
  case start =>
    intro held
    rw [show v.deferred = none from noStart] at held
    cases held
  case wanted => exact fun f hf live => absurd (noFetch f hf) live
  case application =>
    intro applies
    refine ⟨?_, noFetch⟩
    dsimp only
    rw [(law.application applies).1]
    rfl
  case copies =>
    intro x hx
    obtain ⟨y, hy, -, rfl⟩ := carries x hx
    exact law.copies y hy

end Sys2Proof.Machine
end

section
/-! PROOFS. The law of the lines (R72, R76), and what a raise, a mode entry and a firing do to it and to the law of the
window. -/

namespace Sys2Proof.Machine

variable {s t : State}

/-! ### The lines -/

/-- R72, R76: the law of the lines names line `i`: the mode is ACQUIRE or HALTED, or FREEWHEEL with the line critical,
or the interlock is OPEN. -/
def State.mustBeSafe (s : State) (i : LineNo) : Prop :=
  s.modc.mode = .acquire ∨ s.modc.mode = .halted ∨ (s.modc.mode = .freewheel ∧ s.cfg.criticalLines.getLsbD i = true)
    ∨ s.out.interlock = .opened

theorem State.linesLaw_iff : s.LinesLaw ↔ ∀ i, s.mustBeSafe i → s.out.lines[i] = s.cfg.safeLine i := by
  constructor
  · rintro ⟨stands, critical, opened⟩ i (acquire | halted | ⟨freewheel, named⟩ | isOpen)
    · exact stands (.inl acquire) i
    · exact stands (.inr halted) i
    · exact critical freewheel i named
    · exact opened isOpen i
  · intro law
    refine ⟨fun stands i => law i ?_, fun freewheel i named => law i (.inr (.inr (.inl ⟨freewheel, named⟩))),
      fun opened i => law i (.inr (.inr (.inr opened)))⟩
    exact stands.elim .inl fun halted => .inr (.inl halted)

/-- While the interlock is OPEN the law names every line (R76). -/
theorem State.LinesLaw.opened (law : s.LinesLaw) (opened : s.out.interlock = .opened) (i : LineNo) :
    s.out.lines[i] = s.cfg.safeLine i :=
  State.linesLaw_iff.mp law i (.inr (.inr (.inr opened)))

/-- In CONFIG and LOCKED it names a line for no other reason (R72). -/
theorem State.mustBeSafe.opened {i : LineNo} (named : s.mustBeSafe i)
    (mode : s.modc.mode = .config ∨ s.modc.mode = .locked) : s.out.interlock = .opened := by
  unfold State.mustBeSafe at named
  rcases mode with mode | mode <;> simpa [mode] using named

/-- All lines at their safe levels meet the law in every mode. -/
theorem State.LinesLaw.of_safe (safe : ∀ i, s.out.lines[i] = s.cfg.safeLine i) : s.LinesLaw :=
  State.linesLaw_iff.mpr fun i _ => safe i

/-- Where the lines and the safe levels stand, the law holds on as long as it names no further line. -/
theorem State.LinesLaw.weaken (law : s.LinesLaw) (lines : t.out.lines = s.out.lines)
    (levels : t.cfg.safeLevels = s.cfg.safeLevels) (named : ∀ i, t.mustBeSafe i → s.mustBeSafe i) : t.LinesLaw := by
  rw [State.linesLaw_iff] at law ⊢
  intro i hi
  have safe := law i (named i hi)
  unfold Cfg.safeLine at safe ⊢
  rw [lines, levels]
  exact safe

/-! ### Both laws -/

/-- The laws of the window and of the lines. -/
structure State.FiringLaw (s : State) : Prop where
  window : s.WindowLaw
  lines : s.LinesLaw

/-- What the law of the lines reads of a state. -/
def State.lineView (s : State) : Vector LineState 16 × Interlock × Mode × Word × Word :=
  (s.out.lines, s.out.interlock, s.modc.mode, s.cfg.safeLevels, s.cfg.criticalLines)

theorem State.LinesLaw.congr (law : s.LinesLaw) (same : t.lineView = s.lineView) : t.LinesLaw := by
  simp only [State.lineView, Prod.mk.injEq] at same
  obtain ⟨lines, interlock, mode, levels, critical⟩ := same
  refine law.weaken lines levels fun i => ?_
  unfold State.mustBeSafe
  rw [mode, critical, interlock]
  exact id

/-- A change of nothing that the two laws read. -/
theorem State.FiringLaw.congr (law : s.FiringLaw) (lookahead : t.lookahead = s.lookahead)
    (lines : t.lineView = s.lineView) : t.FiringLaw :=
  ⟨law.window.congr lookahead, law.lines.congr lines⟩

/-- LFU at rest and every line at its safe level meet both laws in every mode. -/
theorem State.FiringLaw.of_atRest (rest : s.lfu.AtRest) (safe : ∀ i, s.out.lines[i] = s.cfg.safeLine i) : s.FiringLaw :=
  ⟨.of_atRest rest, .of_safe safe⟩

/-! ### Mode entries and raises -/

/-- The three entries that quiesce LFU and claim every line leave both laws in force, whatever they find (R59, R71). -/
theorem State.enterHalted_firing (s : State) (r : HaltReason) : (s.enterHalted r).FiringLaw :=
  .of_atRest (s.enterHalted_atRest r) (by simp)

theorem State.enterConfig_firing (s : State) : s.enterConfig.FiringLaw :=
  .of_atRest s.enterConfig_atRest (by simp)

theorem State.enterAcquire_firing (s : State) : s.enterAcquire.FiringLaw := by
  refine .of_atRest ⟨by simp, by simp, by simp, fun f hf => ?_⟩ (by simp)
  have fetch : s.enterAcquire.lfu.fetch = s.lfu.cancelFetch.fetch := by simp
  exact s.lfu.cancelFetch_cancelled f (fetch ▸ hf)

/-- FREEWHEEL is entered from a tracking mode with the critical lines claimed (R72). -/
theorem State.enterFreewheel_firing (law : s.FiringLaw) (tracking : s.modc.mode.tracking = true) :
    s.enterFreewheel.FiringLaw := by
  have tracks : Mode.freewheel.tracking = true := rfl
  refine ⟨law.window.congr (by simp [State.lookahead, tracking, tracks]), State.linesLaw_iff.mpr fun i named => ?_⟩
  simp only [State.enterFreewheel_fields, Out.claim_lines]
  cases critical : s.cfg.criticalLines.getLsbD i with
  | true => rfl
  | false =>
    have opened : s.out.interlock = .opened := by
      simpa only [State.mustBeSafe, State.enterFreewheel_fields, Out.claim_fields, critical, reduceCtorEq,
        Bool.false_eq_true, and_false, false_or] using named
    exact law.lines.opened opened i

/-- LOCKED is entered again without a claim, and its law names no line but for an open interlock (R72). -/
theorem State.relock_firing (law : s.FiringLaw) (tracking : s.modc.mode.tracking = true) : s.relock.FiringLaw := by
  have tracks : Mode.locked.tracking = true := rfl
  refine ⟨law.window.congr (by simp [State.lookahead, tracking, tracks]),
    law.lines.weaken (by simp) (by simp) fun i named => .inr (.inr (.inr ?_))⟩
  simpa using named.opened (.inr (by simp))

/-- A raise keeps both laws: it warns, or it halts (R134, R148, R149). -/
theorem State.raiseAt_firing (law : s.FiringLaw) (a : Stamp) (c : Cause) (d : Detail) :
    (s.raiseAt a c d).FiringLaw := by
  cases pending : isPending c s.flt.causes with
  | true =>
    rw [s.raiseAt_repeat a c d pending]
    exact law.congr rfl rfl
  | false =>
    cases halting : c.halting with
    | true =>
      rw [s.raiseAt_halts a c d pending halting]
      exact State.enterHalted_firing _ _
    | false =>
      obtain ⟨cfg, axt, cam, lfu, out, -, revq, modc, -⟩ := s.raiseAt_warns a c d halting
      refine law.congr ?_ ?_
      · rw [State.lookahead, cfg, axt, cam, lfu, revq, modc]; rfl
      · rw [State.lineView, cfg, out, modc]; rfl

theorem State.FiringLaw.raise (law : s.FiringLaw) (c : Cause) (d : Detail) : (s.raise c d).FiringLaw :=
  State.raiseAt_firing law _ c d

/-! ### Firing -/

/-- In a tracking mode an action on a line that the law names is suppressed (R70, R76). -/
theorem State.mustBeSafe.suppresses {i : LineNo} (named : s.mustBeSafe i) (tracking : s.modc.mode.tracking = true) :
    s.suppresses i = true := by
  rcases named with mode | mode | ⟨mode, critical⟩ | opened
  · rw [mode] at tracking; cases tracking
  · rw [mode] at tracking; cases tracking
  · simp [State.suppresses, mode, critical]
  · simp [State.suppresses, opened]

/-- A line whose actions are suppressed does not move. -/
theorem fireSlots_suppressedLine (l : List Slot) (s : State) {i : LineNo} (h : s.suppresses i = true) :
    (l.foldl State.fireSlot s).out.lines[i] = s.out.lines[i] := by
  induction l generalizing s with
  | nil => rfl
  | cons x xs ih => rw [List.foldl_cons, ih _ (by rw [State.fireSlot_suppresses, h]), State.fireSlot_lines, h]; simp

/-- A firing evaluation in a tracking mode keeps the law of the lines. -/
theorem State.evaluate_lines (law : s.LinesLaw) (tracking : s.modc.mode.tracking = true) : s.evaluate.LinesLaw := by
  rw [State.linesLaw_iff] at law ⊢
  intro i named
  have before : s.mustBeSafe i := by simpa [State.mustBeSafe] using named
  have still : s.evaluate.out.lines[i] = s.out.lines[i] := by
    rw [State.evaluate]
    exact fireSlots_suppressedLine _ { s with lfu.window := s.lfu.window.filter fun x => !x.due s.axt.hwm }
      (before.suppresses tracking)
  rw [still, law i before]
  simp

/-- The arbiter and a fetch request read no line and move none. -/
theorem State.arbitrate_firing (law : s.FiringLaw) : s.arbitrate.FiringLaw :=
  ⟨State.arbitrate_window law.window, law.lines.congr (by simp [State.lineView])⟩

theorem State.requestFetch_firing (law : s.FiringLaw) : s.requestFetch.FiringLaw :=
  ⟨State.requestFetch_window law.window, law.lines.congr (by simp [State.lineView])⟩

end Sys2Proof.Machine
end

section
/-! PROOFS. The laws of the window and of the lines at an acquisition, an advance of the high-water mark, an expiry of
the speed window and the revolution boundary (R37, R47 to R51, R53 to R58). -/

namespace Sys2Proof.Machine

variable {s t : State}

/-! ### Acquisition -/

/-- LFU takes an acquisition with no slot and no fetch that counts (R57, R58). -/
theorem State.startCursor_window (empty : s.lfu.window = []) (noFetch : s.lookahead.NoFetch)
    (noStart : s.lfu.deferred = none) (tracking : s.modc.mode.tracking = true) (p : Nat) :
    (s.startCursor p).WindowLaw := by
  have tracks (u : State) (modc : u.modc = s.modc) : ¬u.modc.mode.tracking = false := by simp [modc, tracking]
  unfold State.startCursor
  split
  · exact .of_empty empty noFetch (fun ended => absurd ended (tracks _ rfl)) fun _ => rfl
  · refine State.requestFetch_window (.of_empty empty noFetch (fun ended => absurd ended (tracks _ rfl)) fun held => ?_)
    rw [show s.lfu.deferred = none from noStart] at held
    cases held

/-- An acquisition keeps both laws: LFU was at rest, and LOCKED names no line but for an open interlock (R37, R72). -/
theorem State.acquire_firing (law : s.FiringLaw) (idle : s.modc.mode.tracking = false) (p : Nat) (b : Bool) :
    (s.acquire p b).FiringLaw := by
  obtain ⟨empty, -, noStart, noFetch⟩ := law.window.atRest idle
  constructor
  · unfold State.acquire
    exact State.startCursor_window (by exact empty) (by exact noFetch) (by exact noStart) rfl p
  · refine law.lines.weaken (by simp) (by simp) fun i named => .inr (.inr (.inr ?_))
    simpa using named.opened (.inr (by simp))

/-! ### An advance of the high-water mark -/

/-- LFU and REVQ take an hwm advance: what it makes due is fired before a fetch is requested (R50, R51, R114). -/
theorem State.hwmAdvanced_firing (law : s.lookahead.Law) (lines : s.LinesLaw) (tracking : s.modc.mode.tracking = true) :
    s.hwmAdvanced.FiringLaw :=
  State.requestFetch_firing
    ⟨(State.evaluate_window law).congr (by simp [State.lookahead]),
      (State.evaluate_lines lines tracking).congr (by simp [State.lineView])⟩

/-! ### The speed window -/

/-- The effective position of an entry in [Z, L-1] is in [Z, L-1] at every speed (R47, R48). -/
theorem Cfg.effective_bounds {c : Cfg} {e : Entry} (inside : c.inRange e.position.toNat = true) (speed : Nat) :
    c.guardZone.toNat ≤ c.effective speed e ∧ c.effective speed e < c.revLength.toNat := by
  simp only [Cfg.inRange, Bool.and_eq_true, decide_eq_true_eq] at inside
  unfold Cfg.effective
  omega

/-- The slots may take other effective positions, computed from their entries (R49). -/
theorem Lookahead.Law.reposition {v : Lookahead} (law : v.Law) (eff : Entry → Nat)
    (bounds : ∀ e ∈ v.table, v.guardZone ≤ eff e ∧ eff e < v.revLength) :
    ({ v with window := v.window.map fun x => { x with eff := eff x.entry } } : Lookahead).Law where
  room := by simpa using law.room
  order := List.pairwise_map.mpr law.order
  passed x hx := by
    obtain ⟨y, hy, rfl⟩ := List.mem_map.mp hx
    exact law.passed y hy
  idle ended := by
    obtain ⟨empty, rest⟩ := law.idle ended
    exact ⟨by simp [empty], rest⟩
  start held := by
    obtain ⟨empty, parked⟩ := law.start held
    exact ⟨by simp [empty], parked⟩
  wanted f hf live := by simpa using law.wanted f hf live
  application applies := by
    obtain ⟨empty, noFetch⟩ := law.application applies
    exact ⟨by simp [empty], noFetch⟩
  granted := law.granted
  copies x hx := by
    obtain ⟨y, hy, rfl⟩ := List.mem_map.mp hx
    obtain ⟨copy, -⟩ := law.copies y hy
    exact ⟨copy, bounds _ (List.mem_of_getElem? copy)⟩

/-- The computation anew at an expiry keeps both laws, where the entries stand in [Z, L-1] (R49). -/
theorem State.recompute_firing (law : s.FiringLaw)
    (entries : s.modc.mode.tracking = true → ∀ e ∈ s.cam.table, s.cfg.inRange e.position.toNat = true) :
    s.recompute.FiringLaw := by
  unfold State.recompute
  split
  · rename_i tracking
    obtain ⟨window, -⟩ := State.windowLaw_iff.mp law.window
    have moved : s.recomputed.lookahead.Law :=
      window.reposition (s.cfg.effective s.axt.speed) fun e he => Cfg.effective_bounds (entries tracking e he) _
    have lines : s.recomputed.LinesLaw := law.lines.congr rfl
    obtain ⟨cfg, axt, cam, lfu, out, -, revq, modc, -⟩ := raiseClamps_keep s.recomputed s.lfu.window
    change State.FiringLaw (State.requestFetch (State.evaluate
      (s.lfu.window.foldl (fun (t : State) (x : Slot) => t.raiseClamp x.entry) s.recomputed)))
    generalize s.lfu.window.foldl (fun (t : State) (x : Slot) => t.raiseClamp x.entry) s.recomputed = u at *
    have lookahead : u.lookahead = s.recomputed.lookahead := by
      rw [State.lookahead, cfg, axt, cam, lfu, revq, modc]; rfl
    refine State.requestFetch_firing ⟨State.evaluate_window (lookahead ▸ moved), 
      State.evaluate_lines (lines.congr ?_) ?_⟩
    · rw [State.lineView, cfg, out, modc]; rfl
    · rw [modc]; exact tracking
  · exact law

/-- An expiry of the speed window keeps both laws: OVERSPEED halts before the window is computed anew (R28, R29,
R49). -/
theorem State.speedExpires_firing (law : s.FiringLaw) (geometry : s.GeometryLaw) : s.speedExpires.FiringLaw := by
  have published : s.published.FiringLaw := law.congr rfl rfl
  have publishes : s.KeepsGeometry s.published := .of_program ⟨rfl, rfl⟩ rfl (.inl rfl)
  have recomputes {u : State} (law : u.FiringLaw) (geometry : u.GeometryLaw) : u.recompute.FiringLaw := by
    refine State.recompute_firing law fun tracking => ?_
    obtain ⟨-, -, -, entries⟩ := State.GeometryValid.bounds (geometry.1 (Mode.tracking_running tracking))
    exact entries
  unfold State.speedExpires
  dsimp only
  split
  · exact recomputes (published.raise _ _) (geometry.keep (publishes.raise _ _))
  · exact recomputes published (geometry.keep publishes)

/-! ### The boundary -/

/-- The roll of the window keeps the law, with the fetch cancelled and hwm below Z: the carried slots stand in
[Z, L-1], so that none is due (R45, R54, R55, R58). -/
theorem State.rollWindow_window (law : s.lookahead.Law) (tracking : s.modc.mode.tracking = true)
    (noFetch : s.lookahead.NoFetch) (low : s.axt.hwm < s.cfg.guardZone.toNat) (begins : Bool) :
    (s.rollWindow begins).WindowLaw := by
  have emptied (u : State) (mode : u.modc = s.modc) (empty : u.lfu.window = []) (fetch : u.lfu.fetch = s.lfu.fetch)
      (noStart : u.lfu.deferred = none) : u.WindowLaw :=
    .of_empty empty (fun f hf => noFetch f (fetch.symm.trans hf))
      (fun ended => by rw [mode, tracking] at ended; cases ended) fun held => by rw [noStart] at held; cases held
  unfold State.rollWindow
  split
  · exact emptied _ rfl rfl rfl rfl
  · split
    · exact emptied _ rfl rfl rfl rfl
    · rename_i noStart
      rw [Bool.not_eq_true, Option.isSome_eq_false_iff, Option.isNone_iff_eq_none] at noStart
      have carried := law.carry tracking noStart noFetch
        (c := if s.applying then s.lfu.cursor.carried else s.lfu.cursor.carried.endOfTable s.cam.table.length)
        (by split
            · exact .inl rfl
            · exact .inr rfl)
      refine State.windowLaw_iff.mpr ⟨carried, fun x hx _ => ?_⟩
      obtain ⟨-, above, -⟩ := carried.copies x hx
      exact Nat.lt_of_lt_of_le low above

/-- The turn-over keeps both laws: a group that waited begins its application with no slot and no fetch (R26, R27,
R53 to R55, R58). -/
theorem State.turnOver_firing (law : s.FiringLaw) (tracking : s.modc.mode.tracking = true) (valid : s.GeometryValid) :
    s.turnOver.FiringLaw := by
  obtain ⟨-, -, corr, -⟩ := valid.bounds
  obtain ⟨cfg, out, modc, -⟩ := s.turnOver_keeps
  refine ⟨?_, law.lines.congr (by rw [State.lineView, cfg, out, modc]; rfl)⟩
  obtain ⟨cam, revq, modc, window, cursor, deferred, fetch⟩ := s.turned_keeps
  have turnedCfg : s.turned.cfg = s.cfg := by simp [State.turned]
  have hwm : s.turned.axt.hwm = (s.cfg.correctionFor s.mcr.mark).toNat := by simp [State.turned, Axt.correct_eq]
  have noFetch : s.turned.lookahead.NoFetch := by
    intro f hf
    rw [show s.turned.lookahead.fetch = _ from fetch, ← Lfu.cancelFetch_fetch] at hf
    exact s.lfu.cancelFetch_cancelled f hf
  obtain ⟨old, -⟩ := State.windowLaw_iff.mp law.window
  have turned : s.turned.lookahead.Law := by
    have same : s.turned.lookahead
        = { s.lookahead with fetch := cancelled s.lfu.fetch, hwm := (s.cfg.correctionFor s.mcr.mark).toNat } := by
      rw [State.lookahead, window, cursor, deferred, fetch, cam, turnedCfg, hwm, modc, revq]; rfl
    rw [same] at noFetch ⊢
    exact { old with
      idle := fun ended => absurd tracking (Bool.eq_false_iff.mp ended)
      wanted := fun f hf live => absurd (noFetch f hf) live
      application := fun applies => ⟨(old.application applies).1, noFetch⟩
      granted := fun f hf granted => by have := noFetch f hf; rw [granted] at this; cases this }
  have low := s.cfg.correctionFor_le s.mcr.mark
  have rolled := s.turned.rollWindow_window turned (by rw [modc]; exact tracking) noFetch
    (by rw [hwm, turnedCfg]; omega) s.groupWaits
  refine State.requestFetch_window (State.beginApplication_window rolled true ?_)
  rintro ⟨q, rs, group⟩
  have waits : s.groupWaits = true := by
    have kept : (s.turned.rollWindow s.groupWaits).revq = s.revq := by simp [revq]
    exact s.groupWaits_iff.mpr ⟨q, rs, kept ▸ group⟩
  rw [waits]
  exact ⟨rfl, noFetch⟩

/-- So does the ladder: it leaves the mode, moves between the tracking modes, enters CONFIG or halts (R132, R139 to
R142). -/
theorem State.ladderStep_firing (law : s.FiringLaw) (tracking : s.modc.mode.tracking = true) (a : Stamp) (v : Verdict) :
    (s.ladderStep a v).FiringLaw := by
  obtain ⟨m, mode, moves⟩ := s.ladderStep_moves a v
  have counted : ({ s with modc := m } : State).FiringLaw :=
    law.congr (by simp [State.lookahead, mode]) (by simp [State.lineView, mode])
  have tracks : m.mode.tracking = true := mode ▸ tracking
  rcases moves with stays | freewheel | relocks | config | lost
  · rw [stays]; exact counted
  · rw [freewheel]; exact State.enterFreewheel_firing counted tracks
  · rw [relocks]; exact State.relock_firing counted tracks
  · rw [config]; exact State.enterConfig_firing _
  · rw [lost]; exact State.raiseAt_firing counted _ _ _

theorem State.boundary_firing (law : s.FiringLaw) (tracking : s.modc.mode.tracking = true) (valid : s.GeometryValid) :
    s.boundary.FiringLaw := by
  obtain ⟨-, -, modc, -⟩ := s.turnOver_keeps
  exact State.ladderStep_firing (State.turnOver_firing law tracking valid) (by rw [modc]; exact tracking) _ _

/-! ### Counts -/

/-- A forward count in a tracking mode: each case of R23 keeps both laws. -/
theorem State.advance_firing (law : s.FiringLaw) (tracking : s.modc.mode.tracking = true) (valid : s.GeometryValid) :
    s.advance.FiringLaw := by
  by_cases deficit : s.axt.deficit = 0
  · by_cases stretch : s.axt.stretch = 0
    · by_cases last : s.cfg.revLength.toNat ≤ s.axt.position + 1
      · rw [State.advance_turns deficit stretch last]
        exact State.boundary_firing law tracking valid
      · by_cases top : s.axt.hwm ≤ s.axt.position
        · rw [State.advance_climbs deficit stretch (by omega) top]
          obtain ⟨window, -⟩ := State.windowLaw_iff.mp law.window
          exact State.hwmAdvanced_firing { window with } (law.lines.congr rfl) tracking
        · rw [State.advance_regains deficit stretch (by omega) (by omega)]
          exact law.congr rfl rfl
    · rw [State.advance_consumes deficit (by omega)]
      exact law.congr rfl rfl
  · rw [State.advance_repays (by omega)]
    exact law.congr rfl rfl

theorem State.forward_firing (law : s.FiringLaw) (geometry : s.GeometryLaw) : s.forward.FiringLaw := by
  have counted : s.countedForward.FiringLaw := law.congr rfl rfl
  cases mode : s.modc.mode with
  | config => rw [State.forward_idle (.inl mode)]; exact counted
  | halted => rw [State.forward_idle (.inr mode)]; exact counted
  | acquire =>
    rw [State.forward_acquire mode, State.acquireCount]
    have taken : ({ s.countedForward with axt.acqCount := s.countedForward.axt.acqCount + 1 } : State).FiringLaw :=
      counted.congr rfl rfl
    dsimp only
    split
    · exact taken.raise _ _
    · exact taken
  | locked | freewheel =>
    have tracking : s.modc.mode.tracking = true := by rw [mode]; rfl
    have valid : s.GeometryValid := geometry.1 (Mode.tracking_running tracking)
    rw [State.forward_tracking tracking]
    exact State.advance_firing counted tracking
      (valid.congr (by simp [State.countedForward]) (by simp [State.countedForward]))

theorem State.backward_firing (law : s.FiringLaw) : s.backward.FiringLaw := by
  have counted : s.countedBackward.FiringLaw := law.congr rfl rfl
  cases tracking : s.modc.mode.tracking with
  | false => rw [State.backward_idle tracking]; exact counted
  | true =>
    have retreated : s.countedBackward.retreated.FiringLaw := counted.congr rfl rfl
    rw [State.backward_tracking tracking, State.retreat_eq]
    split
    · exact retreated.raise _ _
    · exact retreated

theorem State.invalidChange_firing (law : s.FiringLaw) : s.invalidChange.FiringLaw := by
  have accepted (l : EncLevels) : (s.acceptLevels l).FiringLaw := law.congr rfl rfl
  unfold State.invalidChange
  split
  · exact law
  · dsimp only
    split
    · exact (accepted _).raise _ _
    · exact accepted _

end Sys2Proof.Machine
end

section
/-! PROOFS. The laws of the window and of the lines under the index, the sensors, the interlock and the pulses, and at
the completion of a fetch, a read-back and an application (R10 to R12, R31, R46, R55, R58, R65, R75, R76, R93). -/

namespace Sys2Proof.Machine

variable {s t : State}

/-! ### The index and the sensors -/

theorem State.indexArrives_firing (law : s.FiringLaw) : s.indexArrives.FiringLaw := by
  unfold State.indexArrives
  split
  case h_1 | h_2 => exact law
  case h_3 mode =>
    split
    · exact State.acquire_firing law (by rw [mode]; rfl) _ _
    · exact law
    · exact law
  case h_4 | h_5 =>
    split
    · exact law
    · split
      · have published (slip : Int) : ({ s with axt.lastSlip := slip, axt.mech := 0 } : State).FiringLaw :=
          law.congr rfl rfl
        unfold State.endInterval
        dsimp only
        split
        · exact (published _).raise _ _
        · exact published _
      · exact law.congr rfl rfl

theorem State.edgeArrives_firing (law : s.FiringLaw) (n : SensorNo) (d : Edge) : (s.edgeArrives n d).FiringLaw := by
  have recorded {u : State} (law : u.FiringLaw) (r : CaptureRecord) : (u.record r).FiringLaw :=
    law.congr (by simp [State.lookahead]) (by simp [State.lineView])
  unfold State.edgeArrives
  split
  · exact law
  · split
    case h_1 | h_2 => exact law
    case h_3 mode =>
      split
      · have acquired := State.acquire_firing law (by rw [mode]; rfl) s.cfg.markNominal.toNat false
        have marked : ({ s.acquire s.cfg.markNominal.toNat false with mcr.mark := ⟨some 0, 0⟩ } : State).FiringLaw :=
          acquired.congr rfl rfl
        exact recorded marked _
      · exact recorded law _
    case h_4 | h_5 =>
      have judged (cls : CaptureClass) : (s.judgeMark cls).FiringLaw := by cases cls <;> exact law.congr rfl rfl
      exact recorded (judged _) _

/-! ### The interlock and the pulses -/

/-- The opening of the interlock takes every line to its safe level (R75). -/
theorem State.interlockOpens_firing (law : s.FiringLaw) : s.interlockOpens.FiringLaw := by
  unfold State.interlockOpens
  split
  · exact law
  · have opened : ({ s with
        pins.enable := false, out := { s.out.claimAll s.cfg with interlock := .opened } } : State).FiringLaw :=
      ⟨law.window.congr (by simp only [State.lookahead]), .of_safe (by simp)⟩
    dsimp only
    split
    · exact opened.raise _ _
    · exact opened

/-- Its closing moves no line, and the law names fewer (R76). -/
theorem State.interlockCloses_firing (law : s.FiringLaw) : s.interlockCloses.FiringLaw := by
  refine ⟨law.window.congr rfl, law.lines.weaken rfl rfl fun i named => ?_⟩
  rcases named with acquire | halted | critical | opened
  · exact .inl acquire
  · exact .inr (.inl halted)
  · exact .inr (.inr (.inl critical))
  · cases opened

/-- A line at its safe level has no timer that runs (R64, R71). -/
theorem Cfg.safeLine_ne_pulsing (c : Cfg) (i : LineNo) (n : Nat) : c.safeLine i ≠ .pulsing n := by
  unfold Cfg.safeLine steady
  split <;> exact nofun

/-- A pulse ends on no line that the law names (R65). -/
theorem State.pulseExpires_firing (law : s.FiringLaw) (i : LineNo) : (s.pulseExpires i).FiringLaw := by
  unfold State.pulseExpires
  split
  · rename_i pulsing
    refine ⟨law.window.congr rfl, State.linesLaw_iff.mpr fun j named => ?_⟩
    have safe : s.out.lines[j] = s.cfg.safeLine j := State.linesLaw_iff.mp law.lines j named
    have other : i ≠ j := by
      rintro rfl
      exact s.cfg.safeLine_ne_pulsing i 0 (safe.symm.trans pulsing)
    dsimp only
    rw [Out.setLine_lines, if_neg other]
    exact safe
  · exact law

/-! ### The completion of a fetch -/

/-- The cursor one index on has passed what it had passed, and the place where it stood (R43). -/
theorem Slot.passedBy_succ {x : Slot} {i : Nat} {tag : RevTag} (h : x.passedBy (.reading i tag)) :
    x.passedBy (.reading (i + 1) tag) :=
  h.elim .inl fun before => .inr ⟨before.1, Nat.lt_succ_of_lt before.2⟩

theorem Slot.passedBy_self (x : Slot) : x.passedBy (.reading (x.index + 1) x.tag) := .inr ⟨rfl, Nat.lt_succ_self _⟩

/-- While a fetch is granted the part tracks, no deferred start is held and no application is in progress (R45, R58,
R59). -/
theorem Lookahead.Law.live {v : Lookahead} (law : v.Law) {i : Nat} {tag : RevTag}
    (fetch : v.fetch = some ⟨i, tag, .granted⟩) :
    v.tracking ≠ false ∧ v.deferred.isSome ≠ true ∧ v.applying ≠ true := by
  obtain ⟨place, -⟩ := law.wanted _ fetch nofun
  refine ⟨fun ended => ?_, fun held => ?_, fun applies => ?_⟩
  · obtain ⟨-, -, -, noFetch⟩ := law.idle ended
    cases noFetch _ fetch
  · obtain ⟨-, parked⟩ := law.start held
    rw [place] at parked
    cases parked
  · obtain ⟨-, noFetch⟩ := law.application applies
    cases noFetch _ fetch

/-- The cursor goes on past an entry that is examined, and the port falls free (R43, R46). -/
theorem Lookahead.Law.examined {v : Lookahead} (law : v.Law) {i : Nat} {tag : RevTag}
    (fetch : v.fetch = some ⟨i, tag, .granted⟩) :
    ({ v with cursor := Cursor.endOfTable v.table.length (.reading (i + 1) tag), fetch := none, port := .free } :
      Lookahead).Law := by
  obtain ⟨place, -⟩ := law.wanted _ fetch nofun
  obtain ⟨tracks, noStart, noApplication⟩ := law.live fetch
  exact { law with
    passed := fun x hx => by
      have behind := law.passed x hx
      rw [place] at behind
      exact Slot.passedBy_endOfTable (Slot.passedBy_succ behind) _
    idle := fun ended => absurd ended tracks
    start := fun held => absurd held noStart
    wanted := nofun
    application := fun applies => absurd applies noApplication
    granted := nofun }

/-- A slot that copies the entry fetched takes its place at the tail, in window order (R42, R46). -/
theorem Lookahead.Law.loaded {v : Lookahead} (law : v.Law) {x : Slot}
    (fetch : v.fetch = some ⟨x.index, x.tag, .granted⟩) (copy : v.table[x.index]? = some x.entry)
    (bounds : v.guardZone ≤ x.eff ∧ x.eff < v.revLength) :
    ({ v with
      window := v.window ++ [x], cursor := Cursor.endOfTable v.table.length (.reading (x.index + 1) x.tag)
      fetch := none, port := .free } : Lookahead).Law := by
  obtain ⟨place, room⟩ := law.wanted _ fetch nofun
  obtain ⟨tracks, noStart, noApplication⟩ := law.live fetch
  have examined := law.examined fetch
  exact { examined with
    room := by
      rw [List.length_append, List.length_singleton]
      exact Nat.succ_le_of_lt room
    order := by
      refine List.pairwise_append.mpr ⟨law.order, List.pairwise_singleton _ _, fun y hy z hz => ?_⟩
      have behind := law.passed y hy
      rw [place] at behind
      rw [List.mem_singleton.mp hz]
      exact behind
    passed := fun y hy => by
      rcases List.mem_append.mp hy with old | new
      · exact examined.passed y old
      · rw [List.mem_singleton.mp new]
        exact Slot.passedBy_endOfTable x.passedBy_self _
    idle := fun ended => absurd ended tracks
    start := fun held => absurd held noStart
    wanted := nofun
    application := fun applies => absurd applies noApplication
    copies := fun y hy => by
      rcases List.mem_append.mp hy with old | new
      · exact law.copies y old
      · rw [List.mem_singleton.mp new]
        exact ⟨copy, bounds⟩ }

/-- A load puts its slot at the tail, and with a CURRENT one the due slots fire (R46, R50). -/
theorem State.load_lookahead (s : State) (e : Entry) (f : Fetch) :
    (s.load e f).lookahead = { s.lookahead with
      window := (s.lfu.window ++ [s.slotOf e f]).filter fun x => !loadFires f.tag s.axt.hwm x } := by
  have loads : s.load e f = match f.tag with
      | .current => ((s.tailed e f).raiseClamp e).evaluate
      | .next => (s.tailed e f).raiseClamp e := rfl
  have fires : loadFires .current s.axt.hwm = Slot.due s.axt.hwm := rfl
  have noneFires : loadFires .next s.axt.hwm = fun _ => false := rfl
  rw [loads]
  cases f.tag with
  | current => simp [State.lookahead, State.tailed, fires]
  | next =>
    have allStay : (s.lfu.window ++ [s.slotOf e f]).filter (fun _ => !false) = s.lfu.window ++ [s.slotOf e f] :=
      List.filter_eq_self.mpr fun _ _ => rfl
    obtain ⟨cfg, axt, cam, lfu, -, -, revq, modc, -⟩ := (s.tailed e f).raiseClamp_keeps e
    rw [noneFires, allStay, State.lookahead]
    dsimp only
    rw [cfg, axt, cam, lfu, revq, modc]
    rfl

theorem State.load_lines (law : s.LinesLaw) (tracking : s.modc.mode.tracking = true) (e : Entry) (f : Fetch) :
    (s.load e f).LinesLaw := by
  have clamped : ((s.tailed e f).raiseClamp e).LinesLaw := law.congr (by simp [State.lineView, State.tailed])
  unfold State.load
  dsimp only
  split
  · exact State.evaluate_lines clamped (by simpa [State.tailed] using tracking)
  · exact clamped

/-- The examination of a fetched entry keeps both laws (R46). -/
theorem State.examine_firing (law : s.FiringLaw) (geometry : s.GeometryLaw) {i : Nat} {tag : RevTag}
    (fetch : s.lfu.fetch = some ⟨i, tag, .granted⟩) :
    (({ s with cam.port := .free } : State).examine s.cam.table[i]? ⟨i, tag, .granted⟩).FiringLaw := by
  obtain ⟨window, noneDue⟩ := State.windowLaw_iff.mp law.window
  have tracking : s.modc.mode.tracking = true := eq_true_of_ne_false (window.live fetch).1
  have passedOver : ({ s with
      cam.port := .free, lfu.cursor := Cursor.endOfTable s.cam.table.length (.reading (i + 1) tag)
      lfu.fetch := none } : State).FiringLaw :=
    ⟨State.windowLaw_iff.mpr ⟨window.examined fetch, noneDue⟩, law.lines.congr rfl⟩
  unfold State.examine
  dsimp only
  split
  · rename_i e copy
    split
    · obtain ⟨-, -, -, entries⟩ := State.GeometryValid.bounds (geometry.1 (Mode.tracking_running tracking))
      let freed : State := { s with cam.port := .free }
      let f : Fetch := ⟨i, tag, .granted⟩
      have bounds := Cfg.effective_bounds (entries e (List.mem_of_getElem? copy)) s.axt.speed
      have loaded := window.loaded (x := s.slotOf e f) fetch copy bounds
      let left : State := { freed.load e f with
        lfu.cursor := Cursor.endOfTable s.cam.table.length (.reading (i + 1) tag), lfu.fetch := none }
      have view : left.lookahead = { s.lookahead with
          window := (s.lfu.window ++ [s.slotOf e f]).filter fun x => !loadFires tag s.axt.hwm x
          cursor := Cursor.endOfTable s.cam.table.length (.reading (i + 1) tag), fetch := none, port := .free } := by
        change ({ (freed.load e f).lookahead with
          cursor := Cursor.endOfTable s.cam.table.length (.reading (i + 1) tag), fetch := none } : Lookahead) = _
        rw [freed.load_lookahead e f]
        rfl
      have lines : left.LinesLaw := (State.load_lines (s := freed) (law.lines.congr rfl) tracking e f).congr rfl
      refine ⟨State.windowLaw_iff.mpr ?_, lines⟩
      rw [view]
      refine ⟨loaded.filter _, fun x hx current => ?_⟩
      obtain ⟨member, stays⟩ := List.mem_filter.mp hx
      rcases List.mem_append.mp member with old | new
      · exact noneDue x old current
      · rw [List.mem_singleton.mp new] at current stays ⊢
        have judged : s.axt.hwm < (s.slotOf e f).eff := by
          simpa [loadFires, current, show tag = .current from current] using stays
        exact judged
    · exact passedOver
  · exact passedOver

/-- The completion of a fetch keeps both laws (R45, R46). -/
theorem State.fetchCompletes_firing (law : s.FiringLaw) (geometry : s.GeometryLaw) : s.fetchCompletes.FiringLaw := by
  obtain ⟨window, noneDue⟩ := State.windowLaw_iff.mp law.window
  unfold State.fetchCompletes
  split
  · rename_i entry port
    refine State.requestFetch_firing ?_
    split
    · rename_i i tag fetch
      have read : s.cam.port = .fetch s.cam.table[i]? := window.granted _ fetch rfl
      rw [port] at read
      cases read
      exact State.examine_firing law geometry fetch
    · exact ⟨State.windowLaw_iff.mpr ⟨{ window with
        idle := fun ended => by
          obtain ⟨empty, parked, noStart, -⟩ := window.idle ended
          exact ⟨empty, parked, noStart, nofun⟩
        wanted := nofun
        application := fun applies => ⟨(window.application applies).1, nofun⟩
        granted := nofun }, noneDue⟩, law.lines.congr rfl⟩
    · rename_i notGranted _
      refine ⟨State.windowLaw_iff.mpr ⟨{ window with granted := fun f hf granted => ?_ }, noneDue⟩, law.lines.congr rfl⟩
      obtain ⟨i, tag, phase⟩ := f
      cases granted
      exact absurd hf (notGranted i tag)
  · exact law

/-! ### The completions of a read-back and of an application -/

/-- The port falls free of a read-back, which no granted fetch held (R12). -/
theorem State.readbackCompletes_firing (law : s.FiringLaw) : s.readbackCompletes.FiringLaw := by
  unfold State.readbackCompletes
  split
  · rename_i i e port
    obtain ⟨window, noneDue⟩ := State.windowLaw_iff.mp law.window
    refine State.arbitrate_firing ⟨State.windowLaw_iff.mpr ⟨{ window with granted := fun f hf granted => ?_ }, noneDue⟩,
      law.lines.congr rfl⟩
    have holds : s.cam.port = _ := window.granted f hf granted
    rw [port] at holds
    cases holds
  · exact law

/-- LFU takes up fetching with no slot and no fetch that counts (R55, R58). -/
theorem State.resumeFetching_window (empty : s.lfu.window = []) (noFetch : s.lookahead.NoFetch)
    (idle : s.modc.mode.tracking = false → s.lfu.cursor = .parked ∧ s.lfu.deferred = none) :
    s.resumeFetching.WindowLaw := by
  unfold State.resumeFetching
  split
  · rename_i point start
    refine State.requestFetch_window (.of_empty empty noFetch (fun ended => ?_) nofun)
    rw [start] at idle
    cases (idle ended).2
  · rename_i noStart
    refine State.requestFetch_window (.of_empty empty noFetch (fun ended => ⟨?_, noStart⟩) fun held => ?_)
    · exact congrArg (Cursor.endOfTable s.cam.table.length) (idle ended).1
    · rw [show s.lfu.deferred = none from noStart] at held
      cases held

/-- The completion of an application keeps both laws, whatever table it leaves: no slot stood during it (R55). -/
theorem State.applicationCompletes_firing (law : s.FiringLaw) : s.applicationCompletes.FiringLaw := by
  obtain ⟨window, -⟩ := State.windowLaw_iff.mp law.window
  unfold State.applicationCompletes
  split
  · rename_i q b n rs group _
    have applies : s.revq.applying = true := by rw [Revq.applying, group]
    obtain ⟨empty, noFetch⟩ := window.application applies
    have lfu : (s.judged q rs).lfu = s.lfu := by simp [State.judged]
    have modc : (s.judged q rs).modc = s.modc := by simp [State.judged]
    have noneCounts : (s.judged q rs).lookahead.NoFetch := fun f hf =>
      noFetch f ((congrArg Lfu.fetch lfu).symm.trans hf)
    change (s.judged q rs).resumeFetching.FiringLaw
    refine ⟨State.resumeFetching_window (by rw [lfu]; exact empty) noneCounts fun ended => ?_, law.lines.congr ?_⟩
    · rw [modc] at ended
      obtain ⟨-, parked, noStart, -⟩ := window.idle ended
      rw [lfu]
      exact ⟨parked, noStart⟩
    · simp [State.lineView, State.judged]
  · exact law

end Sys2Proof.Machine
end

section
/-! PROOFS. The laws of the window and of the lines under the bus, the clock and every step (R41 to R45, R48, R50, R53,
R58, R59, R72, R76). -/

namespace Sys2Proof.Machine

variable {s t : State}

/-! ### The commands given by a strobe -/

/-- An answer moves nothing that the two laws read (R168). -/
theorem State.FiringLaw.answer (law : s.FiringLaw) (c : Command) (r : ResultCode) (k : BitVec 3 := 0) :
    (s.answer c r k).FiringLaw :=
  law.congr rfl rfl

/-- In CONFIG LFU is at rest, and the law of the lines names none but for an open interlock (R59, R72, R76). -/
theorem State.FiringLaw.of_config (law : s.FiringLaw) (config : s.modc.mode = .config) (lfu : t.lfu = s.lfu)
    (mode : t.modc.mode = .config)
    (safe : t.out.interlock = .opened → ∀ i, t.out.lines[i] = t.cfg.safeLine i) : t.FiringLaw := by
  exact ⟨.of_atRest (lfu ▸ law.window.atRest (by rw [config]; rfl)),
    State.linesLaw_iff.mpr fun i named => safe (named.opened (.inl mode)) i⟩

theorem State.cmdStart_firing (law : s.FiringLaw) : s.cmdStart.FiringLaw := by
  unfold State.cmdStart
  split
  · exact law.answer _ _
  · split
    · exact law.answer _ _
    · split
      · exact law.answer _ _ _
      · have entered := s.enterAcquire_firing
        refine State.FiringLaw.answer ?_ _ _
        split
        · exact State.acquire_firing entered rfl _ _
        all_goals exact entered

/-- COMMIT begins an application at once only outside the tracking modes, where LFU is at rest (R104, R106). -/
theorem State.cmdCommit_firing (law : s.FiringLaw) : s.cmdCommit.FiringLaw := by
  unfold State.cmdCommit
  split
  · exact law.answer _ _
  · split
    · exact law.answer _ _
    · rename_i noGroup
      rw [Bool.not_eq_true, Option.isSome_eq_false_iff, Option.isNone_iff_eq_none] at noGroup
      let grouped : State := { s with
        revq.group := some ⟨s.revq.nextSeq, .waiting, s.revq.opens⟩, revq.opens := []
        revq.nextSeq := s.revq.nextSeq + 1 }
      have idle : s.revq.applying = false := by rw [Revq.applying, noGroup]
      have law' : grouped.FiringLaw := law.congr (by rw [State.lookahead, State.lookahead, idle]; rfl) rfl
      refine State.FiringLaw.answer ?_ _ _
      change (if s.modc.mode.tracking then grouped else grouped.beginApplication false).FiringLaw
      split
      · exact law'
      · rename_i ended
        obtain ⟨empty, -, -, noFetch⟩ := law'.window.atRest (Bool.not_eq_true _ ▸ ended)
        exact ⟨State.beginApplication_window law'.window false fun _ => ⟨empty, noFetch⟩,
          law'.lines.congr (by simp [State.lineView])⟩

/-- Every command given by a strobe keeps both laws. -/
theorem State.runCommand_firing (law : s.FiringLaw) (c : Command) : (s.runCommand c).FiringLaw := by
  have submitted (k : SubmitKind) (c : Command) : (s.submit k c).FiringLaw := by
    unfold State.submit
    split
    · exact law.answer _ _
    · split <;> exact law.congr rfl rfl
  cases c with
  | start => exact State.cmdStart_firing law
  | stop =>
    unfold State.runCommand State.cmdStop
    dsimp only
    split
    case h_1 | h_2 => exact law.congr rfl rfl
    case h_3 => exact s.enterConfig_firing.answer _ _
    case h_4 | h_5 => exact law.answer _ _
  | haltNow =>
    unfold State.runCommand State.cmdHaltNow
    dsimp only
    split
    · exact (s.enterHalted_firing _).answer _ _
    · exact law.answer _ _
  | clearHalt =>
    unfold State.runCommand State.cmdClearHalt
    dsimp only
    split
    · exact law.answer _ _
    · split
      · exact law.answer _ _
      · exact s.enterConfig_firing.answer _ _
  | softReset =>
    unfold State.runCommand State.cmdSoftReset
    dsimp only
    split
    · exact law.answer _ _
    · exact .of_atRest ⟨rfl, rfl, rfl, s.lfu.cancelFetch_cancelled⟩ (by simp [State.softOut])
  | ackFault =>
    unfold State.runCommand State.cmdAckFault
    dsimp only
    repeat' split
    all_goals exact law.congr rfl rfl
  | popCapture =>
    unfold State.runCommand State.cmdPopCapture
    dsimp only
    split <;> exact law.congr rfl rfl
  | applyManual =>
    unfold State.runCommand State.cmdApplyManual
    dsimp only
    split
    · exact law.answer _ _
    · rename_i config
      rw [Decidable.not_not] at config
      split
      · exact law.answer _ _
      · rename_i closed
        exact law.of_config config (by simp) (by simpa using config) fun opened => absurd (by simpa using opened) closed
  | clearCounters | discardOpen => exact law.congr rfl rfl
  | submitInsert | submitRemove | submitModify => exact submitted _ _
  | commit => exact State.cmdCommit_firing law
  | readEntry =>
    unfold State.runCommand State.cmdReadEntry
    dsimp only
    repeat' split
    case isFalse.isFalse.isFalse =>
      have requested : ({ s with cam.readbackWaits := some s.biu.arg.toNat } : State).FiringLaw := law.congr rfl rfl
      exact (State.arbitrate_firing requested).answer _ _
    all_goals exact law.answer _ _
  | clearTable =>
    unfold State.runCommand State.cmdClearTable
    dsimp only
    split
    · exact law.answer _ _
    · rename_i config
      rw [Decidable.not_not] at config
      split
      · exact law.answer _ _
      · exact law.of_config config rfl config fun opened => law.lines.opened opened
  | raiseLock =>
    unfold State.runCommand State.cmdRaiseLock
    dsimp only
    repeat' split
    all_goals exact law.congr rfl rfl

/-! ### Bus writes -/

/-- A write taken in CONFIG alone, of a word that is not SAFE_LEVELS, keeps both laws (R172). -/
theorem State.FiringLaw.of_frozen (law : s.FiringLaw) (t : State) (lfu : t.lfu = s.lfu) (modc : t.modc = s.modc)
    (out : t.out = s.out) (levels : t.cfg.safeLevels = s.cfg.safeLevels) :
    (if s.modc.mode ≠ .config then s.setAccessViolation else t).FiringLaw := by
  split
  · exact law.congr rfl rfl
  · rename_i config
    rw [Decidable.not_not] at config
    refine law.of_config config lfu (by rw [modc, config]) fun opened i => ?_
    rw [out] at opened ⊢
    have safe := law.lines.opened opened i
    unfold Cfg.safeLine at safe ⊢
    rw [levels]
    exact safe

/-- A write to SAFE_LEVELS moves the lines whose level changes with it, where the interlock is OPEN (R76). -/
theorem State.writeSafeLevels_firing (law : s.FiringLaw) (v : Word) : (s.writeSafeLevels v).FiringLaw := by
  unfold State.writeSafeLevels
  split
  · exact law.congr rfl rfl
  · rename_i config
    rw [Decidable.not_not] at config
    dsimp only
    split
    · rename_i closed
      exact law.of_config config rfl config fun opened => by rw [closed] at opened; cases opened
    · rename_i opened
      refine law.of_config config rfl config fun _ i => ?_
      have safe := law.lines.opened opened i
      dsimp only
      rw [Out.claim_lines]
      split
      · rfl
      · rename_i same
        rw [Bool.not_eq_true, bne_eq_false_iff_eq] at same
        rw [safe, Cfg.safeLine, Cfg.safeLine, same]

theorem State.busWrite_firing (law : s.FiringLaw) (w : WriteTarget) (v : Word) : (s.busWrite w v).FiringLaw := by
  cases w with
  | strobe r =>
    unfold State.busWrite State.writeStrobe
    dsimp only
    split
    · exact law
    · exact State.runCommand_firing law _
    · exact law.congr rfl rfl
  | frozen w => exact law.of_frozen { s with cfg := s.cfg.store w v } rfl rfl rfl (by cases w <;> rfl)
  | encoderCfg | timebaseDiv | acqCfg => exact law.of_frozen _ rfl rfl rfl rfl
  | safeLevels => exact State.writeSafeLevels_firing law v
  | _ => exact law.congr rfl rfl

/-! ### Every step -/

/-- Every command keeps both laws, where the law of the geometry holds. -/
theorem effectOf_firing (c : Instr) (law : s.FiringLaw) (geometry : s.GeometryLaw) : (effectOf c s).FiringLaw := by
  cases c with
  | forwardCount => exact State.forward_firing law geometry
  | revolutionBoundary =>
    unfold effectOf State.boundaryCount
    dsimp only
    split
    · exact State.forward_firing law geometry
    · exact law
  | acquireTimeout =>
    unfold effectOf State.timeoutCount
    dsimp only
    split
    · exact State.forward_firing law geometry
    · exact law
  | backwardCount => exact State.backward_firing law
  | invalidTransition => exact State.invalidChange_firing law
  | indexArrival => exact State.indexArrives_firing law
  | speedWindowExpiry => exact State.speedExpires_firing law geometry
  | sensorEdge n d => exact State.edgeArrives_firing law n d
  | interlockOpening => exact State.interlockOpens_firing law
  | interlockClosing => exact State.interlockCloses_firing law
  | pulseExpiry i => exact State.pulseExpires_firing law i
  | fetchCompletion => exact State.fetchCompletes_firing law geometry
  | readbackCompletion => exact State.readbackCompletes_firing law
  | applicationCompletion => exact State.applicationCompletes_firing law
  | powerOn | resetPin | resetPinHeld =>
    exact .of_atRest ⟨rfl, rfl, rfl, nofun⟩ fun i => by
      simp [effectOf, State.holdReset, State.resetTo, Out.reset, State.reset, Cfg.reset, Cfg.safeLine, steady]
  | start | stop | haltNow | clearHalt | softReset | ackFault | popCapture | applyManual | clearCounters | submitInsert
  | submitRemove | submitModify | commit | discardOpen | readEntry | clearTable | raiseLock =>
    unfold effectOf
    exact State.runCommand_firing law _
  | invalidCommandWrite | intFlagsWrite | intEnableWrite | stickyStatusWrite | frozenWordWrite | encoderCfgWrite
  | timebaseDivWrite | acqCfgWrite | safeLevelsWrite | registerWrite =>
    unfold effectOf
    exact State.busWrite_firing law _ _
  | positionRead | commitResultRead | faultCauseRead => exact law.congr rfl rfl

/-- An application in progress stays in progress, and a group that waits waits on, as the microseconds pass (R108). -/
theorem State.aged_applying (s : State) : s.aged.revq.applying = s.revq.applying := by
  rw [State.aged, Revq.applying, Revq.applying]
  dsimp only
  cases s.revq.group with
  | none => rfl
  | some g =>
    obtain ⟨q, phase, rs⟩ := g
    cases phase <;> rfl

/-- A line at its safe level has no timer to count down (R65, R71). -/
theorem Cfg.safeLine_countDown (c : Cfg) (i : LineNo) : (c.safeLine i).countDown = c.safeLine i := by
  unfold Cfg.safeLine steady
  split <;> rfl

/-- A microsecond moves no slot, and counts down no line at its safe level (R28, R65, R108). -/
theorem State.microsecond_firing (law : s.FiringLaw) : s.microsecond.FiringLaw := by
  rw [s.microsecond_eq]
  refine ⟨law.window.congr ?_, State.linesLaw_iff.mpr fun i named => ?_⟩
  · rw [State.lookahead]
    dsimp only
    rw [s.aged_applying]
    rfl
  · have before : s.mustBeSafe i := by simpa only [State.mustBeSafe, State.aged] using named
    have safe := State.linesLaw_iff.mp law.lines i before
    change s.aged.out.lines[i] = s.cfg.safeLine i
    rw [s.aged_lines, safe, Cfg.safeLine_countDown]

/-- One period of REFCLK keeps both laws (R17, R30). -/
theorem State.refclk_firing (law : s.FiringLaw) : s.refclk.FiringLaw := by
  obtain ⟨cfg, cam, lfu, modc, axt⟩ := s.takeLevels_keeps
  obtain ⟨-, out, revq, -⟩ := s.takeLevels_frame
  have taken : s.takeLevels.FiringLaw := by
    refine law.congr ?_ ?_
    · rw [State.lookahead, cfg, cam, lfu, modc, axt, revq]; rfl
    · rw [State.lineView, cfg, out, modc]; rfl
  unfold State.refclk
  split
  · exact law
  · unfold State.tick
    split
    · exact taken.congr rfl rfl
    · exact State.microsecond_firing (taken.congr rfl rfl)

/-- With hwm at L-1 or beyond no CURRENT slot stands in the window: it would be due (R50, R53). -/
theorem State.WindowLaw.onlyNext (law : s.WindowLaw) (position : s.PositionLaw)
    (last : s.cfg.revLength.toNat ≤ s.axt.position + 1) : ∀ x ∈ s.lfu.window, x.tag = .next := by
  obtain ⟨window, noneDue⟩ := State.windowLaw_iff.mp law
  obtain ⟨behind, -⟩ := position
  intro x hx
  cases current : x.tag with
  | next => rfl
  | current =>
    have ahead : s.axt.hwm < x.eff := noneDue x hx current
    obtain ⟨-, -, below⟩ := window.copies x hx
    have inside : x.eff < s.cfg.revLength.toNat := below
    omega

/-- Settles O9: the clock and every command keep the laws of the window and of the lines, and at position L-1 a CURRENT
slot would be due. The law of the pending set is not needed. -/
theorem everyStepKeepsTheWindowAndTheSafeLines : Obligations.EveryStepKeepsTheWindowAndTheSafeLines := by
  intro s t _ position geometry window lines h
  have law : s.FiringLaw := ⟨window, lines⟩
  have kept : t.FiringLaw := by
    rcases step_cases h with ⟨-, rfl⟩ | ⟨c, rest, -, rfl | rfl⟩
    · exact State.refclk_firing law
    · exact law.congr rfl rfl
    · exact effectOf_firing (s := { s with pending := rest }) c (law.congr rfl rfl)
        (geometry.keep (.of_program ⟨rfl, rfl⟩ rfl (.inl rfl)))
  exact ⟨kept.window, kept.lines, fun _ last => window.onlyNext position last⟩

end Sys2Proof.Machine
end

section
/-! PROOFS. The boundary at which a waiting group begins its application: the account, the discarded window, the cursor,
the port, and no fetch (R53, R55, R58, R106 to R108). -/

namespace Sys2Proof.Machine

variable {s t : State}

/-! ### The turn-over -/

/-- The arbiter, with an application in progress, gives it a free port and does nothing else (R8). -/
theorem State.arbitrate_applying (applies : s.revq.applying = true) :
    s.arbitrate = { s with cam.port := if s.cam.port = .free then .application else s.cam.port } := by
  by_cases free : s.cam.port = .free
  · rw [s.arbitrate_application free applies, if_pos free]
  · rw [s.arbitrate_held free, if_neg free]

/-- With an application in progress a fetch request is the arbiter's turn alone (R44). -/
theorem State.requestFetch_applying (applies : s.revq.applying = true) : s.requestFetch = s.arbitrate := by
  unfold State.requestFetch
  split
  · rename_i wants
    obtain ⟨-, -, -, -, idle⟩ := State.wantsFetch_some wants
    rw [applies] at idle
    cases idle
  · rfl

/-- The turn-over where a group waits: its application begins with the window discarded and the cursor at the beginning
of the table, and the port goes to it if it is free (R55, R106 to R108). -/
theorem State.turnOver_begins {q : BitVec 8} {rs : List Revision} (group : s.revq.group = some ⟨q, .waiting, rs⟩) :
    s.turnOver.revq = { s.revq with group := some ⟨q, .applying true 0, rs⟩ }
      ∧ s.turnOver.cam = { s.cam with port := if s.cam.port = .free then .application else s.cam.port }
      ∧ s.turnOver.lfu.window = [] ∧ s.turnOver.lfu.cursor = .reading 0 .current ∧ s.turnOver.lfu.deferred = none
      ∧ s.turnOver.lfu.fetch = cancelled s.lfu.fetch := by
  obtain ⟨cam, revq, -, -, -, -, fetch⟩ := s.turned_keeps
  have waits : s.groupWaits = true := s.groupWaits_iff.mpr ⟨q, rs, group⟩
  let rolled := s.turned.rollWindow true
  let begun : State := { rolled with revq.group := some ⟨q, .applying true 0, rs⟩ }
  have applies : begun.revq.applying = true := rfl
  have begins : rolled.beginApplication true = begun.arbitrate := by
    have rolledGroup : rolled.revq.group = some ⟨q, .waiting, rs⟩ := by
      rw [← group, ← revq]
      simp [rolled]
    rw [State.beginApplication, rolledGroup]
  have turnOver : s.turnOver = begun.arbitrate := by
    have twice : begun.arbitrate.arbitrate = begun.arbitrate := by
      rw [State.arbitrate_applying applies]
      refine State.arbitrate_held _ ?_
      dsimp only
      split <;> simp_all
    change ((s.turned.rollWindow s.groupWaits).beginApplication true).requestFetch = _
    rw [waits, begins, State.requestFetch_applying (by simpa using applies), twice]
  have rolledCam : begun.cam = s.cam := by rw [← cam]; rfl
  rw [turnOver, State.arbitrate_applying applies]
  exact ⟨congrArg (fun r : Revq => { r with group := some ⟨q, .applying true 0, rs⟩ }) revq,
    by rw [← rolledCam], rfl, rfl, rfl, fetch⟩

/-! ### The ladder -/

theorem cancelled_cancelled (f : Option Fetch) : cancelled (cancelled f) = cancelled f := by
  rcases f with _ | ⟨i, tag, phase⟩
  · rfl
  · cases phase <;> rfl

/-- Where no group waits, the entry into CONFIG leaves the port and the revision queue, and cancels the fetch in flight
(R59, R107). -/
theorem State.enterConfig_idle (noGroup : ¬s.HasWaitingGroup) :
    s.enterConfig.cam = s.cam ∧ s.enterConfig.revq = s.revq ∧ s.enterConfig.lfu.fetch = cancelled s.lfu.fetch := by
  have idle := State.beginApplication_idle
    (s := ({ s with modc.mode := .config, modc.stopPending := false } : State).quiesce) false noGroup
  rw [State.enterConfig, idle]
  simp

/-- So does the entry into HALTED (R59, R115). -/
theorem State.enterHalted_idle (r : HaltReason) (noGroup : ¬s.HasWaitingGroup) :
    (s.enterHalted r).cam = s.cam ∧ (s.enterHalted r).revq = s.revq
      ∧ (s.enterHalted r).lfu.fetch = cancelled s.lfu.fetch := by
  obtain ⟨-, -, -, -, lfu, -, -, -, -, -, -, -, -, kept, -, cam, -⟩ := s.enterHalted_entry r
  exact ⟨cam, (kept noGroup).1, congrArg Lfu.fetch lfu⟩

/-- Where no group waits, the ladder leaves the port and the revision queue, and a cancelled fetch too, whether the part
tracks on or not (R132, R139 to R142). -/
theorem State.ladderStep_idle (noGroup : ¬s.HasWaitingGroup) (a : Stamp) (v : Verdict)
    (noFetch : cancelled s.lfu.fetch = s.lfu.fetch) :
    (s.ladderStep a v).cam = s.cam ∧ (s.ladderStep a v).revq = s.revq
      ∧ (s.ladderStep a v).lfu.fetch = s.lfu.fetch := by
  obtain ⟨m, -, stays | freewheel | relocks | config | lost⟩ := s.ladderStep_moves a v
  · rw [stays]; exact ⟨rfl, rfl, rfl⟩
  · rw [freewheel]; simp
  · rw [relocks]; simp
  · have enters := State.enterConfig_idle (s := { s with modc := m }) noGroup
    rw [config, ← noFetch]
    exact enters
  · rw [lost]
    cases pending : isPending .marksLost s.flt.causes with
    | true =>
      rw [State.raiseAt_repeat { s with modc := m } a .marksLost _ pending]
      exact ⟨rfl, rfl, rfl⟩
    | false =>
      rw [State.raiseAt_halts { s with modc := m } a .marksLost _ pending rfl, ← noFetch]
      exact State.enterHalted_idle _ noGroup

/-- Settles O26: the count is the boundary; the turn-over settles the account and begins the application, and the ladder
leaves the port, the queue and the cancelled fetch. -/
theorem boundaryBeginsTheWaitingGroup : Obligations.BoundaryBeginsTheWaitingGroup := by
  intro s q rs held tracking deficit stretch last group law
  have run : exec .revolutionBoundary s = .next s.boundaryCount := exec_live _ s held
  let u := s.countedForward
  obtain ⟨revq, cam, empty, cursor, noStart, fetch⟩ := State.turnOver_begins (s := u) group
  obtain ⟨-, -, modc, -, -, -, -, -, -, -, -, -, -, -, late⟩ := u.turnOver_keeps
  obtain ⟨-, -, -, -, -, -, -, -, -, ladderLate, -⟩ :=
    u.turnOver.ladderStep_keeps u.endingStamp (u.cfg.judgeRevolution u.mcr.mark).1
  have noGroup : ¬u.turnOver.HasWaitingGroup := by
    rw [← State.groupWaits_iff, u.turnOver_noneWaits]
    decide
  obtain ⟨ladderCam, ladderRevq, ladderFetch⟩ :=
    State.ladderStep_idle noGroup u.endingStamp (u.cfg.judgeRevolution u.mcr.mark).1
      (by rw [fetch, cancelled_cancelled])
  have port := ladderCam.trans cam
  have trackingOn : u.turnOver.modc.mode.tracking = true := by rw [modc]; exact tracking
  rw [run, State.boundaryCount_turns tracking deficit stretch last]
  refine ⟨_, rfl, u.boundary_settled law, ladderRevq.trans revq, fun free => ?_, fun taken => ?_, ?_⟩
  · exact port.trans (by rw [if_pos (by exact free)]; rfl)
  · exact port.trans (by rw [if_neg (by exact taken)]; rfl)
  rcases u.turnOver.ladderStep_cases u.endingStamp (u.cfg.judgeRevolution u.mcr.mark).1 trackingOn with
    ⟨tracks, lfu, -, -⟩ | ⟨ended, noSlots, parked, noDeferred, -⟩
  · refine ⟨?_, ?_, ladderLate.trans late, fun _ => ?_, fun ended => ?_, ladderFetch.trans fetch⟩
    · rw [State.boundary, lfu]; exact empty
    · rw [State.boundary, lfu]; exact noStart
    · rw [State.boundary, lfu]; exact cursor
    · exact absurd (tracks.symm.trans ended) (by decide)
  · exact ⟨noSlots, noDeferred, ladderLate.trans late, fun tracks => absurd (ended.symm.trans tracks) (by decide),
      fun _ => parked, ladderFetch.trans fetch⟩

end Sys2Proof.Machine
end

section
/-! PROOFS. The output lines: the two changes of the interlock, the RESET pin held, the expiry of a pulse, and
APPLY_MANUAL. -/

namespace Sys2Proof.Machine

variable {s : State}

/-! ### The interlock -/

/-- The change of the interlock from CLOSED to OPEN, before the mode takes it: every line is claimed safe (R75). -/
def State.opened (s : State) : State :=
  { s with pins.enable := false, out := { s.out.claimAll s.cfg with interlock := .opened } }

/-- An opening that finds the interlock OPEN (log 5), and one that finds it CLOSED (R75). -/
theorem State.interlockOpens_opened (h : s.out.interlock = .opened) : s.interlockOpens = s := by
  rw [State.interlockOpens, h]

theorem State.interlockOpens_closed (h : s.out.interlock = .closed) :
    s.interlockOpens = if s.modc.mode.running then s.opened.raise .interlockOpen (.num 0) else s.opened := by
  rw [State.interlockOpens, h]
  rfl

/-- The opening moves the level of ENABLE, the interlock state and the lines, and nothing else. -/
theorem State.opened_keeps (s : State) :
    s.opened.pins = { s.pins with enable := false } ∧ s.opened.out.interlock = .opened
      ∧ s.opened.out.suppressed = s.out.suppressed ∧ s.sameBut [.pins, .out] s.opened := by
  refine ⟨by simp [State.opened], by simp [State.opened], by simp [State.opened],
    State.sameBut_of (fun p => ?_) (by simp [State.opened])⟩
  cases p <;> simp [State.agreesOn, State.opened]

/-- So it does not move what a raise is stamped with (R147). -/
theorem State.opened_stamp (s : State) : s.opened.stamp = s.placeNow := by
  rw [State.placeNow_eq]
  exact s.stamp_congr (by simp [State.opened]) (by simp [State.opened])

/-- A halt puts every line at its safe level wherever it finds it (R71), so it is the same halt from other lines. -/
theorem State.HaltedBy.of_lines {s' t : State} {c : Cause} {a : Stamp} {d : Detail} (h : s.HaltedBy c a d t)
    (same : s = { s' with out.lines := s.out.lines }) : s'.HaltedBy c a d t := by
  rw [same] at h
  exact h

/-- Settles O35: the claim on every line, and the raise in a running mode, which is the halt of a state whose lines have
not moved. -/
theorem interlockOpeningDropsTheLinesAndClosingMovesNone :
    Obligations.InterlockOpeningDropsTheLinesAndClosingMovesNone := by
  intro s held
  have run : exec .interlockOpening s = .next s.interlockOpens := exec_live _ s held
  rw [run]
  refine ⟨exec_live _ s held, fun already => ?_, fun closed idle => ?_, fun closed running none => ?_⟩
  · rw [State.interlockOpens_opened already]
  · rw [State.interlockOpens_closed closed, if_neg (by simp [idle])]
    obtain ⟨pins, interlock, suppressed, frame⟩ := s.opened_keeps
    exact ⟨s.opened, rfl, pins, interlock, suppressed, s.out.claimAll_lines s.cfg, frame⟩
  · rw [State.interlockOpens_closed closed, if_pos running, State.raise, State.opened_stamp]
    have noneYet : s.opened.NoneHalting := by simpa [State.NoneHalting, State.opened] using none
    have halts := s.opened.raiseAt_haltedBy s.placeNow .interlockOpen (.num 0) rfl noneYet
    exact ⟨_, rfl, s.opened.raiseAt_result _ _ _, halts.of_lines (by simp [State.opened])⟩

/-! ### The RESET pin held -/

/-- After a reset every line is at level 0 (R78). -/
theorem Out.reset_lines (interlock : Interlock) (i : LineNo) : (Out.reset interlock).lines[i] = .low :=
  Vector.getElem_ofFn ..

/-- INT is not driven while the pin is held (R161). -/
theorem State.intAsserted_held (h : s.resetHeld = true) : s.intAsserted = false := by
  simp [State.intAsserted, h]

/-- Settles O13: the part stands in its reset state, and every command but the three resets is not taken. -/
theorem resetPinHeldDropsTheLinesAndTakesNoCommand : Obligations.ResetPinHeldDropsTheLinesAndTakesNoCommand := by
  intro s
  refine ⟨⟨s.holdReset, exec_hardReset _ s rfl, rfl, Out.reset_lines _, State.intAsserted_held rfl, rfl, rfl, rfl, rfl,
    rfl, rfl⟩, fun held c command => ?_⟩
  rw [exec_eq_taken c s command, State.taken_held _ held]

/-! ### The expiry of a pulse -/

/-- An expiry on a line whose time has ended, and on any other line (R65, log 5). -/
theorem State.pulseExpires_ended {i : LineNo} (h : s.out.lines[i] = .pulsing 0) :
    s.pulseExpires i = { s with out := s.out.setLine i .low } := by
  unfold State.pulseExpires
  split
  case h_1 => rfl
  case h_2 running => exact absurd h running

theorem State.pulseExpires_other {i : LineNo} (h : s.out.lines[i] ≠ .pulsing 0) : s.pulseExpires i = s := by
  unfold State.pulseExpires
  split
  case h_1 ended => exact absurd ended h
  case h_2 => rfl

/-- Settles O36: the line's time has ended, or no expiry can arrive. -/
theorem pulseExpiryTakesThePulsingLineLow : Obligations.PulseExpiryTakesThePulsingLineLow := by
  intro s i held
  have run : exec (.pulseExpiry i) s = .next (s.pulseExpires i) := exec_live _ s held
  rw [run]
  refine ⟨fun ended => ?_, fun other => ?_⟩
  · rw [State.pulseExpires_ended ended]; rfl
  · rw [State.pulseExpires_other other]

/-! ### APPLY_MANUAL -/

/-- The lines at their manual levels, with no timer (R73). -/
def Cfg.manualLines (c : Cfg) : Vector LineState 16 := Vector.ofFn fun i => steady (c.manualLevels.getLsbD i)

theorem Cfg.manualLines_getElem (c : Cfg) (i : LineNo) :
    c.manualLines[i] = if c.manualLevels.getLsbD i then .high else .low :=
  Vector.getElem_ofFn ..

/-- Settles O37: the two refusals of R73 in their order, then the sixteen lines together. -/
theorem applyManualDrivesEveryLineInConfig : Obligations.ApplyManualDrivesEveryLineInConfig := by
  intro s held
  have run : exec .applyManual s = .next s.cmdApplyManual := exec_live _ s held
  rw [run, State.cmdApplyManual]
  refine ⟨fun mode => ?_, fun config opened => ?_, fun config closed => ⟨s.cfg.manualLines, ?_, s.cfg.manualLines_getElem⟩⟩
  · rw [if_pos mode]; rfl
  · rw [if_neg (by simp [config]), if_pos opened]; rfl
  · rw [if_neg (by simp [config]), if_neg (by simp [closed])]; rfl

end Sys2Proof.Machine
end

section
/-! PROOFS. Sensor edges that do not acquire, and POP_CAPTURE: the class of an edge, the judgement of the mark, and the
record that joins the capture queue or is discarded. -/

namespace Sys2Proof.Machine

variable {s : State} {n : SensorNo} {d : Edge}

/-! ### The class and the judgement -/

/-- The class of an edge in the words of the claims (R83, R89). -/
theorem State.classify_eq (s : State) (n : SensorNo) :
    s.classify n =
      if ¬(s.cfg.regEnable = true ∧ n = s.cfg.markSensor) then .plain
      else if ¬(s.cfg.winOpen.toNat ≤ s.axt.position ∧ s.axt.position ≤ s.cfg.winClose.toNat) then .outside
      else if s.mcr.mark.accepted.isSome then .extra else .accepted := by
  have unjudged : s.cfg.regEnable = false ∨ n ≠ s.cfg.markSensor
      ↔ ¬(s.cfg.regEnable = true ∧ n = s.cfg.markSensor) := by
    rw [Classical.not_and_iff_not_or_not, Bool.not_eq_true]
  have outside : s.cfg.inWindow s.axt.position = false
      ↔ ¬(s.cfg.winOpen.toNat ≤ s.axt.position ∧ s.axt.position ≤ s.cfg.winClose.toNat) := by
    rw [Cfg.inWindow, ← Bool.not_eq_true, Bool.and_eq_true, decide_eq_true_eq, decide_eq_true_eq]
  simp only [State.classify, unjudged, outside]

/-- No mark: an edge on another sensor, one with registration disabled, and one outside the window (R83). -/
theorem State.classify_unjudged (s : State)
    (other : n ≠ s.cfg.markSensor ∨ s.cfg.regEnable = false
      ∨ s.axt.position < s.cfg.winOpen.toNat ∨ s.cfg.winClose.toNat < s.axt.position) :
    s.classify n = .plain ∨ s.classify n = .outside := by
  rw [State.classify_eq]
  by_cases judged : s.cfg.regEnable = true ∧ n = s.cfg.markSensor
  · obtain ⟨enabled, sensor⟩ := judged
    have outside : ¬(s.cfg.winOpen.toNat ≤ s.axt.position ∧ s.axt.position ≤ s.cfg.winClose.toNat) := by
      rcases other with otherSensor | disabled | before | after
      · exact absurd sensor otherSensor
      · rw [enabled] at disabled; cases disabled
      · omega
      · omega
    exact .inr (by rw [if_neg fun h => h ⟨enabled, sensor⟩, if_pos outside])
  · exact .inl (if_pos judged)

/-- A judgement moves the mark state alone (R89). -/
theorem State.judgeMark_eq (s : State) (cls : CaptureClass) :
    s.judgeMark cls = { s with mcr.mark := (s.judgeMark cls).mcr.mark } := by
  cases cls <;> rfl

/-- In ACQUIRE the axis is not tracked (00_scope, Conventions). -/
theorem Mode.tracking_ne_acquire {m : Mode} (tracking : m.tracking = true) : m ≠ .acquire := by
  rintro rfl
  cases tracking

/-- The state in which an edge that does not acquire is recorded: in ACQUIRE there is no revolution to judge it in (R83,
R89). -/
def State.markJudged (s : State) (n : SensorNo) : State :=
  if s.modc.mode = .acquire then s else s.judgeMark (s.classify n)

theorem State.markJudged_acquire (n : SensorNo) (mode : s.modc.mode = .acquire) : s.markJudged n = s := if_pos mode

theorem State.markJudged_tracking (n : SensorNo) (tracking : s.modc.mode.tracking = true) :
    s.markJudged n = s.judgeMark (s.classify n) :=
  if_neg (Mode.tracking_ne_acquire tracking)

theorem State.markJudged_eq (s : State) (n : SensorNo) :
    s.markJudged n = { s with mcr.mark := (s.markJudged n).mcr.mark } := by
  unfold State.markJudged
  split
  · rfl
  · exact s.judgeMark_eq _

/-- A mark within the window is the accepted one, or counts as one more extra (R89). -/
theorem State.markJudged_mark (s : State) (tracking : s.modc.mode.tracking = true) (sensor : n = s.cfg.markSensor)
    (enabled : s.cfg.regEnable = true) (opens : s.cfg.winOpen.toNat ≤ s.axt.position)
    (closes : s.axt.position ≤ s.cfg.winClose.toNat) :
    (s.markJudged n).mcr.mark = match s.mcr.mark.accepted with
      | none => { s.mcr.mark with accepted := some ((s.axt.position : Int) - s.cfg.markNominal.toNat) }
      | some _ => { s.mcr.mark with extra := min 15 (s.mcr.mark.extra + 1) } := by
  rw [State.markJudged_tracking _ tracking, State.classify_eq, if_neg fun h => h ⟨enabled, sensor⟩,
    if_neg fun h => h ⟨opens, closes⟩]
  cases accepted : s.mcr.mark.accepted <;> rfl

/-- Any other edge leaves the mark state (R83, R89). -/
theorem State.markJudged_mark_kept (s : State)
    (other : s.modc.mode = .acquire ∨ n ≠ s.cfg.markSensor ∨ s.cfg.regEnable = false
      ∨ s.axt.position < s.cfg.winOpen.toNat ∨ s.cfg.winClose.toNat < s.axt.position) :
    (s.markJudged n).mcr.mark = s.mcr.mark := by
  unfold State.markJudged
  split
  case isTrue => rfl
  case isFalse notAcquire =>
    rcases s.classify_unjudged (other.resolve_left notAcquire) with cls | cls <;> rw [cls] <;> rfl

/-! ### Edges -/

/-- An edge that is not selected makes no event, and CONFIG and HALTED take none (R80, R81). -/
theorem State.edgeArrives_ignored
    (h : s.cfg.sensorSel[n].selects d = false ∨ s.modc.mode = .config ∨ s.modc.mode = .halted) :
    s.edgeArrives n d = s := by
  unfold State.edgeArrives
  split
  · rfl
  · rename_i selected
    rcases h with off | mode | mode
    · exact absurd off selected
    · rw [mode]
    · rw [mode]

/-- A selected edge that does not acquire is judged, and its record offered to the queue (R81 to R84). -/
theorem State.edgeArrives_records (selected : s.cfg.sensorSel[n].selects d = true)
    (running : s.modc.mode.running = true)
    (stays : ¬(s.modc.mode = .acquire ∧ s.cfg.acqSource = .mark ∧ n = s.cfg.markSensor)) :
    s.edgeArrives n d = (s.markJudged n).record ⟨n, d, s.stamp.position, s.stamp.revolution,
      if s.modc.mode = .acquire then .unphased else s.classify n⟩ := by
  rw [State.edgeArrives, if_neg (by rw [selected]; decide), State.markJudged]
  cases mode : s.modc.mode with
  | config => rw [mode] at running; cases running
  | halted => rw [mode] at running; cases running
  | acquire => exact if_neg fun acquires => stays ⟨mode, acquires⟩
  | locked => rfl
  | freewheel => rfl

/-- A record that finds room moves the queue and the flag CAPT alone (R84, R86). -/
theorem State.record_joins (r : CaptureRecord) (room : s.mcr.queue.length < 16) :
    s.record r = { s with
      mcr.queue := s.mcr.queue ++ [r]
      biu.flags := if s.mcr.queue = [] then s.biu.flags ||| 0x08 else s.biu.flags } := by
  unfold State.record
  rw [if_pos (show s.mcr.queue.length < Config.capturePlaces from room)]
  cases queue : s.mcr.queue <;> rfl

/-- Settles O31: an edge that is taken is judged, and its record finds room. -/
theorem sensorEdgeIsStampedClassedAndQueued : Obligations.SensorEdgeIsStampedClassedAndQueued := by
  intro s n d held selected p judged within cls mark flags
  have run : exec (.sensorEdge n d) s = .next (s.edgeArrives n d) := exec_live _ s held
  have selects : s.cfg.sensorSel[n].selects d = selected := by
    simp only [selected]
    generalize s.cfg.sensorSel[n] = sel
    cases sel <;> cases d <;> rfl
  have classed : s.classify n = cls := s.classify_eq n
  have marked : s.judgeMark cls = { s with mcr.mark := mark } := by
    simp only [mark]
    cases cls <;> rfl
  rw [run]
  refine ⟨fun ignored => ?_, fun taken mode stays room => ?_, fun taken tracking room => ?_⟩
  · rw [State.edgeArrives_ignored (by rwa [selects])]
  · have stamp : s.stamp = ⟨.acquire, wordOf s.axt.acqCount, 0⟩ := by rw [State.stamp, mode]
    rw [State.edgeArrives_records (selects.trans taken) (by rw [mode]; rfl) fun h => stays h.2,
      State.markJudged_acquire n mode, State.record_joins _ room, stamp, if_pos mode]
  · have notAcquire := Mode.tracking_ne_acquire tracking
    rw [State.edgeArrives_records (selects.trans taken) (Mode.tracking_running tracking) fun h => notAcquire h.1,
      State.markJudged_tracking n tracking, State.stamp_tracking tracking, if_neg notAcquire, classed, marked,
      State.record_joins _ (by exact room)]

/-- Settles O32: the edge is judged first, which moves the mark state to `m`, and then its record is discarded and
counted. -/
theorem sensorEdgeOnAFullQueueIsCountedAndJudged : Obligations.SensorEdgeOnAFullQueueIsCountedAndJudged := by
  intro s n d held taken full running stays count
  have run : exec (.sensorEdge n d) s = .next (s.edgeArrives n d) := exec_live _ s held
  have judged := s.markJudged_eq n
  have inWindow := s.markJudged_mark (n := n)
  have kept := s.markJudged_mark_kept (n := n)
  rw [run, State.edgeArrives_records ((EdgeSel.selects_iff _ _).mpr taken) running stays]
  generalize (s.markJudged n).mcr.mark = m at judged inWindow kept
  rw [judged]
  obtain ⟨mcr, warned⟩ := ({ s with mcr.mark := m } : State).record_full
    ⟨n, d, s.stamp.position, s.stamp.revolution, if s.modc.mode = .acquire then .unphased else s.classify n⟩ (Nat.le_of_eq full.symm)
  have counted : (count : Int) = min 255 ((s.mcr.overflow : Int) + 1) := by omega
  refine ⟨_, rfl, by rw [mcr], ?_, ?_, ?_, by rw [warned.2], State.sameBut_of (fun p => ?_) (by simp)⟩
  · rw [mcr]; exact inWindow
  · rw [mcr]; exact kept
  · rw [counted, s.placeNow_eq]; exact warned.congr rfl rfl rfl rfl
  · cases p <;> simp [State.agreesOn]

/-! ### POP_CAPTURE -/

/-- Settles O34: the queue is empty, or has a head. -/
theorem popCaptureRemovesTheHead : Obligations.PopCaptureRemovesTheHead := by
  intro s held
  have run : exec .popCapture s = .next s.cmdPopCapture := exec_live _ s held
  rw [run, State.cmdPopCapture]
  refine ⟨fun empty => ?_, fun r rest queue => ?_⟩
  · rw [empty]; rfl
  · rw [queue]; rfl

end Sys2Proof.Machine
end

section
/-! PROOFS. The commands of the revision queue: the three SUBMITs and the form of the staging record, COMMIT,
DISCARD_OPEN and RAISE_LOCK; and the warning for a group still in application where its revolution's guard zone ends. -/

namespace Sys2Proof.Machine

variable {s : State} {st : Staging}

/-! ### COMMIT_OVERRUN -/

/-- Where no slot is due, a firing evaluation does nothing (R50). -/
theorem State.evaluate_idle (h : ∀ x ∈ s.lfu.window, x.due s.axt.hwm = false) : s.evaluate = s := by
  have noneDue : s.lfu.window.filter (Slot.due s.axt.hwm) = [] :=
    List.filter_eq_nil_iff.mpr fun x hx => by simp [h x hx]
  have allStay : (s.lfu.window.filter fun x => !x.due s.axt.hwm) = s.lfu.window :=
    List.filter_eq_self.mpr fun x hx => by simp [h x hx]
  rw [State.evaluate, noneDue, allStay]
  rfl

/-- An advance at which no slot is due raises the overrun alone, and leaves the queue, the window and the lines (R114). -/
theorem State.hwmAdvanced_idle (h : ∀ x ∈ s.lfu.window, x.due s.axt.hwm = false) :
    s.WarnedInTurn (s.overrunRaises s.axt.hwm) s.stamp s.hwmAdvanced
      ∧ s.hwmAdvanced.revq = s.revq ∧ s.hwmAdvanced.lfu.window = s.lfu.window ∧ s.hwmAdvanced.out = s.out := by
  rw [State.hwmAdvanced, State.evaluate_idle h]
  exact ⟨s.watchOverrun_raises.congr rfl rfl (by simp) (by simp), by simp, by simp, by simp⟩

/-- What is raised where the group's application began at a boundary, and where none such ends at Z (R114). -/
theorem State.overrunRaises_applying {q : BitVec 8} {n : Nat} {rs : List Revision} {hwm : Nat}
    (group : s.revq.group = some ⟨q, .applying true n, rs⟩) (guardEnd : hwm = s.cfg.guardZone.toNat) :
    s.overrunRaises hwm = [(.commitOverrun, .num q.toNat)] := by
  rw [State.overrunRaises, group]
  exact if_pos guardEnd

theorem State.overrunRaises_none {hwm : Nat}
    (h : ∀ q n rs, s.revq.group = some ⟨q, .applying true n, rs⟩ → hwm ≠ s.cfg.guardZone.toNat) :
    s.overrunRaises hwm = [] := by
  unfold State.overrunRaises
  split
  · rename_i q n rs group
    exact if_neg (h q n rs group)
  · rfl

/-- Settles O20: the count is an advance at which no slot is due, so the overrun is all it can raise. -/
theorem highWaterAtTheGuardEndDuringAnApplicationWarns :
    Obligations.HighWaterAtTheGuardEndDuringAnApplicationWarns := by
  intro s held tracking deficit stretch below top beyond
  have run : exec .forwardCount s = .next s.forward := exec_live _ s held
  have noneDue : ∀ x ∈ s.climbed.lfu.window, x.due s.climbed.axt.hwm = false := by
    intro x inWindow
    have later := beyond x inWindow
    simp only [Slot.due, State.climbed, Bool.and_eq_false_iff, beq_eq_false_iff_ne]
    by_cases current : x.tag = .current
    · exact .inr (decide_eq_false (Nat.not_le.mpr (later current)))
    · exact .inl current
  obtain ⟨warned, revq, window, out⟩ := State.hwmAdvanced_idle noneDue
  have raised : s.WarnedInTurn (s.overrunRaises (s.axt.position + 1))
      ⟨s.modc.mode, wordOf (s.axt.position + 1), s.axt.revolution⟩ s.climbed.hwmAdvanced := by
    rw [State.stamp_tracking (by exact tracking)] at warned
    exact warned
  rw [run, State.forward_climbs tracking deficit stretch below top]
  refine ⟨fun q n rs group guardEnd => ⟨_, rfl, ?_, revq, window, out⟩,
    fun elsewhere => ⟨_, rfl, ?_, ?_, revq, window, out⟩⟩
  · rwa [State.overrunRaises_applying group guardEnd] at raised
  · rw [State.overrunRaises_none elsewhere] at raised
    exact congrArg Flt.mk raised.1
  · rw [State.overrunRaises_none elsewhere] at raised
    exact raised.2

/-! ### The form of the staging record -/

/-- The form checks of an INSERT or MODIFY but for the line (R101). -/
def Staging.InForm (st : Staging) : Prop :=
  st.action.toNat ≠ 3 ∧ ¬(st.action.toNat = 2 ∧ st.width = 0)
    ∧ st.periodCode.toNat ≤ 4 ∧ st.phase.toNat < 2 ^ st.periodCode.toNat

/-- Every action code but 3 stands for an action, PULSE with a width alone (R100, R101). -/
theorem Staging.actionOf_isSome (st : Staging) :
    st.actionOf.isSome = true ↔ st.action.toNat ≠ 3 ∧ ¬(st.action.toNat = 2 ∧ st.width = 0) := by
  have codes : st.action.toNat < 4 := st.action.isLt
  unfold Staging.actionOf
  split
  case h_1 code | h_2 code => simp [code]
  case h_3 code => by_cases width : st.width = 0 <;> simp [code, width]
  case h_4 notSet notClear notPulse =>
    change st.action.toNat ≠ 0 at notSet
    change st.action.toNat ≠ 1 at notClear
    change st.action.toNat ≠ 2 at notPulse
    have three : st.action.toNat = 3 := by omega
    simp [three]

/-- The actions by their codes; a PULSE has the staged width (R100, R102). -/
theorem Staging.actionOf_some {a : EntryAction} (h : st.actionOf = some a) :
    (st.action.toNat = 0 → a = .set) ∧ (st.action.toNat = 1 → a = .clear)
      ∧ (st.action.toNat = 2 → a = .pulse st.width) := by
  unfold Staging.actionOf at h
  split at h
  case h_1 code | h_2 code => cases h; simp [code]
  case h_3 code =>
    split at h
    · cases h
    · cases h; simp [code]
  case h_4 => cases h

/-- The period codes are those up to 4 (R100). -/
theorem periodOfCode_isSome (c : BitVec 3) : (periodOfCode c).isSome = true ↔ c.toNat ≤ 4 := by
  revert c
  decide

/-- A period code is the exponent of its period as a power of two (R1, R177). -/
theorem periodOfCode_some {c : BitVec 3} {p : Period} (h : periodOfCode c = some p) : p.value = 2 ^ c.toNat := by
  revert h c
  cases p <;> decide

/-- The staged record stands for an entry on a line exactly where it is in form (R101). -/
theorem Staging.entryOn_isSome (st : Staging) (line : LineNo) : (st.entryOn line).isSome = true ↔ st.InForm := by
  unfold Staging.InForm
  rw [← and_assoc, ← st.actionOf_isSome, ← periodOfCode_isSome, Staging.entryOn]
  cases action : st.actionOf with
  | none => simp
  | some a =>
    cases period : periodOfCode st.periodCode with
    | none => simp
    | some p => simp [periodOfCode_some period]

/-- That entry holds the staged fields, and a width only as a PULSE (R102). -/
theorem Staging.entryOn_some {line : LineNo} {e : Entry} (h : st.entryOn line = some e) :
    e.position = st.position ∧ e.line = line ∧ e.lead = st.lead ∧ e.period.value = 2 ^ st.periodCode.toNat
      ∧ e.phase = st.phase ∧ e.tag = st.tag ∧ st.actionOf = some e.action := by
  unfold Staging.entryOn at h
  split at h
  case h_1 a p action period =>
    split at h
    · cases h
      exact ⟨rfl, rfl, rfl, periodOfCode_some period, rfl, rfl, action⟩
    · cases h
  case h_2 => cases h

/-! ### The three SUBMITs -/

/-- A record on a line past 15 makes no revision (R101). -/
theorem Staging.revision_noLine {k : SubmitKind} (h : 16 ≤ st.line.toNat) : st.revision k = none :=
  dif_neg (Nat.not_lt.mpr h)

/-- On a line up to 15 the record makes the revision of its kind, where it stands for an entry; a REMOVE always (R101). -/
theorem Staging.revision_onLine {line : LineNo} (h : line.val = st.line.toNat) :
    st.revision .insert = (st.entryOn line).map .insert ∧ st.revision .modify = (st.entryOn line).map .modify
      ∧ st.revision .remove = some (.remove st.position line) := by
  have inRange : st.line.toNat < 16 := h ▸ line.isLt
  have same : (⟨st.line.toNat, inRange⟩ : LineNo) = line := Fin.ext h.symm
  simp [Staging.revision, inRange, same]

/-- An INSERT or MODIFY whose record is out of form makes no revision (R101). -/
theorem Staging.revision_outOfForm (h : ¬(st.line.toNat < 16 ∧ st.InForm)) :
    st.revision .insert = none ∧ st.revision .modify = none := by
  by_cases inRange : st.line.toNat < 16
  · obtain ⟨insert, modify, -⟩ := Staging.revision_onLine (st := st) (line := ⟨_, inRange⟩) rfl
    have noEntry : st.entryOn ⟨_, inRange⟩ = none := by
      rw [← Option.not_isSome_iff_eq_none, st.entryOn_isSome]
      exact fun form => h ⟨inRange, form⟩
    rw [insert, modify, noEntry]
    exact ⟨rfl, rfl⟩
  · have noLine := Nat.le_of_not_lt inRange
    exact ⟨revision_noLine noLine, revision_noLine noLine⟩

/-- One whose record is in form makes the revision of an entry with the staged fields (R102). -/
theorem Staging.revision_inForm (inRange : st.line.toNat < 16) (form : st.InForm) :
    ∃ e, st.revision .insert = some (.insert e) ∧ st.revision .modify = some (.modify e)
      ∧ st.entryOn ⟨st.line.toNat, inRange⟩ = some e := by
  obtain ⟨e, entry⟩ := Option.isSome_iff_exists.mp ((st.entryOn_isSome ⟨_, inRange⟩).mpr form)
  obtain ⟨insert, modify, -⟩ := Staging.revision_onLine (st := st) (line := ⟨_, inRange⟩) rfl
  exact ⟨e, by rw [insert, entry]; rfl, by rw [modify, entry]; rfl, entry⟩

/-- A SUBMIT on a full queue, one whose record makes no revision, and one that is queued (R101). -/
theorem State.submit_full (k : SubmitKind) (c : Command) (full : 16 ≤ s.revq.held) :
    s.submit k c = s.answer c .queueFull :=
  if_pos full

theorem State.submit_refused {k : SubmitKind} (c : Command) (room : s.revq.held < 16)
    (h : s.revq.staging.revision k = none) : s.submit k c = s.answer c .badArgument := by
  rw [State.submit, if_neg (show ¬Config.revisionPlaces ≤ s.revq.held from Nat.not_le.mpr room), h]

theorem State.submit_queued {k : SubmitKind} {r : Revision} (c : Command) (room : s.revq.held < 16)
    (h : s.revq.staging.revision k = some r) :
    s.submit k c = { s with revq.opens := s.revq.opens ++ [r] }.answer c .ok := by
  rw [State.submit, if_neg (show ¬Config.revisionPlaces ≤ s.revq.held from Nat.not_le.mpr room), h]

/-- Settles O43: the room in the queue, then the form of the record, then the revision that it makes. -/
theorem submitsQueueTheStagedRevision : Obligations.SubmitsQueueTheStagedRevision := by
  intro s released st held inForm
  have insert : exec .submitInsert s = .next (s.submit .insert .submitInsert) := exec_live _ s released
  have remove : exec .submitRemove s = .next (s.submit .remove .submitRemove) := exec_live _ s released
  have modify : exec .submitModify s = .next (s.submit .modify .submitModify) := exec_live _ s released
  have sameHeld : held = s.revq.held := rfl
  rw [insert, remove, modify, sameHeld]
  refine ⟨fun full => ?_, fun room outOfForm => ?_, fun room noLine => ?_, fun room form => ?_,
    fun room line sameLine => ?_⟩
  · rw [s.submit_full _ _ full, s.submit_full _ _ full, s.submit_full _ _ full]
    exact ⟨rfl, rfl, rfl⟩
  · obtain ⟨noInsert, noModify⟩ := st.revision_outOfForm outOfForm
    rw [s.submit_refused _ room noInsert, s.submit_refused _ room noModify]
    exact ⟨rfl, rfl⟩
  · rw [s.submit_refused _ room (Staging.revision_noLine noLine)]
    rfl
  · obtain ⟨inRange, form⟩ := form
    obtain ⟨e, inserts, modifies, entry⟩ := st.revision_inForm inRange form
    obtain ⟨position, line, lead, period, phase, tag, action⟩ := Staging.entryOn_some entry
    rw [s.submit_queued _ room inserts, s.submit_queued _ room modifies]
    exact ⟨e, rfl, rfl, position, congrArg Fin.val line, lead, period, phase, tag, Staging.actionOf_some action⟩
  · obtain ⟨-, -, removes⟩ := Staging.revision_onLine sameLine
    rw [s.submit_queued _ room removes]
    rfl

/-! ### COMMIT, DISCARD_OPEN and RAISE_LOCK -/

/-- A waiting group that begins its application gives a free port to it, and does nothing else (R8, R106, R108). -/
theorem State.beginApplication_waiting {q : BitVec 8} {rs : List Revision} (b : Bool)
    (group : s.revq.group = some ⟨q, .waiting, rs⟩) :
    s.beginApplication b = { s with
      revq.group := some ⟨q, .applying b 0, rs⟩
      cam.port := if s.cam.port = .free then .application else s.cam.port } := by
  rw [State.beginApplication, group]
  exact State.arbitrate_applying rfl

/-- The state in which the open revisions are the group with the next sequence, which waits (R104). -/
def State.grouped (s : State) : State :=
  { s with
    revq.group := some ⟨s.revq.nextSeq, .waiting, s.revq.opens⟩
    revq.opens := []
    revq.nextSeq := s.revq.nextSeq + 1 }

/-- Where no group stands in its way, a COMMIT of open revisions groups them; outside the tracking modes the group begins
(R104, R106). -/
theorem State.cmdCommit_groups (someOpen : s.revq.opens ≠ []) (noGroup : s.revq.group = none) :
    s.cmdCommit = (if s.modc.mode.tracking then s.grouped else s.grouped.beginApplication false).answer .commit .ok := by
  rw [State.cmdCommit, if_neg someOpen, if_neg (by simp [noGroup])]
  rfl

/-- Settles O44: the two refusals of R104 in their order, then the group, which waits or begins. -/
theorem commitMakesTheOpenRevisionsOneGroup : Obligations.CommitMakesTheOpenRevisionsOneGroup := by
  intro s held u
  have run : exec .commit s = .next s.cmdCommit := exec_live _ s held
  rw [run]
  refine ⟨fun noneOpen => ?_, fun someOpen busy => ?_, fun someOpen noGroup tracking => ?_,
    fun someOpen noGroup elsewhere => ?_⟩
  · rw [State.cmdCommit, if_pos noneOpen]; rfl
  · rw [State.cmdCommit, if_neg someOpen, if_pos (Option.isSome_iff_ne_none.mpr busy)]; rfl
  · rw [State.cmdCommit_groups someOpen noGroup, if_pos tracking]; rfl
  · rw [State.cmdCommit_groups someOpen noGroup, if_neg (Bool.eq_false_iff.mp elsewhere),
      s.grouped.beginApplication_waiting false rfl]
    rfl

/-- Settles O45: the command refuses nothing, so its dispatch is all there is to it. -/
theorem discardOpenRemovesEveryOpenRevision : Obligations.DiscardOpenRemovesEveryOpenRevision :=
  fun s held => exec_live _ s held

/-- Settles O46: an argument above 2, one below the level, and a level that is not lowered. -/
theorem raiseLockNeverLowersTheLevel : Obligations.RaiseLockNeverLowersTheLevel := by
  intro s held
  have run : exec .raiseLock s = .next s.cmdRaiseLock := exec_live _ s held
  rw [run, State.cmdRaiseLock]
  refine ⟨fun refused => ?_, fun level same notLower => ?_⟩
  · by_cases inRange : s.biu.arg.toNat < 3
    · have lower : s.biu.arg.toNat < s.revq.lock.val := by omega
      rw [dif_pos inRange, if_pos lower]; rfl
    · rw [dif_neg inRange]; rfl
  · have inRange : s.biu.arg.toNat < 3 := same ▸ level.isLt
    have sameLevel : (⟨s.biu.arg.toNat, inRange⟩ : Fin 3) = level := Fin.ext same.symm
    rw [dif_pos inRange, if_neg (by rw [← same]; exact Nat.not_lt.mpr notLower), sameLevel]
    rfl

end Sys2Proof.Machine
end

section
/-! PROOFS. The ladder at a boundary in one equation: the counters after a verdict, and the first of its moves that
applies (R132, R138 to R142). -/

namespace Sys2Proof.Machine

variable {s : State}

/-- The verdicts that count towards the bad run (R139). -/
@[reducible] def Verdict.IsBad (v : Verdict) : Prop := v = .missing ∨ v = .clipped

/-- The ladder's counters after a verdict, each at its top at most (R138 to R141). -/
def Modc.bad (m : Modc) : Nat := min 15 (m.badRun + 1)
def Modc.good (m : Modc) : Nat := min 31 (m.goodRun + 1)

/-- The bad run reaches HA: MARKS_LOST (R140). -/
@[reducible] def Modc.Loses (m : Modc) (c : Cfg) (v : Verdict) : Prop := v.IsBad ∧ c.ha.toNat ≤ m.bad

/-- The bad run reaches FWA in LOCKED: the ladder's move is to FREEWHEEL (R139). -/
@[reducible] def Modc.Falls (m : Modc) (c : Cfg) (v : Verdict) : Prop :=
  v.IsBad ∧ m.mode = .locked ∧ c.fwa.toNat ≤ m.bad

/-- The good run reaches RLA in FREEWHEEL: the ladder's move is to LOCKED (R139). -/
@[reducible] def Modc.Relocks (m : Modc) (c : Cfg) (v : Verdict) : Prop :=
  v = .good ∧ m.mode = .freewheel ∧ c.rla.toNat ≤ m.good

/-- MODC with its counters as the verdict leaves them (R139 to R141). -/
def Modc.counted (m : Modc) (c : Cfg) (v : Verdict) : Modc :=
  { m with
    badRun := if v = .none then m.badRun else if v.IsBad then m.bad else 0
    goodRun := if v = .none then m.goodRun else if v.IsBad then 0 else if m.Relocks c v then 0 else m.good }

theorem Modc.counted_bad {v : Verdict} (isBad : v.IsBad) (m : Modc) (c : Cfg) :
    m.counted c v = { m with badRun := m.bad, goodRun := 0 } := by
  rcases isBad with rfl | rfl <;> rfl

/-- The ladder counts the verdict, and calls for the first of its moves that applies. -/
theorem Modc.judge_eq (m : Modc) (c : Cfg) (v : Verdict) :
    m.judge c v = (m.counted c v,
      if m.Loses c v then .marksLost else if m.Falls c v then .toFreewheel
      else if m.Relocks c v then .toLocked else .stay) := by
  have bad (isBad : v.IsBad) (relocksNot : ¬m.Relocks c v) : (
      if c.ha.toNat ≤ m.bad then ({ m with badRun := m.bad, goodRun := 0 }, .marksLost)
      else if m.mode = .locked ∧ c.fwa.toNat ≤ m.bad then ({ m with badRun := m.bad, goodRun := 0 }, .toFreewheel)
      else ({ m with badRun := m.bad, goodRun := 0 }, LadderMove.stay)) = (m.counted c v,
        if m.Loses c v then .marksLost else if m.Falls c v then .toFreewheel
        else if m.Relocks c v then .toLocked else .stay) := by
    rw [Modc.counted_bad isBad]
    simp only [Modc.Loses, Modc.Falls, isBad, true_and, if_neg relocksNot]
    split
    · rfl
    · split <;> rfl
  cases v with
  | none => rfl
  | good =>
    by_cases relocks : m.Relocks c .good
    · rw [if_pos relocks, Modc.counted, if_pos relocks]
      exact if_pos relocks.2
    · rw [if_neg relocks, Modc.counted, if_neg relocks]
      exact if_neg fun h => relocks ⟨rfl, h⟩
  | clipped => exact bad (.inr rfl) nofun
  | missing => exact bad (.inl rfl) nofun

/-- At a boundary MODC counts the verdict; MARKS_LOST comes first, then a pending STOP, then the ladder's own move
(R132, R139 to R142). -/
theorem State.ladderStep_eq (s : State) (a : Stamp) (v : Verdict) :
    let t : State := { s with modc := s.modc.counted s.cfg v }
    s.ladderStep a v =
      if s.modc.Loses s.cfg v then t.raiseAt a .marksLost (.num s.modc.bad)
      else if s.modc.stopPending then t.enterConfig
      else if s.modc.Falls s.cfg v then t.enterFreewheel
      else if s.modc.Relocks s.cfg v then t.relock
      else t := by
  intro t
  rw [State.ladderStep, Modc.judge_eq]
  by_cases loses : s.modc.Loses s.cfg v
  · have bad : (s.modc.counted s.cfg v).badRun = s.modc.bad := by rw [Modc.counted_bad loses.1]
    rw [if_pos loses, if_pos loses]
    dsimp only
    rw [bad]
  · rw [if_neg loses, if_neg loses]
    by_cases falls : s.modc.Falls s.cfg v
    · rw [if_pos falls, if_pos falls]
      rfl
    · rw [if_neg falls, if_neg falls]
      by_cases relocks : s.modc.Relocks s.cfg v
      · rw [if_pos relocks, if_pos relocks]
        rfl
      · rw [if_neg relocks, if_neg relocks]
        rfl

end Sys2Proof.Machine
end

section
/-! PROOFS. The law of the ladder and the ranges of the queues and counts (R60, R77, R84, R87, R103, R138, R149): which
changes leave them alone, and what a raise, a mode entry, a firing, a record and a boundary do to them. -/

namespace Sys2Proof.Machine

variable {s t u : State}

/-! ### The two laws -/

/-- The law of the ladder, and the queues and counts within their ranges. -/
structure State.RangesLaw (s : State) : Prop where
  ladder : s.LadderLaw
  counts : s.CountsLaw

/-- Outside the running modes the law of the ladder speaks of the runs' ranges alone. -/
theorem State.LadderLaw.of_stopped (law : s.LadderLaw) (stopped : t.modc.mode.running = false)
    (bad : t.modc.badRun = s.modc.badRun) (good : t.modc.goodRun = s.modc.goodRun) : t.LadderLaw := by
  obtain ⟨badTop, goodTop, -, -⟩ := law
  refine ⟨bad ▸ badTop, good ▸ goodTop, fun running => ?_, fun locked => ?_⟩
  · exact absurd running (by simp [stopped])
  · rw [locked] at stopped
    cases stopped

/-- Counts and queues that have not grown, and records that were there before, are within their ranges still. -/
theorem State.CountsLaw.of_le (law : s.CountsLaw) (queue : t.mcr.queue.length ≤ s.mcr.queue.length)
    (held : t.revq.held ≤ s.revq.held) (overflow : t.mcr.overflow ≤ s.mcr.overflow) (late : t.lfu.late ≤ s.lfu.late)
    (unexamined : t.lfu.unexamined ≤ s.lfu.unexamined) (suppressed : t.out.suppressed ≤ s.out.suppressed)
    (causes : t.flt.causes ⊆ s.flt.causes) : t.CountsLaw := by
  obtain ⟨queueTop, heldTop, overflowTop, lateTop, unexaminedTop, suppressedTop, repeatsTop⟩ := law
  exact ⟨Nat.le_trans queue queueTop, Nat.le_trans held heldTop, Nat.le_trans overflow overflowTop,
    Nat.le_trans late lateTop, Nat.le_trans unexamined unexaminedTop, Nat.le_trans suppressed suppressedTop,
    fun r hr => repeatsTop r (causes hr)⟩

/-- What the law of the counts reads. -/
def State.tally (s : State) : List CaptureRecord × Nat × Nat × Nat × Nat × Nat × List FaultRecord :=
  (s.mcr.queue, s.revq.held, s.mcr.overflow, s.lfu.late, s.lfu.unexamined, s.out.suppressed, s.flt.causes)

theorem State.CountsLaw.congr (law : s.CountsLaw) (same : t.tally = s.tally) : t.CountsLaw := by
  simp only [State.tally, Prod.mk.injEq] at same
  obtain ⟨queue, held, overflow, late, unexamined, suppressed, causes⟩ := same
  exact law.of_le (Nat.le_of_eq (congrArg List.length queue)) (Nat.le_of_eq held) (Nat.le_of_eq overflow)
    (Nat.le_of_eq late) (Nat.le_of_eq unexamined) (Nat.le_of_eq suppressed) (by rw [causes]; exact fun _ => id)

/-! ### The changes that leave the ladder alone -/

/-- From `s` to `t` the ladder's runs and limits stand, a run may end, and the counts stay in their ranges. -/
structure State.KeepsRanges (s t : State) : Prop where
  badRun : t.modc.badRun = s.modc.badRun
  goodRun : t.modc.goodRun = s.modc.goodRun
  fwa : t.cfg.fwa = s.cfg.fwa
  regEnable : t.cfg.regEnable = s.cfg.regEnable
  mode : t.modc.mode = s.modc.mode ∨ t.modc.mode.running = false
  counts : s.CountsLaw → t.CountsLaw

/-- A change that leaves MODC and the configuration. -/
theorem State.KeepsRanges.of_modc (modc : t.modc = s.modc) (cfg : t.cfg = s.cfg) (counts : s.CountsLaw → t.CountsLaw) :
    s.KeepsRanges t where
  badRun := by rw [modc]
  goodRun := by rw [modc]
  fwa := by rw [cfg]
  regEnable := by rw [cfg]
  mode := .inl (by rw [modc])
  counts := counts

/-- A change that leaves all that the laws read. -/
theorem State.KeepsRanges.of_same (modc : t.modc = s.modc) (cfg : t.cfg = s.cfg) (tally : t.tally = s.tally) :
    s.KeepsRanges t :=
  .of_modc modc cfg fun law => law.congr tally

theorem State.KeepsRanges.refl (s : State) : s.KeepsRanges s := .of_same rfl rfl rfl

theorem State.KeepsRanges.trans (h : s.KeepsRanges t) (h' : t.KeepsRanges u) : s.KeepsRanges u where
  badRun := h'.badRun.trans h.badRun
  goodRun := h'.goodRun.trans h.goodRun
  fwa := h'.fwa.trans h.fwa
  regEnable := h'.regEnable.trans h.regEnable
  mode := by
    rcases h'.mode with same | ended
    · rw [same]; exact h.mode
    · exact .inr ended
  counts law := h'.counts (h.counts law)

theorem State.RangesLaw.keep (law : s.RangesLaw) (h : s.KeepsRanges t) : t.RangesLaw := by
  refine ⟨?_, h.counts law.counts⟩
  rcases h.mode with same | ended
  · obtain ⟨bad, good, limit, below⟩ := law.ladder
    exact ⟨h.badRun ▸ bad, h.goodRun ▸ good, fun running => h.fwa ▸ limit (same ▸ running),
      fun locked enabled => by
        rw [h.badRun, h.fwa]; exact below (same ▸ locked) (h.regEnable ▸ enabled)⟩
  · exact law.ladder.of_stopped ended h.badRun h.goodRun

/-! ### The revision queue -/

/-- An entry into HALTED that abandons a group leaves no more revisions in the queue (R115). -/
theorem State.abandonWaiting_held (s : State) : s.abandonWaiting.revq.held ≤ s.revq.held := by
  unfold State.abandonWaiting
  split
  · rename_i group
    simp [Revq.held, group]
  · exact Nat.le_refl _

/-- An application that begins leaves the revisions in the queue (R106). -/
theorem State.beginApplication_held (s : State) (b : Bool) : (s.beginApplication b).revq.held = s.revq.held := by
  rw [State.beginApplication_revq, Revq.held, Revq.held]
  cases s.revq.group with
  | none => rfl
  | some g =>
    obtain ⟨q, phase, rs⟩ := g
    cases phase <;> rfl

/-! ### Mode entries and raises -/

theorem State.enterHalted_keepsRanges (s : State) (r : HaltReason) : s.KeepsRanges (s.enterHalted r) where
  badRun := by simp
  goodRun := by simp
  fwa := by simp
  regEnable := by simp
  mode := .inr (by simp [Mode.running])
  counts law := by
    have held : (s.enterHalted r).revq.held ≤ s.revq.held := by
      unfold State.enterHalted
      exact State.abandonWaiting_held _
    exact law.of_le (by simp) held (by simp) (by simp) (by simp) (by simp) (by simp)

theorem State.enterConfig_keepsRanges (s : State) : s.KeepsRanges s.enterConfig where
  badRun := by simp
  goodRun := by simp
  fwa := by simp
  regEnable := by simp
  mode := .inr (by simp [Mode.running])
  counts law := by
    have held : s.enterConfig.revq.held = s.revq.held := by
      simp [State.enterConfig, State.beginApplication_held]
    exact law.congr (by simp [State.tally, held])

/-- A record that joins the pending set has no repeats, and one that repeats has 255 at most (R148, R149). -/
theorem State.raiseAt_keepsRanges (s : State) (a : Stamp) (c : Cause) (d : Detail) : s.KeepsRanges (s.raiseAt a c d) := by
  cases pending : isPending c s.flt.causes with
  | true =>
    rw [s.raiseAt_repeat a c d pending]
    refine .of_modc rfl rfl fun law => ?_
    obtain ⟨queue, held, overflow, late, unexamined, suppressed, repeats⟩ := law
    refine ⟨queue, held, overflow, late, unexamined, suppressed, fun r hr => ?_⟩
    obtain ⟨x, hx, rfl⟩ := List.mem_map.mp hr
    split
    · exact Nat.min_le_left _ _
    · exact repeats x hx
  | false =>
    let joined : State :=
      { s with flt.causes := addCause ⟨c, 0, a.mode, a.position, a.revolution, d⟩ s.flt.causes }.setFlag .fault
    have joins : s.KeepsRanges joined := by
      refine .of_modc rfl rfl fun law => ?_
      obtain ⟨queue, held, overflow, late, unexamined, suppressed, repeats⟩ := law
      refine ⟨queue, held, overflow, late, unexamined, suppressed, fun r hr => ?_⟩
      rcases (mem_addCause _ _ _).mp hr with rfl | old
      · exact Nat.zero_le _
      · exact repeats r old
    cases halting : c.halting with
    | true =>
      rw [s.raiseAt_halts a c d pending halting]
      exact joins.trans (joined.enterHalted_keepsRanges _)
    | false =>
      have warns : s.raiseAt a c d = joined := by simp [State.raiseAt, pending, halting, joined]
      rw [warns]
      exact joins

theorem State.KeepsRanges.raise (h : s.KeepsRanges t) (c : Cause) (d : Detail) : s.KeepsRanges (t.raise c d) :=
  h.trans (t.raiseAt_keepsRanges _ c d)

/-! ### The port -/

theorem State.arbitrate_keepsRanges (s : State) : s.KeepsRanges s.arbitrate :=
  .of_same (by simp) (by simp) (by simp [State.tally])

theorem State.requestFetch_keepsRanges (s : State) : s.KeepsRanges s.requestFetch :=
  .of_same (by simp) (by simp) (by simp [State.tally])

/-! ### Firing -/

/-- A firing counts what it hands over late and what OUT turns away, up to the top (R52, R60, R77). -/
theorem State.fireSlot_keepsRanges (s : State) (x : Slot) : s.KeepsRanges (s.fireSlot x) := by
  have acted (t : State) : t.KeepsRanges (t.act x.entry.line x.entry.action) := by
    refine .of_modc (by simp) (by simp) fun law => ?_
    obtain ⟨queue, held, overflow, late, unexamined, suppressed, repeats⟩ := law
    refine ⟨by simpa, by simpa, by simpa, by simpa, by simpa, ?_, by simpa⟩
    rw [State.act_suppressed]
    split
    · exact Nat.min_le_left _ _
    · exact suppressed
  unfold State.fireSlot
  refine .trans ?_ (acted _)
  split
  · refine .raise ?_ _ _
    refine .of_modc rfl rfl fun law => ?_
    obtain ⟨queue, held, overflow, -, unexamined, suppressed, repeats⟩ := law
    exact ⟨queue, held, overflow, Nat.min_le_left _ _, unexamined, suppressed, repeats⟩
  · exact .refl s

theorem fireSlots_keepRanges (l : List Slot) (s : State) : s.KeepsRanges (l.foldl State.fireSlot s) := by
  induction l generalizing s with
  | nil => exact .refl s
  | cons x xs ih => exact (s.fireSlot_keepsRanges x).trans (ih _)

theorem State.evaluate_keepsRanges (s : State) : s.KeepsRanges s.evaluate := by
  unfold State.evaluate
  refine .trans ?_ (fireSlots_keepRanges _ _)
  exact .of_same rfl rfl rfl

theorem State.raiseClamp_keepsRanges (s : State) (e : Entry) : s.KeepsRanges (s.raiseClamp e) := by
  unfold State.raiseClamp
  split
  · exact .raise (.refl s) _ _
  · exact .refl s

theorem raiseClamps_keepRanges (l : List Slot) (s : State) :
    s.KeepsRanges (l.foldl (fun (t : State) (x : Slot) => t.raiseClamp x.entry) s) := by
  induction l generalizing s with
  | nil => exact .refl s
  | cons x xs ih => exact (s.raiseClamp_keepsRanges x.entry).trans (ih _)

theorem State.watchOverrun_keepsRanges (s : State) : s.KeepsRanges s.watchOverrun := by
  unfold State.watchOverrun
  split
  · split
    · exact .raise (.refl s) _ _
    · exact .refl s
  · exact .refl s

theorem State.hwmAdvanced_keepsRanges (s : State) : s.KeepsRanges s.hwmAdvanced :=
  (s.evaluate_keepsRanges.trans (State.watchOverrun_keepsRanges _)).trans (State.requestFetch_keepsRanges _)

theorem State.recompute_keepsRanges (s : State) : s.KeepsRanges s.recompute := by
  unfold State.recompute
  split
  · refine .trans (.trans (.trans ?_ (raiseClamps_keepRanges _ _)) (State.evaluate_keepsRanges _))
      (State.requestFetch_keepsRanges _)
    exact .of_same rfl rfl rfl
  · exact .refl s

/-! ### Fetches, read-backs and applications -/

theorem State.load_keepsRanges (s : State) (e : Entry) (f : Fetch) : s.KeepsRanges (s.load e f) := by
  have tailed : s.KeepsRanges (s.tailed e f) := .of_same rfl rfl rfl
  have loaded := tailed.trans (State.raiseClamp_keepsRanges _ e)
  unfold State.load
  split
  · exact loaded.trans (State.evaluate_keepsRanges _)
  · exact loaded

theorem State.examine_keepsRanges (s : State) (e : Option Entry) (f : Fetch) : s.KeepsRanges (s.examine e f) := by
  unfold State.examine
  cases e with
  | none => exact .of_same rfl rfl rfl
  | some e =>
    dsimp only
    split
    · exact (s.load_keepsRanges e f).trans (.of_same rfl rfl rfl)
    · exact .of_same rfl rfl rfl

theorem State.fetchCompletes_keepsRanges (s : State) : s.KeepsRanges s.fetchCompletes := by
  unfold State.fetchCompletes
  split
  · refine .trans ?_ (State.requestFetch_keepsRanges _)
    dsimp only
    split
    · refine .trans ?_ (State.examine_keepsRanges _ _ _)
      exact .of_same rfl rfl rfl
    · exact .of_same rfl rfl rfl
    · exact .of_same rfl rfl rfl
  · exact .refl s

theorem State.readbackCompletes_keepsRanges (s : State) : s.KeepsRanges s.readbackCompletes := by
  unfold State.readbackCompletes
  split
  · refine .trans ?_ (State.arbitrate_keepsRanges _)
    exact .of_same rfl rfl rfl
  · exact .refl s

/-- An application that completes takes its group out of the queue (R111). -/
theorem State.applicationCompletes_keepsRanges (s : State) : s.KeepsRanges s.applicationCompletes := by
  unfold State.applicationCompletes
  split
  · rename_i group _
    refine .of_modc (by simp) (by simp) fun law => law.of_le (by simp) ?_ (by simp) (by simp) (by simp) (by simp) (by simp)
    simp [Revq.held, group]
  · exact .refl s

/-! ### Records -/

/-- A record joins where the capture queue has room, and is counted up to the top where it has none (R84, R87). -/
theorem State.record_keepsRanges (s : State) (r : CaptureRecord) : s.KeepsRanges (s.record r) := by
  unfold State.record
  split
  · rename_i room
    have joined : s.KeepsRanges { s with mcr.queue := s.mcr.queue ++ [r] } := by
      refine .of_modc rfl rfl fun law => ?_
      obtain ⟨-, held, overflow, late, unexamined, suppressed, repeats⟩ := law
      refine ⟨?_, held, overflow, late, unexamined, suppressed, repeats⟩
      rw [List.length_append]
      exact room
    dsimp only
    split
    · exact joined.trans (.of_same rfl rfl rfl)
    · exact joined
  · refine .raise ?_ _ _
    refine .of_modc rfl rfl fun law => ?_
    obtain ⟨queue, held, -, late, unexamined, suppressed, repeats⟩ := law
    exact ⟨queue, held, Nat.min_le_left _ _, late, unexamined, suppressed, repeats⟩

/-! ### The boundary -/

/-- The turn-over counts what was left unread, up to the top, and may begin a group (R53, R60, R106). -/
theorem State.turnOver_keepsRanges (s : State) : s.KeepsRanges s.turnOver := by
  have settles (t : State) (a : Stamp) : t.KeepsRanges (t.settleAccount a) := by
    unfold State.settleAccount
    split
    · exact .refl t
    · refine .trans ?_ (State.raiseAt_keepsRanges _ _ _ _)
      refine .of_modc rfl rfl fun law => ?_
      obtain ⟨queue, held, overflow, late, -, suppressed, repeats⟩ := law
      exact ⟨queue, held, overflow, late, Nat.min_le_left _ _, suppressed, repeats⟩
  let judged : State := { s with mcr := s.mcr.publish s.cfg, lfu := s.lfu.cancelFetch }
  have judges : s.KeepsRanges judged := .of_same rfl rfl rfl
  have turns : (judged.settleAccount s.endingStamp).KeepsRanges s.turned := .of_same rfl rfl rfl
  refine ((judges.trans (settles _ _)).trans turns).trans ?_
  have rest : s.turnOver = ((s.turned.rollWindow s.groupWaits).beginApplication true).requestFetch := rfl
  rw [rest]
  exact .of_same (by simp) (by simp) (by simp [State.tally, State.beginApplication_held])

end Sys2Proof.Machine
end

section
/-! PROOFS. The law of the ladder and the ranges of the counts at a boundary, an acquisition and a START, under every other
command, and under every step (R60, R77, R84, R87, R103, R138, R149). -/

namespace Sys2Proof.Machine

variable {s t : State}

/-! ### The boundary -/

/-- Without a verdict registration is not enabled (R92). -/
theorem Cfg.verdictFor_none {c : Cfg} {m : MarkState} (h : c.verdictFor m = .none) : c.regEnable = false := by
  unfold Cfg.verdictFor at h
  split at h
  · assumption
  · cases h
  · split at h <;> cases h

/-- The turn-over raises no MARKS_LOST (R53, R142). -/
theorem State.turnOver_notLost (h : isPending .marksLost s.flt.causes = false) :
    isPending .marksLost s.turnOver.flt.causes = false := by
  have settles (t : State) (a : Stamp) : isPending .marksLost (t.settleAccount a).flt.causes
      = isPending .marksLost t.flt.causes := by
    unfold State.settleAccount
    split
    · rfl
    · rw [State.raiseAt_pending _ _ _ _ _ rfl]
      exact Bool.or_false _
  have turned : s.turnOver.flt
      = (({ s with mcr := s.mcr.publish s.cfg, lfu := s.lfu.cancelFetch } : State).settleAccount s.endingStamp).flt := by
    simp [State.turnOver]
  rw [turned, settles]
  exact h

/-- A verdict leaves the runs within their ranges (R138). -/
theorem State.LadderLaw.runs (law : s.LadderLaw) (c : Cfg) (v : Verdict) :
    (s.modc.counted c v).badRun ≤ 15 ∧ (s.modc.counted c v).goodRun ≤ 31 := by
  obtain ⟨bad, good, -, -⟩ := law
  have badTop : s.modc.bad ≤ 15 := Nat.min_le_left _ _
  have goodTop : s.modc.good ≤ 31 := Nat.min_le_left _ _
  unfold Modc.counted
  constructor
  · dsimp only
    split
    · exact bad
    · split
      · exact badTop
      · exact Nat.zero_le _
  · dsimp only
    split
    · exact good
    · split
      · exact Nat.zero_le _
      · split
        · exact Nat.zero_le _
        · exact goodTop

/-- The ladder keeps its law: in LOCKED a bad run that reaches FWA ends that mode, and a return to LOCKED begins with no
bad run (R138 to R141). -/
theorem State.ladderStep_ranges (law : s.RangesLaw) (tracking : s.modc.mode.tracking = true) (a : Stamp) {v : Verdict}
    (disabled : v = .none → s.cfg.regEnable = false) (notLost : isPending .marksLost s.flt.causes = false) :
    (s.ladderStep a v).RangesLaw := by
  obtain ⟨bad, good⟩ := law.ladder.runs s.cfg v
  obtain ⟨-, -, limit, below⟩ := law.ladder
  have limit := limit (Mode.tracking_running tracking)
  let counted : State := { s with modc := s.modc.counted s.cfg v }
  have counts (t : State) (same : t.tally = s.tally) : t.CountsLaw := law.counts.congr same
  have ended (t : State) (h : counted.KeepsRanges t) (stopped : t.modc.mode.running = false) : t.RangesLaw := by
    refine ⟨⟨?_, ?_, fun running => ?_, fun locked => ?_⟩, h.counts (counts counted rfl)⟩
    · rw [h.badRun]; exact bad
    · rw [h.goodRun]; exact good
    · exact absurd running (by simp [stopped])
    · rw [locked] at stopped; cases stopped
  rw [State.ladderStep_eq]
  split
  · refine ended _ (counted.raiseAt_keepsRanges _ _ _) ?_
    rw [counted.raiseAt_halts _ _ _ notLost rfl]
    simp [Mode.running]
  · split
    · exact ended _ counted.enterConfig_keepsRanges (by simp [Mode.running])
    · split
      · exact ⟨⟨bad, good, fun _ => limit, fun locked => by cases locked⟩, counts _ (by simp [State.tally])⟩
      · rename_i fallsNot
        split
        · rename_i relocks
          have noBad : (s.modc.counted s.cfg v).badRun = 0 := by rw [relocks.1]; rfl
          refine ⟨⟨bad, good, fun _ => limit, fun _ _ => ?_⟩, counts _ rfl⟩
          show (s.modc.counted s.cfg v).badRun < _
          rw [noBad]
          exact limit
        · refine ⟨⟨bad, good, fun _ => limit, fun locked enabled => ?_⟩, counts counted rfl⟩
          show (s.modc.counted s.cfg v).badRun < _
          by_cases isBad : v.IsBad
          · rw [Modc.counted_bad isBad]
            exact Nat.lt_of_not_le fun reached => fallsNot ⟨isBad, locked, reached⟩
          · cases v with
            | none => rw [disabled rfl] at enabled; cases enabled
            | good => exact limit
            | clipped => exact absurd (.inr rfl) isBad
            | missing => exact absurd (.inl rfl) isBad

/-- A boundary keeps both laws, where no halting cause is pending. -/
theorem State.boundary_ranges (law : s.RangesLaw) (tracking : s.modc.mode.tracking = true) (none : s.NoneHalting) :
    s.boundary.RangesLaw := by
  obtain ⟨cfg, -, modc, -⟩ := s.turnOver_keeps
  refine State.ladderStep_ranges (law.keep s.turnOver_keepsRanges) (by rw [modc]; exact tracking) _ (fun noVerdict => ?_)
    (State.turnOver_notLost (none.notPending .marksLost rfl))
  rw [cfg]
  exact Cfg.verdictFor_none (s.cfg.judgeRevolution_verdict _ ▸ noVerdict)

/-! ### Counts -/

theorem State.counted_keepsRanges (s : State) (l : EncLevels) (d : Int) :
    s.KeepsRanges ((s.acceptLevels l).counted d) :=
  .of_same (by simp) (by simp) (by simp [State.tally])

theorem State.advance_ranges (law : s.RangesLaw) (tracking : s.modc.mode.tracking = true) (none : s.NoneHalting) :
    s.advance.RangesLaw := by
  have moved (a : Axt) : s.KeepsRanges { s with axt := a } := .of_same rfl rfl rfl
  unfold State.advance
  dsimp only
  split
  · exact law.keep (moved _)
  · split
    · exact law.keep (moved _)
    · split
      · split
        · exact law.keep ((moved _).trans (State.hwmAdvanced_keepsRanges _))
        · exact law.keep (moved _)
      · exact State.boundary_ranges law tracking none

theorem State.acquireCount_keepsRanges (s : State) : s.KeepsRanges s.acquireCount := by
  have counted : s.KeepsRanges { s with axt.acqCount := s.axt.acqCount + 1 } := .of_same rfl rfl rfl
  unfold State.acquireCount
  dsimp only
  split
  · exact counted.raise _ _
  · exact counted

theorem State.forward_ranges (law : s.RangesLaw) (pending : s.PendingLaw) : s.forward.RangesLaw := by
  have counted : s.KeepsRanges s.countedForward := s.counted_keepsRanges _ _
  cases mode : s.modc.mode with
  | config => rw [State.forward_idle (.inl mode)]; exact law.keep counted
  | halted => rw [State.forward_idle (.inr mode)]; exact law.keep counted
  | acquire =>
    rw [State.forward_acquire mode]
    exact law.keep (counted.trans s.countedForward.acquireCount_keepsRanges)
  | locked | freewheel =>
    have tracking : s.modc.mode.tracking = true := by rw [mode]; rfl
    rw [State.forward_tracking tracking]
    exact State.advance_ranges (law.keep counted) tracking (pending.noneHalting tracking)

theorem State.backward_keepsRanges (s : State) : s.KeepsRanges s.backward := by
  have counted : s.KeepsRanges s.countedBackward := s.counted_keepsRanges _ _
  have given (t : State) : t.KeepsRanges t.retreated := .of_same rfl rfl rfl
  cases tracking : s.modc.mode.tracking with
  | false => rw [State.backward_idle tracking]; exact counted
  | true =>
    rw [State.backward_tracking tracking, State.retreat_eq]
    split
    · exact (counted.trans (given _)).raise _ _
    · exact counted.trans (given _)

theorem State.invalidChange_keepsRanges (s : State) : s.KeepsRanges s.invalidChange := by
  have accepted (l : EncLevels) : s.KeepsRanges (s.acceptLevels l) := .of_same rfl rfl rfl
  unfold State.invalidChange
  split
  · exact .refl s
  · dsimp only
    split
    · exact (accepted _).raise _ _
    · exact accepted _

/-! ### The speed window, the interlock and the index -/

theorem State.speedExpires_keepsRanges (s : State) : s.KeepsRanges s.speedExpires := by
  have published : s.KeepsRanges s.published := .of_same rfl rfl rfl
  unfold State.speedExpires
  dsimp only
  split
  · exact (published.raise _ _).trans (State.recompute_keepsRanges _)
  · exact published.trans (State.recompute_keepsRanges _)

theorem State.interlockOpens_keepsRanges (s : State) : s.KeepsRanges s.interlockOpens := by
  have opened : s.KeepsRanges s.opened :=
    .of_same (by simp [State.opened]) (by simp [State.opened]) (by simp [State.opened, State.tally])
  cases closed : s.out.interlock with
  | opened => rw [State.interlockOpens_opened closed]; exact .refl s
  | closed =>
    rw [State.interlockOpens_closed closed]
    split
    · exact opened.raise _ _
    · exact opened

theorem State.endInterval_keepsRanges (s : State) : s.KeepsRanges s.endInterval := by
  have published (slip : Int) : s.KeepsRanges { s with axt.lastSlip := slip, axt.mech := 0 } := .of_same rfl rfl rfl
  unfold State.endInterval
  dsimp only
  split
  · exact (published _).raise _ _
  · exact published _

/-- An acquisition in a running mode begins with no runs, and FWA is above 0 there (R128, R138). -/
theorem State.acquire_ranges (law : s.RangesLaw) (running : s.modc.mode.running = true) (p : Nat) (b : Bool) :
    (s.acquire p b).RangesLaw := by
  obtain ⟨-, -, limit, -⟩ := law.ladder
  refine ⟨?_, law.counts.congr (by simp [State.tally])⟩
  unfold State.LadderLaw
  simp [limit running]

theorem State.indexArrives_ranges (law : s.RangesLaw) : s.indexArrives.RangesLaw := by
  unfold State.indexArrives
  split
  case h_1 | h_2 => exact law
  case h_3 mode =>
    split
    · exact State.acquire_ranges law (by rw [mode]; rfl) _ _
    · exact law
    · exact law
  case h_4 | h_5 =>
    split
    · exact law
    · split
      · exact law.keep s.endInterval_keepsRanges
      · exact law.keep (.of_same rfl rfl rfl)

theorem State.edgeArrives_ranges (law : s.RangesLaw) (n : SensorNo) (d : Edge) : (s.edgeArrives n d).RangesLaw := by
  unfold State.edgeArrives
  split
  · exact law
  · split
    case h_1 | h_2 => exact law
    case h_3 mode =>
      split
      · have acquired := State.acquire_ranges law (by rw [mode]; rfl) s.cfg.markNominal.toNat false
        have marked : s.markAcquired.RangesLaw := acquired.keep (.of_same rfl rfl rfl)
        exact marked.keep (State.record_keepsRanges _ _)
      · exact law.keep (s.record_keepsRanges _)
    case h_4 | h_5 =>
      have judged (cls : CaptureClass) : s.KeepsRanges (s.judgeMark cls) := by cases cls <;> exact .of_same rfl rfl rfl
      exact law.keep ((judged _).trans (State.record_keepsRanges _ _))

/-! ### The commands given by a strobe -/

/-- A reset leaves the runs and the counts at 0 and the queues empty. -/
theorem State.RangesLaw.of_reset (modc : t.modc = Modc.reset) (tally : t.tally = ([], 0, 0, 0, 0, 0, [])) :
    t.RangesLaw := by
  have empty := resetStateObeysEveryLaw
  obtain ⟨-, -, -, -, -, -, ladder, counts⟩ := empty
  refine ⟨?_, counts.congr tally⟩
  unfold State.LadderLaw
  rw [modc]
  exact ⟨Nat.zero_le _, Nat.zero_le _, nofun, nofun⟩

theorem State.KeepsRanges.answer (h : s.KeepsRanges t) (c : Command) (r : ResultCode) (k : BitVec 3 := 0) :
    s.KeepsRanges (t.answer c r k) :=
  h.trans (.of_same rfl rfl rfl)

/-- START begins a run with no runs counted, and only where FWA is above 0 (R125, R127, R138). -/
theorem State.cmdStart_ranges (law : s.RangesLaw) : s.cmdStart.RangesLaw := by
  have refused (r : ResultCode) (k : BitVec 3) : (s.answer .start r k).RangesLaw := law.keep (.answer (.refl s) _ _ _)
  unfold State.cmdStart
  split
  · exact refused _ _
  · split
    · exact refused _ _
    · split
      · exact refused _ _
      · rename_i passes
        rw [Decidable.not_not, State.startCheck_eq_zero_iff] at passes
        have limit : 0 < s.cfg.fwa.toNat := by
          have ladder := passes 5
          simp only [State.FailsCheck] at ladder
          omega
        have entered : s.enterAcquire.RangesLaw := by
          refine ⟨⟨Nat.zero_le _, Nat.zero_le _, fun _ => limit, nofun⟩, law.counts.congr ?_⟩
          simp [State.tally]
        refine State.RangesLaw.keep ?_ (.answer (.refl _) _ _ _)
        split
        · exact State.acquire_ranges entered rfl _ _
        all_goals exact entered

/-- A SUBMIT finds room in the queue (R101, R103). -/
theorem State.submit_keepsRanges (s : State) (k : SubmitKind) (c : Command) : s.KeepsRanges (s.submit k c) := by
  unfold State.submit
  split
  · exact .answer (.refl s) _ _
  · rename_i room
    split
    · exact .answer (.refl s) _ _
    · rename_i r _
      refine .answer ?_ _ _
      refine .of_modc rfl rfl fun law => ?_
      obtain ⟨queue, -, overflow, late, unexamined, suppressed, repeats⟩ := law
      refine ⟨queue, ?_, overflow, late, unexamined, suppressed, repeats⟩
      have held : s.revq.held < 16 := Nat.lt_of_not_le room
      unfold Revq.held at held
      rw [List.length_append]
      exact held

/-- COMMIT makes the open revisions the group's: the queue holds as many (R104). -/
theorem State.cmdCommit_keepsRanges (s : State) : s.KeepsRanges s.cmdCommit := by
  unfold State.cmdCommit
  split
  · exact .answer (.refl s) _ _
  · split
    · exact .answer (.refl s) _ _
    · rename_i noGroup
      rw [Bool.not_eq_true, Option.isSome_eq_false_iff, Option.isNone_iff_eq_none] at noGroup
      have held : s.grouped.revq.held = s.revq.held := by simp [Revq.held, State.grouped, noGroup]
      have grouped : s.KeepsRanges s.grouped := .of_same rfl rfl (by rw [State.tally, held]; rfl)
      refine .answer ?_ _ _
      change s.KeepsRanges (if s.modc.mode.tracking then s.grouped else s.grouped.beginApplication false)
      split
      · exact grouped
      · refine grouped.trans (.of_same (by simp) (by simp) ?_)
        simp [State.tally, State.beginApplication_held]

/-- Every command given by a strobe but START and SOFT_RESET leaves the ladder's runs, or ends the run. -/
theorem State.runCommand_keepsRanges (s : State) (c : Command) (h : c ∉ [Command.start, .softReset]) :
    s.KeepsRanges (s.runCommand c) := by
  have refused (r : ResultCode) : s.KeepsRanges (s.answer c r) := .answer (.refl s) _ _
  cases c with
  | start | softReset => exact absurd (by decide) h
  | stop =>
    unfold State.runCommand State.cmdStop
    dsimp only
    split
    case h_1 | h_2 =>
      refine .answer ?_ _ _
      exact ⟨rfl, rfl, rfl, rfl, .inl rfl, fun law => law.congr rfl⟩
    case h_3 => exact .answer s.enterConfig_keepsRanges _ _
    case h_4 | h_5 => exact refused _
  | haltNow =>
    unfold State.runCommand State.cmdHaltNow
    dsimp only
    split
    · exact .answer (s.enterHalted_keepsRanges _) _ _
    · exact refused _
  | clearHalt =>
    unfold State.runCommand State.cmdClearHalt
    dsimp only
    split
    · exact refused _
    · split
      · exact refused _
      · exact .answer s.enterConfig_keepsRanges _ _
  | ackFault =>
    unfold State.runCommand State.cmdAckFault
    dsimp only
    split
    · exact refused _
    · split
      · exact refused _
      · rename_i r rest causes
        split
        · refine .answer ?_ _ _
          refine .of_modc rfl rfl fun law => ?_
          refine law.of_le (Nat.le_refl _) (Nat.le_refl _) (Nat.le_refl _) (Nat.le_refl _) (Nat.le_refl _) (Nat.le_refl _) ?_
          rw [causes]
          exact List.subset_cons_self r rest
        · exact refused _
  | popCapture =>
    unfold State.runCommand State.cmdPopCapture
    dsimp only
    split
    · exact refused _
    · rename_i queue
      refine .answer ?_ _ _
      refine .of_modc rfl rfl fun law => law.of_le ?_ (Nat.le_refl _) (Nat.le_refl _) (Nat.le_refl _) (Nat.le_refl _)
        (Nat.le_refl _) fun _ => id
      simp [queue]
  | applyManual =>
    unfold State.runCommand State.cmdApplyManual
    dsimp only
    split
    · exact refused _
    · split
      · exact refused _
      · exact .of_same (by simp) (by simp) (by simp [State.tally])
  | clearCounters =>
    exact .of_modc rfl rfl fun law => law.of_le (Nat.le_refl _) (Nat.le_refl _) (Nat.zero_le _) (Nat.zero_le _)
      (Nat.zero_le _) (Nat.zero_le _) fun _ => id
  | submitInsert | submitRemove | submitModify => exact s.submit_keepsRanges _ _
  | commit => exact s.cmdCommit_keepsRanges
  | discardOpen =>
    exact .of_modc rfl rfl fun law => law.of_le (Nat.le_refl _) (Nat.le_add_right _ _) (Nat.le_refl _) (Nat.le_refl _)
      (Nat.le_refl _) (Nat.le_refl _) fun _ => id
  | readEntry =>
    unfold State.runCommand State.cmdReadEntry
    dsimp only
    repeat' split
    case isFalse.isFalse.isFalse =>
      have requested : s.KeepsRanges { s with cam.readbackWaits := some s.biu.arg.toNat } := .of_same rfl rfl rfl
      exact (requested.trans (State.arbitrate_keepsRanges _)).answer _ _
    all_goals exact refused _
  | clearTable =>
    unfold State.runCommand State.cmdClearTable
    dsimp only
    repeat' split
    all_goals exact .of_same rfl rfl rfl
  | raiseLock =>
    unfold State.runCommand State.cmdRaiseLock
    dsimp only
    repeat' split
    all_goals exact .of_same rfl rfl rfl

theorem State.runCommand_ranges (law : s.RangesLaw) (c : Command) : (s.runCommand c).RangesLaw := by
  cases c with
  | start => exact State.cmdStart_ranges law
  | softReset =>
    unfold State.runCommand State.cmdSoftReset
    dsimp only
    split
    · exact law.keep (.answer (.refl s) _ _)
    · exact .of_reset rfl rfl
  | _ => exact law.keep (s.runCommand_keepsRanges _ (by decide))

/-! ### Bus writes -/

/-- A write taken in CONFIG alone keeps the laws: there the law of the ladder says nothing of FWA (R172). -/
theorem State.RangesLaw.of_frozen (law : s.RangesLaw) (t : State) (modc : t.modc = s.modc) (tally : t.tally = s.tally) :
    (if s.modc.mode ≠ .config then s.setAccessViolation else t).RangesLaw := by
  split
  · exact law.keep (.of_same rfl rfl rfl)
  · rename_i config
    rw [Decidable.not_not] at config
    refine ⟨law.ladder.of_stopped ?_ (by rw [modc]) (by rw [modc]), law.counts.congr tally⟩
    rw [modc, config]
    rfl

theorem State.busWrite_ranges (law : s.RangesLaw) (w : WriteTarget) (v : Word) : (s.busWrite w v).RangesLaw := by
  cases w with
  | strobe r =>
    unfold State.busWrite State.writeStrobe
    dsimp only
    split
    · exact law
    · exact State.runCommand_ranges law _
    · exact law.keep (.of_same rfl rfl rfl)
  | frozen w => exact law.of_frozen { s with cfg := s.cfg.store w v } rfl rfl
  | encoderCfg | timebaseDiv | acqCfg => exact law.of_frozen _ rfl rfl
  | safeLevels =>
    refine law.of_frozen _ ?_ ?_ <;>
    · dsimp only
      split <;> simp [State.tally]
  | manualLevels | relockCfg => exact law.keep ⟨rfl, rfl, rfl, rfl, .inl rfl, fun law => law.congr rfl⟩
  | _ => exact law.keep (.of_same rfl rfl rfl)

/-! ### Every step -/

/-- Every command keeps both laws, where the law of the pending set holds. -/
theorem effectOf_ranges (c : Instr) (pending : s.PendingLaw) (law : s.RangesLaw) : (effectOf c s).RangesLaw := by
  cases c with
  | forwardCount => exact State.forward_ranges law pending
  | revolutionBoundary =>
    unfold effectOf State.boundaryCount
    dsimp only
    split
    · exact State.forward_ranges law pending
    · exact law
  | acquireTimeout =>
    unfold effectOf State.timeoutCount
    dsimp only
    split
    · exact State.forward_ranges law pending
    · exact law
  | backwardCount => exact law.keep s.backward_keepsRanges
  | invalidTransition => exact law.keep s.invalidChange_keepsRanges
  | indexArrival => exact State.indexArrives_ranges law
  | speedWindowExpiry => exact law.keep s.speedExpires_keepsRanges
  | sensorEdge n d => exact State.edgeArrives_ranges law n d
  | interlockOpening => exact law.keep s.interlockOpens_keepsRanges
  | interlockClosing => exact law.keep (.of_same rfl rfl rfl)
  | pulseExpiry i =>
    unfold effectOf State.pulseExpires
    dsimp only
    split
    · exact law.keep (.of_same rfl rfl rfl)
    · exact law
  | fetchCompletion => exact law.keep s.fetchCompletes_keepsRanges
  | readbackCompletion => exact law.keep s.readbackCompletes_keepsRanges
  | applicationCompletion => exact law.keep s.applicationCompletes_keepsRanges
  | powerOn | resetPin | resetPinHeld => exact .of_reset rfl rfl
  | start | stop | haltNow | clearHalt | softReset | ackFault | popCapture | applyManual | clearCounters | submitInsert
  | submitRemove | submitModify | commit | discardOpen | readEntry | clearTable | raiseLock =>
    unfold effectOf
    exact State.runCommand_ranges law _
  | invalidCommandWrite | intFlagsWrite | intEnableWrite | stickyStatusWrite | frozenWordWrite | encoderCfgWrite
  | timebaseDivWrite | acqCfgWrite | safeLevelsWrite | registerWrite =>
    unfold effectOf
    exact State.busWrite_ranges law _ _
  | positionRead | commitResultRead | faultCauseRead => exact law.keep (.of_same rfl rfl rfl)

/-- The clock counts timers and applications alone (R30, R108). -/
theorem State.refclk_keepsRanges (s : State) : s.KeepsRanges s.refclk := by
  have takes : s.KeepsRanges s.takeLevels := by
    unfold State.takeLevels
    split
    · exact .refl s
    · dsimp only
      split <;> exact .of_same rfl rfl rfl
  have aged (t : State) : t.KeepsRanges t.microsecond := by
    have held : t.microsecond.revq.held = t.revq.held := by
      unfold State.microsecond Revq.held
      dsimp only
      cases t.revq.group with
      | none => rfl
      | some g =>
        obtain ⟨q, phase, rs⟩ := g
        cases phase <;> rfl
    exact .of_same (by simp [State.microsecond]) (by simp [State.microsecond])
      (by rw [State.tally, held]; simp [State.tally, State.microsecond])
  unfold State.refclk
  split
  · exact .refl s
  · refine takes.trans ?_
    unfold State.tick
    split
    · exact .of_same rfl rfl rfl
    · refine .trans ?_ (aged _)
      exact .of_same rfl rfl rfl

/-- Settles O10: the clock leaves what the two laws read, and every command keeps them. -/
theorem everyStepKeepsTheLadderAndTheCounts : Obligations.EveryStepKeepsTheLadderAndTheCounts := by
  intro s t pending ladder counts h
  have law : s.RangesLaw := ⟨ladder, counts⟩
  have kept : t.RangesLaw := by
    rcases step_cases h with ⟨-, rfl⟩ | ⟨c, rest, -, rfl | rfl⟩
    · exact law.keep s.refclk_keepsRanges
    · exact law.keep (.of_same rfl rfl rfl)
    · exact effectOf_ranges (s := { s with pending := rest }) c pending (law.keep (.of_same rfl rfl rfl))
  exact ⟨kept.ladder, kept.counts⟩

end Sys2Proof.Machine
end

section
/-! PROOFS. MODC at a boundary: the mode it enters, the counters, the halt by MARKS_LOST, the flags and the lines (R71,
R72, R132, R138 to R142). -/

namespace Sys2Proof.Machine

variable {s t : State}

/-! ### The MODE flag -/

/-- Warnings set no flag but FAULT (R148, R157). -/
theorem State.WarnedInTurn.flag {w : List (Cause × Detail)} {a : Stamp} (h : s.WarnedInTurn w a t) {f : Flag}
    (other : f ≠ .fault) : t.flag f = s.flag f := by
  obtain ⟨-, bus⟩ := h
  have set : (s.setFlag .fault).flag f = s.flag f := by
    rw [State.flag_setFlag, decide_eq_false (Ne.symm other), Bool.false_or]
  rw [State.flag, bus]
  dsimp only
  split
  · exact set
  · rfl

/-- A count and the turn-over of the blocks set no MODE flag (R26, R157). -/
theorem State.turnOver_modeFlag (s : State) : s.turnOver.flag .mode = s.flag .mode := by
  let judged : State := { s with mcr := s.mcr.publish s.cfg, lfu := s.lfu.cancelFetch }
  have settled : (judged.settleAccount s.endingStamp).flag .mode = judged.flag .mode := by
    unfold State.settleAccount
    split
    · rfl
    · exact (State.raiseAt_raises _ _ _ _ rfl).flag (by decide)
  have turned : s.turned.flag .mode = (judged.settleAccount s.endingStamp).flag .mode := State.flag_setFlag _ .rev .mode
  have rest : s.turnOver.biu = s.turned.biu := by
    have steps : s.turnOver = ((s.turned.rollWindow s.groupWaits).beginApplication true).requestFetch := rfl
    rw [steps]
    simp
  calc s.turnOver.flag .mode
      = s.turned.flag .mode := by rw [State.flag, rest, State.flag]
    _ = (judged.settleAccount s.endingStamp).flag .mode := turned
    _ = s.flag .mode := settled

/-! ### What the ladder leaves -/

/-- What MODC leaves at a boundary, in the words of the claims. `t` is the state after the verdict `v`, `a` the stamp of
the revolution that ended. -/
structure State.LadderStepped (a : Stamp) (v : Verdict) (s t : State) : Prop where
  mode : t.modc.mode = if s.modc.Loses s.cfg v then .halted else if s.modc.stopPending then .config
    else if s.modc.Falls s.cfg v then .freewheel else if s.modc.Relocks s.cfg v then .locked else s.modc.mode
  badRun : t.modc.badRun = (s.modc.counted s.cfg v).badRun
  goodRun : t.modc.goodRun = (s.modc.counted s.cfg v).goodRun
  haltReason : t.modc.haltReason = if s.modc.Loses s.cfg v then .cause .marksLost else s.modc.haltReason
  stopPending : t.modc.stopPending = false
  flagged : t.modc.mode ≠ s.modc.mode → t.flag .mode = true
  unflagged : t.modc.mode = s.modc.mode → t.flag .mode = s.flag .mode
  pending : isPending .marksLost t.flt.causes = true ↔ s.modc.Loses s.cfg v
  record : s.modc.Loses s.cfg v →
    (⟨.marksLost, 0, a.mode, a.position, a.revolution, .num s.modc.bad⟩ : FaultRecord) ∈ t.flt.causes
  lines : ∀ i : LineNo, t.out.lines[i] =
    if t.modc.mode.tracking = false
        ∨ (t.modc.mode = .freewheel ∧ s.modc.mode = .locked ∧ s.cfg.criticalLines.getLsbD i = true) then
      s.cfg.atSafeLevel i
    else s.out.lines[i]
  interlock : t.out.interlock = s.out.interlock
  suppressed : t.out.suppressed = s.out.suppressed

/-- Where MARKS_LOST is not called for, the pending set stands, and the mode entered says the rest. -/
theorem State.LadderStepped.of_kept {a : Stamp} {v : Verdict} (kept : ¬s.modc.Loses s.cfg v) (m : Mode)
    (chosen : m = if s.modc.stopPending then .config else if s.modc.Falls s.cfg v then .freewheel
      else if s.modc.Relocks s.cfg v then .locked else s.modc.mode)
    (modc : t.modc = { s.modc.counted s.cfg v with mode := m, stopPending := false })
    (notLost : isPending .marksLost s.flt.causes = false) (flt : t.flt = s.flt)
    (flagged : m ≠ s.modc.mode → t.flag .mode = true) (unflagged : m = s.modc.mode → t.flag .mode = s.flag .mode)
    (lines : ∀ i : LineNo, t.out.lines[i] =
      if m.tracking = false ∨ (m = .freewheel ∧ s.modc.mode = .locked ∧ s.cfg.criticalLines.getLsbD i = true) then
        s.cfg.atSafeLevel i
      else s.out.lines[i])
    (interlock : t.out.interlock = s.out.interlock) (suppressed : t.out.suppressed = s.out.suppressed) :
    s.LadderStepped a v t := by
  have mode : t.modc.mode = m := by rw [modc]
  refine ⟨?_, by rw [modc], by rw [modc], ?_, by rw [modc], mode ▸ flagged, mode ▸ unflagged, ?_,
    fun lost => absurd lost kept, mode ▸ lines, interlock, suppressed⟩
  · rw [mode, if_neg kept, chosen]
  · rw [modc, if_neg kept]
    rfl
  · rw [flt, notLost]
    exact iff_of_false (by decide) kept

/-- In a tracking mode, with MARKS_LOST not pending, the ladder's step is that: each of its outcomes enters its mode, with
the lines of that mode and the MODE flag, and the one that enters none moves the counters alone. -/
theorem State.ladderStep_steps (tracking : s.modc.mode.tracking = true)
    (notLost : isPending .marksLost s.flt.causes = false) (a : Stamp) (v : Verdict) :
    s.LadderStepped a v (s.ladderStep a v) := by
  let counted : State := { s with modc := s.modc.counted s.cfg v }
  have idle {m : Mode} (h : m.tracking = false) : m ≠ s.modc.mode := by
    rintro rfl
    exact absurd tracking (by simp [h])
  rw [State.ladderStep_eq]
  by_cases loses : s.modc.Loses s.cfg v
  · rw [if_pos loses, counted.raiseAt_halts a _ _ notLost rfl]
    have joins (r : FaultRecord) : r ∈ addCause r s.flt.causes := (mem_addCause r r _).mpr (.inl rfl)
    refine ⟨by rw [if_pos loses]; simp, by simp [counted], by simp [counted], by rw [if_pos loses]; simp, by simp,
      fun _ => State.flag_setFlag_self _ _, fun same => absurd (by simpa using same) (idle (m := .halted) rfl),
      iff_of_true ?_ loses, fun _ => ?_, fun i => by simp [counted, Mode.tracking], by simp [counted], by simp [counted]⟩
    · simp only [State.enterHalted_keeps, State.setFlag_fields]
      exact List.any_eq_true.mpr ⟨_, joins _, rfl⟩
    · simp only [State.enterHalted_keeps, State.setFlag_fields]
      exact joins _
  · rw [if_neg loses]
    by_cases stop : s.modc.stopPending = true
    · rw [if_pos stop]
      refine .of_kept loses .config (by rw [if_pos stop]) (by simp) notLost (by simp)
        (fun _ => State.flag_setFlag_self _ _) (fun same => absurd same (idle rfl)) (fun i => ?_) (by simp) (by simp)
      simp [Mode.tracking]
    · rw [if_neg stop]
      have noStop : s.modc.stopPending = false := Bool.not_eq_true _ ▸ stop
      by_cases falls : s.modc.Falls s.cfg v
      · rw [if_pos falls]
        have locked : s.modc.mode = .locked := falls.2.1
        refine .of_kept loses .freewheel (by rw [if_neg stop, if_pos falls]) ?_ notLost (by simp)
          (fun _ => State.flag_setFlag_self _ _) (fun same => ?_) (fun i => ?_) (by simp) (by simp)
        · simp [Modc.counted, noStop]
        · rw [locked] at same; cases same
        · simp [Mode.tracking, locked]
      · rw [if_neg falls]
        by_cases relocks : s.modc.Relocks s.cfg v
        · rw [if_pos relocks]
          have freewheel : s.modc.mode = .freewheel := relocks.2.1
          refine .of_kept loses .locked (by rw [if_neg stop, if_neg falls, if_pos relocks]) ?_ notLost (by simp)
            (fun _ => State.flag_setFlag_self _ _) (fun same => ?_) (fun i => ?_) (by simp) (by simp)
          · simp [Modc.counted, noStop]
          · rw [freewheel] at same; cases same
          · simp [Mode.tracking]
        · rw [if_neg relocks]
          refine .of_kept loses s.modc.mode (by rw [if_neg stop, if_neg falls, if_neg relocks]) ?_ notLost rfl
            (fun moved => absurd rfl moved) (fun _ => rfl) (fun i => ?_) rfl rfl
          · simp [Modc.counted, noStop]
          · have lockedNot : ¬(s.modc.mode = .freewheel ∧ s.modc.mode = .locked ∧ s.cfg.criticalLines.getLsbD i = true) := by
              rintro ⟨freewheel, locked, -⟩
              rw [freewheel] at locked
              cases locked
            rw [if_neg (not_or.mpr ⟨by rw [tracking]; decide, lockedNot⟩)]

/-- Settles O24: the count and the turn-over leave MODC, the lines and the MODE flag to the ladder. -/
theorem boundaryStepsTheLadderAndServesAStop : Obligations.BoundaryStepsTheLadderAndServesAStop := by
  intro s held tracking deficit stretch last none v bad good isBad lost relocks falls
  have run : exec .revolutionBoundary s = .next s.boundaryCount := exec_live _ s held
  let u := s.countedForward
  obtain ⟨cfg, out, modc, -⟩ := u.turnOver_keeps
  have notLost : isPending .marksLost u.turnOver.flt.causes = false :=
    State.turnOver_notLost (none.notPending .marksLost rfl)
  have stepped := State.ladderStep_steps (s := u.turnOver) (by rw [modc]; exact tracking) notLost u.endingStamp v
  have boundary : u.boundary = u.turnOver.ladderStep u.endingStamp v := by
    rw [State.boundary, Cfg.judgeRevolution_verdict]
    rfl
  have flag : u.turnOver.flag .mode = s.flag .mode := u.turnOver_modeFlag
  rw [run, State.boundaryCount_turns tracking deficit stretch last, boundary]
  generalize u.turnOver.ladderStep u.endingStamp v = t at stepped
  obtain ⟨mode, badRun, goodRun, haltReason, stopPending, flagged, unflagged, pending, record, lines, interlock,
    suppressed⟩ := stepped
  rw [modc, cfg] at mode badRun goodRun haltReason pending record
  rw [modc] at flagged unflagged
  rw [flag] at unflagged
  simp only [modc, cfg, out] at lines
  exact ⟨t, rfl, mode, badRun, goodRun, haltReason, stopPending, flagged, unflagged, pending,
    fun isLost => ⟨_, record isLost, rfl⟩, lines, out ▸ interlock, out ▸ suppressed⟩

end Sys2Proof.Machine
end

section
/-! PROOFS. The mode commands: the refusals of START, STOP, HALT_NOW and CLEAR_HALT. -/

namespace Sys2Proof.Machine

variable {s t : State}

/-! ### START -/

/-- The checks of START are numbered 1 to 7 (R125). -/
theorem State.FailsCheck.range {k : Nat} (h : s.FailsCheck k) : 0 < k ∧ k ≤ 7 := by
  match k with
  | 0 | _ + 8 => exact absurd h id
  | 1 | 2 | 3 | 4 | 5 | 6 | 7 => exact ⟨by decide, by decide⟩

/-- The code of a check is not 0. -/
theorem checkCode_ne_zero : ∀ k ≤ 7, 0 < k → (BitVec.ofNat 3 k : BitVec 3) ≠ 0 := by decide

/-- In CONFIG with the interlock CLOSED, START is refused at the first check that fails, with its code (R125). -/
theorem State.cmdStart_invalid (config : s.modc.mode = .config) (closed : s.out.interlock = .closed) {k : Nat}
    (fails : s.FailsCheck k) (first : ∀ j < k, ¬s.FailsCheck j) :
    s.cmdStart = s.answer .start .configInvalid (BitVec.ofNat 3 k) := by
  obtain ⟨low, high⟩ := fails.range
  have code := (s.startCheck_eq_iff low high).mpr ⟨fails, first⟩
  rw [State.cmdStart, if_neg (Decidable.not_not.mpr config), if_neg (by rw [closed]; decide), code,
    if_pos (checkCode_ne_zero k high low)]

/-- Settles O49: the refusals of R125 in their order; with none START enters a running mode. -/
theorem startIsRefusedAtTheFirstFailingCheck : Obligations.StartIsRefusedAtTheFirstFailingCheck := by
  intro s held
  have run : exec .start s = .next s.cmdStart := exec_live _ s held
  rw [run]
  refine ⟨fun elsewhere => ?_, fun config opened => ?_, fun config closed k fails first => ?_,
    fun config closed passes => ?_⟩
  · rw [State.cmdStart, if_pos elsewhere]; rfl
  · rw [State.cmdStart, if_neg (Decidable.not_not.mpr config), if_pos opened]; rfl
  · rw [State.cmdStart_invalid config closed fails first]; rfl
  · rw [State.cmdStart_accepted config closed passes]
    refine ⟨_, rfl, rfl, ?_⟩
    split <;> simp [Mode.running]

/-! ### The entry into CONFIG -/

/-- Where no group waits, an entry into CONFIG that a command makes is the one the claims speak of: MODC, the monitor, the
lines, the mark state, LFU and the MODE flag (R38, R59, R71, R97, R123). -/
theorem State.enterConfig_answers (noGroup : ¬s.HasWaitingGroup) (c : Command) :
    let t := s.enterConfig.answer c .ok
    t.modc = { s.modc with mode := .config, stopPending := false }
      ∧ t.axt = { s.axt with armed := false }
      ∧ (∀ i : LineNo, t.out.lines[i] = s.cfg.atSafeLevel i)
      ∧ t.out.interlock = s.out.interlock ∧ t.out.suppressed = s.out.suppressed
      ∧ t.mcr = { s.mcr with mark := ⟨none, 0⟩ }
      ∧ t.lfu = { s.lfu with window := [], cursor := .parked, deferred := none, fetch := cancelled s.lfu.fetch }
      ∧ t.biu = { s.biu with flags := s.biu.flags ||| 0x02, result := ⟨commandCode c, .ok, 0⟩ }
      ∧ s.sameBut [.modc, .axt, .out, .mcr, .lfu, .biu] t := by
  intro t
  let entered : State := ({ s with modc.mode := .config, modc.stopPending := false } : State).quiesce
  have entry : t = (entered.setFlag .mode).answer c .ok := by
    have idle : entered.beginApplication false = entered := State.beginApplication_idle _ noGroup
    show State.answer ((entered.beginApplication false).setFlag .mode) c .ok = _
    rw [idle]
  rw [entry]
  refine ⟨by simp [entered], by simp [entered], fun i => by simp [entered], by simp [entered], by simp [entered],
    by simp [entered], ?_, by simp [entered, Flag.mask], State.sameBut_of (fun p => ?_) (by simp [entered])⟩
  · rw [← Lfu.quiesce_eq]
    simp [entered]
  · cases p <;> simp [State.agreesOn, entered]

/-! ### STOP, HALT_NOW and CLEAR_HALT -/

/-- Settles O51: STOP by the mode it finds. -/
theorem stopWaitsForTheBoundaryOrLeavesAcquire : Obligations.StopWaitsForTheBoundaryOrLeavesAcquire := by
  intro s held
  have run : exec .stop s = .next s.cmdStop := exec_live _ s held
  rw [run, State.cmdStop]
  refine ⟨fun idle => ?_, fun tracking => ?_, fun acquire noGroup => ?_⟩
  · rcases idle with mode | mode <;> rw [mode] <;> rfl
  · split
    case h_1 | h_2 => rfl
    case h_3 mode | h_4 mode | h_5 mode => rw [mode] at tracking; cases tracking
  · rw [acquire]
    exact ⟨_, rfl, State.enterConfig_answers noGroup .stop⟩

/-- An answer after an entry into HALTED touches COMMAND_RESULT alone, which a halt leaves to the claim. -/
theorem State.HaltEntry.answer {reason : HaltReason} (h : s.HaltEntry reason t) (c : Command) (r : ResultCode) :
    s.HaltEntry reason (t.answer c r) := by
  obtain ⟨modc, lines, interlock, suppressed, lfu, mcr, axt, bus, flags⟩ := h
  exact ⟨modc, lines, interlock, suppressed, lfu, mcr, axt,
    congrArg (fun b : Biu => { b with result := ⟨commandCode c, r, 0⟩ }) bus, flags⟩

/-- Settles O52: in a running mode HALT_NOW is the entry into HALTED, which touches neither the pending set nor FAULT. -/
theorem haltNowHaltsARunWithoutACause : Obligations.HaltNowHaltsARunWithoutACause := by
  intro s held
  have run : exec .haltNow s = .next s.cmdHaltNow := exec_live _ s held
  rw [run, State.cmdHaltNow]
  refine ⟨fun idle => ?_, fun running => ?_⟩
  · rw [if_neg (by rw [idle]; decide)]; rfl
  · rw [if_pos running]
    have fault : (s.enterHalted .command).flag .fault = s.flag .fault := by rw [State.enterHalted_flag]; rfl
    exact ⟨_, rfl, (s.enterHalted_entry .command).answer _ _, by simp, fault, rfl⟩

/-- Settles O53: CLEAR_HALT by the mode it finds and by the halting causes that are pending. -/
theorem clearHaltNeedsTheHaltingCauseAcknowledged : Obligations.ClearHaltNeedsTheHaltingCauseAcknowledged := by
  intro s held
  have run : exec .clearHalt s = .next s.cmdClearHalt := exec_live _ s held
  rw [run, State.cmdClearHalt]
  refine ⟨fun elsewhere => ?_, fun halted cause => ?_, fun halted none noGroup => ?_⟩
  · rw [if_pos elsewhere]; rfl
  · have pending : s.flt.haltingPending = true := by
      obtain ⟨r, hr, low⟩ := cause
      exact List.any_eq_true.mpr ⟨r, hr, decide_eq_true low⟩
    rw [if_neg (Decidable.not_not.mpr halted), if_pos pending]; rfl
  · have noCause : s.flt.haltingPending = false := s.noneHalting_iff.mp none
    rw [if_neg (Decidable.not_not.mpr halted), if_neg (by rw [noCause]; decide)]
    exact ⟨_, rfl, State.enterConfig_answers noGroup .clearHalt⟩

end Sys2Proof.Machine
end

section
/-! PROOFS. The mode changes of one command, and the MODE flag that every change sets (R123). -/

namespace Sys2Proof.Machine

variable {s t u : State}

/-! ### The transition table -/

/-- Every mode may stay (R123). -/
theorem Mode.mayBecome_self (m : Mode) : m.mayBecome m = true := by cases m <;> rfl

/-- CONFIG may follow every mode (R123). -/
theorem Mode.mayBecome_config (m : Mode) : m.mayBecome .config = true := by cases m <;> rfl

/-- HALTED may follow every running mode (R123). -/
theorem Mode.mayBecome_halted {m : Mode} (running : m.running = true) : m.mayBecome .halted = true := by
  cases m with
  | config | halted => cases running
  | acquire | locked | freewheel => rfl

/-- From `s` to `t` the mode stands, or makes a change of the transition table and sets MODE (R123). -/
@[reducible] def State.FollowsTable (s t : State) : Prop :=
  t.modc.mode = s.modc.mode ∨ (s.modc.mode.mayBecome t.modc.mode = true ∧ t.flag .mode = true)

/-- A change that leaves MODC follows the table. -/
theorem State.FollowsTable.of_modc (modc : t.modc = s.modc) : s.FollowsTable t := .inl (by rw [modc])

/-- What comes before a change of the mode does not count where it leaves the mode. -/
theorem State.FollowsTable.after (h : t.FollowsTable u) (mode : t.modc.mode = s.modc.mode) : s.FollowsTable u := by
  rw [State.FollowsTable, mode] at h
  exact h

/-- Nor does what comes after it where it leaves the mode and the MODE flag. -/
theorem State.FollowsTable.before (h : s.FollowsTable t) (mode : u.modc.mode = t.modc.mode)
    (flag : u.flag .mode = t.flag .mode) : s.FollowsTable u := by
  rw [State.FollowsTable, mode, flag]
  exact h

/-- An answer leaves the mode and the flags. -/
theorem State.FollowsTable.answer (h : s.FollowsTable t) (c : Command) (r : ResultCode) (k : BitVec 3 := 0) :
    s.FollowsTable (t.answer c r k) :=
  h.before rfl rfl

/-! ### The entries into the modes -/

theorem State.enterHalted_followsTable (running : s.modc.mode.running = true) (r : HaltReason) :
    s.FollowsTable (s.enterHalted r) := by
  refine .inr ⟨?_, by rw [State.enterHalted_flag]; rfl⟩
  simpa using Mode.mayBecome_halted running

theorem State.enterConfig_followsTable (s : State) : s.FollowsTable s.enterConfig := by
  refine .inr ⟨?_, State.flag_setFlag_self _ _⟩
  simpa using s.modc.mode.mayBecome_config

/-- A warning leaves the mode (R134). -/
theorem State.raiseAt_warning_followsTable (s : State) (a : Stamp) {c : Cause} (d : Detail) (warning : c.halting = false) :
    s.FollowsTable (s.raiseAt a c d) := by
  obtain ⟨-, -, -, -, -, -, -, modc, -⟩ := s.raiseAt_warns a c d warning
  exact .of_modc modc

/-- A raise in a running mode follows the table: it halts, or leaves the mode (R134, R149). -/
theorem State.raiseAt_followsTable (running : s.modc.mode.running = true) (a : Stamp) (c : Cause) (d : Detail) :
    s.FollowsTable (s.raiseAt a c d) := by
  cases pending : isPending c s.flt.causes with
  | true => exact .of_modc (by rw [s.raiseAt_repeat a c d pending])
  | false =>
    cases halting : c.halting with
    | true =>
      rw [s.raiseAt_halts a c d pending halting]
      exact (State.enterHalted_followsTable (by exact running) _).after rfl
    | false => exact s.raiseAt_warning_followsTable a d halting

/-- The entry into ACQUIRE is START's, from CONFIG (R127). -/
theorem State.enterAcquire_followsTable (config : s.modc.mode = .config) : s.FollowsTable s.enterAcquire := by
  refine .inr ⟨?_, State.flag_setFlag_self _ _⟩
  rw [config]
  rfl

/-- An acquisition sets MODE (R128). -/
theorem State.acquire_modeFlag (s : State) (p : Nat) (b : Bool) : (s.acquire p b).flag .mode = true := by
  simpa [State.flag] using State.flag_setFlag_self s .mode

/-- An acquisition ends ACQUIRE, or follows on the entry into it at START (R128, R129). -/
theorem State.acquire_followsTable (before : s.modc.mode = .acquire ∨ s.modc.mode = .config) (t : State) (p : Nat)
    (b : Bool) : s.FollowsTable (t.acquire p b) := by
  refine .inr ⟨?_, t.acquire_modeFlag p b⟩
  rcases before with mode | mode <;> simp [mode, Mode.mayBecome]

/-! ### Counts and the boundary -/

/-- The ladder follows the table: its step sets MODE where it moves (R139 to R142). -/
theorem State.ladderStep_followsTable (tracking : s.modc.mode.tracking = true) (a : Stamp) (v : Verdict) :
    s.FollowsTable (s.ladderStep a v) := by
  let counted : State := { s with modc := s.modc.counted s.cfg v }
  have running : s.modc.mode.running = true := Mode.tracking_running tracking
  rw [State.ladderStep_eq]
  split
  · exact (State.raiseAt_followsTable (s := counted) running _ _ _).after rfl
  · split
    · exact counted.enterConfig_followsTable.after rfl
    · split
      · rename_i falls
        refine .inr ⟨?_, State.flag_setFlag_self _ _⟩
        rw [falls.2.1]
        rfl
      · split
        · rename_i relocks
          refine .inr ⟨?_, State.flag_setFlag_self _ _⟩
          rw [relocks.2.1]
          rfl
        · exact .inl rfl

theorem State.boundary_followsTable (tracking : s.modc.mode.tracking = true) : s.FollowsTable s.boundary := by
  obtain ⟨-, -, modc, -⟩ := s.turnOver_keeps
  exact (State.ladderStep_followsTable (by rw [modc]; exact tracking) _ _).after (by rw [modc])

theorem State.advance_followsTable (tracking : s.modc.mode.tracking = true) : s.FollowsTable s.advance := by
  unfold State.advance
  dsimp only
  split
  · exact .inl rfl
  · split
    · exact .inl rfl
    · split
      · split
        · exact .of_modc (by simp)
        · exact .inl rfl
      · exact State.boundary_followsTable tracking

theorem State.acquireCount_followsTable (running : s.modc.mode.running = true) : s.FollowsTable s.acquireCount := by
  unfold State.acquireCount
  dsimp only
  split
  · exact (State.raiseAt_followsTable (by exact running) _ _ _).after rfl
  · exact .inl rfl

theorem State.forward_followsTable (s : State) : s.FollowsTable s.forward := by
  have counted : s.countedForward.modc = s.modc := by simp [State.countedForward]
  cases mode : s.modc.mode with
  | config => rw [State.forward_idle (.inl mode)]; exact .of_modc counted
  | halted => rw [State.forward_idle (.inr mode)]; exact .of_modc counted
  | acquire =>
    rw [State.forward_acquire mode]
    exact (State.acquireCount_followsTable (by rw [counted, mode]; rfl)).after (by rw [counted])
  | locked | freewheel =>
    rw [State.forward_tracking (by rw [mode]; rfl)]
    exact (State.advance_followsTable (by rw [counted, mode]; rfl)).after (by rw [counted])

theorem State.backward_followsTable (s : State) : s.FollowsTable s.backward := by
  have counted : s.countedBackward.modc = s.modc := by simp [State.countedBackward]
  cases tracking : s.modc.mode.tracking with
  | false => rw [State.backward_idle tracking]; exact .of_modc counted
  | true =>
    have given : s.countedBackward.retreated.modc = s.modc := counted
    rw [State.backward_tracking tracking, State.retreat_eq]
    split
    · refine State.FollowsTable.after (State.raiseAt_followsTable ?_ _ _ _) (by rw [given])
      rw [given]
      exact Mode.tracking_running tracking
    · exact .of_modc given

theorem State.invalidChange_followsTable (s : State) : s.FollowsTable s.invalidChange := by
  unfold State.invalidChange
  split
  · exact .inl rfl
  · dsimp only
    split
    · rename_i running
      exact (State.raiseAt_followsTable (by exact running) _ _ _).after rfl
    · exact .inl rfl

/-! ### The speed window, the interlock, the index and the sensors -/

/-- A computation anew leaves the mode; a halt before it leaves it nothing to do (R29, R49). -/
theorem State.FollowsTable.recompute (h : s.FollowsTable t) (ended : t.modc.mode = s.modc.mode ∨ t.modc.mode = .halted) :
    s.FollowsTable t.recompute := by
  rcases ended with same | halted
  · obtain ⟨-, -, -, modc⟩ := t.recompute_keeps
    exact .inl (by rw [modc]; exact same)
  · rw [State.recompute_idle (by rw [halted]; rfl)]
    exact h

theorem State.speedExpires_followsTable (s : State) : s.FollowsTable s.speedExpires := by
  have published : s.published.modc.mode = s.modc.mode := rfl
  unfold State.speedExpires
  dsimp only
  split
  · rename_i fast
    obtain ⟨running, -⟩ := (Bool.and_eq_true _ _).mp fast
    refine .recompute ((State.raiseAt_followsTable (by exact running) _ _ _).after published) ?_
    exact State.raiseAt_mode _ _ _ _
  · exact .recompute (.inl published) (.inl published)

theorem State.interlockOpens_followsTable (s : State) : s.FollowsTable s.interlockOpens := by
  have opened : s.opened.modc = s.modc := by simp [State.opened]
  cases closed : s.out.interlock with
  | opened => rw [State.interlockOpens_opened closed]; exact .inl rfl
  | closed =>
    rw [State.interlockOpens_closed closed]
    split
    · rename_i running
      exact (State.raiseAt_followsTable (by rw [opened]; exact running) _ _ _).after (by rw [opened])
    · exact .of_modc opened

theorem State.endInterval_followsTable (s : State) : s.FollowsTable s.endInterval := by
  unfold State.endInterval
  dsimp only
  split
  · exact (State.raiseAt_warning_followsTable _ _ _ rfl).after rfl
  · exact .inl rfl

theorem State.indexArrives_followsTable (s : State) : s.FollowsTable s.indexArrives := by
  unfold State.indexArrives
  split
  case h_1 | h_2 => exact .inl rfl
  case h_3 mode =>
    split
    · exact State.acquire_followsTable (.inl mode) _ _ _
    · exact .inl rfl
    · exact .inl rfl
  case h_4 | h_5 =>
    split
    · exact .inl rfl
    · split
      · exact s.endInterval_followsTable
      · exact .inl rfl

/-- A record sets no MODE flag (R84, R87, R157). -/
theorem State.record_modeFlag (s : State) (r : CaptureRecord) : (s.record r).flag .mode = s.flag .mode := by
  unfold State.record
  split
  · dsimp only
    split
    · exact State.flag_setFlag _ .capt .mode
    · rfl
  · exact (State.raiseAt_raises _ _ _ _ rfl).flag (by decide)

theorem State.edgeArrives_followsTable (s : State) (n : SensorNo) (d : Edge) : s.FollowsTable (s.edgeArrives n d) := by
  have recorded (t : State) (r : CaptureRecord) : (t.record r).modc = t.modc := by simp
  unfold State.edgeArrives
  split
  · exact .inl rfl
  · split
    case h_1 | h_2 => exact .inl rfl
    case h_3 mode =>
      split
      · have acquired := State.acquire_followsTable (.inl mode) s s.cfg.markNominal.toNat false
        have marked : s.FollowsTable s.markAcquired := acquired.before rfl rfl
        exact marked.before (congrArg Modc.mode (recorded s.markAcquired _)) (State.record_modeFlag s.markAcquired _)
      · exact .of_modc (recorded s _)
    case h_4 | h_5 =>
      exact .of_modc (by rw [recorded]; simp)

/-! ### The commands given by a strobe -/

theorem State.cmdStart_followsTable (s : State) : s.FollowsTable s.cmdStart := by
  unfold State.cmdStart
  split
  · exact .inl rfl
  · rename_i config
    rw [Decidable.not_not] at config
    split
    · exact .inl rfl
    · split
      · exact .inl rfl
      · refine .answer ?_ _ _
        split
        · exact State.acquire_followsTable (.inr config) _ _ _
        all_goals exact State.enterAcquire_followsTable config

/-- Every command given by a strobe but SOFT_RESET follows the table. -/
theorem State.runCommand_followsTable (s : State) (c : Command) (h : c ≠ .softReset) :
    s.FollowsTable (s.runCommand c) := by
  have refused (r : ResultCode) : s.FollowsTable (s.answer c r) := .inl rfl
  cases c with
  | softReset => exact absurd rfl h
  | start => exact s.cmdStart_followsTable
  | stop =>
    unfold State.runCommand State.cmdStop
    dsimp only
    split
    case h_1 | h_2 => exact .inl rfl
    case h_3 => exact .answer s.enterConfig_followsTable _ _
    case h_4 | h_5 => exact refused _
  | haltNow =>
    unfold State.runCommand State.cmdHaltNow
    dsimp only
    split
    · rename_i running
      exact .answer (State.enterHalted_followsTable running _) _ _
    · exact refused _
  | clearHalt =>
    unfold State.runCommand State.cmdClearHalt
    dsimp only
    split
    · exact refused _
    · split
      · exact refused _
      · exact .answer s.enterConfig_followsTable _ _
  | _ => exact .of_modc (s.runCommand_quiet _ (by decide)).2

/-- The state after a SOFT_RESET that was accepted, in the words of the claim (R137). -/
@[reducible] def State.SoftlyReset (t : State) : Prop :=
  t.modc.mode = .config ∧ t.biu.flags = 0 ∧ t.biu.result = ⟨5, .ok, 0⟩

/-- SOFT_RESET is refused, or leaves the part reset (R137). -/
theorem State.cmdSoftReset_modes (s : State) : s.FollowsTable s.cmdSoftReset ∨ s.cmdSoftReset.SoftlyReset := by
  unfold State.cmdSoftReset
  split
  · exact .inl (.inl rfl)
  · exact .inr ⟨rfl, rfl, rfl⟩

theorem State.runCommand_modes (s : State) (c : Command) :
    s.FollowsTable (s.runCommand c) ∨ (s.runCommand c).SoftlyReset := by
  by_cases h : c = .softReset
  · rw [h]
    exact s.cmdSoftReset_modes
  · exact .inl (s.runCommand_followsTable c h)

/-! ### Bus writes -/

/-- A write taken in CONFIG alone leaves the mode. -/
theorem State.followsTable_of_frozen (s t : State) (mode : t.modc = s.modc) :
    s.FollowsTable (if s.modc.mode ≠ .config then s.setAccessViolation else t) := by
  split
  · exact .inl rfl
  · exact .of_modc mode

theorem State.busWrite_modes (s : State) (w : WriteTarget) (v : Word) :
    s.FollowsTable (s.busWrite w v) ∨ (s.busWrite w v).SoftlyReset := by
  cases w with
  | strobe r =>
    unfold State.busWrite State.writeStrobe
    dsimp only
    split
    · exact .inl (.inl rfl)
    · exact s.runCommand_modes _
    · exact .inl (.inl rfl)
  | frozen | encoderCfg | timebaseDiv | acqCfg => exact .inl (s.followsTable_of_frozen _ rfl)
  | safeLevels =>
    refine .inl (s.followsTable_of_frozen _ ?_)
    dsimp only
    split <;> rfl
  | _ => exact .inl (.inl rfl)

/-! ### Every command -/

/-- A command that is no reset follows the table, or is a SOFT_RESET. -/
theorem effectOf_modes (c : Instr) (s : State) (h : isHardReset c = false) :
    s.FollowsTable (effectOf c s) ∨ (effectOf c s).SoftlyReset := by
  cases c with
  | powerOn | resetPin | resetPinHeld => cases h
  | forwardCount => exact .inl s.forward_followsTable
  | revolutionBoundary =>
    unfold effectOf State.boundaryCount
    dsimp only
    split
    · exact .inl s.forward_followsTable
    · exact .inl (.inl rfl)
  | acquireTimeout =>
    unfold effectOf State.timeoutCount
    dsimp only
    split
    · exact .inl s.forward_followsTable
    · exact .inl (.inl rfl)
  | backwardCount => exact .inl s.backward_followsTable
  | invalidTransition => exact .inl s.invalidChange_followsTable
  | indexArrival => exact .inl s.indexArrives_followsTable
  | speedWindowExpiry => exact .inl s.speedExpires_followsTable
  | sensorEdge n d => exact .inl (s.edgeArrives_followsTable n d)
  | interlockOpening => exact .inl s.interlockOpens_followsTable
  | pulseExpiry i =>
    unfold effectOf State.pulseExpires
    dsimp only
    split <;> exact .inl (.inl rfl)
  | fetchCompletion =>
    obtain ⟨-, -, -, modc⟩ := s.fetchCompletes_keeps
    exact .inl (.of_modc modc)
  | readbackCompletion =>
    obtain ⟨-, -, -, modc⟩ := s.readbackCompletes_keeps
    exact .inl (.of_modc modc)
  | applicationCompletion =>
    obtain ⟨-, -, modc, -⟩ := s.applicationCompletes_keeps
    exact .inl (.of_modc modc)
  | start | stop | haltNow | clearHalt | softReset | ackFault | popCapture | applyManual | clearCounters | submitInsert
  | submitRemove | submitModify | commit | discardOpen | readEntry | clearTable | raiseLock =>
    unfold effectOf
    exact s.runCommand_modes _
  | invalidCommandWrite | intFlagsWrite | intEnableWrite | stickyStatusWrite | frozenWordWrite | encoderCfgWrite
  | timebaseDivWrite | acqCfgWrite | safeLevelsWrite | registerWrite =>
    unfold effectOf
    exact s.busWrite_modes _ _
  | interlockClosing | positionRead | commitResultRead | faultCauseRead => exact .inl (.inl rfl)

/-- Settles O4: every command's change follows the table or is a SOFT_RESET, which leaves CONFIG behind. -/
theorem modeChangesOnlyAlongTheTransitionTable : Obligations.ModeChangesOnlyAlongTheTransitionTable := by
  refine ⟨fun m => ?_, fun c s t soft h => ?_⟩
  · cases m <;> decide
  · have modes : s.FollowsTable t ∨ t.SoftlyReset := by
      rcases exec_next h with rfl | rfl
      · exact .inl (.inl rfl)
      · exact effectOf_modes c s soft
    rcases modes with (same | ⟨along, flagged⟩) | reset
    · exact ⟨by rw [same]; exact s.modc.mode.mayBecome_self, fun moved => absurd same moved⟩
    · exact ⟨along, fun _ => .inl flagged⟩
    · exact ⟨by rw [reset.1]; exact s.modc.mode.mayBecome_config, fun _ => .inr reset⟩

end Sys2Proof.Machine
end

section
/-! PROOFS. ACK_FAULT, and the words that clear flags and indications and store the enables of INT. -/

namespace Sys2Proof.Machine

variable {s : State}

/-! ### ACK_FAULT -/

/-- Of a record at the head of a pending set in priority order no other member is the highest (R153). -/
theorem highest_iff_head {x r : FaultRecord} {l : List FaultRecord}
    (order : (x :: l).Pairwise fun a b => a.cause.code < b.cause.code) (hr : r ∈ x :: l) :
    (∀ y ∈ x :: l, r.cause.code ≤ y.cause.code) ↔ r = x := by
  obtain ⟨below, -⟩ := List.pairwise_cons.mp order
  constructor
  · intro lowest
    rcases List.mem_cons.mp hr with head | later
    · exact head
    · have above := below r later
      have lowest := lowest x List.mem_cons_self
      omega
  · rintro rfl y hy
    rcases List.mem_cons.mp hy with rfl | later
    · exact Nat.le_refl _
    · exact Nat.le_of_lt (below y later)

/-- Without its head a pending set in priority order holds every record but that one. -/
theorem filter_ne_head {x : FaultRecord} {l : List FaultRecord}
    (order : (x :: l).Pairwise fun a b => a.cause.code < b.cause.code) :
    (x :: l).filter (fun y => decide (y ≠ x)) = l := by
  obtain ⟨below, -⟩ := List.pairwise_cons.mp order
  rw [List.filter_cons_of_neg (by simp), List.filter_eq_self]
  intro y hy
  have differs : y ≠ x := by
    rintro rfl
    exact Nat.lt_irrefl _ (below y hy)
  exact decide_eq_true differs

/-- An argument that is no cause's code is refused (R155). -/
theorem State.cmdAckFault_badArgument (h : s.biu.arg.toNat = 0 ∨ 12 < s.biu.arg.toNat) :
    s.cmdAckFault = s.answer .ackFault .badArgument :=
  if_pos h

/-- With nothing pending there is no highest cause (R155). -/
theorem State.cmdAckFault_empty (low : 1 ≤ s.biu.arg.toNat) (high : s.biu.arg.toNat ≤ 12) (none : s.flt.causes = []) :
    s.cmdAckFault = s.answer .ackFault .notHighest := by
  rw [State.cmdAckFault, if_neg (by omega), none]

/-- An argument that is a cause's code is judged against the head of the pending set (R155). -/
theorem State.cmdAckFault_cons (low : 1 ≤ s.biu.arg.toNat) (high : s.biu.arg.toNat ≤ 12) {x : FaultRecord}
    {rest : List FaultRecord} (causes : s.flt.causes = x :: rest) :
    s.cmdAckFault = if x.cause.code = s.biu.arg.toNat then { s with flt.causes := rest }.answer .ackFault .ok
      else s.answer .ackFault .notHighest := by
  rw [State.cmdAckFault, if_neg (by omega), causes]

/-- Settles O54: the pending set is in priority order, so the highest cause stands at its head. -/
theorem ackFaultRemovesTheHighestCauseAlone : Obligations.AckFaultRemovesTheHighestCauseAlone := by
  rintro s held ⟨order, -⟩
  have run : exec .ackFault s = .next s.cmdAckFault := exec_live _ s held
  rw [run]
  refine ⟨fun bad => ?_, fun low high notHighest => ?_, fun low high r hr named highest => ?_⟩
  · rw [State.cmdAckFault_badArgument bad]
    rfl
  · cases causes : s.flt.causes with
    | nil =>
      rw [State.cmdAckFault_empty low high causes]
      rfl
    | cons x rest =>
      rw [causes] at order notHighest
      have other : x.cause.code ≠ s.biu.arg.toNat := fun named =>
        notHighest ⟨x, List.mem_cons_self, named, (highest_iff_head order List.mem_cons_self).mpr rfl⟩
      rw [State.cmdAckFault_cons low high causes, if_neg other]
      rfl
  · cases causes : s.flt.causes with
    | nil => rw [causes] at hr; cases hr
    | cons x rest =>
      rw [causes] at order hr highest
      obtain rfl := (highest_iff_head order hr).mp highest
      rw [State.cmdAckFault_cons low high causes, if_pos named, filter_ne_head order]
      rfl

/-! ### The flags, the enables and the indications -/

/-- Clearing the bits written 1 keeps each bit that is written 0 (R158, R162). -/
theorem getLsbD_clearWritten {n : Nat} (x : BitVec n) (v : Word) {i : Nat} (h : i < n) :
    (x &&& ~~~(v.extractLsb' 0 n)).getLsbD i = (x.getLsbD i && !v.getLsbD i) := by
  simp [h]

/-- The lowest bits of a word are stored each at its own place (R159). -/
theorem getLsbD_lowBits {n : Nat} (v : Word) {i : Nat} (h : i < n) : (v.extractLsb' 0 n).getLsbD i = v.getLsbD i := by
  simp [h]

/-- The place of a flag's bit in INT_FLAGS and INT_ENABLE (R180). -/
def Flag.place : Flag → Nat
  | .rev => 0
  | .mode => 1
  | .fault => 2
  | .capt => 3
  | .commit => 4
  | .read => 5

/-- A flag is the bit at its place (R180). -/
theorem State.flag_eq_getLsbD (s : State) (f : Flag) : s.flag f = s.biu.flags.getLsbD f.place := by
  have bits : ∀ b : BitVec 6, (b &&& f.mask == f.mask) = b.getLsbD f.place := by
    cases f <;> decide
  exact bits s.biu.flags

/-- A word has a bit set exactly where it is not 0. -/
theorem ne_zero_iff_exists_getLsbD {n : Nat} (x : BitVec n) : x ≠ 0 ↔ ∃ i < n, x.getLsbD i = true := by
  change x ≠ 0#n ↔ _
  rw [Ne, BitVec.zero_iff_eq_false, Classical.not_forall]
  simp only [Bool.not_eq_false]
  constructor
  · rintro ⟨i, set⟩
    exact ⟨i, BitVec.lt_of_getLsbD set, set⟩
  · rintro ⟨i, -, set⟩
    exact ⟨i, set⟩

/-- INT is asserted while a flag stands with its enable (R160). -/
theorem State.intAsserted_iff (held : s.resetHeld = false) :
    s.intAsserted = true ↔ ∃ i < 6, s.biu.flags.getLsbD i = true ∧ s.biu.enables.getLsbD i = true := by
  rw [State.intAsserted, held, Bool.not_false, Bool.true_and, bne_iff_ne, ne_zero_iff_exists_getLsbD]
  simp only [BitVec.getLsbD_and, Bool.and_eq_true]

/-- Settles O57: each write moves one field of the bus interface, bit by bit, and INT reads two of them. -/
theorem flagWritesClearAndEnablesDriveTheInterrupt : Obligations.FlagWritesClearAndEnablesDriveTheInterrupt := by
  intro s v held
  have run (c : Instr) : exec c s = .next (effectOf c s) := exec_live c s held
  refine ⟨⟨_, run _, rfl, fun i hi => ?_⟩, ⟨_, run _, rfl, fun i hi => ?_⟩, ⟨_, run _, rfl, fun i hi => ?_⟩,
    fun f => ?_, State.intAsserted_iff held⟩
  · exact getLsbD_clearWritten s.biu.flags v hi
  · exact getLsbD_lowBits v hi
  · exact getLsbD_clearWritten s.biu.sticky v hi
  · rw [State.flag_eq_getLsbD]
    cases f <;> rfl

end Sys2Proof.Machine
end

section
/-! PROOFS. The law of the pending set (R150): the changes in which no halting cause joins, firing and the boundary's
account among them, and what a halting raise and the mode entries do to it. -/

namespace Sys2Proof.Machine

variable {s t u : State}

/-! ### The pending set -/

/-- Records in priority order, each cause once (R150, R153). -/
@[reducible] def inPriorityOrder (l : List FaultRecord) : Prop := l.Pairwise fun a b => a.cause.code < b.cause.code

/-- The halting causes of a pending set (R145). -/
def haltingAmong (l : List FaultRecord) : List Cause := (l.map FaultRecord.cause).filter Cause.halting

/-- The law of the pending set, by its order and its halting causes. -/
theorem State.pendingLaw_iff : s.PendingLaw ↔ inPriorityOrder s.flt.causes ∧ (haltingAmong s.flt.causes).length ≤ 1
    ∧ (haltingAmong s.flt.causes ≠ [] → s.modc.mode = .halted) := by
  have count : (haltingAmong s.flt.causes).length
      = (s.flt.causes.filter fun r => decide (r.cause.code ≤ 6)).length := by
    rw [haltingAmong, List.filter_map, List.length_map]
    rfl
  have some : haltingAmong s.flt.causes ≠ [] ↔ ∃ r ∈ s.flt.causes, r.cause.code ≤ 6 := by
    simp [haltingAmong, Cause.halting]
  rw [count, some]
  rfl

/-- No halting cause is pending where there is none among the causes (R151). -/
theorem State.noneHalting_iff_nil : s.NoneHalting ↔ haltingAmong s.flt.causes = [] := by
  simp [State.NoneHalting, haltingAmong, Cause.halting]

/-- A repeat leaves the order (R149). -/
theorem repeatCause_order (c : Cause) {l : List FaultRecord} (h : inPriorityOrder l) :
    inPriorityOrder (repeatCause c l) := by
  have codes (m : List FaultRecord) :
      (m.map FaultRecord.cause).Pairwise (fun a b => a.code < b.code) ↔ inPriorityOrder m := List.pairwise_map
  rw [← codes, repeatCause_causes, codes]
  exact h

/-- A repeat brings in no halting cause (R149). -/
theorem repeatCause_haltingAmong (c : Cause) (l : List FaultRecord) :
    haltingAmong (repeatCause c l) = haltingAmong l := by
  rw [haltingAmong, repeatCause_causes, haltingAmong]

/-- A record that joins is the only new member (R148). -/
theorem addCause_perm (r : FaultRecord) (l : List FaultRecord) : (addCause r l).Perm (r :: l) := by
  induction l with
  | nil => exact .refl _
  | cons x xs ih =>
    unfold addCause
    split
    · exact .refl _
    · exact (ih.cons x).trans (.swap r x xs)

/-- A warning that joins brings in no halting cause (R145). -/
theorem addCause_haltingAmong_warning {r : FaultRecord} (warning : r.cause.halting = false) (l : List FaultRecord) :
    (haltingAmong (addCause r l)).Perm (haltingAmong l) := by
  have joined := ((addCause_perm r l).map FaultRecord.cause).filter Cause.halting
  rwa [List.map_cons, List.filter_cons_of_neg (by rw [warning]; decide)] at joined

/-- A halting cause that joins is one more (R145). -/
theorem addCause_haltingAmong_halting {r : FaultRecord} (halting : r.cause.halting = true) (l : List FaultRecord) :
    (haltingAmong (addCause r l)).Perm (r.cause :: haltingAmong l) := by
  have joined := ((addCause_perm r l).map FaultRecord.cause).filter Cause.halting
  rwa [List.map_cons, List.filter_cons_of_pos halting] at joined

/-- A cause that was not pending joins in priority order (R148, R153). -/
theorem addCause_order {r : FaultRecord} {l : List FaultRecord} (h : inPriorityOrder l)
    (new : isPending r.cause l = false) : inPriorityOrder (addCause r l) := by
  refine addCause_sorted r l h fun x hx same => ?_
  rw [isPending, List.any_eq_false] at new
  exact new x hx (beq_iff_eq.mpr (Cause.code_injective same))

/-- A raise leaves the pending set in priority order (R148, R149). -/
theorem raisedOnto_order (a : Stamp) {l : List FaultRecord} (w : Cause × Detail) (h : inPriorityOrder l) :
    inPriorityOrder (raisedOnto a l w) := by
  rw [raisedOnto_eq]
  split
  · exact repeatCause_order _ h
  · rename_i new
    exact addCause_order h (Bool.not_eq_true _ ▸ new)

/-- The raise of a warning brings in no halting cause (R148, R149). -/
theorem raisedOnto_haltingAmong (a : Stamp) (l : List FaultRecord) {w : Cause × Detail} (warning : w.1.halting = false) :
    (haltingAmong (raisedOnto a l w)).Perm (haltingAmong l) := by
  rw [raisedOnto_eq]
  split
  · rw [repeatCause_haltingAmong]
  · exact addCause_haltingAmong_warning warning l

/-- Raises in turn leave the pending set in priority order. -/
theorem raises_order (a : Stamp) (w : List (Cause × Detail)) {l : List FaultRecord} (h : inPriorityOrder l) :
    inPriorityOrder (w.foldl (raisedOnto a) l) := by
  induction w generalizing l with
  | nil => exact h
  | cons x xs ih => exact ih (raisedOnto_order a x h)

/-- Warnings in turn bring in no halting cause. -/
theorem raises_haltingAmong (a : Stamp) (w : List (Cause × Detail)) (l : List FaultRecord)
    (warnings : ∀ x ∈ w, x.1.halting = false) :
    (haltingAmong (w.foldl (raisedOnto a) l)).Perm (haltingAmong l) := by
  induction w generalizing l with
  | nil => exact .refl _
  | cons x xs ih =>
    obtain ⟨first, rest⟩ := List.forall_mem_cons.mp warnings
    exact (ih _ rest).trans (raisedOnto_haltingAmong a l first)

/-! ### The changes in which no halting cause joins -/

/-- From `s` to `t` the mode stands, the pending set stays in priority order, and no more halting causes are in it. -/
structure State.KeepsPending (s t : State) : Prop where
  mode : t.modc.mode = s.modc.mode
  order : inPriorityOrder s.flt.causes → inPriorityOrder t.flt.causes
  halting : (haltingAmong t.flt.causes).length ≤ (haltingAmong s.flt.causes).length

/-- A change after which some of the causes are left. -/
theorem State.KeepsPending.of_sublist (modc : t.modc = s.modc) (causes : t.flt.causes.Sublist s.flt.causes) :
    s.KeepsPending t where
  mode := by rw [modc]
  order := List.Pairwise.sublist causes
  halting := ((causes.map _).filter _).length_le

/-- A change that leaves MODC and FLT. -/
theorem State.KeepsPending.of_same (modc : t.modc = s.modc) (flt : t.flt = s.flt) : s.KeepsPending t :=
  .of_sublist modc (flt ▸ List.Sublist.refl _)

theorem State.KeepsPending.refl (s : State) : s.KeepsPending s := .of_same rfl rfl

theorem State.KeepsPending.trans (h : s.KeepsPending t) (h' : t.KeepsPending u) : s.KeepsPending u where
  mode := h'.mode.trans h.mode
  order ordered := h'.order (h.order ordered)
  halting := Nat.le_trans h'.halting h.halting

/-- Such a change keeps the law. -/
theorem State.PendingLaw.keep (law : s.PendingLaw) (h : s.KeepsPending t) : t.PendingLaw := by
  obtain ⟨order, one, halted⟩ := State.pendingLaw_iff.mp law
  refine State.pendingLaw_iff.mpr ⟨h.order order, Nat.le_trans h.halting one, fun some => ?_⟩
  rw [h.mode]
  exact halted (List.ne_nil_of_length_pos (Nat.lt_of_lt_of_le (List.length_pos_iff.mpr some) h.halting))

/-- Warnings raised in turn are such a change (R148, R149). -/
theorem State.WarnedInTurn.keepsPending {w : List (Cause × Detail)} {a : Stamp} (h : s.WarnedInTurn w a t)
    (warnings : ∀ x ∈ w, x.1.halting = false) (modc : t.modc = s.modc) : s.KeepsPending t := by
  obtain ⟨causes, -⟩ := h
  refine ⟨by rw [modc], fun ordered => ?_, ?_⟩
  · rw [causes]
    exact raises_order a w ordered
  · rw [causes]
    exact Nat.le_of_eq (raises_haltingAmong a w _ warnings).length_eq

/-! ### Raises and mode entries -/

/-- Outside HALTED no halting cause is pending (R150). -/
theorem State.PendingLaw.noneHalting_of_mode (law : s.PendingLaw) (mode : s.modc.mode ≠ .halted) : s.NoneHalting := by
  obtain ⟨-, -, halted⟩ := State.pendingLaw_iff.mp law
  rw [State.noneHalting_iff_nil]
  exact Decidable.byContradiction fun some => mode (halted some)

/-- Where no halting cause is pending, a change that leaves FLT keeps the law, whatever the mode. -/
theorem State.PendingLaw.of_noneHalting (law : s.PendingLaw) (none : s.NoneHalting) (flt : t.flt = s.flt) :
    t.PendingLaw := by
  obtain ⟨order, one, -⟩ := State.pendingLaw_iff.mp law
  refine State.pendingLaw_iff.mpr ⟨flt ▸ order, flt ▸ one, fun some => ?_⟩
  rw [flt] at some
  exact absurd (State.noneHalting_iff_nil.mp none) some

/-- An entry into HALTED keeps the law (R133). -/
theorem State.enterHalted_pendingLaw (law : s.PendingLaw) (r : HaltReason) : (s.enterHalted r).PendingLaw := by
  obtain ⟨order, one, -⟩ := State.pendingLaw_iff.mp law
  exact State.pendingLaw_iff.mpr ⟨by simpa using order, by simpa using one, fun _ => by simp⟩

/-- The raise of a warning is a change in which no halting cause joins (R134, R148). -/
theorem State.raiseAt_keepsPending (s : State) (a : Stamp) {c : Cause} (d : Detail) (warning : c.halting = false) :
    s.KeepsPending (s.raiseAt a c d) := by
  obtain ⟨-, -, -, -, -, -, -, modc, -⟩ := s.raiseAt_warns a c d warning
  exact (s.raiseAt_raises a c d warning).keepsPending (by simpa using warning) modc

/-- Any raise outside HALTED keeps the law: a halting cause joins a set without one, and the part enters HALTED with it
(R134, R148 to R150). -/
theorem State.raiseAt_pendingLaw (law : s.PendingLaw) (mode : s.modc.mode ≠ .halted) (a : Stamp) (c : Cause)
    (d : Detail) : (s.raiseAt a c d).PendingLaw := by
  cases halting : c.halting with
  | false => exact law.keep (s.raiseAt_keepsPending a d halting)
  | true =>
    have none := law.noneHalting_of_mode mode
    have new := none.notPending c halting
    obtain ⟨order, -, -⟩ := State.pendingLaw_iff.mp law
    rw [s.raiseAt_halts a c d new halting]
    refine State.pendingLaw_iff.mpr ⟨?_, ?_, fun _ => by simp⟩
    · simpa using addCause_order order new
    · have joined := (addCause_haltingAmong_halting (r := ⟨c, 0, a.mode, a.position, a.revolution, d⟩) halting
        s.flt.causes).length_eq
      rw [State.noneHalting_iff_nil.mp none] at joined
      simpa using Nat.le_of_eq joined

/-- The running modes are not HALTED (R123). -/
theorem Mode.ne_halted_of_running {m : Mode} (running : m.running = true) : m ≠ .halted := by
  rintro rfl
  cases running

/-- A raise in a running mode keeps the law (R134). -/
theorem State.raise_pendingLaw (law : s.PendingLaw) (running : s.modc.mode.running = true) (c : Cause) (d : Detail) :
    (s.raise c d).PendingLaw :=
  State.raiseAt_pendingLaw law (Mode.ne_halted_of_running running) _ c d

/-! ### Firing and fetches -/

theorem State.requestFetch_keepsPending (s : State) : s.KeepsPending s.requestFetch := .of_same (by simp) (by simp)

/-- A firing evaluation raises LATE_FIRE alone (R52). -/
theorem State.evaluate_keepsPending (s : State) : s.KeepsPending s.evaluate := by
  refine s.evaluate_raises.keepsPending (fun x hx => ?_) (by simp)
  obtain ⟨y, -, rfl⟩ := List.mem_map.mp hx
  rfl

/-- A computation of an effective position raises LEAD_CLAMPED alone (R48). -/
theorem Cfg.clampRaises_warnings (c : Cfg) (speed : Nat) (es : List Entry) :
    ∀ x ∈ c.clampRaises speed es, x.1.halting = false := by
  intro x hx
  rw [Cfg.clampRaises_eq] at hx
  obtain ⟨e, -, rfl⟩ := List.mem_map.mp hx
  rfl

/-- An hwm advance raises COMMIT_OVERRUN alone (R114). -/
theorem State.overrunRaises_warnings (s : State) (hwm : Nat) : ∀ x ∈ s.overrunRaises hwm, x.1.halting = false := by
  unfold State.overrunRaises
  split
  · split <;> simp [Cause.halting, Cause.code]
  · simp

theorem State.hwmAdvanced_keepsPending (s : State) : s.KeepsPending s.hwmAdvanced := by
  have watched : s.evaluate.KeepsPending s.evaluate.watchOverrun :=
    s.evaluate.watchOverrun_raises.keepsPending (State.overrunRaises_warnings _ _) (by simp)
  exact (s.evaluate_keepsPending.trans watched).trans (State.requestFetch_keepsPending _)

theorem State.recompute_keepsPending (s : State) : s.KeepsPending s.recompute := by
  unfold State.recompute
  split
  · have clamped (t : State) (l : List Slot) :
        t.KeepsPending (l.foldl (fun (t : State) (x : Slot) => t.raiseClamp x.entry) t) :=
      (raiseClamps_raise t l).keepsPending (Cfg.clampRaises_warnings _ _ _) (by simp [raiseClamps_keep])
    refine .trans (.trans (.trans ?_ (clamped _ _)) (State.evaluate_keepsPending _)) (State.requestFetch_keepsPending _)
    exact .of_same rfl rfl
  · exact .refl s

theorem State.load_keepsPending (s : State) (e : Entry) (f : Fetch) : s.KeepsPending (s.load e f) := by
  have tailed : s.KeepsPending (s.tailed e f) := .of_same rfl rfl
  have clamped : (s.tailed e f).KeepsPending ((s.tailed e f).raiseClamp e) :=
    ((s.tailed e f).raiseClamp_raises e).keepsPending (Cfg.clampRaises_warnings _ _ _) (by simp)
  unfold State.load
  split
  · exact (tailed.trans clamped).trans (State.evaluate_keepsPending _)
  · exact tailed.trans clamped

theorem State.fetchCompletes_keepsPending (s : State) : s.KeepsPending s.fetchCompletes := by
  have examined (t : State) (e : Option Entry) (f : Fetch) : t.KeepsPending (t.examine e f) := by
    unfold State.examine
    cases e with
    | none => exact .of_same rfl rfl
    | some e =>
      dsimp only
      split
      · exact (t.load_keepsPending e f).trans (.of_same rfl rfl)
      · exact .of_same rfl rfl
  unfold State.fetchCompletes
  split
  · refine .trans ?_ (State.requestFetch_keepsPending _)
    dsimp only
    split
    · refine .trans ?_ (examined _ _ _)
      exact .of_same rfl rfl
    · exact .of_same rfl rfl
    · exact .of_same rfl rfl
  · exact .refl s

/-! ### Records and the boundary -/

/-- A record that finds the capture queue full raises CAPTURE_OVERFLOW (R84). -/
theorem State.record_keepsPending (s : State) (r : CaptureRecord) : s.KeepsPending (s.record r) := by
  unfold State.record
  split
  · dsimp only
    split <;> exact .of_same rfl rfl
  · refine .trans ?_ (State.raiseAt_keepsPending _ _ _ rfl)
    exact .of_same rfl rfl

/-- The turn-over raises MISSED_ENTRY alone (R53). -/
theorem State.turnOver_keepsPending (s : State) : s.KeepsPending s.turnOver := by
  have settles (t : State) (a : Stamp) : t.KeepsPending (t.settleAccount a) := by
    unfold State.settleAccount
    split
    · exact .refl t
    · refine .trans ?_ (State.raiseAt_keepsPending _ _ _ rfl)
      exact .of_same rfl rfl
  let judged : State := { s with mcr := s.mcr.publish s.cfg, lfu := s.lfu.cancelFetch }
  have judges : s.KeepsPending judged := .of_same rfl rfl
  have turns : (judged.settleAccount s.endingStamp).KeepsPending s.turned := .of_same rfl rfl
  refine ((judges.trans (settles _ _)).trans turns).trans ?_
  have rest : s.turnOver = ((s.turned.rollWindow s.groupWaits).beginApplication true).requestFetch := rfl
  rw [rest]
  exact .of_same (by simp) (by simp)

/-- At a boundary MODC keeps the law: it moves between modes in which no halting cause is pending, or halts with
MARKS_LOST (R132, R139 to R142). -/
theorem State.ladderStep_pendingLaw (law : s.PendingLaw) (mode : s.modc.mode ≠ .halted) (a : Stamp) (v : Verdict) :
    (s.ladderStep a v).PendingLaw := by
  have none := law.noneHalting_of_mode mode
  obtain ⟨m, same, stays | freewheel | relocks | config | lost⟩ := s.ladderStep_moves a v
  · rw [stays]
    exact law.of_noneHalting none rfl
  · rw [freewheel]
    exact law.of_noneHalting none (by simp)
  · rw [relocks]
    exact law.of_noneHalting none (by simp)
  · rw [config]
    exact law.of_noneHalting none (by simp)
  · have counted : ({ s with modc := m } : State).PendingLaw := law.of_noneHalting none rfl
    rw [← same] at mode
    rw [lost]
    exact State.raiseAt_pendingLaw counted mode _ _ _

theorem State.boundary_pendingLaw (law : s.PendingLaw) (mode : s.modc.mode ≠ .halted) : s.boundary.PendingLaw := by
  have turned := s.turnOver_keepsPending
  rw [← turned.mode] at mode
  unfold State.boundary
  exact State.ladderStep_pendingLaw (law.keep turned) mode _ _

end Sys2Proof.Machine
end

section
/-! PROOFS. The law of the pending set (R150) under the counts, the index, the sensors, the interlock, the bus and every
step. -/

namespace Sys2Proof.Machine

variable {s t : State}

/-! ### Counts -/

theorem State.advance_pendingLaw (law : s.PendingLaw) (tracking : s.modc.mode.tracking = true) :
    s.advance.PendingLaw := by
  have moved (a : Axt) : s.KeepsPending { s with axt := a } := .of_same rfl rfl
  unfold State.advance
  dsimp only
  split
  · exact law.keep (moved _)
  · split
    · exact law.keep (moved _)
    · split
      · split
        · exact law.keep ((moved _).trans (State.hwmAdvanced_keepsPending _))
        · exact law.keep (moved _)
      · exact State.boundary_pendingLaw law (Mode.ne_halted_of_running (Mode.tracking_running tracking))

/-- A count in ACQUIRE may raise ACQUIRE_TIMEOUT (R35). -/
theorem State.acquireCount_pendingLaw (law : s.PendingLaw) (running : s.modc.mode.running = true) :
    s.acquireCount.PendingLaw := by
  let counted : State := { s with axt.acqCount := s.axt.acqCount + 1 }
  have counts : counted.PendingLaw := law.keep (.of_same rfl rfl)
  change (if counted.axt.acqCount = 2 * s.revLen then counted.raise .acquireTimeout (.num 0) else counted).PendingLaw
  split
  · exact State.raise_pendingLaw counts running _ _
  · exact counts

theorem State.forward_pendingLaw (law : s.PendingLaw) : s.forward.PendingLaw := by
  have counted : s.KeepsPending s.countedForward :=
    .of_same (by simp [State.countedForward]) (by simp [State.countedForward])
  have counts := law.keep counted
  cases mode : s.modc.mode with
  | config => rw [State.forward_idle (.inl mode)]; exact counts
  | halted => rw [State.forward_idle (.inr mode)]; exact counts
  | acquire =>
    rw [State.forward_acquire mode]
    exact State.acquireCount_pendingLaw counts (by rw [counted.mode, mode]; rfl)
  | locked | freewheel =>
    rw [State.forward_tracking (by rw [mode]; rfl)]
    exact State.advance_pendingLaw counts (by rw [counted.mode, mode]; rfl)

/-- A backward count beyond the tolerance raises REVERSAL (R25). -/
theorem State.backward_pendingLaw (law : s.PendingLaw) : s.backward.PendingLaw := by
  have counted : s.KeepsPending s.countedBackward :=
    .of_same (by simp [State.countedBackward]) (by simp [State.countedBackward])
  have counts := law.keep counted
  cases tracking : s.modc.mode.tracking with
  | false => rw [State.backward_idle tracking]; exact counts
  | true =>
    have given : s.countedBackward.KeepsPending s.countedBackward.retreated := .of_same rfl rfl
    have running : s.countedBackward.retreated.modc.mode.running = true := by
      rw [given.mode, counted.mode]
      exact Mode.tracking_running tracking
    rw [State.backward_tracking tracking, State.retreat_eq]
    split
    · exact State.raise_pendingLaw (counts.keep given) running _ _
    · exact counts.keep given

/-- An invalid transition in a running mode raises ENCODER_ERROR (R19). -/
theorem State.invalidChange_pendingLaw (law : s.PendingLaw) : s.invalidChange.PendingLaw := by
  have accepted (l : EncLevels) : s.KeepsPending (s.acceptLevels l) := .of_same rfl rfl
  unfold State.invalidChange
  split
  · exact law
  · dsimp only
    split
    · rename_i running
      exact State.raise_pendingLaw (law.keep (accepted _)) running _ _
    · exact law.keep (accepted _)

/-! ### The speed window, the interlock, the index and the sensors -/

/-- An expiry of the speed window in a running mode may raise OVERSPEED (R29). -/
theorem State.speedExpires_pendingLaw (law : s.PendingLaw) : s.speedExpires.PendingLaw := by
  have published : s.published.PendingLaw := law.keep (.of_same rfl rfl)
  unfold State.speedExpires
  dsimp only
  split
  · rename_i fast
    obtain ⟨running, -⟩ := (Bool.and_eq_true _ _).mp fast
    exact (State.raise_pendingLaw published running _ _).keep (State.recompute_keepsPending _)
  · exact published.keep (State.recompute_keepsPending _)

/-- An opening of the interlock in a running mode raises INTERLOCK_OPEN (R75). -/
theorem State.interlockOpens_pendingLaw (law : s.PendingLaw) : s.interlockOpens.PendingLaw := by
  have opened : s.KeepsPending s.opened := .of_same (by simp [State.opened]) (by simp [State.opened])
  cases closed : s.out.interlock with
  | opened => rw [State.interlockOpens_opened closed]; exact law
  | closed =>
    rw [State.interlockOpens_closed closed]
    split
    · rename_i running
      exact State.raise_pendingLaw (law.keep opened) (by rw [opened.mode]; exact running) _ _
    · exact law.keep opened

/-- An interval that ends may raise INDEX_SLIP (R34). -/
theorem State.endInterval_keepsPending (s : State) : s.KeepsPending s.endInterval := by
  unfold State.endInterval
  dsimp only
  split
  · refine .trans ?_ (State.raiseAt_keepsPending _ _ _ rfl)
    exact .of_same rfl rfl
  · exact .of_same rfl rfl

/-- An acquisition begins where no halting cause is pending (R37, R128). -/
theorem State.acquire_pendingLaw (law : s.PendingLaw) (mode : s.modc.mode ≠ .halted) (p : Nat) (b : Bool) :
    (s.acquire p b).PendingLaw :=
  law.of_noneHalting (law.noneHalting_of_mode mode) (by simp)

theorem State.indexArrives_pendingLaw (law : s.PendingLaw) : s.indexArrives.PendingLaw := by
  unfold State.indexArrives
  split
  case h_1 | h_2 => exact law
  case h_3 mode =>
    split
    · exact State.acquire_pendingLaw law (by rw [mode]; decide) _ _
    · exact law
    · exact law
  case h_4 | h_5 =>
    split
    · exact law
    · split
      · exact law.keep s.endInterval_keepsPending
      · exact law.keep (.of_same rfl rfl)

theorem State.edgeArrives_pendingLaw (law : s.PendingLaw) (n : SensorNo) (d : Edge) : (s.edgeArrives n d).PendingLaw := by
  unfold State.edgeArrives
  split
  · exact law
  · split
    case h_1 | h_2 => exact law
    case h_3 mode =>
      split
      · have acquired := State.acquire_pendingLaw law (by rw [mode]; decide) s.cfg.markNominal.toNat false
        have marked : s.markAcquired.PendingLaw := acquired.keep (.of_same rfl rfl)
        exact marked.keep (State.record_keepsPending _ _)
      · exact law.keep (s.record_keepsPending _)
    case h_4 | h_5 =>
      have judged (cls : CaptureClass) : s.KeepsPending (s.judgeMark cls) := by cases cls <;> exact .of_same rfl rfl
      exact law.keep ((judged _).trans (State.record_keepsPending _ _))

/-! ### The commands given by a strobe -/

/-- A reset leaves nothing pending (R156). -/
theorem State.PendingLaw.of_empty (empty : t.flt.causes = []) : t.PendingLaw := by
  rw [State.pendingLaw_iff, empty]
  exact ⟨.nil, Nat.zero_le _, fun some => absurd rfl some⟩

/-- Of the commands that leave the mode, ACK_FAULT alone reaches the pending set, and it takes a cause out (R155). -/
theorem State.runCommand_keepsPending (s : State) (c : Command) (h : movesMode c = false) :
    s.KeepsPending (s.runCommand c) := by
  obtain ⟨-, modc⟩ := s.runCommand_quiet c h
  have stands (flt : (s.runCommand c).flt = s.flt) : s.KeepsPending (s.runCommand c) := .of_same modc flt
  cases c with
  | start | stop | haltNow | clearHalt | softReset => cases h
  | ackFault =>
    refine .of_sublist modc ?_
    unfold State.runCommand State.cmdAckFault
    dsimp only
    split
    · exact .refl _
    · split
      · exact .refl _
      · rename_i r rest causes
        split
        · rw [causes]
          exact List.sublist_cons_self r rest
        · exact .refl _
  | submitInsert | submitRemove | submitModify | popCapture | applyManual | clearTable | raiseLock =>
    refine stands ?_
    simp only [State.runCommand, State.cmdSubmitInsert, State.cmdSubmitRemove, State.cmdSubmitModify, State.submit,
      State.cmdPopCapture, State.cmdApplyManual, State.cmdClearTable, State.cmdRaiseLock]
    repeat' split
    all_goals rfl
  | commit | readEntry =>
    refine stands ?_
    simp only [State.runCommand, State.cmdCommit, State.cmdReadEntry]
    repeat' split
    all_goals simp
  | clearCounters | discardOpen => exact stands rfl

/-- START begins a run from CONFIG, where no halting cause is pending (R125). -/
theorem State.cmdStart_pendingLaw (law : s.PendingLaw) : s.cmdStart.PendingLaw := by
  have refused (r : ResultCode) (k : BitVec 3) : (s.answer .start r k).PendingLaw := law.keep (.of_same rfl rfl)
  unfold State.cmdStart
  split
  · exact refused _ _
  · rename_i config
    rw [Decidable.not_not] at config
    have none := law.noneHalting_of_mode (by rw [config]; decide)
    split
    · exact refused _ _
    · split
      · exact refused _ _
      · refine law.of_noneHalting none ?_
        split <;> simp

/-- CLEAR_HALT is refused where a halting cause is pending (R136). -/
theorem State.cmdClearHalt_pendingLaw (law : s.PendingLaw) : s.cmdClearHalt.PendingLaw := by
  have refused (r : ResultCode) : (s.answer .clearHalt r).PendingLaw := law.keep (.of_same rfl rfl)
  unfold State.cmdClearHalt
  split
  · exact refused _
  · split
    · exact refused _
    · rename_i acknowledged
      rw [Bool.not_eq_true] at acknowledged
      exact law.of_noneHalting (s.noneHalting_iff.mpr acknowledged) (by simp)

/-- STOP enters CONFIG from ACQUIRE alone (R131). -/
theorem State.cmdStop_pendingLaw (law : s.PendingLaw) : s.cmdStop.PendingLaw := by
  unfold State.cmdStop
  split
  case h_1 mode | h_2 mode => exact law.of_noneHalting (law.noneHalting_of_mode (by rw [mode]; decide)) rfl
  case h_3 mode => exact law.of_noneHalting (law.noneHalting_of_mode (by rw [mode]; decide)) (by simp)
  case h_4 | h_5 => exact law.keep (.of_same rfl rfl)

theorem State.runCommand_pendingLaw (law : s.PendingLaw) (c : Command) : (s.runCommand c).PendingLaw := by
  cases c with
  | start => exact State.cmdStart_pendingLaw law
  | stop => exact State.cmdStop_pendingLaw law
  | haltNow =>
    unfold State.runCommand State.cmdHaltNow
    dsimp only
    split
    · exact (State.enterHalted_pendingLaw law _).keep (.of_same rfl rfl)
    · exact law.keep (.of_same rfl rfl)
  | clearHalt => exact State.cmdClearHalt_pendingLaw law
  | softReset =>
    unfold State.runCommand State.cmdSoftReset
    dsimp only
    split
    · exact law.keep (.of_same rfl rfl)
    · exact .of_empty rfl
  | _ => exact law.keep (s.runCommand_keepsPending _ (by decide))

/-! ### Bus writes -/

/-- A write taken in CONFIG alone leaves the mode and the pending set (R172). -/
theorem State.KeepsPending.of_frozen (s t : State) (modc : t.modc = s.modc) (flt : t.flt = s.flt) :
    s.KeepsPending (if s.modc.mode ≠ .config then s.setAccessViolation else t) := by
  split
  · exact .of_same rfl rfl
  · exact .of_same modc flt

theorem State.busWrite_pendingLaw (law : s.PendingLaw) (w : WriteTarget) (v : Word) : (s.busWrite w v).PendingLaw := by
  cases w with
  | strobe r =>
    unfold State.busWrite State.writeStrobe
    dsimp only
    split
    · exact law
    · exact State.runCommand_pendingLaw law _
    · exact law.keep (.of_same rfl rfl)
  | frozen | encoderCfg | timebaseDiv | acqCfg => exact law.keep (.of_frozen s _ rfl rfl)
  | safeLevels =>
    refine law.keep (.of_frozen s _ ?_ ?_) <;>
    · dsimp only
      split <;> rfl
  | _ => exact law.keep (.of_same rfl rfl)

/-! ### Every step -/

/-- Every command keeps the law of the pending set. -/
theorem effectOf_pendingLaw (c : Instr) (law : s.PendingLaw) : (effectOf c s).PendingLaw := by
  cases c with
  | forwardCount => exact State.forward_pendingLaw law
  | revolutionBoundary =>
    unfold effectOf State.boundaryCount
    dsimp only
    split
    · exact State.forward_pendingLaw law
    · exact law
  | acquireTimeout =>
    unfold effectOf State.timeoutCount
    dsimp only
    split
    · exact State.forward_pendingLaw law
    · exact law
  | backwardCount => exact State.backward_pendingLaw law
  | invalidTransition => exact State.invalidChange_pendingLaw law
  | indexArrival => exact State.indexArrives_pendingLaw law
  | speedWindowExpiry => exact State.speedExpires_pendingLaw law
  | sensorEdge n d => exact State.edgeArrives_pendingLaw law n d
  | interlockOpening => exact State.interlockOpens_pendingLaw law
  | pulseExpiry i =>
    unfold effectOf State.pulseExpires
    dsimp only
    split <;> exact law.keep (.of_same rfl rfl)
  | fetchCompletion => exact law.keep s.fetchCompletes_keepsPending
  | readbackCompletion =>
    unfold effectOf State.readbackCompletes
    dsimp only
    split <;> exact law.keep (.of_same (by simp) (by simp))
  | applicationCompletion =>
    unfold effectOf State.applicationCompletes
    dsimp only
    split <;> exact law.keep (.of_same (by simp) (by simp))
  | powerOn | resetPin | resetPinHeld => exact .of_empty rfl
  | start | stop | haltNow | clearHalt | softReset | ackFault | popCapture | applyManual | clearCounters | submitInsert
  | submitRemove | submitModify | commit | discardOpen | readEntry | clearTable | raiseLock =>
    unfold effectOf
    exact State.runCommand_pendingLaw law _
  | invalidCommandWrite | intFlagsWrite | intEnableWrite | stickyStatusWrite | frozenWordWrite | encoderCfgWrite
  | timebaseDivWrite | acqCfgWrite | safeLevelsWrite | registerWrite =>
    unfold effectOf
    exact State.busWrite_pendingLaw law _ _
  | interlockClosing | positionRead | commitResultRead | faultCauseRead => exact law.keep (.of_same rfl rfl)

/-- One period of REFCLK raises nothing (R17, R30). -/
theorem State.refclk_keepsPending (s : State) : s.KeepsPending s.refclk := by
  have takes : s.takeLevels.flt = s.flt := by
    unfold State.takeLevels
    split
    · rfl
    · dsimp only
      split <;> rfl
  obtain ⟨-, -, modc, -⟩ := s.refclk_keeps
  refine .of_same modc ?_
  unfold State.refclk
  split
  · rfl
  · unfold State.tick
    split <;> exact takes

/-- Settles O6: the clock leaves the pending set, and every command keeps its law: a halting cause is raised outside
HALTED alone, where none is pending, and enters HALTED with the raise. -/
theorem everyStepKeepsHaltingCausesInHalted : Obligations.EveryStepKeepsHaltingCausesInHalted := by
  intro s t law h
  refine step_preserves (P := State.PendingLaw) (fun s q law => ?_) (fun s law => ?_) (fun c s law => ?_) law h
  · exact law.keep (.of_same rfl rfl)
  · exact law.keep s.refclk_keepsPending
  · exact effectOf_pendingLaw c law

end Sys2Proof.Machine
end

section
/-! PROOFS. The register window under writes: CLEAR_COUNTERS, the decoding of a strobe, the fields of a written word, and
the registers that are written in every mode. -/

namespace Sys2Proof.Machine

variable {s : State}

/-- Settles O55: the command is one update of the state. -/
theorem clearCountersZeroesTheFourCounts : Obligations.ClearCountersZeroesTheFourCounts :=
  fun s held => exec_live .clearCounters s held

/-! ### The decoding of a strobe write -/

/-- The bits set in a word are the places listed. -/
theorem mem_bitsSet (v : Word) (i : Nat) : i ∈ bitsSet v ↔ v.getLsbD i = true := by
  rw [bitsSet, List.mem_filter, List.mem_range]
  exact and_iff_right_of_imp BitVec.lt_of_getLsbD

/-- No bit is set in 0 alone. -/
theorem bitsSet_eq_nil_iff (v : Word) : bitsSet v = [] ↔ v = 0 := by
  constructor
  · intro none
    refine BitVec.eq_of_getLsbD_eq fun i _ => ?_
    have unset : i ∉ bitsSet v := by rw [none]; exact List.not_mem_nil
    rw [mem_bitsSet, Bool.not_eq_true] at unset
    rw [unset]
    exact BitVec.getLsbD_zero.symm
  · rintro rfl
    decide

/-- One bit is set in the powers of two alone. -/
theorem bitsSet_eq_singleton_iff (v : Word) (b : Nat) : bitsSet v = [b] ↔ b < 16 ∧ v = BitVec.ofNat 16 (2 ^ b) := by
  have powers : ∀ b < 16, bitsSet (BitVec.ofNat 16 (2 ^ b)) = [b] := by decide
  constructor
  · intro single
    have set : ∀ i, v.getLsbD i = true ↔ i = b := fun i => by rw [← mem_bitsSet, single, List.mem_singleton]
    have place : b < 16 := BitVec.lt_of_getLsbD ((set b).mpr rfl)
    refine ⟨place, BitVec.eq_of_getLsbD_eq fun i _ => ?_⟩
    rw [Bool.eq_iff_iff, set, ← mem_bitsSet, powers b place, List.mem_singleton]
  · rintro ⟨place, rfl⟩
    exact powers b place

/-- How many places of a strobe register name a command (R167). -/
def commandPlaces : StrobeReg → Nat
  | .a => 9
  | .b => 8

/-- A place names a command exactly where it is one of those (R167). -/
theorem commandAt_eq_none_iff (r : StrobeReg) (b : Nat) : commandAt r b = none ↔ commandPlaces r ≤ b := by
  have named : ∀ b < commandPlaces r, commandAt r b ≠ none := by cases r <;> decide
  constructor
  · intro none
    exact Nat.le_of_not_lt fun below => named b below none
  · intro beyond
    unfold commandAt
    split
    case h_18 => rfl
    all_goals exact absurd beyond (by decide)

/-- A strobe write does nothing exactly where no bit is set (R167). -/
theorem strobeDecode_eq_nothing_iff (r : StrobeReg) (v : Word) : strobeDecode r v = .nothing ↔ v = 0 := by
  rw [← bitsSet_eq_nil_iff]
  unfold strobeDecode
  split
  · rename_i none
    simp [none]
  · rename_i b single
    rw [single]
    split <;> simp
  · rename_i several _
    exact iff_of_false nofun several

/-- It names a command exactly where one bit is set, at that command's place (R167). -/
theorem strobeDecode_eq_command_iff (r : StrobeReg) (v : Word) :
    (∃ c, strobeDecode r v = .command c) ↔ ∃ b < commandPlaces r, v = BitVec.ofNat 16 (2 ^ b) := by
  have places : commandPlaces r < 16 := by cases r <;> decide
  have named : ∀ b, b < commandPlaces r ↔ ∃ c, commandAt r b = some c := fun b => by
    rw [← Option.ne_none_iff_exists', Ne, commandAt_eq_none_iff, Nat.not_le]
  constructor
  · rintro ⟨c, decoded⟩
    unfold strobeDecode at decoded
    split at decoded
    · cases decoded
    · rename_i b single
      split at decoded
      · rename_i c' there
        exact ⟨b, (named b).mpr ⟨c', there⟩, ((bitsSet_eq_singleton_iff v b).mp single).2⟩
      · cases decoded
    · cases decoded
  · rintro ⟨b, below, rfl⟩
    obtain ⟨c, there⟩ := (named b).mp below
    refine ⟨c, ?_⟩
    rw [strobeDecode, (bitsSet_eq_singleton_iff _ b).mpr ⟨by omega, rfl⟩]
    simp [there]

/-- It names no single command in every other case (R167). -/
theorem strobeDecode_eq_noSingleCommand_iff (r : StrobeReg) (v : Word) :
    strobeDecode r v = .noSingleCommand ↔ v ≠ 0 ∧ ∀ b < commandPlaces r, v ≠ BitVec.ofNat 16 (2 ^ b) := by
  have other : strobeDecode r v = .noSingleCommand
      ↔ strobeDecode r v ≠ .nothing ∧ ¬∃ c, strobeDecode r v = .command c := by
    cases strobeDecode r v <;> simp
  rw [other, Ne, strobeDecode_eq_nothing_iff, strobeDecode_eq_command_iff]
  simp only [not_exists, not_and, Ne]

/-- Settles O56: the decoding by the bits set, and the two answers of a write that names no command. -/
theorem strobeWritesAreDecodedByTheBitsSet : Obligations.StrobeWritesAreDecodedByTheBitsSet := by
  intro s r v held
  have run : exec (.invalidCommandWrite r v) s = .next (s.writeStrobe r v) := exec_live _ s held
  refine ⟨fun none => ?_, ?_, fun decoded => ?_, by decide, by decide⟩
  · rw [run, State.writeStrobe, (strobeDecode_eq_nothing_iff r v).mpr none]
  · rw [strobeDecode_eq_noSingleCommand_iff]
    cases r <;> rfl
  · rw [run, State.writeStrobe, decoded]
    cases r <;> rfl

/-! ### The fields of a written word -/

/-- The mask of the `n` bits of a word from place `lo`. -/
def fieldMask (lo n : Nat) : Word := wordOf (place (2 ^ n - 1) lo)

theorem fieldMask_getLsbD (lo n : Nat) {i : Nat} (h : i < 16) :
    (fieldMask lo n).getLsbD i = (decide (lo ≤ i) && decide (i - lo < n)) := by
  rw [fieldMask, wordOf, place, BitVec.getLsbD_ofNat, Nat.testBit_mul_two_pow, Nat.testBit_two_pow_sub_one,
    decide_eq_true h, Bool.true_and]

/-- A field stored from its place in a word, and put back there, is the word under the field's mask (R174). -/
theorem wordOf_place_field (v : Word) (lo n : Nat) :
    wordOf (place (v.extractLsb' lo n).toNat lo) = v &&& fieldMask lo n := by
  refine BitVec.eq_of_getLsbD_eq fun i hi => ?_
  rw [BitVec.getLsbD_and, fieldMask_getLsbD lo n hi, wordOf, place, BitVec.getLsbD_ofNat, Nat.testBit_mul_two_pow,
    BitVec.testBit_toNat, BitVec.getLsbD_extractLsb', decide_eq_true hi, Bool.true_and]
  by_cases above : lo ≤ i
  · rw [Nat.add_sub_cancel' above, Bool.and_comm (v.getLsbD i), Bool.and_assoc]
  · simp [above]

/-- The same of a field at the bottom of its word. -/
theorem wordOf_lowField (v : Word) (n : Nat) : wordOf (v.extractLsb' 0 n).toNat = v &&& fieldMask 0 n := by
  rw [← wordOf_place_field, place, Nat.pow_zero, Nat.mul_one]

/-- The same of a single bit. -/
theorem wordOf_placeBit (v : Word) (k : Nat) : wordOf (placeBit (v.getLsbD k) k) = v &&& fieldMask k 1 := by
  have bit : placeBit (v.getLsbD k) k = place (v.extractLsb' k 1).toNat k := by
    rw [place, placeBit, BitVec.extractLsb'_toNat, Nat.pow_one, Nat.shiftRight_eq_div_pow,
      ← Nat.toNat_testBit, BitVec.testBit_toNat]
    cases v.getLsbD k <;> simp
  rw [bit, wordOf_place_field]

/-- Fields that share no bit make one word of their masks' union. -/
theorem wordOf_add_fields {a b : Nat} {v m m' : Word} (ha : wordOf a = v &&& m) (hb : wordOf b = v &&& m')
    (apart : m &&& m' = 0) : wordOf (a + b) = v &&& (m ||| m') := by
  have disjoint : (v &&& m) &&& (v &&& m') = 0 := by
    rw [BitVec.and_assoc, BitVec.and_comm m, BitVec.and_assoc, BitVec.and_comm m', apart]
    simp
  rw [wordOf, BitVec.ofNat_add, BitVec.and_or_distrib_left, ← BitVec.add_eq_or_of_and_eq_zero _ _ disjoint, ← ha, ← hb]
  rfl

/-- STAGING_CONTROL reads back what was written in its fields, bits 0 to 14 (R177). -/
theorem Staging.storeControl_controlWord (st : Staging) (v : Word) :
    (st.storeControl v).controlWord = v &&& 0x7FFF := by
  have low := wordOf_add_fields (wordOf_lowField v 5) (wordOf_place_field v 5 2) (by decide)
  have lead := wordOf_add_fields low (wordOf_placeBit v 7) (by decide)
  have period := wordOf_add_fields lead (wordOf_place_field v 8 3) (by decide)
  exact wordOf_add_fields period (wordOf_place_field v 11 4) (by decide)

/-! ### The registers that are written in every mode -/

/-- A read-only word and an address that is not listed discard a write (R164). -/
theorem writeTarget_discarded : ∀ a : BitVec 7,
    a.toNat ≤ 0x02 ∨ a.toNat = 0x06 ∨ (0x0A ≤ a.toNat ∧ a.toNat ≤ 0x0F) ∨ a.toNat = 0x34 ∨ a.toNat = 0x35
      ∨ (0x37 ≤ a.toNat ∧ a.toNat ≤ 0x3F) ∨ 0x44 ≤ a.toNat →
    writeTarget a = .discarded := by
  decide

/-- Settles O59: each of these addresses is reached by a write in every mode, and the discarding ones by none. -/
theorem unfrozenRegistersAreWrittenInEveryMode : Obligations.UnfrozenRegistersAreWrittenInEveryMode := by
  intro s v held
  have run (a : BitVec 7) : exec (.registerWrite a v) s = .next (s.busWrite (writeTarget a) v) := exec_live _ s held
  refine ⟨run _, run _, run _, run _, ⟨_, run _, ?_, rfl⟩, run _, run _, fun a listed => ?_⟩
  · exact s.revq.staging.storeControl_controlWord v
  · rw [run, writeTarget_discarded a listed]
    rfl

end Sys2Proof.Machine
end

section
/-! PROOFS. The frozen words: what a write taken in CONFIG stores, and what the word then reads (R172, R173, R175). -/

namespace Sys2Proof.Machine

variable {s : State}

/-! ### The fields of the frozen words -/

/-- A field as a number (R174). -/
theorem extractLsb'_toNat_eq (v : Word) (lo n : Nat) : (v.extractLsb' lo n).toNat = v.toNat / 2 ^ lo % 2 ^ n := by
  rw [BitVec.extractLsb'_toNat, Nat.shiftRight_eq_div_pow]

/-- OVERSPEED's field is 0 exactly where the word is 0 in its twelve bits (R173, log 14). -/
theorem overspeedField_eq_zero_iff (v : Word) : v.extractLsb' 0 12 = 0 ↔ v &&& 0x0FFF = 0 := by
  have field : v &&& 0x0FFF = wordOf (v.extractLsb' 0 12).toNat := (wordOf_lowField v 12).symm
  rw [field, wordOf]
  bv_omega

/-- The edge selection of a field has the field as its code (R175). -/
theorem edgeSelOfCode_code : ∀ c : BitVec 2, (edgeSelOfCode c).code = c.toNat := by decide

/-- The mark sensor is the number in its field (R175). -/
theorem markSensor_val (v : Word) : (Fin.ofNat 4 (v.extractLsb' 8 2).toNat).val = (v.extractLsb' 8 2).toNat :=
  Nat.mod_eq_of_lt (v.extractLsb' 8 2).isLt

/-- A frozen word taken in CONFIG reads what was written in its fields, OVERSPEED 0 as 1, LEAD_TIME above 20,000 as
20,000 (R172, R173, R175). -/
theorem Cfg.store_readFrozen (c : Cfg) (w : FrozenWord) (v : Word) :
    (c.store w v).readFrozen w = match w with
      | .maxCorr => v &&& 0x0FFF
      | .backlash => v &&& 0x00FF
      | .overspeed => if v &&& 0x0FFF = 0 then 1 else v &&& 0x0FFF
      | .slipCfg => v &&& 0x80FF
      | .regCfg => v &&& 0x0331
      | .ladderCfg => v &&& 0x00FF
      | .sensorCfg => v &&& 0x00FF
      | .leadTime _ => if 20000 < v.toNat then 20000 else v
      | _ => v := by
  cases w with
  | maxCorr => exact wordOf_lowField v 12
  | backlash => exact wordOf_lowField v 8
  | overspeed =>
    have field : wordOf (v.extractLsb' 0 12).toNat = v &&& 0x0FFF := wordOf_lowField v 12
    show wordOf (if v.extractLsb' 0 12 = 0 then 1 else v.extractLsb' 0 12 : BitVec 12).toNat
      = if v &&& 0x0FFF = 0 then 1 else v &&& 0x0FFF
    simp only [overspeedField_eq_zero_iff]
    split
    · rfl
    · exact field
  | slipCfg => exact wordOf_add_fields (wordOf_lowField v 8) (wordOf_placeBit v 15) (by decide)
  | regCfg =>
    have low := wordOf_add_fields (wordOf_placeBit v 0) (wordOf_place_field v 4 2) (by decide)
    have fields := wordOf_add_fields low (wordOf_place_field v 8 2) (by decide)
    rw [← markSensor_val] at fields
    exact fields
  | ladderCfg => exact wordOf_add_fields (wordOf_lowField v 4) (wordOf_place_field v 4 4) (by decide)
  | sensorCfg =>
    have first := wordOf_add_fields (wordOf_lowField v 2) (wordOf_place_field v 2 2) (by decide)
    have second := wordOf_add_fields first (wordOf_place_field v 4 2) (by decide)
    have fields := wordOf_add_fields second (wordOf_place_field v 6 2) (by decide)
    have mask : fieldMask 0 2 ||| fieldMask 2 2 ||| fieldMask 4 2 ||| fieldMask 6 2 = 0x00FF := by decide
    rw [mask] at fields
    simp only [← edgeSelOfCode_code] at fields
    simpa [Cfg.store, Cfg.readFrozen] using fields
  | leadTime i => exact Vector.getElem_set_self i.isLt
  | _ => rfl

/-- It leaves what every other word reads. -/
theorem Cfg.store_readFrozen_ne (c : Cfg) {w w' : FrozenWord} (v : Word) (h : w' ≠ w) :
    (c.store w v).readFrozen w' = c.readFrozen w' := by
  cases w' with
  | leadTime j =>
    cases w with
    | leadTime i =>
      have apart : i.val ≠ j.val := fun same => h (by rw [Fin.ext same])
      exact Vector.getElem_set_ne i.isLt j.isLt apart
    | _ => rfl
  | _ => cases w <;> first | rfl | exact absurd rfl h

/-- A stored frozen word moves no other word that can be written (R172). -/
theorem State.store_readTarget_ne (s : State) {w : FrozenWord} (v : Word) {x : WriteTarget} (h : x ≠ .frozen w) :
    { s with cfg := s.cfg.store w v }.readTarget x = s.readTarget x := by
  cases x with
  | frozen w' => exact s.cfg.store_readFrozen_ne v fun same => h (by rw [same])
  | encoderCfg | timebaseDiv | acqCfg | safeLevels | manualLevels | relockCfg => cases w <;> rfl
  | _ => rfl

/-- What a frozen word stores, field by field (R172, R173, R175). -/
theorem Cfg.store_eq (c : Cfg) (w : FrozenWord) (v : Word) :
    c.store w v = match w with
      | .revLength => { c with revLength := v }
      | .guardZone => { c with guardZone := v }
      | .maxCorr => { c with maxCorr := v.extractLsb' 0 12 }
      | .backlash => { c with backlash := v.extractLsb' 0 8 }
      | .overspeed => { c with overspeed := if v &&& 0x0FFF = 0 then 1 else v.extractLsb' 0 12 }
      | .indexPos => { c with indexPos := v }
      | .slipCfg => { c with slipTolerance := v.extractLsb' 0 8, indexMonitor := v.getLsbD 15 }
      | .regCfg => { c with
          regEnable := v.getLsbD 0, gainShift := v.extractLsb' 4 2, markSensor := (c.store w v).markSensor }
      | .winOpen => { c with winOpen := v }
      | .markNominal => { c with markNominal := v }
      | .winClose => { c with winClose := v }
      | .ladderCfg => { c with fwa := v.extractLsb' 0 4, ha := v.extractLsb' 4 4 }
      | .sensorCfg => { c with sensorSel := (c.store w v).sensorSel }
      | .leadTime i => { c with leadTime := c.leadTime.set i (if 20000 < v.toNat then 20000 else v) }
      | .protectedLines => { c with protectedLines := v }
      | .criticalLines => { c with criticalLines := v } := by
  cases w with
  | overspeed => simp only [← overspeedField_eq_zero_iff]; rfl
  | _ => rfl

/-- The mark sensor is taken from bits 8 and 9 of REG_CFG (R175). -/
theorem Cfg.store_markSensor (c : Cfg) (v : Word) : (c.store .regCfg v).markSensor.val = v.toNat / 256 % 4 :=
  (markSensor_val v).trans (extractLsb'_toNat_eq v 8 2)

/-- Each sensor's edge selection is taken from its two bits of SENSOR_CFG (R175). -/
theorem Cfg.store_sensorSel (c : Cfg) (v : Word) (i : SensorNo) :
    (c.store .sensorCfg v).sensorSel[i] = match v.toNat / 4 ^ i.val % 4 with
      | 0 => .off
      | 1 => .rising
      | 2 => .falling
      | _ => .both := by
  have field : (v.extractLsb' (2 * i) 2).toNat = v.toNat / 4 ^ i.val % 4 := by
    have base : 2 ^ (2 * i.val) = 4 ^ i.val := Nat.pow_mul 2 2 i.val
    exact (extractLsb'_toNat_eq v (2 * i) 2).trans (congrArg (v.toNat / · % 4) base)
  have stored : (c.store .sensorCfg v).sensorSel[i] = edgeSelOfCode (v.extractLsb' (2 * i) 2) :=
    Vector.getElem_ofFn i.isLt
  rw [stored, ← field]
  rfl

/-! ### The writes -/

/-- The five writes that are taken in CONFIG alone. -/
def frozenWrites (w : FrozenWord) (v : Word) : List Instr :=
  [.frozenWordWrite w v, .encoderCfgWrite v, .timebaseDivWrite v, .acqCfgWrite v, .safeLevelsWrite v]

/-- Outside CONFIG each of them is discarded whole and sets ACCESS_VIOLATION (R172). -/
theorem frozenWrites_outside {w : FrozenWord} {v : Word} (h : s.modc.mode ≠ .config) :
    ∀ c ∈ frozenWrites w v, effectOf c s = s.setAccessViolation := by
  simp only [frozenWrites, List.forall_mem_cons]
  exact ⟨if_pos h, if_pos h, if_pos h, if_pos h, if_pos h, nofun⟩

/-- In CONFIG each of the first four is one update of the state (R17, R30, R120, R172). -/
theorem State.writes_config (w : FrozenWord) (v : Word) (config : s.modc.mode = .config) :
    s.writeFrozen w v = { s with cfg := s.cfg.store w v }
      ∧ s.writeEncoderCfg v = { s with cfg := s.cfg.storeEncoder v, axt.ref := ⟨s.pins.encA, s.pins.encB⟩ }
      ∧ s.writeTimebaseDiv v = { s with cfg.timebaseDiv := v.extractLsb' 0 6 }
      ∧ s.writeAcqCfg v
        = { s with cfg.acqSource := acqSourceOfCode (v.extractLsb' 0 2), revq.lock := lockOfCode (v.extractLsb' 4 2) } :=
  have taken : ¬s.modc.mode ≠ .config := not_not_intro config
  ⟨if_neg taken, if_neg taken, if_neg taken, if_neg taken⟩

/-- ENCODER_CFG reads back the mode, the invert setting and the filter (R175). -/
theorem State.storeEncoder_readTarget (s : State) (v : Word) (ref : EncLevels) :
    { s with cfg := s.cfg.storeEncoder v, axt.ref := ref }.readTarget .encoderCfg = v &&& 0x00F3 := by
  have mode : (encoderModeOfBit (v.getLsbD 0)).code = placeBit (v.getLsbD 0) 0 := by cases v.getLsbD 0 <;> rfl
  have low := wordOf_add_fields (wordOf_placeBit v 0) (wordOf_placeBit v 1) (by decide)
  have fields := wordOf_add_fields low (wordOf_place_field v 4 4) (by decide)
  rw [← mode] at fields
  exact fields

/-- The acquisition source of ACQ_CFG, 3 stored as INDEX (R173, R175). -/
theorem acqSourceOfCode_eq (v : Word) :
    acqSourceOfCode (v.extractLsb' 0 2) = if v &&& 3 = 1 then .mark else if v &&& 3 = 2 then .immediate else .index := by
  have field : v &&& 3 = wordOf (v.extractLsb' 0 2).toNat := (wordOf_lowField v 2).symm
  have codes : ∀ c : BitVec 2, acqSourceOfCode c
      = if wordOf c.toNat = 1 then .mark else if wordOf c.toNat = 2 then .immediate else .index := by decide
  rw [field, codes]

/-- The lock level of ACQ_CFG, 3 stored as 2 (R120, R173). -/
theorem lockOfCode_val (v : Word) : (lockOfCode (v.extractLsb' 4 2)).val = min 2 (v.toNat / 16 % 4) := by
  have codes : ∀ c : BitVec 2, (lockOfCode c).val = min 2 c.toNat := by decide
  exact (codes _).trans (congrArg (min 2) (extractLsb'_toNat_eq v 4 2))

/-- With the interlock OPEN, SAFE_LEVELS moves the lines whose safe level changes to their new level (R69, R76). -/
theorem State.safeLevels_lines (s : State) (v : Word) (i : LineNo) :
    (s.out.claim { s.cfg with safeLevels := v } fun i => v.getLsbD i != s.cfg.safeLevels.getLsbD i).lines[i]
      = if v.getLsbD i = s.cfg.safeLevels.getLsbD i then s.out.lines[i] else if v.getLsbD i then .high else .low := by
  rw [Out.claim_lines]
  by_cases same : v.getLsbD i = s.cfg.safeLevels.getLsbD i
  · simp only [same, bne_self_eq_false, Bool.false_eq_true, if_false, if_true]
  · simp only [same, bne_iff_ne, ne_eq, not_false_eq_true, if_true, if_false]
    rfl

/-- What a write to SAFE_LEVELS does in CONFIG with the interlock OPEN. -/
theorem State.writeSafeLevels_opened {v : Word} (config : s.modc.mode = .config) (h : s.out.interlock = .opened) :
    s.writeSafeLevels v = { s with
      cfg.safeLevels := v
      out := s.out.claim { s.cfg with safeLevels := v } fun i => v.getLsbD i != s.cfg.safeLevels.getLsbD i } := by
  rw [State.writeSafeLevels, if_neg (not_not_intro config)]
  simp only [h]

/-- With the interlock CLOSED it is stored and no line moves. -/
theorem State.writeSafeLevels_closed {v : Word} (config : s.modc.mode = .config) (h : s.out.interlock = .closed) :
    s.writeSafeLevels v = { s with cfg.safeLevels := v } := by
  rw [State.writeSafeLevels, if_neg (not_not_intro config)]
  simp only [h]

/-- Settles O58: outside CONFIG the five writes are refused alike; in CONFIG each is one update of the state, whose fields
the lemmas above give. -/
theorem frozenWordsAreStoredInConfigAlone : Obligations.FrozenWordsAreStoredInConfigAlone := by
  intro s w v held u
  have run (c : Instr) : exec c s = .next (effectOf c s) := exec_live c s held
  refine ⟨fun outside => ?_, fun config => ?_⟩
  · have refused : ∀ c ∈ frozenWrites w v, exec c s = .next u := fun c hc => by
      rw [run, frozenWrites_outside outside c hc]
      rfl
    simpa only [frozenWrites, List.forall_mem_cons, List.not_mem_nil, false_implies, implies_true, and_true] using refused
  · obtain ⟨stored, encoder, divider, acquisition⟩ := s.writes_config w v config
    have levels : exec (.safeLevelsWrite v) s = .next (s.writeSafeLevels v) := run _
    refine ⟨?frozen, ?encoder, (run _).trans (congrArg _ divider), ?acquisition, fun closed => ?closed,
      fun opened => ?opened⟩
    case frozen =>
      refine ⟨_, (run _).trans (congrArg _ stored), s.cfg.store_readFrozen w v,
        s.cfg.store_eq w v, ?_, ?_, fun x other => s.store_readTarget_ne v other,
        State.sameBut_of (fun p => ?_) ⟨rfl, rfl, rfl⟩⟩
      · rintro rfl
        exact s.cfg.store_markSensor v
      · rintro rfl
        exact s.cfg.store_sensorSel v
      · cases p <;> simp [State.agreesOn]
    case encoder =>
      refine ⟨_, (run _).trans (congrArg _ encoder), s.storeEncoder_readTarget v _, ?_, rfl, fun x other => ?_,
        State.sameBut_of (fun p => ?_) ⟨rfl, rfl, rfl⟩⟩
      · show s.cfg.storeEncoder v = _
        unfold Cfg.storeEncoder
        cases v.getLsbD 0 <;> rfl
      · cases x with
        | encoderCfg => exact absurd rfl other
        | _ => rfl
      · cases p <;> simp [State.agreesOn]
    case acquisition =>
      refine ⟨_, (run _).trans (congrArg _ acquisition), rfl, rfl, acqSourceOfCode_eq v, lockOfCode_val v,
        State.sameBut_of (fun p => ?_) ⟨rfl, rfl, rfl⟩⟩
      cases p <;> simp [State.agreesOn]
    case closed => rw [levels, State.writeSafeLevels_closed config closed]
    case opened =>
      rw [levels, State.writeSafeLevels_opened config opened]
      refine ⟨_, rfl, rfl, s.safeLevels_lines v, ?_, ?_, State.sameBut_of (fun p => ?_) ⟨rfl, rfl, rfl⟩⟩
      · simpa using opened
      · simp
      · cases p <;> simp [State.agreesOn]

end Sys2Proof.Machine
end

section
/-! PROOFS. What no command does (R119, R120, R122, R163, R172): no operation moves the two inputs or the lock level, and
outside CONFIG no write moves a frozen word. -/

namespace Sys2Proof.Machine

variable (s : State)

/-- The two inputs and the lock level (R118, R163). -/
def State.steadfast : List Instr × List EncLevels × Fin 3 := (s.pending, s.encInput, s.revq.lock)

/-! ### The operations that several commands share -/

@[simp] theorem State.raise_steadfast (c : Cause) (d : Detail) : (s.raise c d).steadfast = s.steadfast := by
  simp [State.steadfast, State.raise]

/-- The entry into CONFIG leaves the lock level. -/
@[simp] theorem State.enterConfig_lock : s.enterConfig.revq.lock = s.revq.lock := by
  simp [State.enterConfig, State.beginApplication_revq]

@[simp] theorem State.enterConfig_steadfast : s.enterConfig.steadfast = s.steadfast := by
  simp [State.steadfast]

@[simp] theorem State.acquire_steadfast (p : Nat) (b : Bool) : (s.acquire p b).steadfast = s.steadfast := by
  simp [State.steadfast]

@[simp] theorem State.record_steadfast (r : CaptureRecord) : (s.record r).steadfast = s.steadfast := by
  simp [State.steadfast]

@[simp] theorem State.hwmAdvanced_steadfast : s.hwmAdvanced.steadfast = s.steadfast := by
  simp [State.steadfast, State.hwmAdvanced]

@[simp] theorem State.ladderStep_steadfast (a : Stamp) (v : Verdict) : (s.ladderStep a v).steadfast = s.steadfast := by
  unfold State.ladderStep
  generalize s.modc.judge s.cfg v = judged
  obtain ⟨m, move⟩ := judged
  cases move <;> dsimp only
  case marksLost => simp [State.steadfast]
  all_goals split <;> simp [State.steadfast]

@[simp] theorem State.boundary_steadfast : s.boundary.steadfast = s.steadfast := by
  have turned : s.turnOver.steadfast = s.steadfast := by
    simp [State.steadfast, State.turnOver, State.beginApplication_revq]
  rw [State.boundary, State.ladderStep_steadfast, turned]

/-! ### Counts -/

@[simp] theorem State.forward_steadfast : s.forward.steadfast = s.steadfast := by
  have counted (l : EncLevels) : ((s.acceptLevels l).counted 1).steadfast = s.steadfast := by simp [State.steadfast]
  have advances (u : State) : u.advance.steadfast = u.steadfast := by
    unfold State.advance
    dsimp only
    repeat' split
    all_goals first | rfl | exact State.hwmAdvanced_steadfast _ | exact State.boundary_steadfast _
  have acquires (u : State) : u.acquireCount.steadfast = u.steadfast := by
    unfold State.acquireCount
    dsimp only
    split
    · exact State.raise_steadfast _ _ _
    · rfl
  unfold State.forward
  dsimp only
  split <;> simp only [advances, acquires, counted]

@[simp] theorem State.backward_steadfast : s.backward.steadfast = s.steadfast := by
  have counted (l : EncLevels) : ((s.acceptLevels l).counted (-1)).steadfast = s.steadfast := by simp [State.steadfast]
  have retreats (u : State) : u.retreat.steadfast = u.steadfast := by
    unfold State.retreat
    dsimp only
    repeat' split
    all_goals first | rfl | exact State.raise_steadfast _ _ _
  unfold State.backward
  dsimp only
  split <;> simp only [retreats, counted]

@[simp] theorem State.invalidChange_steadfast : s.invalidChange.steadfast = s.steadfast := by
  unfold State.invalidChange
  split
  · rfl
  · dsimp only
    split
    · exact State.raise_steadfast _ _ _
    · rfl

@[simp] theorem State.boundaryCount_steadfast : s.boundaryCount.steadfast = s.steadfast := by
  unfold State.boundaryCount
  split
  · exact s.forward_steadfast
  · rfl

@[simp] theorem State.timeoutCount_steadfast : s.timeoutCount.steadfast = s.steadfast := by
  unfold State.timeoutCount
  split
  · exact s.forward_steadfast
  · rfl

/-! ### The speed window, the index, the sensors and the lines -/

@[simp] theorem State.speedExpires_steadfast : s.speedExpires.steadfast = s.steadfast := by
  have recomputes (u : State) : u.recompute.steadfast = u.steadfast := by
    unfold State.recompute
    split <;> simp [State.steadfast, raiseClamps_keep]
  unfold State.speedExpires
  dsimp only
  rw [recomputes]
  split
  · exact State.raise_steadfast _ _ _
  · rfl

@[simp] theorem State.indexArrives_steadfast : s.indexArrives.steadfast = s.steadfast := by
  have ends : s.endInterval.steadfast = s.steadfast := by
    unfold State.endInterval
    dsimp only
    split
    · exact State.raise_steadfast _ _ _
    · rfl
  unfold State.indexArrives
  repeat' split
  all_goals first | rfl | exact ends | exact s.acquire_steadfast _ _

@[simp] theorem State.edgeArrives_steadfast (n : SensorNo) (d : Edge) : (s.edgeArrives n d).steadfast = s.steadfast := by
  have judged (cls : CaptureClass) : (s.judgeMark cls).steadfast = s.steadfast := by cases cls <;> rfl
  have acquired : (s.acquireByMark n d).steadfast = s.steadfast :=
    (State.record_steadfast _ _).trans (s.acquire_steadfast _ _)
  unfold State.edgeArrives
  repeat' split
  all_goals simp only [State.record_steadfast, judged, acquired]

@[simp] theorem State.interlockOpens_steadfast : s.interlockOpens.steadfast = s.steadfast := by
  have opens : s.opened.steadfast = s.steadfast := by simp [State.steadfast, State.opened]
  cases interlock : s.out.interlock with
  | opened => rw [State.interlockOpens_opened interlock]
  | closed =>
    rw [State.interlockOpens_closed interlock]
    split
    · rw [State.raise_steadfast, opens]
    · exact opens

@[simp] theorem State.pulseExpires_steadfast (i : LineNo) : (s.pulseExpires i).steadfast = s.steadfast := by
  unfold State.pulseExpires
  split <;> rfl

/-! ### The completions at the table port -/

@[simp] theorem State.fetchCompletes_steadfast : s.fetchCompletes.steadfast = s.steadfast := by
  have loads (u : State) (e : Entry) (f : Fetch) : (u.load e f).steadfast = u.steadfast := by
    unfold State.load
    dsimp only
    split <;> simp [State.steadfast]
  have examines (u : State) (e : Option Entry) (f : Fetch) : (u.examine e f).steadfast = u.steadfast := by
    unfold State.examine
    dsimp only
    split
    · split
      · exact loads u _ f
      · rfl
    · rfl
  have requests (u : State) : u.requestFetch.steadfast = u.steadfast := by simp [State.steadfast]
  unfold State.fetchCompletes
  split
  · dsimp only
    rw [requests]
    split
    · exact examines _ _ _
    · rfl
    · rfl
  · rfl

@[simp] theorem State.readbackCompletes_steadfast : s.readbackCompletes.steadfast = s.steadfast := by
  unfold State.readbackCompletes
  split
  · simp [State.steadfast]
  · rfl

@[simp] theorem State.applicationCompletes_steadfast : s.applicationCompletes.steadfast = s.steadfast := by
  unfold State.applicationCompletes
  split
  · simp [State.steadfast]
  · rfl

/-! ### The commands given by a strobe -/

/-- Every command given by a strobe but RAISE_LOCK and SOFT_RESET leaves the inputs and the lock level. -/
theorem State.runCommand_steadfast (c : Command) (h : c ∉ [Command.raiseLock, .softReset]) :
    (s.runCommand c).steadfast = s.steadfast := by
  have answered (u : State) (c : Command) (r : ResultCode) (k : BitVec 3) : (u.answer c r k).steadfast = u.steadfast := rfl
  cases c with
  | raiseLock | softReset => exact absurd (by decide) h
  | start =>
    unfold State.runCommand State.cmdStart
    dsimp only
    repeat' split
    all_goals simp [State.steadfast]
  | stop =>
    unfold State.runCommand State.cmdStop
    dsimp only
    split <;> simp only [answered, State.enterConfig_steadfast] <;> rfl
  | haltNow =>
    unfold State.runCommand State.cmdHaltNow
    dsimp only
    split <;> simp [State.steadfast]
  | clearHalt =>
    unfold State.runCommand State.cmdClearHalt
    dsimp only
    repeat' split
    all_goals simp only [answered, State.enterConfig_steadfast]
  | ackFault =>
    unfold State.runCommand State.cmdAckFault
    dsimp only
    repeat' split
    all_goals rfl
  | popCapture =>
    unfold State.runCommand State.cmdPopCapture
    dsimp only
    split <;> rfl
  | applyManual =>
    unfold State.runCommand State.cmdApplyManual
    dsimp only
    repeat' split
    all_goals simp [State.steadfast]
  | submitInsert | submitRemove | submitModify =>
    unfold State.runCommand State.cmdSubmitInsert State.cmdSubmitRemove State.cmdSubmitModify State.submit
    dsimp only
    repeat' split
    all_goals rfl
  | commit =>
    unfold State.runCommand State.cmdCommit
    dsimp only
    repeat' split
    all_goals simp [State.steadfast, State.beginApplication_revq]
  | readEntry =>
    unfold State.runCommand State.cmdReadEntry
    dsimp only
    repeat' split
    all_goals simp [State.steadfast]
  | clearTable =>
    unfold State.runCommand State.cmdClearTable
    dsimp only
    repeat' split
    all_goals rfl
  | clearCounters | discardOpen => rfl

/-! ### What a command leaves -/

variable {s} {t : State}

/-- From `s` to `t` the two inputs stand; outside CONFIG so does every configuration word but RELOCK_CFG and
MANUAL_LEVELS, and the lock level is not lowered but by a SOFT_RESET (R119, R120, R122, R163, R172). -/
structure State.ConfigurationStands (s t : State) : Prop where
  pending : t.pending = s.pending
  encInput : t.encInput = s.encInput
  cfg : s.modc.mode ≠ .config → t.cfg = { s.cfg with rla := t.cfg.rla, manualLevels := t.cfg.manualLevels }
  lock : s.modc.mode ≠ .config → t.revq.lock < s.revq.lock →
    t.modc.mode = .config ∧ t.revq = Revq.reset s.revq.staging

/-- A change that leaves the inputs and the lock level, and moves at most the two words. -/
theorem State.ConfigurationStands.of_words (steadfast : t.steadfast = s.steadfast)
    (cfg : t.cfg = { s.cfg with rla := t.cfg.rla, manualLevels := t.cfg.manualLevels }) : s.ConfigurationStands t := by
  simp only [State.steadfast, Prod.mk.injEq] at steadfast
  obtain ⟨pending, encInput, lock⟩ := steadfast
  exact ⟨pending, encInput, fun _ => cfg, fun _ lowered => absurd lowered (by rw [lock]; exact Nat.lt_irrefl _)⟩

/-- A change that leaves the whole configuration. -/
theorem State.ConfigurationStands.of_cfg (steadfast : t.steadfast = s.steadfast) (cfg : t.cfg = s.cfg) :
    s.ConfigurationStands t :=
  .of_words steadfast (by rw [cfg])

/-- A write taken in CONFIG alone, and discarded with ACCESS_VIOLATION elsewhere (R172). -/
theorem State.ConfigurationStands.of_frozen (pending : t.pending = s.pending) (encInput : t.encInput = s.encInput) :
    s.ConfigurationStands (if s.modc.mode ≠ .config then s.setAccessViolation else t) := by
  split
  · exact .of_cfg rfl rfl
  · rename_i config
    exact ⟨pending, encInput, fun outside => absurd outside config, fun outside => absurd outside config⟩

/-- RAISE_LOCK leaves the level, or sets one that is not below it (R119). -/
theorem State.cmdRaiseLock_stands (s : State) : s.ConfigurationStands s.cmdRaiseLock := by
  unfold State.cmdRaiseLock
  split
  · split
    · exact .of_cfg rfl rfl
    · rename_i raised
      exact ⟨rfl, rfl, fun _ => rfl, fun _ lowered => absurd (Fin.lt_def.mp lowered) raised⟩
  · exact .of_cfg rfl rfl

/-- SOFT_RESET is refused, or resets the lock level with the revision queue (R122). -/
theorem State.cmdSoftReset_stands (s : State) : s.ConfigurationStands s.cmdSoftReset := by
  unfold State.cmdSoftReset
  split
  · exact .of_cfg rfl rfl
  · exact ⟨rfl, rfl, fun _ => rfl, fun _ _ => ⟨rfl, rfl⟩⟩

theorem State.runCommand_stands (s : State) (c : Command) : s.ConfigurationStands (s.runCommand c) := by
  cases c with
  | raiseLock => exact s.cmdRaiseLock_stands
  | softReset => exact s.cmdSoftReset_stands
  | clearTable =>
    obtain ⟨cfg, -⟩ := s.cmdClearTable_keeps
    exact .of_cfg (s.runCommand_steadfast _ (by decide)) cfg
  | _ => exact .of_cfg (s.runCommand_steadfast _ (by decide)) (s.runCommand_program _ (by decide)).1

theorem State.busWrite_stands (s : State) (w : WriteTarget) (v : Word) : s.ConfigurationStands (s.busWrite w v) := by
  cases w with
  | strobe r =>
    unfold State.busWrite State.writeStrobe
    dsimp only
    split
    · exact .of_cfg rfl rfl
    · exact s.runCommand_stands _
    · exact .of_cfg rfl rfl
  | frozen | encoderCfg | timebaseDiv | acqCfg => exact .of_frozen rfl rfl
  | safeLevels => refine .of_frozen ?_ ?_ <;> split <;> rfl
  | manualLevels | relockCfg => exact .of_words rfl rfl
  | _ => exact .of_cfg rfl rfl

/-- Every command that is no reset leaves the inputs, and outside CONFIG the configuration and the lock level. -/
theorem effectOf_stands (c : Instr) (s : State) (h : isHardReset c = false) :
    s.ConfigurationStands (effectOf c s) := by
  cases c with
  | powerOn | resetPin | resetPinHeld => cases h
  | applicationCompletion =>
    obtain ⟨cfg, -⟩ := s.applicationCompletes_keeps
    exact .of_cfg s.applicationCompletes_steadfast cfg
  | start | stop | haltNow | clearHalt | softReset | ackFault | popCapture | applyManual | clearCounters | submitInsert
  | submitRemove | submitModify | commit | discardOpen | readEntry | clearTable | raiseLock =>
    unfold effectOf
    exact s.runCommand_stands _
  | invalidCommandWrite | intFlagsWrite | intEnableWrite | stickyStatusWrite | frozenWordWrite | encoderCfgWrite
  | timebaseDivWrite | acqCfgWrite | safeLevelsWrite | registerWrite =>
    unfold effectOf
    exact s.busWrite_stands _ _
  | interlockClosing | positionRead | commitResultRead | faultCauseRead => exact .of_cfg rfl rfl
  | _ => exact .of_cfg (by simp [effectOf]) (by simp [effectOf])

/-- The three resets leave the inputs, which are not the part's. -/
theorem effectOf_hardReset_inputs (c : Instr) (s : State) (h : isHardReset c = true) :
    (effectOf c s).pending = s.pending ∧ (effectOf c s).encInput = s.encInput := by
  cases c with
  | powerOn | resetPin | resetPinHeld => exact ⟨rfl, rfl⟩
  | _ => cases h

/-- Settles O3: a reset leaves the inputs, any other command leaves them with the configuration and the lock level, and
with the RESET pin held nothing moves. -/
theorem outsideConfigTheConfigurationStands : Obligations.OutsideConfigTheConfigurationStands := by
  intro c s
  cases hard : isHardReset c with
  | true =>
    obtain ⟨pending, encInput⟩ := effectOf_hardReset_inputs c s hard
    exact ⟨_, exec_hardReset c s hard, pending, encInput, nofun⟩
  | false =>
    have stands : ∃ t, exec c s = .next t ∧ s.ConfigurationStands t := by
      cases held : s.resetHeld with
      | false => exact ⟨_, exec_live c s held, effectOf_stands c s hard⟩
      | true => exact ⟨s, by rw [exec_eq_taken c s hard, State.taken_held _ held], .of_cfg rfl rfl⟩
    obtain ⟨t, run, kept⟩ := stands
    exact ⟨t, run, kept.pending, kept.encInput, fun _ outside => ⟨kept.cfg outside, kept.lock outside⟩⟩

end Sys2Proof.Machine
end

section
/-! PROOFS. What a step does with a command at the front of the queue: the case that stands beside `step_clock`. -/

namespace Sys2Proof.Machine

/-- A command at the front of the queue leaves the queue before it runs: the command itself sees the rest alone (log 9). -/
theorem step_front {s : State} {c : Instr} {rest : List Instr} (front : s.pending = c :: rest) :
    step s = exec c { s with pending := rest } := by
  rw [step, front]

/-- Settles O1: `step_front` at a state whose queue is written out; the second write of the queue replaces the first. -/
theorem stepRunsTheCommandAtTheFront : Obligations.StepRunsTheCommandAtTheFront := by
  intro c rest s
  have front : ({ s with pending := c :: rest } : State).pending = c :: rest := rfl
  exact step_front front

end Sys2Proof.Machine
end
